-- ==== Sys2Proof/Word.lean ====
section
/-! DEFINITION. The widths the spec fixes (00_scope.md R21): bytes, words of the data bus, byte
addresses, address lines, function codes, interrupt levels. -/

namespace Sys2Proof

/-- One byte lane, one vector number, one PI/T register (R21). -/
abbrev Byte := BitVec 8

/-- The sixteen data lines D15-D0 (R11). -/
abbrev Half := BitVec 16

/-- A byte address of `ADDR_HI + 1 = 24` bits (R10, R21). -/
abbrev Addr := BitVec 24

/-- The address lines A23-A1 (R10, R72). -/
abbrev Lines := BitVec 23

/-- A function code FC2-FC0 (R21). -/
abbrev Fc := BitVec 3

/-- An interrupt level, or the three pins that carry it (R21, R281). -/
abbrev Level := BitVec 3

/-- The 7-bit cycle identification word `{m, FC2, FC1, FC0, rw, u, l}` (R110). -/
abbrev Ciw := BitVec 7

end Sys2Proof
end

