-- ==== Sys2Proof/Config.lean ====
section
/-! DEFINITION. What an implementation fixes: the constants and parameters of 00_scope.md R10 to R17
(collected in 92_eei_decisions.md, "Parameters in one list") and the free values of the spec. -/

namespace Sys2Proof

/-! ## Constants fixed by the spec -/

/-- `ADDR_HI` (R10), PRESUMED with the spec (log 5). -/
def Config.addrHi : Nat := 23

/-- `DATA_HI` (R11). -/
def Config.dataHi : Nat := 15

/-- `E_LOW`: CLK cycles E stays low (R13). -/
def Config.eLow : Nat := 6

/-- `E_HIGH`: CLK cycles E stays high (R13). -/
def Config.eHigh : Nat := 4

/-- `SYNC_MARGIN`: CLK cycles that must remain before E rises (R14). -/
def Config.syncMargin : Nat := 2

/-- `AUTOVEC_BASE` (R15). -/
def Config.autovecBase : Byte := 0x18

/-- Function code 111, CPU space (R70). -/
def Config.cpuSpace : Fc := 7

/-- `E_PHASE0`: the spec draws it from 0..9 (R52); DESIGN CHOICE 0, unsafe (log 8). -/
def Config.ephase0 : Fin 10 := 0

/-! ## Parameters the model takes as arguments -/

/-- `DATA_BUS` (R12). -/
inductive DataBus where
  | d16
  | d8
  deriving DecidableEq, Repr

/-- `ARB_WIRES` (R17, R260). -/
inductive ArbWires where
  | three
  | two
  deriving DecidableEq, Repr

/-- `PIT_FIELDS` (R17, 60_exceptions.md section 6). -/
inductive PitFields where
  | literal
  | datasheet
  deriving DecidableEq, Repr

/-- `FC_MAP` as far as the plain memory device sees it (R71, R90): one array of bytes shared by the
codes other than 111, or one array a code. -/
inductive FcMap where
  | shared
  | perCode
  deriving DecidableEq, Repr

/-- `ALU_MODIFY`, a total function of the byte read alone (R190), as plain data: `orMask m` is
`x OR m` (TAS is `orMask $80`), and `table` lists the value for every byte, so every function of a
byte has a table. A table that is too short gives 0 beyond its end. -/
inductive AluModify where
  | orMask (m : Byte)
  | table (values : List Byte)
  deriving DecidableEq, Repr

/-- Which data lane the PI/T's data port is wired to (R300). -/
inductive Lane where
  | upper
  | lower
  deriving DecidableEq, Repr

/-- `PIT_BASE` and `PIT_RS_LINES` (R300): the base byte address, the address line that drives each
register select bit, most significant first, and the lane of the data port. -/
structure PitWiring where
  base    : Addr
  rsLines : List Nat
  lane    : Lane
  deriving DecidableEq, Repr

/-- Who answers the acknowledge cycle of a level where no answer is scripted (R219, R336). -/
inductive Responder where
  /-- No device answers: the cycle waits for ever (R223). -/
  | nobody
  /-- VPA: the autovector (R216). -/
  | autovector
  /-- AVEC, recognised only when `HAS_AVEC` (R218). -/
  | avec
  /-- The PI/T with its Port Interrupt Vector Register (R219, R307). -/
  | pitPort
  /-- The PI/T with its Timer Interrupt Vector Register (R219, R317). -/
  | pitTimer
  /-- A device that supplies this vector number (R215). -/
  | vector (n : Byte)
  deriving DecidableEq, Repr

/-- The parameters of one machine. No step changes them. -/
structure Params where
  dataBus    : DataBus
  /-- `HAS_AVEC` (R16). -/
  hasAvec    : Bool
  arbWires   : ArbWires
  pitFields  : PitFields
  fcMap      : FcMap
  alu        : AluModify
  /-- `IACK_BERR_VECTOR` (R222): a vector number, or `none` for `fault`. -/
  iackBerr   : Option Byte
  /-- Where the PI/T sits, if there is one (R300). -/
  pit        : Option PitWiring
  /-- The `w` of the plain memory device `Mem(w)` (R90). -/
  memWaits   : Nat
  /-- The responder of each level, by level; a missing entry is `nobody`. -/
  responders : List Responder
  deriving DecidableEq, Repr

/-- The wiring 60_exceptions.md R300 calls usual, at the base of test program P3. PRESUMED with the
spec's marked passage, a choice of log 12. -/
def PitWiring.usual : PitWiring :=
  { base := 0x00E000, rsLines := [5, 4, 3, 2, 1], lane := .lower }

/-- The spec's defaults, and instances for its open parameters (log 12). -/
def Params.default : Params :=
  { dataBus    := .d16
    hasAvec    := false
    arbWires   := .three
    pitFields  := .datasheet
    fcMap      := .perCode
    alu        := .orMask 0x80
    iackBerr   := some 0x18
    pit        := some PitWiring.usual
    memWaits   := 0
    responders := List.replicate 8 .pitPort }

/-! ## Free values -/

/-- The n-th unspecified byte: a lane nobody drives, an unselected lane of a byte write, a byte of
memory never written, an undetermined register after RESET (93 U2, U5, U6, U9, U13; log 11). -/
opaque Config.freeByte : Nat → Byte

/-- The n-th draw between the old and the new content of a location whose write was ended by BERR
(R171, R198; log 11): `true` is the new one. -/
opaque Config.freeChoice : Nat → Bool

end Sys2Proof
end

