-- ==== Sys2Proof/Syntax.lean ====
section
/-! DEFINITION. The syntax: one constructor for each row of spec/opcode_table.json, and the spec's
transaction notation (30_encoding.md R115) from which the rows are resolved. -/

namespace Sys2Proof

/-- A bus cycle (30_encoding.md R111). `addr` is the byte address of the transaction, bit 0
included. -/
inductive Instr where
  /-- IACK: interrupt acknowledge (R210). -/
  | iack (level : Level)
  /-- RD.W: word read (R130). -/
  | rdW (fc : Fc) (addr : Addr)
  /-- RD.BU: byte read, upper lane (R130). -/
  | rdBU (fc : Fc) (addr : Addr)
  /-- RD.BL: byte read, lower lane (R130). -/
  | rdBL (fc : Fc) (addr : Addr)
  /-- WR.W: word write (R160). -/
  | wrW (fc : Fc) (addr : Addr) (v16 : Half)
  /-- WR.BU: byte write, upper lane (R160). -/
  | wrBU (fc : Fc) (addr : Addr) (v8 : Byte)
  /-- WR.BL: byte write, lower lane (R160). -/
  | wrBL (fc : Fc) (addr : Addr) (v8 : Byte)
  /-- RMW.BU: read-modify-write of a byte, upper lane (R180). -/
  | rmwBU (fc : Fc) (addr : Addr)
  /-- RMW.BL: read-modify-write of a byte, lower lane (R180). -/
  | rmwBL (fc : Fc) (addr : Addr)
  /-- RD.B8: byte read under DS (R130). -/
  | rdB8 (fc : Fc) (addr : Addr)
  /-- WR.B8: byte write under DS (R160). -/
  | wrB8 (fc : Fc) (addr : Addr) (v8 : Byte)
  /-- RMW.B8: read-modify-write of a byte under DS (R180). -/
  | rmwB8 (fc : Fc) (addr : Addr)
  deriving DecidableEq, Repr

/-- A transaction in the notation of R115, less IDLE, which is no bus cycle. -/
inductive Txn where
  | rdB (fc : Fc) (addr : Addr)
  | rdW (fc : Fc) (addr : Addr)
  | wrB (fc : Fc) (addr : Addr) (v8 : Byte)
  | wrW (fc : Fc) (addr : Addr) (v16 : Half)
  | rmwB (fc : Fc) (addr : Addr)
  | iack (level : Level)
  deriving DecidableEq, Repr

end Sys2Proof
end

