-- ==== Sys2Proof/WellFormed.lean ====
section
/-! DEFINITION. Which bus cycles the model runs: the requests of 30_encoding.md R120 are named and
refused. -/

namespace Sys2Proof

/-- Why a request is refused before any state is entered (R120). -/
inductive Illegal where
  /-- A read, write or read-modify-write with FC2-FC0 = 111 (R73, R120). -/
  | cpuSpace
  /-- A word at an odd byte address (R78, R120). -/
  | oddWord
  /-- A byte request whose lane is not the one of its address (R75, R111): upper is even, lower is
  odd. -/
  | wrongLane
  /-- `IACK 0` (R116, R120). -/
  | levelZero
  /-- A row of the other data bus mode (R12, R105, R111). -/
  | wrongDataBus
  deriving DecidableEq, Repr

/-- Bit 0 of a byte address, which the strobes express (R72, R75). -/
def Addr.isOdd (a : Addr) : Bool := a.getLsbD 0

/-- The checks shared by the requests that carry a function code, an address and a fixed mode. -/
def Illegal.ofRequest (bus wants : DataBus) (fc : Fc) (laneBad : Option Illegal) : Option Illegal :=
  if bus ≠ wants then some .wrongDataBus
  else if fc = Config.cpuSpace then some .cpuSpace
  else laneBad

/-- The first check of R120 that `i` fails on a machine with this data bus, or none. -/
def Instr.illegal (bus : DataBus) : Instr → Option Illegal
  | .iack level   => if level = 0 then some .levelZero else none
  | .rdW fc addr  => Illegal.ofRequest bus .d16 fc (if Addr.isOdd addr then some .oddWord else none)
  | .rdBU fc addr => Illegal.ofRequest bus .d16 fc (if Addr.isOdd addr then some .wrongLane else none)
  | .rdBL fc addr => Illegal.ofRequest bus .d16 fc (if Addr.isOdd addr then none else some .wrongLane)
  | .wrW fc addr _  => Illegal.ofRequest bus .d16 fc (if Addr.isOdd addr then some .oddWord else none)
  | .wrBU fc addr _ => Illegal.ofRequest bus .d16 fc (if Addr.isOdd addr then some .wrongLane else none)
  | .wrBL fc addr _ => Illegal.ofRequest bus .d16 fc (if Addr.isOdd addr then none else some .wrongLane)
  | .rmwBU fc addr  => Illegal.ofRequest bus .d16 fc (if Addr.isOdd addr then some .wrongLane else none)
  | .rmwBL fc addr  => Illegal.ofRequest bus .d16 fc (if Addr.isOdd addr then none else some .wrongLane)
  | .rdB8 fc _      => Illegal.ofRequest bus .d8 fc none
  | .wrB8 fc _ _    => Illegal.ofRequest bus .d8 fc none
  | .rmwB8 fc _     => Illegal.ofRequest bus .d8 fc none

/-- `i` is a bus cycle a machine with this data bus runs. -/
def Instr.wf (bus : DataBus) (i : Instr) : Bool := i.illegal bus = none

/-- R115: `RD.B` with an even address is RD.BU, with an odd one RD.BL, and so on; with
`DATA_BUS = 8` it is the row for DS (R111). `IACK` is unchanged. A word on an 8-bit bus has no row
(R12). -/
def Txn.resolve : DataBus → Txn → Except Illegal Instr
  | .d16, .rdB fc a    => .ok (if Addr.isOdd a then .rdBL fc a else .rdBU fc a)
  | .d16, .rdW fc a    => .ok (.rdW fc a)
  | .d16, .wrB fc a v  => .ok (if Addr.isOdd a then .wrBL fc a v else .wrBU fc a v)
  | .d16, .wrW fc a v  => .ok (.wrW fc a v)
  | .d16, .rmwB fc a   => .ok (if Addr.isOdd a then .rmwBL fc a else .rmwBU fc a)
  | .d16, .iack lv     => .ok (.iack lv)
  | .d8,  .rdB fc a    => .ok (.rdB8 fc a)
  | .d8,  .wrB fc a v  => .ok (.wrB8 fc a v)
  | .d8,  .rmwB fc a   => .ok (.rmwB8 fc a)
  | .d8,  .iack lv     => .ok (.iack lv)
  | .d8,  .rdW _ _     => .error .wrongDataBus
  | .d8,  .wrW _ _ _   => .error .wrongDataBus

end Sys2Proof
end

