-- ==== Sys2Proof/Decode.lean ====
section
/-! DEFINITION. Bytes to bus cycles and back. The first byte of an instruction is its cycle
identification word (30_encoding.md R110, R111); the operands of R115, to which the spec gives no
bits, follow in bytes of the model's own (log 2, log 3):

  IACK     CIW, level byte (the three pins IPL2-IPL0 in bits 2-0, active low: level 7 is 0)
  RD, RMW  CIW, three address bytes (byte address, high byte first; on a 16-bit bus bit 0 is 0,
           since the strobes express it)
  WR byte  CIW, three address bytes, data byte
  WR.W     CIW, three address bytes, two data bytes (high byte first)
-/

namespace Sys2Proof

/-- Why bytes are no instruction, by name (R120 and the operand layout of log 2). -/
inductive Undecodable where
  /-- The bytes end before the instruction does. -/
  | truncated
  /-- Bit 7 of the first byte is set: no 7-bit CIW. -/
  | notACiw
  /-- `x xxx x 0 0`: no data strobe (R120). -/
  | noStrobe
  /-- `0 111 1 1 0` or `0 111 1 0 1`: byte read in CPU space (R120). -/
  | cpuSpaceByteRead
  /-- `0 111 0 x x`: write in CPU space (R120). -/
  | cpuSpaceWrite
  /-- `1 111 x x x`: read-modify-write in CPU space (R120). -/
  | cpuSpaceRmw
  /-- `1 fff 1 1 1` on a 16-bit bus: word read-modify-write (R120). -/
  | wordRmw
  /-- `1 xxx 0 x x`: read-modify-write whose first portion is a write (R120). -/
  | rmwWriteFirst
  /-- `u` and `l` differ on an 8-bit bus, where both are DS (R111). -/
  | splitDs
  /-- `IACK 0` (R116, R120). -/
  | levelZero
  /-- An operand byte holds a bit that no operand uses. -/
  | operandBits
  /-- The address operand has bit 0 set on a 16-bit bus: a word at an odd address (R78, R120), or a
  byte whose lane the CIW already gives. -/
  | addressBitZero
  deriving DecidableEq, Repr

/-- The row of R111 that a CIW selects, less its operands. -/
inductive Row where
  | iack
  | rdW (fc : Fc)
  | rdBU (fc : Fc)
  | rdBL (fc : Fc)
  | wrW (fc : Fc)
  | wrBU (fc : Fc)
  | wrBL (fc : Fc)
  | rmwBU (fc : Fc)
  | rmwBL (fc : Fc)
  | rdB8 (fc : Fc)
  | wrB8 (fc : Fc)
  | rmwB8 (fc : Fc)
  deriving DecidableEq, Repr

/-- The fields of a CIW (R110). -/
def ciwM (c : Ciw) : Bool := c.getLsbD 6
def ciwFc (c : Ciw) : Fc := c.extractLsb' 3 3
def ciwRw (c : Ciw) : Bool := c.getLsbD 2
def ciwU (c : Ciw) : Bool := c.getLsbD 1
def ciwL (c : Ciw) : Bool := c.getLsbD 0

/-- The CIW with these fields (R110). -/
def ciwOf (m : Bool) (fc : Fc) (rw u l : Bool) : Ciw :=
  BitVec.ofBool m ++ fc ++ BitVec.ofBool rw ++ BitVec.ofBool u ++ BitVec.ofBool l

/-- R111 and R120: the row a CIW selects on a machine with this data bus. -/
def rowOf (bus : DataBus) (c : Ciw) : Except Undecodable Row :=
  let fc := ciwFc c
  if !(ciwU c || ciwL c) then .error .noStrobe
  else if ciwM c && !ciwRw c then .error .rmwWriteFirst
  else if ciwM c && fc = Config.cpuSpace then .error .cpuSpaceRmw
  else if fc = Config.cpuSpace && !ciwRw c then .error .cpuSpaceWrite
  else if fc = Config.cpuSpace && !(ciwU c && ciwL c) then .error .cpuSpaceByteRead
  else if fc = Config.cpuSpace then .ok .iack
  else
    match bus, ciwM c, ciwRw c, ciwU c, ciwL c with
    | .d16, true,  _, true,  true  => .error .wordRmw
    | .d16, true,  _, true,  false => .ok (.rmwBU fc)
    | .d16, true,  _, false, _     => .ok (.rmwBL fc)
    | .d16, false, true,  true,  true  => .ok (.rdW fc)
    | .d16, false, true,  true,  false => .ok (.rdBU fc)
    | .d16, false, true,  false, _     => .ok (.rdBL fc)
    | .d16, false, false, true,  true  => .ok (.wrW fc)
    | .d16, false, false, true,  false => .ok (.wrBU fc)
    | .d16, false, false, false, _     => .ok (.wrBL fc)
    | .d8,  true,  _,     true,  true  => .ok (.rmwB8 fc)
    | .d8,  false, true,  true,  true  => .ok (.rdB8 fc)
    | .d8,  false, false, true,  true  => .ok (.wrB8 fc)
    | .d8,  _,     _,     _,     _     => .error .splitDs

/-- The CIW of a row (R111). -/
def Row.ciw : Row → Ciw
  | .iack     => ciwOf false Config.cpuSpace true true true
  | .rdW fc   => ciwOf false fc true true true
  | .rdBU fc  => ciwOf false fc true true false
  | .rdBL fc  => ciwOf false fc true false true
  | .wrW fc   => ciwOf false fc false true true
  | .wrBU fc  => ciwOf false fc false true false
  | .wrBL fc  => ciwOf false fc false false true
  | .rmwBU fc => ciwOf true fc true true false
  | .rmwBL fc => ciwOf true fc true false true
  | .rdB8 fc  => ciwOf false fc true true true
  | .wrB8 fc  => ciwOf false fc false true true
  | .rmwB8 fc => ciwOf true fc true true true

/-! ## Operand bytes -/

/-- The byte address in three bytes, high byte first. -/
def addrOfBytes (a b c : Byte) : Addr := a ++ b ++ c

/-- The address operand: on a 16-bit bus bit 0 comes from the lane (R72, R75), on an 8-bit bus from
the operand. -/
def decodeAddr (bus : DataBus) (oddLane : Bool) (a b c : Byte) : Except Undecodable Addr :=
  match bus with
  | .d8 => .ok (addrOfBytes a b c)
  | .d16 =>
    if c.getLsbD 0 then .error .addressBitZero
    else .ok (addrOfBytes a b c ||| (if oddLane then 1 else 0))

/-- The three bytes of the address operand. -/
def encodeAddr (bus : DataBus) (a : Addr) : List Byte :=
  let field : Addr := match bus with
    | .d8 => a
    | .d16 => a &&& 0xFFFFFE
  [field.extractLsb' 16 8, field.extractLsb' 8 8, field.extractLsb' 0 8]

/-- A level from its pins: the bitwise complement (R281). -/
def levelOfPins (pins : Level) : Level := ~~~pins

/-- The pins of a level (R281). -/
def pinsOfLevel (level : Level) : Level := ~~~level

/-- Reads an address operand and goes on with the rest of the bytes. -/
def withAddr (bus : DataBus) (oddLane : Bool) (bytes : List Byte)
    (k : Addr → List Byte → Except Undecodable (Instr × List Byte)) :
    Except Undecodable (Instr × List Byte) :=
  match bytes with
  | a :: b :: c :: rest =>
    match decodeAddr bus oddLane a b c with
    | .ok addr => k addr rest
    | .error e => .error e
  | _ => .error .truncated

/-- Reads one data byte. -/
def withByte (bytes : List Byte) (k : Byte → Instr) : Except Undecodable (Instr × List Byte) :=
  match bytes with
  | v :: rest => .ok (k v, rest)
  | [] => .error .truncated

/-- Reads two data bytes, high byte first. -/
def withHalf (bytes : List Byte) (k : Half → Instr) : Except Undecodable (Instr × List Byte) :=
  match bytes with
  | h :: l :: rest => .ok (k (h ++ l), rest)
  | _ => .error .truncated

/-- Reads the level byte of IACK. -/
def withLevel (bytes : List Byte) : Except Undecodable (Instr × List Byte) :=
  match bytes with
  | p :: rest =>
    if p.extractLsb' 3 5 ≠ 0 then .error .operandBits
    else
      let level := levelOfPins (p.extractLsb' 0 3)
      if level = 0 then .error .levelZero else .ok (.iack level, rest)
  | [] => .error .truncated

/-- The operands of a row, from the bytes after its CIW. -/
def decodeOperands (row : Row) (bytes : List Byte) : Except Undecodable (Instr × List Byte) :=
  match row with
  | .iack     => withLevel bytes
  | .rdW fc   => withAddr .d16 false bytes fun a rest => .ok (.rdW fc a, rest)
  | .rdBU fc  => withAddr .d16 false bytes fun a rest => .ok (.rdBU fc a, rest)
  | .rdBL fc  => withAddr .d16 true bytes fun a rest => .ok (.rdBL fc a, rest)
  | .wrW fc   => withAddr .d16 false bytes fun a rest => withHalf rest (.wrW fc a)
  | .wrBU fc  => withAddr .d16 false bytes fun a rest => withByte rest (.wrBU fc a)
  | .wrBL fc  => withAddr .d16 true bytes fun a rest => withByte rest (.wrBL fc a)
  | .rmwBU fc => withAddr .d16 false bytes fun a rest => .ok (.rmwBU fc a, rest)
  | .rmwBL fc => withAddr .d16 true bytes fun a rest => .ok (.rmwBL fc a, rest)
  | .rdB8 fc  => withAddr .d8 false bytes fun a rest => .ok (.rdB8 fc a, rest)
  | .wrB8 fc  => withAddr .d8 false bytes fun a rest => withByte rest (.wrB8 fc a)
  | .rmwB8 fc => withAddr .d8 false bytes fun a rest => .ok (.rmwB8 fc a, rest)

/-- The instruction at the head of the bytes and the bytes after it. R105: `DATA_BUS` changes
decoding. -/
def decode (bus : DataBus) (bytes : List Byte) : Except Undecodable (Instr × List Byte) :=
  match bytes with
  | [] => .error .truncated
  | w :: rest =>
    if w.getLsbD 7 then .error .notACiw
    else
      match rowOf bus (w.extractLsb' 0 7) with
      | .error e => .error e
      | .ok row => decodeOperands row rest

/-! ## The encoder -/

/-- The CIW as the first byte of an instruction. -/
def ciwByte (c : Ciw) : Byte := c.zeroExtend 8

/-- The row of an instruction. -/
def Instr.row : Instr → Row
  | .iack _      => .iack
  | .rdW fc _    => .rdW fc
  | .rdBU fc _   => .rdBU fc
  | .rdBL fc _   => .rdBL fc
  | .wrW fc _ _  => .wrW fc
  | .wrBU fc _ _ => .wrBU fc
  | .wrBL fc _ _ => .wrBL fc
  | .rmwBU fc _  => .rmwBU fc
  | .rmwBL fc _  => .rmwBL fc
  | .rdB8 fc _   => .rdB8 fc
  | .wrB8 fc _ _ => .wrB8 fc
  | .rmwB8 fc _  => .rmwB8 fc

/-- The operand bytes of an instruction. -/
def Instr.operandBytes : Instr → List Byte
  | .iack level  => [(pinsOfLevel level).zeroExtend 8]
  | .rdW _ a     => encodeAddr .d16 a
  | .rdBU _ a    => encodeAddr .d16 a
  | .rdBL _ a    => encodeAddr .d16 a
  | .wrW _ a v   => encodeAddr .d16 a ++ [v.extractLsb' 8 8, v.extractLsb' 0 8]
  | .wrBU _ a v  => encodeAddr .d16 a ++ [v]
  | .wrBL _ a v  => encodeAddr .d16 a ++ [v]
  | .rmwBU _ a   => encodeAddr .d16 a
  | .rmwBL _ a   => encodeAddr .d16 a
  | .rdB8 _ a    => encodeAddr .d8 a
  | .wrB8 _ a v  => encodeAddr .d8 a ++ [v]
  | .rmwB8 _ a   => encodeAddr .d8 a

/-- The bytes of an instruction. -/
def encode (i : Instr) : List Byte := ciwByte i.row.ciw :: i.operandBytes

/-! ## The opcode table's words -/

/-- The longest instruction, WR.W, has six bytes. -/
def maxInstrBytes : Nat := 6

/-- The bytes of a table word, bit 0 the least significant bit of the first byte, with zeros above
`nbits` up to the longest instruction. -/
def tableBytes (nbits w : Nat) : List Byte :=
  let v := w % 2 ^ nbits
  [BitVec.ofNat 8 v, BitVec.ofNat 8 (v / 2 ^ 8), BitVec.ofNat 8 (v / 2 ^ 16),
   BitVec.ofNat 8 (v / 2 ^ 24), BitVec.ofNat 8 (v / 2 ^ 32), BitVec.ofNat 8 (v / 2 ^ 40)]

/-- The data bus mode in which a table word is read: 16 bits where the word is an instruction there,
else 8 bits. The table gives RD.W and RD.B8 (and WR.W and WR.B8) one and the same word, told apart
by the mode alone (R105, R111; log 4). -/
def tableMode (nbits w : Nat) : DataBus :=
  match decode .d16 (tableBytes nbits w) with
  | .ok _ => .d16
  | .error _ => .d8

/-- The instruction the decoder reads from a table word. -/
def decodeTableWord (nbits w : Nat) : Option Instr :=
  match decode (tableMode nbits w) (tableBytes nbits w) with
  | .ok (i, _) => some i
  | .error _ => none

end Sys2Proof
end

