-- ==== Sys2Proof/Machine/State.lean ====
section
/-! DEFINITION. The state of the machine (10_state.md, 60_exceptions.md section 6) as plain data, the
reasons a step can stop, and the state after reset (10_state.md R60 to R62). -/

namespace Sys2Proof.Machine

/-! ## Signals (10_state.md R19, R32) -/

/-- A control line the bus master drives, or `z` when nobody does (R19). -/
inductive Line where
  | asserted
  | negated
  | z
  deriving DecidableEq, Repr

/-- R/W: high is read, low is write (R19, R32). -/
inductive RwLine where
  | high
  | low
  | z
  deriving DecidableEq, Repr

/-- The level of CLK (R19, R20). -/
inductive Clk where
  | high
  | low
  deriving DecidableEq, Repr

/-- The two byte lanes of the data bus (20_memory.md R75): `hi` is D15-D8, `lo` is D7-D0, each a
value or `none` for Z. -/
structure DataLines where
  hi : Option Byte
  lo : Option Byte
  deriving DecidableEq, Repr

/-- A data bus nobody drives. -/
def DataLines.z : DataLines := { hi := none, lo := none }

/-- The lines the master of the bus drives, with VMA, BG and the data bus. -/
structure Pins where
  /-- FC2-FC0 (R33). -/
  fc       : Option Fc
  /-- A23-A1 (R34). -/
  addr     : Option Lines
  /-- AS (R35). -/
  strobeAS : Line
  /-- UDS (R36). -/
  uds      : Line
  /-- LDS (R36). -/
  lds      : Line
  /-- DS, used only with `DATA_BUS = 8` (R12, R36). -/
  ds       : Line
  /-- R/W, the `rw_pin` of R44 (R37). -/
  rw       : RwLine
  /-- D15-D0 (R38). -/
  data     : DataLines
  /-- VMA (R53). -/
  vma      : Line
  /-- BG (R54). -/
  bg       : Line
  deriving DecidableEq, Repr

/-- The input lines; `true` is asserted (R32, R39). -/
structure Inputs where
  dtack    : Bool
  berr     : Bool
  vpa      : Bool
  /-- AVEC, used only when `HAS_AVEC` (R16, R32). -/
  avec     : Bool
  br       : Bool
  /-- The acknowledge of bus arbitration (45_bus_arbitration.md R251). -/
  bgack    : Bool
  /-- The pins IPL2-IPL0, active low: 111 is no request (R32, R281). -/
  ipl      : Level
  /-- RESET of the PI/T (R32). -/
  pitReset : Bool
  /-- The eight pins of the PI/T's port A (60_exceptions.md R312). -/
  portA    : Byte
  /-- The eight pins of the PI/T's port B (60_exceptions.md R313). -/
  portB    : Byte
  deriving DecidableEq, Repr

/-! ## The environment's script (30_encoding.md R117) -/

/-- What a device puts on the termination lines, and on the data lanes, at one sampling edge. -/
structure Drive where
  dtack : Bool
  berr  : Bool
  vpa   : Bool
  avec  : Bool
  /-- Scripted read data; `none` leaves it to the device at the address. -/
  data  : Option Half
  deriving DecidableEq, Repr

/-- A device that drives nothing. -/
def Drive.quiet : Drive :=
  { dtack := false, berr := false, vpa := false, avec := false, data := none }

/-- `resp` of R117, the device at the address, and the sampling edges one by one, which admits every
input R47 admits. -/
inductive Shape where
  /-- The device at the address answers: the plain memory device, the PI/T, or the responder of the
  acknowledged level. -/
  | resident
  | dtack (w : Nat) (data : Option Half)
  | berr (w : Nat)
  | berrDtack (w : Nat) (data : Option Half)
  | lateBerr (w : Nat) (data : Option Half)
  | vpa (w : Nat)
  | never
  /-- What is sampled at the first, second, ... sampling edge of the portion, line by line; nothing
  after. A line may be withdrawn again (R47, decision D7). -/
  | edges (drives : List Drive)
  deriving DecidableEq, Repr

/-- A device's answer to a cycle, or to one portion of a read-modify-write cycle. -/
structure Answer where
  shape     : Shape
  /-- The device does not negate its termination in the last state
  (70_reset_and_hazards.md R344). -/
  stale     : Bool
  /-- The device does not stop driving the data bus (70_reset_and_hazards.md R347). -/
  holdsData : Bool
  deriving DecidableEq, Repr

/-- An answer that keeps the device obligations of R141. -/
def Answer.of (shape : Shape) : Answer := { shape := shape, stale := false, holdsData := false }

/-- An event of R117 (`BR+`, `BR-`, `ACK+`, `ACK-`, `IPL=n`), of the PI/T's RESET line or of its
port pins. -/
inductive Event where
  | brPlus
  | brMinus
  | ackPlus
  | ackMinus
  | ipl (level : Level)
  | pitReset (asserted : Bool)
  | portA (pins : Byte)
  | portB (pins : Byte)
  deriving DecidableEq, Repr

/-- An item of a program: encoded transactions, or IDLE n (30_encoding.md R115). -/
inductive Item where
  | code (bytes : List Byte)
  | idle (n : Nat)
  deriving DecidableEq, Repr

/-! ## The bus controller (10_state.md R41 to R45) -/

/-- The kind of a bus cycle (R41). -/
inductive Kind where
  | read
  | write
  | rmw
  | iack
  deriving DecidableEq, Repr

/-- `cyc` (R41). -/
inductive Cyc where
  | idle
  | read
  | write
  | rmw
  | iack
  | released
  deriving DecidableEq, Repr

/-- `st` (R41): the half-clock state a cycle is in. -/
inductive St where
  /-- Before S0. -/
  | start
  | S0 | S1 | S2 | S3 | S4 | S5 | S6 | S7 | S8 | S9
  | S10 | S11 | S12 | S13 | S14 | S15 | S16 | S17 | S18 | S19
  /-- The two states more of a read-modify-write cycle ended by BERR without DTACK
  (42_rmw_cycle.md R201). -/
  | S20 | S21
  /-- The low half of a wait pair (R20). -/
  | SwLow
  /-- The high half of a wait pair (R20). -/
  | SwHigh
  /-- BERR has ended the read portion of a read-modify-write cycle: the spec defines no state after
  it (42_rmw_cycle.md R198). -/
  | faulted
  deriving DecidableEq, Repr

/-- `term` (R42), with `avec` for R218. -/
inductive Term where
  | none
  | dtack
  | berr
  | berrDtack
  | vpa
  | avec
  deriving DecidableEq, Repr

/-- The data strobes a transfer selects: both (a word, or IACK), one, or DS (20_memory.md R75). -/
inductive Strobes where
  | word
  | upper
  | lower
  | ds
  deriving DecidableEq, Repr

/-- The cycle in progress: its fields (30_encoding.md R103), its state, and the answer of the
environment to it. -/
structure Cycle where
  kind    : Kind
  fc      : Fc
  /-- The byte address, bit 0 included. -/
  addr    : Addr
  strobes : Strobes
  /-- Write data: a word, or a byte in the low half. -/
  wdata   : Half
  /-- The level an acknowledge cycle acknowledges (R211). -/
  level   : Level
  st      : St
  /-- The write portion of a read-modify-write cycle (R191). -/
  second  : Bool
  /-- Wait pairs of this portion so far (R41). -/
  pairs   : Nat
  /-- Sampling edges of this portion so far. -/
  edge    : Nat
  /-- The byte a read-modify-write cycle has read (R190). -/
  old     : Byte
  /-- The answer to this portion. -/
  answer  : Answer
  /-- The answer to the write portion to come. -/
  answer2 : Answer
  deriving DecidableEq, Repr

/-- `owner` (R45). -/
inductive Owner where
  | processor
  | alternate
  deriving DecidableEq, Repr

/-- `arb` (R54). -/
inductive Arb where
  | noRequest
  | requested
  | granted
  | acknowledged
  deriving DecidableEq, Repr

/-- What the processor does with BG during one tenure, counted in falling edges (R258, R264; log 17):
how many pass in `Acknowledged` before BG is negated, and, for each grant it gives inside the tenure to
a request that stands, how many pass before that. -/
structure TenureScript where
  negateAfter : Nat
  grantsAfter : List Nat
  deriving DecidableEq, Repr

/-- Where BG is in a tenure (R258). -/
inductive TenureBg where
  /-- BG of the grant that gave the tenure is still out, for `wait` more falling edges. -/
  | standing (wait : Nat) (grants : List Nat)
  /-- BG is negated; the next grant inside the tenure waits as long as the head says. -/
  | off (grants : List Nat)
  /-- BG is out again, for a second requester. -/
  | again (grants : List Nat)
  deriving DecidableEq, Repr

/-! ## Results (30_encoding.md R115, 60_exceptions.md R270) -/

/-- The kind of cycle a BusError records (R270). -/
inductive BusErrorKind where
  | read
  | write
  | rmwRead
  | rmwWrite
  | iack
  deriving DecidableEq, Repr

/-- `info` of BusError (R270). -/
structure BusErrorInfo where
  kind : BusErrorKind
  fc   : Fc
  addr : Addr
  deriving DecidableEq, Repr

/-- The result of a transaction (R115). -/
inductive Result where
  | ok
  | okByte (v : Byte)
  | okWord (v : Half)
  | vector (n : Byte)
  | busError (info : BusErrorInfo)
  deriving DecidableEq, Repr

/-- A result and the master whose transaction it answers. -/
structure Report where
  master : Owner
  result : Result
  deriving DecidableEq, Repr

/-! ## The PI/T (60_exceptions.md R301 to R321) -/

/-- The stored registers of the PI/T; the two alternate registers are windows on `Inputs.portA` and
`Inputs.portB`. -/
structure Pit where
  pgcr  : Byte
  psrr  : Byte
  paddr : Byte
  pbddr : Byte
  pcddr : Byte
  pivr  : Byte
  pacr  : Byte
  pbcr  : Byte
  padr  : Byte
  pbdr  : Byte
  pcdr  : Byte
  psr   : Byte
  tcr   : Byte
  tivr  : Byte
  cprh  : Byte
  cprm  : Byte
  cprl  : Byte
  cnth  : Byte
  cntm  : Byte
  cntl  : Byte
  tsr   : Byte
  deriving DecidableEq, Repr

/-! ## Memory -/

/-- The bytes the plain memory device holds, by key, keys strictly rising. An unlisted key holds no
value; what a read of one gives is a free value (log 10). -/
abbrev Memory := List Host.Cell

/-- The canonical form: keys strictly rising. An unlisted key holds no value, so no listed entry can
be redundant. -/
def Memory.wf : Memory → Bool
  | [] => true
  | [_] => true
  | c :: d :: rest => c.1 < d.1 && Memory.wf (d :: rest)

/-! ## The state -/

/-- The whole machine. -/
structure State where
  /-- The parameters of the machine; no step changes them. -/
  params      : Params
  /-- The lines driven by the master of the bus (R32). -/
  pins        : Pins
  /-- What a device that has not stopped driving the data bus still drives on it; Z when there is none
  (70_reset_and_hazards.md R347, 00_scope.md R21). -/
  held        : DataLines
  /-- The input lines (R32). -/
  inputs      : Inputs
  /-- CLK in the half clock just passed (R20). -/
  clk         : Clk
  /-- The CLK-cycle index of R117. -/
  clkCount    : Nat
  /-- The cycle in progress; `none` is an idle bus (R41). -/
  run         : Option Cycle
  /-- The cycle whose last state the bus is in: the rising edge that ends it releases its buses (R34,
  40_read_cycle.md R139). -/
  closing     : Option Cycle
  /-- R42. -/
  term        : Term
  /-- R43. -/
  din         : Half
  /-- R45. -/
  owner       : Owner
  /-- R54. -/
  arb         : Arb
  /-- In `Requested`: falling edges still to pass before the one at which BG is asserted
  (45_bus_arbitration.md R264). -/
  bgWait      : Nat
  /-- BG in the present tenure of three wires (45_bus_arbitration.md R258). -/
  tenureBg    : TenureBg
  /-- `ipl_seen` (R55). -/
  iplSeen     : Level
  /-- Bit n: `ipl_seen = n` held at some earlier falling edge (60_exceptions.md R283). -/
  iplHistory  : BitVec 8
  /-- R50. -/
  ephase      : Fin 10
  /-- R56. -/
  pit         : Pit
  /-- The plain memory device (20_memory.md R90). -/
  mem         : Memory
  /-- The processor's transactions still to run (R46, R115). -/
  program     : List Item
  /-- The alternate master's transactions still to run (45_bus_arbitration.md R257). -/
  altProgram  : List Item
  /-- Answers still to be given, one a cycle or portion; where there is none, the device at the
  address answers (R117). -/
  answers     : List Answer
  /-- Events still to come, with their CLK-cycle index (R117). -/
  events      : List (Nat × Event)
  /-- How many falling edges BG follows a recognised request, one entry a request: 0 is the edge of the
  recognition itself; 1 where there is no entry (45_bus_arbitration.md R253, R254; log 17). -/
  grantDelays : List Nat
  /-- What BG does in the tenures to come, one a tenure; where there is none, BG is negated at the
  first falling edge and not asserted again (45_bus_arbitration.md R258). -/
  tenures     : List TenureScript
  /-- How many free values have been drawn (log 11). -/
  draws       : Nat
  /-- Results of transactions, newest first (R115). -/
  results     : List Report
  deriving DecidableEq, Repr

/-! ## Why a step stops -/

/-- What a ProtocolViolation says (R121, R264, R347; 93 U1, U16). -/
inductive Violation where
  /-- "DTACK and VPA should never be simultaneously asserted" (R121). -/
  | dtackAndVpa
  /-- BGACK before the end of the current cycle (R264). -/
  | acknowledgeTooEarly
  /-- BGACK without a grant (R348). -/
  | acknowledgeWithoutGrant
  /-- The alternate master gives the bus back inside a cycle of its own (R259, 93 U16). -/
  | returnInsideCycle
  /-- Two agents drive the data bus (R347). -/
  | twoDrivers
  deriving DecidableEq, Repr

/-- The machine stops. -/
inductive Fault where
  /-- The environment broke a rule the source states as "should never" (R21, R121, R272): raised by
  the sampling of terminations, the arbiter and the drivers of the data bus. Safe: nothing is proved
  past it. -/
  | protocolViolation (what : Violation)
  /-- The bus activity after BERR in the read portion of a read-modify-write cycle (R198, 93 U11):
  raised by the half clock that would follow the recorded BusError. Safe. -/
  | rmwReadContinuation
  /-- BERR ended an acknowledge cycle of a machine whose `IACK_BERR_VECTOR` is `fault` (R222):
  raised at the end of the cycle. Safe. -/
  | iackBusError (info : BusErrorInfo)
  deriving DecidableEq, Repr

/-- A transaction has no meaning. -/
inductive Refusal where
  /-- Raised by an arm of `exec` whose instruction has no meaning yet. Safe. -/
  | notModelled (mnemonic : String)
  /-- Bytes that are no transaction (R120): raised by the fetch. Safe. -/
  | undecodable (why : Undecodable)
  /-- A transaction of R120 that no cycle may run: raised by every meaning before any state is
  entered. Safe. -/
  | illegal (why : Illegal)
  /-- A cycle was asked for while another is in progress (R84): raised by every meaning; no step
  asks for one. Safe. -/
  | cycleInProgress
  /-- IACK while the processor does not own the bus (R220, R257): raised by the meaning of IACK.
  Safe. -/
  | iackWithoutBus
  deriving DecidableEq, Repr

/-! ## Reset (10_state.md R60 to R62) -/

/-- The idle bus of R60. FC is a choice (log 7). -/
def Pins.idle : Pins :=
  { fc := some 0, addr := none
    strobeAS := .negated, uds := .negated, lds := .negated, ds := .negated
    rw := .high, data := DataLines.z, vma := .negated, bg := .negated }

/-- Inputs at rest (log 21); the port pins are a choice (log 9). -/
def Inputs.quiet : Inputs :=
  { dtack := false, berr := false, vpa := false, avec := false, br := false, bgack := false
    ipl := 7, pitReset := false, portA := 0, portB := 0 }

/-- The column "Register Value After RESET" of Table 1-3 (R302 to R321); registers for which it gives
no number hold 0 at power-up (log 9). -/
def Pit.powerUp : Pit :=
  { pgcr := 0, psrr := 0, paddr := 0, pbddr := 0, pcddr := 0, pivr := 0x0F, pacr := 0, pbcr := 0
    padr := 0, pbdr := 0, pcdr := 0, psr := 0, tcr := 0, tivr := 0x0F
    cprh := 0, cprm := 0, cprl := 0, cnth := 0, cntm := 0, cntl := 0, tsr := 0 }

/-- The state right after reset: the idle bus of R60 with nothing scripted and nothing in memory. -/
def State.reset : State :=
  { params := Params.default
    pins := Pins.idle
    held := DataLines.z
    inputs := Inputs.quiet
    clk := .low
    clkCount := 0
    run := none
    closing := none
    term := .none
    din := 0
    owner := .processor
    arb := .noRequest
    bgWait := 0
    tenureBg := .off []
    iplSeen := 0
    iplHistory := 0
    ephase := Config.ephase0
    pit := Pit.powerUp
    mem := []
    program := []
    altProgram := []
    answers := []
    events := []
    grantDelays := []
    tenures := []
    draws := 0
    results := [] }

end Sys2Proof.Machine
end

