-- ==== Sys2Proof/Machine/Operands.lean ====
section
/-! DEFINITION. Operand assembly (30_encoding.md section 4): address lines, lanes and strobes,
placing and selecting data, vector numbers, the modify function, and the byte keys of memory. -/

namespace Sys2Proof.Machine

/-! ## Bytes and halves -/

/-- D15-D8 of a half. -/
def hiByte (v : Half) : Byte := v.extractLsb' 8 8

/-- D7-D0 of a half. -/
def loByte (v : Half) : Byte := v.extractLsb' 0 8

/-- A half from its two lanes, D15-D8 first (20_memory.md R76). -/
def halfOf (hi lo : Byte) : Half := hi ++ lo

/-- A byte in the low lane of a half. -/
def halfOfByte (v : Byte) : Half := v.zeroExtend 16

/-! ## Strobes and lanes (20_memory.md R75, R79) -/

/-- UDS is among the selected strobes. -/
def Strobes.selectsUpper : Strobes → Bool
  | .word  => true
  | .upper => true
  | .lower => false
  | .ds    => false

/-- LDS is among the selected strobes. -/
def Strobes.selectsLower : Strobes → Bool
  | .word  => true
  | .upper => false
  | .lower => true
  | .ds    => false

/-- DS is the selected strobe (R12). -/
def Strobes.selectsDs : Strobes → Bool
  | .ds => true
  | _   => false

/-- Data travel on D15-D8. -/
def Strobes.upperLane : Strobes → Bool := Strobes.selectsUpper

/-- Data travel on D7-D0: under LDS, or under DS (R12). -/
def Strobes.lowerLane (x : Strobes) : Bool := x.selectsLower || x.selectsDs

/-- The strobes of an acknowledge cycle: both (R213), or DS (R111). -/
def ackStrobes : DataBus → Strobes
  | .d16 => .word
  | .d8  => .ds

/-! ## Addresses -/

/-- R119: the address lines carry `addr[ADDR_HI:1]`. -/
def linesOf (a : Addr) : Lines := a.extractLsb' 1 23

/-- R112, R74: the level on A3-A1, all other lines high, as a byte address with bit 0 written 1. -/
def ackAddr (level : Level) : Addr := 0xFFFFF1 ||| (level.zeroExtend 24 <<< 1)

/-- The byte address whose byte travels on D15-D8 (R75, R76). -/
def upperByteAddr (a : Addr) : Addr := a &&& 0xFFFFFE

/-- The byte address whose byte travels on D7-D0: the odd one of the pair, or with DS the address
itself (R75, R76, R12). -/
def lowerByteAddr (x : Strobes) (a : Addr) : Addr :=
  match x with
  | .ds => a
  | _   => a ||| 1

/-- The key under which the plain memory device holds a byte (R71, R72, R90). -/
def cellKey (m : FcMap) (fc : Fc) (a : Addr) : Nat :=
  match m with
  | .shared  => a.toNat
  | .perCode => fc.toNat * 2 ^ 24 + a.toNat

/-! ## Data -/

/-- R119: what the processor puts on the lanes for write data `v`. `fill` stands on the unselected
lane of a byte write (R77); an 8-bit bus has no upper lane (R12). -/
def place (x : Strobes) (v : Half) (fill : Byte) : DataLines :=
  match x with
  | .word  => { hi := some (hiByte v), lo := some (loByte v) }
  | .upper => { hi := some (loByte v), lo := some fill }
  | .lower => { hi := some fill, lo := some (loByte v) }
  | .ds    => { hi := none, lo := some (loByte v) }

/-- The byte a one-byte transfer takes from the latched data (R145, R201). -/
def selectByte (x : Strobes) (din : Half) : Byte :=
  match x with
  | .upper => hiByte din
  | .word  => loByte din
  | .lower => loByte din
  | .ds    => loByte din

/-- `ok(v)` of a read (R145). -/
def readResult (x : Strobes) (din : Half) : Result :=
  match x with
  | .word  => .okWord din
  | .upper => .okByte (hiByte din)
  | .lower => .okByte (loByte din)
  | .ds    => .okByte (loByte din)

/-- The byte of the write data that goes to D15-D8's location. -/
def storedUpper (x : Strobes) (v : Half) : Byte :=
  match x with
  | .word => hiByte v
  | _     => loByte v

/-! ## Vector numbers and the modify function -/

/-- R113: `$18 + level`. -/
def autovector (level : Level) : Byte := Config.autovecBase + level.zeroExtend 8

/-- R114: the byte on D7-D0. -/
def vectorOf (din : Half) : Byte := loByte din

/-- `ALU_MODIFY` (R190). -/
def aluModify (f : AluModify) (x : Byte) : Byte :=
  match f with
  | .orMask m     => x ||| m
  | .table values => values.getD x.toNat 0

end Sys2Proof.Machine
end

