-- ==== Sys2Proof/Machine/Flags.lean ====
section
/-! DEFINITION. The one predicate the bus controller computes from its inputs, `term` (10_state.md
R42): the decision at a sampling edge (40_read_cycle.md R144), its continuation while a synchronous
cycle waits for E (44_sync_cycle.md R245), the late check at end(S6), and E itself (10_state.md
R50). -/

namespace Sys2Proof.Machine

/-- E is high while `ephase` is in 6..9 (R50). -/
def eHigh (p : Fin 10) : Bool := Config.eLow ≤ p.val

/-- VMA may be asserted: E is low and `SYNC_MARGIN` CLK cycles remain before it rises, that is
`ephase` in 0..4 (R236). -/
def vmaWindow (p : Fin 10) : Bool := p.val + Config.syncMargin ≤ Config.eLow

/-- The last CLK cycle of the E-high interval: S5 starts here (R238, R245). -/
def eLast (p : Fin 10) : Bool := p.val + 1 = Config.eLow + Config.eHigh

/-- E rises at the falling edge of CLK from which it is in this phase (R50). -/
def eRises (p : Fin 10) : Bool := p.val = Config.eLow

/-- E falls at the falling edge of CLK from which it is in this phase (R50). -/
def eFalls (p : Fin 10) : Bool := p.val = 0

/-- What a sampling edge decides. -/
inductive Decision where
  /-- A termination is recognised: S5 (S17) follows. -/
  | proceed (term : Term)
  /-- A wait pair follows; `term` is `none`, or `vpa` once VPA has been recognised. -/
  | wait (term : Term)
  | violation
  deriving DecidableEq, Repr

/-- R144 at end(S4) (end(S16)) and at the end of each wait pair, while `term = none`. `a` is AVEC
recognised by an acknowledge cycle of a machine that has it (R218). -/
def decideFirst (d b v a : Bool) : Decision :=
  if d && v then .violation
  else if b && d then .proceed .berrDtack
  else if b then .proceed .berr
  else if d then .proceed .dtack
  else if v then .wait .vpa
  else if a then .proceed .avec
  else .wait .none

/-- R245 at each later falling edge of a synchronous cycle: BERR wins (D12), DTACK is forbidden, and
the transfer ends in the last CLK cycle of an E-high interval that VMA was asserted for. -/
def decideStretch (d b vmaAsserted : Bool) (p : Fin 10) : Decision :=
  if b then .proceed .berr
  else if d then .violation
  else if vmaAsserted && eLast p then .proceed .vpa
  else .wait .vpa

/-- The late check at end(S6) (R42, R144, and R244 for a synchronous cycle; log 13): the new `term`, or
a ProtocolViolation. DTACK and VPA sampled together are one in every cycle (R121, R217, decision D12);
DESIGN CHOICE: one of the two alone is ignored after AVEC, and after BERR (log 14). -/
def decideLate (term : Term) (d b v : Bool) : Option Term :=
  if d && v then none else
  match term with
  | .dtack     => if v then none else some (if b then .berrDtack else .dtack)
  | .berrDtack => if v then none else some .berrDtack
  | .vpa       => if b then some .berr else if d then none else some .vpa
  | .avec      => some (if b then .berrDtack else .avec)
  | .berr      => some .berr
  | .none      => some .none

/-- The cycle was ended by BERR (R146, R147). -/
def Term.isBerr : Term → Bool
  | .berr      => true
  | .berrDtack => true
  | .none      => false
  | .dtack     => false
  | .vpa       => false
  | .avec      => false

end Sys2Proof.Machine
end

