-- ==== Sys2Proof/Machine/Pit.lean ====
section
/-! DEFINITION. The PI/T register model (60_exceptions.md R300 to R321): addressing, reads and
writes, the RESET column, and the fields of every register. -/

namespace Sys2Proof.Machine

/-- The implemented registers, in the order of Table 1-3. -/
inductive PitReg where
  | pgcr | psrr | paddr | pbddr | pcddr | pivr | pacr | pbcr
  | padr | pbdr | paar | pbar | pcdr | psr
  | tcr | tivr | cprh | cprm | cprl | cnth | cntm | cntl | tsr
  deriving DecidableEq, Repr

/-- The register of a register select code; `none` for the nine null addresses (R302 to R321). -/
def PitReg.ofSel (sel : BitVec 5) : Option PitReg :=
  match sel.toNat with
  | 0  => some .pgcr
  | 1  => some .psrr
  | 2  => some .paddr
  | 3  => some .pbddr
  | 4  => some .pcddr
  | 5  => some .pivr
  | 6  => some .pacr
  | 7  => some .pbcr
  | 8  => some .padr
  | 9  => some .pbdr
  | 10 => some .paar
  | 11 => some .pbar
  | 12 => some .pcdr
  | 13 => some .psr
  | 16 => some .tcr
  | 17 => some .tivr
  | 19 => some .cprh
  | 20 => some .cprm
  | 21 => some .cprl
  | 23 => some .cnth
  | 24 => some .cntm
  | 25 => some .cntl
  | 26 => some .tsr
  | _  => none

/-- The bits of a register that are not `*` ("Unused, read as zero"): R303, R307, R316, R320. -/
def PitReg.usedBits : PitReg → Byte
  | .psrr => 0x7F
  | .pivr => 0xFC
  | .tcr  => 0xF7
  | .tsr  => 0x01
  | _     => 0xFF

/-- The stored cell of a register; the alternate registers are the port pins (R312, R313). -/
def Pit.cell (p : Pit) (portA portB : Byte) : PitReg → Byte
  | .pgcr  => p.pgcr
  | .psrr  => p.psrr
  | .paddr => p.paddr
  | .pbddr => p.pbddr
  | .pcddr => p.pcddr
  | .pivr  => p.pivr
  | .pacr  => p.pacr
  | .pbcr  => p.pbcr
  | .padr  => p.padr
  | .pbdr  => p.pbdr
  | .paar  => portA
  | .pbar  => portB
  | .pcdr  => p.pcdr
  | .psr   => p.psr
  | .tcr   => p.tcr
  | .tivr  => p.tivr
  | .cprh  => p.cprh
  | .cprm  => p.cprm
  | .cprl  => p.cprl
  | .cnth  => p.cnth
  | .cntm  => p.cntm
  | .cntl  => p.cntl
  | .tsr   => p.tsr

/-- R301: a read returns the cell with every `*` bit 0. The Port Interrupt Vector Register reads as
its cell: its RESET value $0F stands until the first write, and a write stores the `*` bits as 0
(R307, conflict C9). -/
def Pit.readReg (p : Pit) (portA portB : Byte) (r : PitReg) : Byte :=
  match r with
  | .pivr => p.pivr
  | r     => p.cell portA portB r &&& r.usedBits

/-- `pit[rs]` (R21, R301); a null address reads $00 (R321). -/
def Pit.read (p : Pit) (portA portB : Byte) (sel : BitVec 5) : Byte :=
  match PitReg.ofSel sel with
  | some r => p.readReg portA portB r
  | none   => 0

/-- Stores a byte in a cell. The alternate registers are no storage: a write to one changes nothing
(R312, R313; log 20). -/
def Pit.setCell (p : Pit) (r : PitReg) (v : Byte) : Pit :=
  match r with
  | .pgcr  => { p with pgcr := v }
  | .psrr  => { p with psrr := v }
  | .paddr => { p with paddr := v }
  | .pbddr => { p with pbddr := v }
  | .pcddr => { p with pcddr := v }
  | .pivr  => { p with pivr := v }
  | .pacr  => { p with pacr := v }
  | .pbcr  => { p with pbcr := v }
  | .padr  => { p with padr := v }
  | .pbdr  => { p with pbdr := v }
  | .paar  => p
  | .pbar  => p
  | .pcdr  => { p with pcdr := v }
  | .psr   => { p with psr := v }
  | .tcr   => { p with tcr := v }
  | .tivr  => { p with tivr := v }
  | .cprh  => { p with cprh := v }
  | .cprm  => { p with cprm := v }
  | .cprl  => { p with cprl := v }
  | .cnth  => { p with cnth := v }
  | .cntm  => { p with cntm := v }
  | .cntl  => { p with cntl := v }
  | .tsr   => { p with tsr := v }

/-- R301: a write stores the byte with every `*` bit 0. -/
def Pit.writeReg (p : Pit) (r : PitReg) (v : Byte) : Pit := p.setCell r (v &&& r.usedBits)

/-- `pit[rs] <- v` (R21, R301); a write to a null address is ignored (R321). -/
def Pit.write (p : Pit) (sel : BitVec 5) (v : Byte) : Pit :=
  match PitReg.ofSel sel with
  | some r => p.writeReg r v
  | none   => p

/-- RESET (10_state.md R61, 70_reset_and_hazards.md R332): a number where the column gives one, the
value before RESET for the data, preload and count registers, and the two bytes given for the
registers it leaves undetermined. -/
def Pit.reset (p : Pit) (undetPcdr undetPsr : Byte) : Pit :=
  { Pit.powerUp with
    padr := p.padr, pbdr := p.pbdr
    cprh := p.cprh, cprm := p.cprm, cprl := p.cprl
    cnth := p.cnth, cntm := p.cntm, cntl := p.cntl
    pcdr := undetPcdr, psr := undetPsr }

/-- What every write and every RESET keep: the `*` bits of the storage are 0, but for the RESET value
of the Port Interrupt Vector Register (R301, R307). -/
def Pit.wf (p : Pit) : Bool :=
  p.psrr &&& 0x80 = 0 && p.tcr &&& 0x08 = 0 && p.tsr &&& 0xFE = 0
    && (p.pivr = 0x0F || p.pivr &&& 0x03 = 0)

/-! ## Addressing (R300) -/

/-- The address bits the PI/T does not decode as its base: the register select lines and bit 0. -/
def pitSelectMask (w : PitWiring) : Addr :=
  w.rsLines.foldl (fun m line => m ||| ((1 : Addr) <<< line)) 1

/-- The register select code on the address lines, most significant line first. -/
def pitSelOf (w : PitWiring) (a : Addr) : BitVec 5 :=
  w.rsLines.foldl (fun sel line => (sel <<< 1) ||| (if a.getLsbD line then 1 else 0)) 0

/-- Bit 0 of the byte addresses on a lane (20_memory.md R75). -/
def laneBitZero : Lane → Bool
  | .upper => false
  | .lower => true

/-- The register select code of a byte address that is a PI/T register. DESIGN CHOICE: on an 8-bit bus,
whose one lane carries every byte, the registers keep the odd or even addresses that the wiring's lane
gives them (R12, R300; log 30). -/
def pitLocate (w : PitWiring) (a : Addr) : Option (BitVec 5) :=
  let m := pitSelectMask w
  if a &&& ~~~m = w.base &&& ~~~m && a.getLsbD 0 = laneBitZero w.lane then some (pitSelOf w a) else none

/-- The PI/T register at a byte address, if there is one. -/
def pitSelect (w : Option PitWiring) (a : Addr) : Option (BitVec 5) :=
  match w with
  | some w => pitLocate w a
  | none   => none

/-! ## Fields (R302 to R320) -/

/-- The named fields of the registers. -/
inductive PitField where
  | portModeControl | h34Enable | h12Enable | h4Sense | h3Sense | h2Sense | h1Sense
  | svcrqSelect | ipfSelect | portInterruptPriorityControl
  | interruptVectorNumber
  | portASubmode | h2Control | h2IntEnable | h1SvcrqEnable | h1StatCtrl
  | portBSubmode | h4Control | h4IntEnable | h3SvcrqEnable | h3StatCtrl
  | h4Level | h3Level | h2Level | h1Level | h4S | h3S | h2S | h1S
  | toutTiackControl | zdCtrl | clockControl | timerEnable
  | zds
  deriving DecidableEq, Repr

/-- A field's register, its lowest bit and its width. The spans of the Port Service Request and the
two Port Control Registers are the parameter `PIT_FIELDS` (R303, R308, R309; log 26). -/
def PitField.span (layout : PitFields) : PitField → PitReg × Nat × Nat
  | .portModeControl => (.pgcr, 6, 2)
  | .h34Enable => (.pgcr, 5, 1)
  | .h12Enable => (.pgcr, 4, 1)
  | .h4Sense   => (.pgcr, 3, 1)
  | .h3Sense   => (.pgcr, 2, 1)
  | .h2Sense   => (.pgcr, 1, 1)
  | .h1Sense   => (.pgcr, 0, 1)
  | .svcrqSelect => match layout with
    | .literal => (.psrr, 6, 1)
    | .datasheet => (.psrr, 5, 2)
  | .ipfSelect => match layout with
    | .literal => (.psrr, 4, 2)
    | .datasheet => (.psrr, 3, 2)
  | .portInterruptPriorityControl => match layout with
    | .literal => (.psrr, 0, 4)
    | .datasheet => (.psrr, 0, 3)
  | .interruptVectorNumber => (.pivr, 2, 6)
  | .portASubmode => (.pacr, 6, 2)
  | .h2Control => match layout with
    | .literal => (.pacr, 4, 2)
    | .datasheet => (.pacr, 3, 3)
  | .h2IntEnable => match layout with
    | .literal => (.pacr, 3, 1)
    | .datasheet => (.pacr, 2, 1)
  | .h1SvcrqEnable => match layout with
    | .literal => (.pacr, 2, 1)
    | .datasheet => (.pacr, 1, 1)
  | .h1StatCtrl => match layout with
    | .literal => (.pacr, 0, 2)
    | .datasheet => (.pacr, 0, 1)
  | .portBSubmode => (.pbcr, 6, 2)
  | .h4Control => match layout with
    | .literal => (.pbcr, 4, 2)
    | .datasheet => (.pbcr, 3, 3)
  | .h4IntEnable => match layout with
    | .literal => (.pbcr, 3, 1)
    | .datasheet => (.pbcr, 2, 1)
  | .h3SvcrqEnable => match layout with
    | .literal => (.pbcr, 2, 1)
    | .datasheet => (.pbcr, 1, 1)
  | .h3StatCtrl => match layout with
    | .literal => (.pbcr, 0, 2)
    | .datasheet => (.pbcr, 0, 1)
  | .h4Level => (.psr, 7, 1)
  | .h3Level => (.psr, 6, 1)
  | .h2Level => (.psr, 5, 1)
  | .h1Level => (.psr, 4, 1)
  | .h4S => (.psr, 3, 1)
  | .h3S => (.psr, 2, 1)
  | .h2S => (.psr, 1, 1)
  | .h1S => (.psr, 0, 1)
  | .toutTiackControl => (.tcr, 5, 3)
  | .zdCtrl => (.tcr, 4, 1)
  | .clockControl => (.tcr, 1, 2)
  | .timerEnable => (.tcr, 0, 1)
  | .zds => (.tsr, 0, 1)

/-- The value of a field. -/
def Pit.field (p : Pit) (layout : PitFields) (f : PitField) : Nat :=
  let (r, lo, width) := f.span layout
  (p.cell 0 0 r).toNat / 2 ^ lo % 2 ^ width

/-- The 24-bit counter preload value (R318). -/
def Pit.counterPreload (p : Pit) : BitVec 24 := p.cprh ++ p.cprm ++ p.cprl

/-- The 24-bit count (R319). -/
def Pit.count (p : Pit) : BitVec 24 := p.cnth ++ p.cntm ++ p.cntl

end Sys2Proof.Machine
end

