-- ==== Sys2Proof/Machine/Ops.lean ====
section
/-! DEFINITION. The named operations over memory, lines, devices and results that every bus cycle is
built from. -/

namespace Sys2Proof.Machine

/-- The outcome of a piece of a step. -/
abbrev Res := Host.Outcome State Fault Refusal

/-- Goes on with the next state, or stops. -/
def andThen (r : Res) (k : State → Res) : Res :=
  match r with
  | .next s    => k s
  | .fault f   => .fault f
  | .refused f => .refused f

/-- The environment broke the protocol (R21, R121). -/
def violation (what : Violation) : Res := .fault (.protocolViolation what)

/-! ## Memory (20_memory.md R90) -/

/-- The byte held under a key; `none` where nothing was written. -/
def Memory.read : Memory → Nat → Option Byte
  | [], _ => none
  | (k, v) :: rest, key => if k = key then some v else Memory.read rest key

/-- Stores a byte, keeping the keys strictly rising. -/
def Memory.write : Memory → Nat → Byte → Memory
  | [], key, v => [(key, v)]
  | (k, b) :: rest, key, v =>
    if key < k then (key, v) :: (k, b) :: rest
    else if key = k then (key, v) :: rest
    else (k, b) :: Memory.write rest key v

/-! ## Free values (log 11) -/

/-- The next free byte. -/
def State.freeByte (s : State) : Byte := Config.freeByte s.draws

/-- The next draw between an old and a new content. -/
def State.freeChoice (s : State) : Bool := Config.freeChoice s.draws

/-- Free values are never drawn twice. -/
def State.drawn (s : State) (n : Nat) : State := { s with draws := s.draws + n }

/-! ## Lines -/

/-- S0: places the function codes and drives R/W high (R131, R161, R181); AS and the strobes are
negated in S0 (R100 to R102), and `term` is none from S0 on (R42). -/
def State.placeCodes (s : State) (fc : Fc) : State :=
  { s with
    term := .none
    pins := { s.pins with
      fc := some fc, rw := .high
      strobeAS := .negated, uds := .negated, lds := .negated, ds := .negated } }

/-- Drives the address lines (R132, R162, R182). -/
def State.driveAddr (s : State) (a : Addr) : State :=
  { s with pins := { s.pins with addr := some (linesOf a) } }

/-- Asserts AS (R133, R163, R183). -/
def State.assertAS (s : State) : State := { s with pins := { s.pins with strobeAS := .asserted } }

/-- A strobe line after the selected strobes are asserted. -/
def assertIf (selected : Bool) (line : Line) : Line := if selected then .asserted else line

/-- Asserts the selected data strobes (R133, R165, R183, R195). -/
def State.assertStrobes (s : State) (x : Strobes) : State :=
  { s with pins := { s.pins with
      uds := assertIf x.selectsUpper s.pins.uds
      lds := assertIf x.selectsLower s.pins.lds
      ds := assertIf x.selectsDs s.pins.ds } }

/-- Negates the data strobes, and VMA with them (R188, R241, R242). -/
def State.negateStrobes (s : State) : State :=
  { s with pins := { s.pins with uds := .negated, lds := .negated, ds := .negated, vma := .negated } }

/-- Negates AS (R139, R168, R197). -/
def State.negateAS (s : State) : State := { s with pins := { s.pins with strobeAS := .negated } }

/-- Drives R/W low (R163, R193). -/
def State.driveRwLow (s : State) : State := { s with pins := { s.pins with rw := .low } }

/-- Releases the address bus (R139). -/
def State.releaseAddr (s : State) : State := { s with pins := { s.pins with addr := none } }

/-- `release(DATA)` (R21): who drove the data bus stops, and it is Z unless a device still drives it. -/
def State.releaseData (s : State) : State := { s with pins := { s.pins with data := s.held } }

/-- The processor stops driving the data bus and drives R/W high (R168, R197). -/
def State.releaseWrite (s : State) : State :=
  { s.releaseData with pins := { s.releaseData.pins with rw := .high } }

/-- The rising edge that ends the last state of a cycle: the address bus is released, and after a cycle
that wrote the data bus with it, R/W driven high (R139, R168, R197). -/
def State.releaseClosing (s : State) : State :=
  match s.closing with
  | none => s
  | some c =>
    let s := { s with closing := none }
    match c.kind with
    | .read  => s.releaseAddr
    | .iack  => s.releaseAddr
    | .write => s.releaseAddr.releaseWrite
    | .rmw   => s.releaseAddr.releaseWrite

/-- Asserts VMA (R236). -/
def State.assertVma (s : State) : State := { s with pins := { s.pins with vma := .asserted } }

/-- Puts a value on the data bus; a second driver is a ProtocolViolation (R347). -/
def State.driveData (s : State) (d : DataLines) : Res :=
  if d = DataLines.z then .next s
  else if s.pins.data = DataLines.z then .next { s with pins := { s.pins with data := d } }
  else violation .twoDrivers

/-- The device stops driving the data bus, unless it fails to and holds it from now on (R139, R347;
log 21). -/
def State.deviceReleasesData (s : State) (a : Answer) : State :=
  if a.holdsData then { s with held := s.pins.data } else s.releaseData

/-- The device negates its termination, unless it fails to (R139, R344). DESIGN CHOICE: a line that an
earlier device has left asserted goes away here too (log 34). -/
def State.deviceNegates (s : State) (a : Answer) : State :=
  if a.stale then s
  else { s with inputs := { s.inputs with dtack := false, berr := false, vpa := false, avec := false } }

/-! ## The devices at the addresses -/

/-- The byte a resident device holds at a byte address: a PI/T register, or the plain memory
device's byte (R90, R300, R301). -/
def State.byteAt (s : State) (fc : Fc) (a : Addr) : Option Byte :=
  match pitSelect s.params.pit a with
  | some sel => some (s.pit.read s.inputs.portA s.inputs.portB sel)
  | none     => s.mem.read (cellKey s.params.fcMap fc a)

/-- Stores a byte in the resident device at a byte address. -/
def State.storeByte (s : State) (fc : Fc) (a : Addr) (v : Byte) : State :=
  match pitSelect s.params.pit a with
  | some sel => { s with pit := s.pit.write sel v }
  | none     => { s with mem := s.mem.write (cellKey s.params.fcMap fc a) v }

/-- What the resident device drives for a read: the lanes whose strobes are asserted. A byte that
nothing has written is a free value (R90; log 10). -/
def State.residentData (s : State) (c : Cycle) : DataLines :=
  { hi := if c.strobes.upperLane then
      some ((s.byteAt c.fc (upperByteAddr c.addr)).getD (Config.freeByte s.draws)) else none
    lo := if c.strobes.lowerLane then
      some ((s.byteAt c.fc (lowerByteAddr c.strobes c.addr)).getD (Config.freeByte (s.draws + 1)))
      else none }

/-- Stores write data on the lanes whose strobes are asserted (R90, R170). -/
def State.storeLanes (s : State) (c : Cycle) (v : Half) : State :=
  let s := if c.strobes.upperLane then
      s.storeByte c.fc (upperByteAddr c.addr) (storedUpper c.strobes v) else s
  if c.strobes.lowerLane then
      s.storeByte c.fc (lowerByteAddr c.strobes c.addr) (loByte v) else s

/-- The location after a write cycle: stored where the cycle ended well (R170, R230); a draw of old
and new where BERR ended it (R171, R198). DESIGN CHOICE: old is what the device holds, also where the
answer to the read portion has scripted other data (log 22). -/
def State.deviceTakes (s : State) (c : Cycle) (v : Half) : State :=
  if s.term.isBerr then
    (if s.freeChoice then s.storeLanes c v else s).drawn 1
  else s.storeLanes c v

/-- The responder of a level (R219, R336). -/
def responderOf (ps : Params) (level : Level) : Responder :=
  ps.responders.getD level.toNat .nobody

/-- The vector byte a responder drives on D7-D0 (R215, R219). -/
def State.responderData (s : State) (level : Level) : DataLines :=
  match responderOf s.params level with
  | .pitPort  => { hi := none, lo := some s.pit.pivr }
  | .pitTimer => { hi := none, lo := some s.pit.tivr }
  | .vector n => { hi := none, lo := some n }
  | .nobody   => DataLines.z
  | .autovector => DataLines.z
  | .avec     => DataLines.z

/-- How a responder ends the acknowledge cycle. DESIGN CHOICE: where no answer is scripted, at the first
sampling edge, without wait pairs (R219 and R117 leave the number open; log 12). -/
def responderShape : Responder → Shape
  | .nobody     => .never
  | .autovector => .vpa 0
  | .avec       => .edges [{ Drive.quiet with avec := true }, { Drive.quiet with avec := true }]
  | .pitPort    => .dtack 0 none
  | .pitTimer   => .dtack 0 none
  | .vector _   => .dtack 0 none

/-- The answer where none is scripted: the responder of the level, or `Mem(w)` (R90). DESIGN CHOICE: a
register of the PI/T is answered like memory, by DTACK after the same `w` wait pairs, whatever the wiring
(R300 leaves its answer open; log 12). -/
def State.residentShape (s : State) (c : Cycle) : Shape :=
  match c.kind with
  | .iack  => responderShape (responderOf s.params c.level)
  | .read  => .dtack s.params.memWaits none
  | .write => .dtack s.params.memWaits none
  | .rmw   => .dtack s.params.memWaits none

/-- What an answer puts on the lines at sampling edge `k` of its portion; `late` is end(S6)
(R117). -/
def Shape.driveAt (x : Shape) (k : Nat) (late : Bool) : Drive :=
  match x with
  | .resident    => Drive.quiet
  | .dtack w d   => { Drive.quiet with dtack := w ≤ k, data := d }
  | .berr w      => { Drive.quiet with berr := w ≤ k }
  | .berrDtack w d => { Drive.quiet with dtack := w ≤ k, berr := w ≤ k, data := d }
  | .lateBerr w d  => { Drive.quiet with dtack := w ≤ k, berr := late, data := d }
  | .vpa w       => { Drive.quiet with vpa := w ≤ k }
  | .never       => Drive.quiet
  | .edges l     => l.getD k Drive.quiet

/-- What an earlier device has left asserted counts too (R344): in every portion of a named answer, and
at the first edge of a script that lists the edges. From its second edge on such a script gives the
lines themselves, one free boolean an edge and a line (R47, decision D7). -/
def Shape.addsTo (x : Shape) (k : Nat) : Bool :=
  match x with
  | .resident | .dtack _ _ | .berr _ | .berrDtack _ _ | .lateBerr _ _ | .vpa _ | .never => true
  | .edges _ => k = 0

/-- Scripted data on both lanes (an 8-bit bus has no upper one), else the resident device's. DESIGN
CHOICE: in a read that a stale termination ends, the addressed device drives what it holds, although it
has not answered (R344; log 34). -/
def State.deviceData (s : State) (c : Cycle) : DataLines :=
  match (c.answer.shape.driveAt c.edge true).data with
  | some v =>
    match c.strobes with
    | .ds => { hi := none, lo := some (loByte v) }
    | _   => { hi := some (hiByte v), lo := some (loByte v) }
  | none =>
    match c.kind with
    | .iack  => if s.term = .dtack || s.term = .berrDtack then s.responderData c.level else DataLines.z
    | .read  => s.residentData c
    | .rmw   => s.residentData c
    | .write => DataLines.z

/-- The device drives its data on the data bus (R138, R237). -/
def State.deviceDrives (s : State) (c : Cycle) : Res := (s.drawn 2).driveData (s.deviceData c)

/-- The processor latches the data bus (R138, R43): a lane nobody drives gives a free value (93 U13);
an 8-bit bus has no upper lane and `din` holds 0 there. -/
def State.latch (s : State) (x : Strobes) : State :=
  let hi := match x with
    | .ds => 0
    | _   => s.pins.data.hi.getD (Config.freeByte s.draws)
  let lo := s.pins.data.lo.getD (Config.freeByte (s.draws + 1))
  ({ s with din := halfOf hi lo }).drawn 2

/-! ## Results -/

/-- A transaction of the present master has ended. -/
def State.report (s : State) (r : Result) : State :=
  { s with results := { master := s.owner, result := r } :: s.results }

/-- `raise BusError(info)` (R21, R270): the one exception of the bus. It is a result: the kind of the
cycle, its function code and its address are recorded. Nothing returns from it (R294). -/
def State.raiseBusError (s : State) (kind : BusErrorKind) (c : Cycle) : State :=
  s.report (.busError { kind := kind, fc := c.fc, addr := c.addr })

end Sys2Proof.Machine
end

