-- ==== Sys2Proof/Machine/Arbiter.lean ====
section
/-! DEFINITION. What happens at every falling edge of CLK whether or not a cycle runs: the
environment's events (30_encoding.md R117), E (10_state.md R50, R51), `ipl_seen` (R55), and the
arbiter (45_bus_arbitration.md R264). -/

namespace Sys2Proof.Machine

/-! ## Events -/

/-- An event changes an input line. -/
def Event.apply (e : Event) (i : Inputs) : Inputs :=
  match e with
  | .brPlus     => { i with br := true }
  | .brMinus    => { i with br := false }
  | .ackPlus    => { i with bgack := true }
  | .ackMinus   => { i with bgack := false }
  | .ipl level  => { i with ipl := pinsOfLevel level }
  | .pitReset b => { i with pitReset := b }
  | .portA v    => { i with portA := v }
  | .portB v    => { i with portB := v }

/-- Applies the events that are due, in their order; the rest stays. -/
def applyDue (now : Nat) : List (Nat × Event) → Inputs → Inputs × List (Nat × Event)
  | [], i => (i, [])
  | (t, e) :: rest, i => if t ≤ now then applyDue now rest (e.apply i) else (i, (t, e) :: rest)

/-- The events of this CLK cycle (R117). -/
def State.takeEvents (s : State) : State :=
  let r := applyDue s.clkCount s.events s.inputs
  { s with inputs := r.1, events := r.2 }

/-- The PI/T takes its RESET values while RESET is asserted (R61, R330). DESIGN CHOICE: at a falling
edge at which a write to the PI/T is stored too, it is reset first and the written value stands until
the next edge (log 20). -/
def State.pitResetEdge (s : State) : State :=
  if s.inputs.pitReset then
    ({ s with pit := s.pit.reset (Config.freeByte s.draws) (Config.freeByte (s.draws + 1)) }).drawn 2
  else s

/-- E advances (R50) and `ipl_seen` is updated (R55, R281, R282); R283 needs to know which levels
were seen. -/
def State.clockEdge (s : State) : State :=
  let level := levelOfPins s.inputs.ipl
  { s with
    ephase := s.ephase + 1
    iplSeen := level
    iplHistory := s.iplHistory ||| ((1 : BitVec 8) <<< level.toNat)
    clkCount := s.clkCount + 1 }

/-! ## The arbiter (R250 to R265) -/

/-- The processor asserts BG. -/
def State.assertBg (s : State) : State := { s with pins := { s.pins with bg := .asserted } }

/-- The processor grants the bus (R254). -/
def State.grant (s : State) : State := { s.assertBg with arb := .granted }

/-- A request is recognised; how many falling edges later BG follows is drawn from the script (R252,
R254). A grant at the edge of the recognition itself takes effect at the end of the current cycle even
where that edge is the last of the cycle (R253; log 17). -/
def State.request (s : State) : State :=
  let s' := { s with grantDelays := s.grantDelays.tail }
  match s.grantDelays.headD 1 with
  | 0     => s'.grant
  | n + 1 => { s' with arb := .requested, bgWait := n }

/-- The processor negates BG. -/
def State.negateBg (s : State) : State := { s with pins := { s.pins with bg := .negated } }

/-- The alternate master takes the bus and the processor releases it (R256, R264). -/
def State.handOver (s : State) : State :=
  { s.releaseData with
    owner := .alternate
    pins := { s.releaseData.pins with
      fc := none, addr := none, strobeAS := .z, uds := .z, lds := .z, ds := .z, rw := .z } }

/-- The bus comes back to the processor, idle (R259, R60), with BG as given; FC holds no value anyone
may read (93 U9). -/
def State.takeBack (s : State) (arb : Arb) (bg : Line) : State :=
  ({ s with
    owner := .processor
    arb := arb
    tenureBg := .off []
    pins := { s.pins with
      fc := some ((Config.freeByte s.draws).extractLsb' 0 3), addr := none
      strobeAS := .negated, uds := .negated, lds := .negated, ds := .negated
      rw := .high, bg := bg } }).drawn 1

/-- BG is out again for a second requester. -/
def TenureBg.isAgain : TenureBg → Bool
  | .again _      => true
  | .standing _ _ => false
  | .off _        => false

/-- The bus comes back, and a request that is still there is recognised at the same edge (R259). A
second requester that already has BG keeps it (R258): `Requested` lasts no edge (log 17). -/
def State.returnBus (s : State) : State :=
  if s.inputs.br then
    if s.tenureBg.isAgain then s.takeBack .granted .asserted
    else (s.takeBack .noRequest .negated).request
  else s.takeBack .noRequest .negated

/-- The acknowledge is recognised, and a tenure begins with its script for BG (R258, R264). -/
def State.startTenure (s : State) : State :=
  let x := s.tenures.headD { negateAfter := 0, grantsAfter := [] }
  { s.handOver with
    arb := .acknowledged
    tenureBg := .standing x.negateAfter x.grantsAfter
    tenures := s.tenures.tail }

/-- BG at a falling edge inside a tenure (R258): negated some finite time after the acknowledge is
seen, asserted again for a request that stands, and negated when that request goes away. -/
def State.tenureEdge (s : State) : State :=
  match s.tenureBg with
  | .standing 0 l       => { s.negateBg with tenureBg := .off l }
  | .standing (n + 1) l => { s with tenureBg := .standing n l }
  | .off []             => s
  | .off (0 :: l)       => if s.inputs.br then { s.assertBg with tenureBg := .again l } else s
  | .off ((n + 1) :: l) => if s.inputs.br then { s with tenureBg := .off (n :: l) } else s
  | .again l            => if s.inputs.br then s else { s.negateBg with tenureBg := .off l }

/-- `Granted` with the acknowledge line: the bus passes when the cycle has ended and BGACK is
recognised (R264); a request withdrawn before that ends the grant (R265). -/
def State.grantedThree (s : State) : Res :=
  if s.inputs.bgack then .next s.startTenure
  else if s.inputs.br then .next s
  else .next ({ s with arb := .noRequest }).negateBg

/-- `Granted` in the two-wire protocol: the requester owns the bus from the first falling edge after
the end of the current cycle until BR is recognised negated (R260). -/
def State.grantedTwo (s : State) : Res :=
  match s.owner with
  | .processor =>
    if s.inputs.br then
      if s.run = none then .next s.handOver else .next s
    else .next ({ s with arb := .noRequest }).negateBg
  | .alternate =>
    if s.inputs.br then .next s
    else if s.run = none then .next (s.takeBack .noRequest .negated)
    else violation .returnInsideCycle

/-- `Acknowledged`: the tenure goes on while the acknowledge is seen (R258), and the bus comes back when
it is negated (R259). -/
def State.acknowledgedEdge (s : State) : Res :=
  if s.inputs.bgack then .next s.tenureEdge
  else if s.run = none then .next s.returnBus
  else violation .returnInsideCycle

/-- `Requested`: BG after the rest of its delay, unless BR goes away first (R254, R264, R265). -/
def State.requestedEdge (s : State) : State :=
  if s.inputs.br then
    match s.bgWait with
    | 0     => s.grant
    | n + 1 => { s with bgWait := n }
  else { s with arb := .noRequest }

/-- R264, R348: BGACK while the processor owns the bus and has no grant out, or is inside a cycle,
breaks the protocol. The two-wire protocol has no such line (R260). -/
def State.acknowledgeError (s : State) : Option Violation :=
  if s.params.arbWires = .three && s.inputs.bgack && s.owner = .processor then
    if s.run ≠ none then some .acknowledgeTooEarly
    else if s.arb ≠ .granted then some .acknowledgeWithoutGrant
    else none
  else none

/-- The arbiter at a falling edge (R264). -/
def State.arbiter (s : State) : Res :=
  match s.acknowledgeError with
  | some v => violation v
  | none =>
    match s.arb with
    | .noRequest    => .next (if s.inputs.br then s.request else s)
    | .requested    => .next s.requestedEdge
    | .granted      => match s.params.arbWires with
      | .three => s.grantedThree
      | .two   => s.grantedTwo
    | .acknowledged => s.acknowledgedEdge

/-- Everything but the bus controller at a falling edge. -/
def State.fallingEdge (s : State) : Res :=
  s.takeEvents.pitResetEdge.clockEdge.arbiter

end Sys2Proof.Machine
end

