-- ==== Sys2Proof/Machine/Bus.lean ====
section
/-! DEFINITION. The bus controller: one half clock of a bus cycle. The three formats of 30_encoding.md
section 1 state by state, the sampling edges, the endings, and the run of a cycle to its end. -/

namespace Sys2Proof.Machine

/-! ## Formats: what is written on entering a state -/

/-- The strobes of the last state: AS, the data strobes and VMA negated, the device's termination
with them (R139, R168, R197, R241). -/
def State.negateAll (s : State) (a : Answer) : State := (s.negateStrobes.negateAS).deviceNegates a

/-- S6 of a read: the device drives its data (R138). In a synchronous cycle the peripheral that VMA
selects has done so since E rose (R237). DEDUCED: where BERR has ended the stretch before VMA was
asserted, nothing follows E and the device drives as in any other read (log 31). -/
def State.dataPhase (s : State) (c : Cycle) : Res :=
  if s.pins.vma = .asserted then .next s else s.deviceDrives c

/-- Format R (R100): read and interrupt acknowledge. -/
def formatR (c : Cycle) (st : St) (s : State) : Res :=
  match st with
  | .S0 => .next (s.placeCodes c.fc)
  | .S1 => .next (s.driveAddr c.addr)
  | .S2 => .next (s.assertAS.assertStrobes c.strobes)
  | .S6 => s.dataPhase c
  | .S7 => .next (if s.term = .berr then s else (s.negateAll c.answer).deviceReleasesData c.answer)
  | .S9 => .next ((s.negateAll c.answer).deviceReleasesData c.answer)
  | _   => .next s

/-- Format W (R101). The device has taken the data when the strobes are negated (R168). -/
def formatW (c : Cycle) (st : St) (s : State) : Res :=
  match st with
  | .S0 => .next (s.placeCodes c.fc)
  | .S1 => .next (s.driveAddr c.addr)
  | .S2 => .next s.assertAS.driveRwLow
  | .S3 => (s.drawn 1).driveData (place c.strobes c.wdata s.freeByte)
  | .S4 => .next (s.assertStrobes c.strobes)
  | .S7 => .next (if s.term = .berr then s else (s.deviceTakes c c.wdata).negateAll c.answer)
  | .S9 => .next ((s.deviceTakes c c.wdata).negateAll c.answer)
  | _   => .next s

/-- The byte a read-modify-write cycle writes back (R190). -/
def State.newByte (s : State) (c : Cycle) : Byte := aluModify s.params.alu c.old

/-- Format M (R102). -/
def formatM (c : Cycle) (st : St) (s : State) : Res :=
  match st with
  | .S0  => .next (s.placeCodes c.fc)
  | .S1  => .next (s.driveAddr c.addr)
  | .S2  => .next (s.assertAS.assertStrobes c.strobes)
  | .S6  => s.dataPhase c
  | .S7  => .next ((s.negateStrobes.deviceNegates c.answer).deviceReleasesData c.answer)
  | .S12 => .next { s with term := .none }
  | .S14 => .next s.driveRwLow
  | .S15 => (s.drawn 1).driveData (place c.strobes (halfOfByte (s.newByte c)) s.freeByte)
  | .S16 => .next (s.assertStrobes c.strobes)
  | .S19 => .next (if s.term = .berr then s
      else (s.deviceTakes c (halfOfByte (s.newByte c))).negateAll c.answer)
  | .S21 => .next ((s.deviceTakes c (halfOfByte (s.newByte c))).negateAll c.answer)
  | _    => .next s

/-- The writes on entering `st`, by the format of the cycle. -/
def enterState (c : Cycle) (st : St) (s : State) : Res :=
  match c.kind with
  | .read  => formatR c st s
  | .iack  => formatR c st s
  | .write => formatW c st s
  | .rmw   => formatM c st s

/-! ## The order of the states -/

/-- The state after `st` where no sampling decides (R20, R41); `none` at the end of the cycle. BERR
without DTACK adds two states (R147, R201). -/
def nextSt (kind : Kind) (term : Term) (st : St) : Option St :=
  match st with
  | .start => some .S0
  | .S0 => some .S1
  | .S1 => some .S2
  | .S2 => some .S3
  | .S3 => some .S4
  | .S4 => some .S5
  | .S5 => some .S6
  | .S6 => some .S7
  | .S7 => if kind = .rmw || term = .berr then some .S8 else none
  | .S8 => some .S9
  | .S9 => if kind = .rmw then some .S10 else none
  | .S10 => some .S11
  | .S11 => some .S12
  | .S12 => some .S13
  | .S13 => some .S14
  | .S14 => some .S15
  | .S15 => some .S16
  | .S16 => some .S17
  | .S17 => some .S18
  | .S18 => some .S19
  | .S19 => if term = .berr then some .S20 else none
  | .S20 => some .S21
  | .S21 => none
  | .SwLow => some .SwHigh
  | .SwHigh => some .S5
  | .faulted => none

/-- The state after a recognised termination: S5, or S17 in the write portion (R144, R195). -/
def recognisedSt (c : Cycle) : St := if c.second then .S17 else .S5

/-- What the cycle in progress is after entering `st`; the byte read is at hand from S7 on (R201),
and S12 starts the write portion with the answer to it (R191, R195). -/
def Cycle.entered (c : Cycle) (st : St) (din : Half) : Cycle :=
  match st with
  | .S7  => { c with st := .S7, old := if c.kind = .rmw then selectByte c.strobes din else c.old }
  | .S12 => { c with st := .S12, second := true, pairs := 0, edge := 0, answer := c.answer2 }
  | st   => { c with st := st }

/-! ## The end of a cycle -/

/-- The result of a cycle (R145 to R147, R170, R171, R201, R215, R216, R222). -/
def State.finishResult (s : State) (c : Cycle) : Res :=
  match c.kind with
  | .read =>
    if s.term.isBerr then .next (s.raiseBusError .read c)
    else .next (s.report (readResult c.strobes s.din))
  | .write =>
    if s.term.isBerr then .next (s.raiseBusError .write c) else .next (s.report .ok)
  | .rmw =>
    if s.term.isBerr then .next (s.raiseBusError .rmwWrite c) else .next (s.report (.okByte c.old))
  | .iack =>
    if s.term.isBerr then
      match s.params.iackBerr with
      | some n => .next (s.report (.vector n))
      | none   => .fault (.iackBusError { kind := .iack, fc := c.fc, addr := c.addr })
    else if s.term = .dtack then .next (s.report (.vector (vectorOf s.din)))
    else .next (s.report (.vector (autovector c.level)))

/-- The cycle is in its last state, which nothing but the coming rising edge ends: its result stands,
and another cycle may start at that edge (R34, R139; log 1). DESIGN CHOICE: `term` keeps the termination of
this cycle until the next S0 (log 33). -/
def State.finish (s : State) (c : Cycle) : Res :=
  ({ s with run := none, closing := some c }).finishResult c

/-- Enters a state and, where it is the last one, leaves the cycle in it. -/
def State.goTo (s : State) (c : Cycle) (st : St) : Res :=
  andThen (enterState c st s) fun s =>
    let c := c.entered st s.din
    let s := { s with run := some c }
    match nextSt c.kind s.term st with
    | none   => s.finish c
    | some _ => .next s

/-! ## Sampling edges -/

/-- The termination lines at this sampling edge: the device's drive, and what is still asserted from
before where that counts (R47, R144, R344). -/
def State.sampleLines (s : State) (c : Cycle) (late : Bool) : State :=
  let d := c.answer.shape.driveAt c.edge late
  let adds := c.answer.shape.addsTo c.edge
  { s with inputs := { s.inputs with
      dtack := (adds && s.inputs.dtack) || d.dtack
      berr := (adds && s.inputs.berr) || d.berr
      vpa := (adds && s.inputs.vpa) || d.vpa
      avec := (adds && s.inputs.avec) || d.avec } }

/-- AVEC counts in an acknowledge cycle of a machine that has it (R218). -/
def State.avecCounts (s : State) (c : Cycle) : Bool :=
  s.params.hasAvec && c.kind = .iack && s.inputs.avec

/-- One wait pair more (R136, R41). -/
def Cycle.waiting (c : Cycle) : Cycle :=
  { c with st := .SwLow, pairs := c.pairs + 1, edge := c.edge + 1 }

/-- VMA in the stretch: asserted at the first edge at which E is low with the margin to spare
(R236). -/
def State.stretchVma (s : State) : State := if vmaWindow s.ephase then s.assertVma else s

/-- Carries out a decision. While `term = vpa` a wait pair may assert VMA (R245). -/
def State.follow (s : State) (c : Cycle) (d : Decision) : Res :=
  match d with
  | .violation    => violation .dtackAndVpa
  | .proceed term => ({ s with term := term }).goTo { c with edge := c.edge + 1 } (recognisedSt c)
  | .wait .vpa    => .next { s.stretchVma with term := .vpa, run := some c.waiting }
  | .wait term    => .next { s with term := term, run := some c.waiting }

/-- The falling edge that ends S4, S16 or a wait pair (R144, R195, R245). -/
def State.sampleAndDecide (s : State) (c : Cycle) : Res :=
  let s := s.sampleLines c false
  let i := s.inputs
  match s.term with
  | .vpa => s.follow c (decideStretch i.dtack i.berr (s.pins.vma = .asserted) s.ephase)
  | _    => s.follow c (decideFirst i.dtack i.berr i.vpa (s.avecCounts c))

/-- A read latches at end(S6) (R138, R187, R239); a write latches nothing (R167). -/
def State.latchFor (s : State) (c : Cycle) : State :=
  match c.kind with
  | .write => s
  | .read  => s.latch c.strobes
  | .iack  => s.latch c.strobes
  | .rmw   => s.latch c.strobes

/-- The falling edge that ends S6: the data are latched, BERR and VPA are sampled once more (R138,
R140, R144), and a read-modify-write cycle whose read portion BERR has ended returns its BusError
(R198, R201). -/
def State.endS6 (s : State) (c : Cycle) : Res :=
  let s := (s.sampleLines c true).latchFor c
  let i := s.inputs
  match decideLate s.term i.dtack i.berr i.vpa with
  | none => violation .dtackAndVpa
  | some term =>
    let s := { s with term := term }
    if c.kind = .rmw && term.isBerr then
      .next (({ s with run := some { c with st := .faulted } }).raiseBusError .rmwRead c)
    else s.goTo c .S7

/-- The bus controller at an edge of CLK. -/
def State.controllerEdge (s : State) : Res :=
  match s.run with
  | none => .next s
  | some c =>
    match c.st with
    | .S4      => s.sampleAndDecide c
    | .S16     => s.sampleAndDecide c
    | .SwHigh  => s.sampleAndDecide c
    | .SwLow   => .next { s with run := some { c with st := .SwHigh } }
    | .S6      => s.endS6 c
    | .faulted => .fault .rmwReadContinuation
    | st =>
      match nextSt c.kind s.term st with
      | some st' => s.goTo c st'
      | none     => s.finish c

/-! ## The peripheral of a synchronous cycle (R237) -/

/-- The portion in progress is a read. -/
def Cycle.reads (c : Cycle) : Bool :=
  match c.kind with
  | .read  => true
  | .iack  => true
  | .rmw   => !c.second
  | .write => false

/-- The peripheral that VMA selects drives read data while E is high: from the edge at which E rises,
with the value its answer gives for end(S6), three sampling edges on (R238), to the edge at which E
falls, where the data have been latched (R237). -/
def State.peripheralEdge (s : State) : Res :=
  match s.run with
  | none => .next s
  | some c =>
    if s.pins.vma = .asserted && c.reads then
      if eRises s.ephase then s.deviceDrives { c with edge := c.edge + 3 }
      else if eFalls s.ephase then .next (s.deviceReleasesData c.answer)
      else .next s
    else .next s

/-! ## Half clocks and whole cycles -/

/-- One half clock (R20): a rising edge and a high half, or a falling edge and a low half. A rising
edge first ends the last state of a cycle that is over, since `end(S7)` may be `rise(S0)` of what
follows. At a falling edge come the events, the PI/T's RESET, E, `ipl_seen` and the arbiter, then the
bus controller, then the peripheral that follows E; the order of RESET before a store is a DESIGN CHOICE
(log 20). -/
def State.halfClock (s : State) : Res :=
  match s.clk with
  | .low  => ({ s with clk := .high }).releaseClosing.controllerEdge
  | .high => andThen ({ s with clk := .low }).fallingEdge fun s =>
      andThen s.controllerEdge State.peripheralEdge

/-- One CLK cycle. -/
def State.clkCycle (s : State) : Res := andThen s.halfClock State.halfClock

/-- The cycle in progress is over: it has ended, or the spec defines no further state of it
(R198). -/
def State.cycleOver (s : State) : Bool :=
  match s.run with
  | none => true
  | some c => c.st = .faulted

/-- Half clocks until the cycle is over, at most `n`. -/
def runCycle : Nat → State → Res
  | 0, s => .next s
  | n + 1, s => if s.cycleOver then .next s else andThen s.halfClock (runCycle n)

/-- How many wait pairs an answer may ask for by itself. -/
def Shape.patience : Shape → Nat
  | .resident      => 0
  | .dtack w _     => w
  | .berr w        => w
  | .berrDtack w _ => w
  | .lateBerr w _  => w
  | .vpa w         => w
  | .never         => 0
  | .edges l       => l.length

/-- More half clocks than a cycle with these answers takes if it ends at all: 22 states, 14 wait
pairs for E in each portion (R238), and the answers' own. A cycle that has not ended by then (R150)
is left waiting, and each further step is one CLK cycle of it (log 1). -/
def cycleBudget (c : Cycle) : Nat :=
  2 * (64 + c.answer.shape.patience + c.answer2.shape.patience)

/-- The next scripted answer, with `resident` filled in (R117). -/
def State.answerFor (s : State) (c : Cycle) (scripted : Option Answer) : Answer :=
  let a := scripted.getD (Answer.of .resident)
  match a.shape with
  | .resident => { a with shape := s.residentShape c }
  | _ => a

/-- How many answers a cycle takes (R117). -/
def answersTaken : Kind → Nat
  | .rmw => 2
  | .read => 1
  | .write => 1
  | .iack => 1

/-- A cycle that has not started, with the environment's answers to it. -/
def State.prepared (s : State) (c : Cycle) : Cycle :=
  { c with
    answer := s.answerFor c s.answers.head?
    answer2 := s.answerFor c (s.answers.drop 1).head? }

/-- Starts a cycle and runs it to its end. Cycles never overlap (R84). -/
def runTransaction (c : Cycle) (s : State) : Res :=
  match s.run with
  | some _ => .refused .cycleInProgress
  | none =>
    let c := s.prepared c
    runCycle (cycleBudget c) { s with run := some c, answers := s.answers.drop (answersTaken c.kind) }

/-- A cycle before S0 with these fields. -/
def newCycle (kind : Kind) (fc : Fc) (addr : Addr) (strobes : Strobes) (wdata : Half) (level : Level) :
    Cycle :=
  { kind := kind, fc := fc, addr := addr, strobes := strobes, wdata := wdata, level := level
    st := .start, second := false, pairs := 0, edge := 0, old := 0
    answer := Answer.of .resident, answer2 := Answer.of .resident }

/-- A meaning refuses what R120 refuses, before any state is entered, and else runs its cycle. -/
def guarded (i : Instr) (c : Cycle) (s : State) : Res :=
  match i.illegal s.params.dataBus with
  | some why => .refused (.illegal why)
  | none     => runTransaction c s

/-! ## Views -/

/-- The cycle the bus is in: the one in progress, or the one in its last state (R41). -/
def State.current (s : State) : Option Cycle :=
  match s.run with
  | some c => some c
  | none   => s.closing

/-- `cyc` (R41). -/
def State.cyc (s : State) : Cyc :=
  match s.owner with
  | .alternate => .released
  | .processor =>
    match s.current with
    | none => .idle
    | some c =>
      match c.kind with
      | .read  => .read
      | .write => .write
      | .rmw   => .rmw
      | .iack  => .iack

/-- E (R50). -/
def State.eHigh (s : State) : Bool := Machine.eHigh s.ephase

end Sys2Proof.Machine
end

