-- ==== Sys2Proof/Machine/Iack.lean ====
section
/-! DEFINITION. The interrupt acknowledge cycle (43_iack_cycle.md): IACK. -/

namespace Sys2Proof.Machine

/-- IACK (R210, R224): a read in CPU space with the level on A3-A1, which the processor runs while it
owns the bus (R220, R257). -/
def execIack (level : Level) (s : State) : Res :=
  if s.owner = .processor then
    guarded (.iack level)
      (newCycle .iack Config.cpuSpace (ackAddr level) (ackStrobes s.params.dataBus) 0 level) s
  else .refused .iackWithoutBus

end Sys2Proof.Machine
end

