-- ==== Sys2Proof/Machine/Read.lean ====
section
/-! DEFINITION. The read cycle (40_read_cycle.md): RD.W, RD.BU, RD.BL, RD.B8. -/

namespace Sys2Proof.Machine

/-- RD.W (R130, R149): a word under UDS and LDS. -/
def execRdW (fc : Fc) (addr : Addr) (s : State) : Res :=
  guarded (.rdW fc addr) (newCycle .read fc addr .word 0 0) s

/-- RD.BU (R130, R149): a byte on D15-D8 under UDS. -/
def execRdBU (fc : Fc) (addr : Addr) (s : State) : Res :=
  guarded (.rdBU fc addr) (newCycle .read fc addr .upper 0 0) s

/-- RD.BL (R130, R149): a byte on D7-D0 under LDS. -/
def execRdBL (fc : Fc) (addr : Addr) (s : State) : Res :=
  guarded (.rdBL fc addr) (newCycle .read fc addr .lower 0 0) s

/-- RD.B8 (R111, R130): a byte on D7-D0 under DS. -/
def execRdB8 (fc : Fc) (addr : Addr) (s : State) : Res :=
  guarded (.rdB8 fc addr) (newCycle .read fc addr .ds 0 0) s

end Sys2Proof.Machine
end

