-- ==== Sys2Proof/Machine/Rmw.lean ====
section
/-! DEFINITION. The read-modify-write cycle (42_rmw_cycle.md): RMW.BU, RMW.BL, RMW.B8. -/

namespace Sys2Proof.Machine

/-- RMW.BU (R180, R201): a byte on D15-D8 under UDS. -/
def execRmwBU (fc : Fc) (addr : Addr) (s : State) : Res :=
  guarded (.rmwBU fc addr) (newCycle .rmw fc addr .upper 0 0) s

/-- RMW.BL (R180, R201): a byte on D7-D0 under LDS. -/
def execRmwBL (fc : Fc) (addr : Addr) (s : State) : Res :=
  guarded (.rmwBL fc addr) (newCycle .rmw fc addr .lower 0 0) s

/-- RMW.B8 (R111, R180): a byte on D7-D0 under DS. -/
def execRmwB8 (fc : Fc) (addr : Addr) (s : State) : Res :=
  guarded (.rmwB8 fc addr) (newCycle .rmw fc addr .ds 0 0) s

end Sys2Proof.Machine
end

