-- ==== Sys2Proof/Machine/Write.lean ====
section
/-! DEFINITION. The write cycle (41_write_cycle.md): WR.W, WR.BU, WR.BL, WR.B8. -/

namespace Sys2Proof.Machine

/-- WR.W (R160, R175): a word under UDS and LDS. -/
def execWrW (fc : Fc) (addr : Addr) (v16 : Half) (s : State) : Res :=
  guarded (.wrW fc addr v16) (newCycle .write fc addr .word v16 0) s

/-- WR.BU (R160, R175): a byte on D15-D8 under UDS. -/
def execWrBU (fc : Fc) (addr : Addr) (v8 : Byte) (s : State) : Res :=
  guarded (.wrBU fc addr v8) (newCycle .write fc addr .upper (halfOfByte v8) 0) s

/-- WR.BL (R160, R175): a byte on D7-D0 under LDS. -/
def execWrBL (fc : Fc) (addr : Addr) (v8 : Byte) (s : State) : Res :=
  guarded (.wrBL fc addr v8) (newCycle .write fc addr .lower (halfOfByte v8) 0) s

/-- WR.B8 (R111, R160): a byte on D7-D0 under DS. -/
def execWrB8 (fc : Fc) (addr : Addr) (v8 : Byte) (s : State) : Res :=
  guarded (.wrB8 fc addr v8) (newCycle .write fc addr .ds (halfOfByte v8) 0) s

end Sys2Proof.Machine
end

