-- ==== Sys2Proof/Machine/Dispatch.lean ====
section
/-! DEFINITION. One arm for each bus cycle of spec/opcode_table.json. -/

namespace Sys2Proof.Machine

def exec (i : Instr) (s : State) : Host.Outcome State Fault Refusal :=
  match i with
  | .iack level => Sys2Proof.Machine.execIack level s
  | .rdW fc addr => Sys2Proof.Machine.execRdW fc addr s
  | .rdBU fc addr => Sys2Proof.Machine.execRdBU fc addr s
  | .rdBL fc addr => Sys2Proof.Machine.execRdBL fc addr s
  | .wrW fc addr v16 => Sys2Proof.Machine.execWrW fc addr v16 s
  | .wrBU fc addr v8 => Sys2Proof.Machine.execWrBU fc addr v8 s
  | .wrBL fc addr v8 => Sys2Proof.Machine.execWrBL fc addr v8 s
  | .rmwBU fc addr => Sys2Proof.Machine.execRmwBU fc addr s
  | .rmwBL fc addr => Sys2Proof.Machine.execRmwBL fc addr s
  | .rdB8 fc addr => Sys2Proof.Machine.execRdB8 fc addr s
  | .wrB8 fc addr v8 => Sys2Proof.Machine.execWrB8 fc addr v8 s
  | .rmwB8 fc addr => Sys2Proof.Machine.execRmwB8 fc addr s

end Sys2Proof.Machine
end

