-- ==== Sys2Proof/Machine/Issue.lean ====
section
/-! DEFINITION. Issuing transactions: which program the master of the bus runs next, when it may, and
how a table word is placed where the next step fetches. -/

namespace Sys2Proof.Machine

/-- The transactions of the present master (R46, R257). -/
def State.queue (s : State) : List Item :=
  match s.owner with
  | .processor => s.program
  | .alternate => s.altProgram

/-- The present master's transactions replaced. -/
def State.withQueue (s : State) (q : List Item) : State :=
  match s.owner with
  | .processor => { s with program := q }
  | .alternate => { s with altProgram := q }

/-- Bytes that follow a transaction in its item. -/
def restOf (more : List Byte) (rest : List Item) : List Item :=
  match more with
  | [] => rest
  | b :: bs => .code (b :: bs) :: rest

/-- R254: the processor starts no cycle while the bus is granted away; the alternate master runs its
own while it owns the bus (R257). -/
def State.busAvailable (s : State) : Bool :=
  match s.owner with
  | .processor => s.arb ≠ .granted && s.arb ≠ .acknowledged
  | .alternate => true

/-- R283: the processor issues `IACK n` only if `ipl_seen = n` held at some earlier falling edge. -/
def State.mayIssue (s : State) (i : Instr) : Bool :=
  match s.owner with
  | .alternate => true
  | .processor =>
    match i with
    | .iack level => s.iplHistory.getLsbD level.toNat
    | _ => true

/-- An idle bus takes the next item: a cycle is run, an IDLE counts one CLK cycle (R115), and where
there is nothing to run, or nothing that may be issued yet, one CLK cycle passes. -/
def State.issue (s : State) : Res :=
  match s.queue with
  | [] => s.clkCycle
  | .idle 0 :: rest => .next (s.withQueue rest)
  | .idle (n + 1) :: rest => (s.withQueue (.idle n :: rest)).clkCycle
  | .code bytes :: rest =>
    match decode s.params.dataBus bytes with
    | .error why => .refused (.undecodable why)
    | .ok (i, more) =>
      if s.mayIssue i then exec i (s.withQueue (restOf more rest)) else s.clkCycle

/-- One step: a whole bus cycle where one is issued, else one CLK cycle (log 1). DESIGN CHOICE: while
the bus is granted away or another master owns it, an `IDLE n` at the head of the processor's program
does not count (log 32). -/
def stepOnce (s : State) : Res :=
  match s.run with
  | some _ => s.clkCycle
  | none   => if s.busAvailable then s.issue else s.clkCycle

/-- The level a table word acknowledges has been recognised (R283). -/
def markSeen (i : Option Instr) (history : BitVec 8) : BitVec 8 :=
  match i with
  | some (.iack level) => history ||| ((1 : BitVec 8) <<< level.toNat)
  | _ => history

/-- A table word as the next transaction of the master that owns the bus, with what its issue takes:
the data bus mode its row belongs to (R105), and for IACK the level recognised before (R283). -/
def placeWord (s : State) (nbits w : Nat) : State :=
  ({ s with
    params := { s.params with dataBus := tableMode nbits w }
    iplHistory := markSeen (decodeTableWord nbits w) s.iplHistory }).withQueue
      (.code (tableBytes nbits w) :: s.queue)

end Sys2Proof.Machine
end

