-- ==== Sys2Proof/Machine/Observe.lean ====
section
/-! DEFINITION. What an observer of the bus sees: the states after each half clock of a transaction,
and the cycle identification word of 30_encoding.md R110. -/

namespace Sys2Proof.Machine

/-- The cycle a transaction asks for, before it starts. -/
def cycleOf (bus : DataBus) : Instr → Cycle
  | .iack level   => newCycle .iack Config.cpuSpace (ackAddr level) (ackStrobes bus) 0 level
  | .rdW fc a     => newCycle .read fc a .word 0 0
  | .rdBU fc a    => newCycle .read fc a .upper 0 0
  | .rdBL fc a    => newCycle .read fc a .lower 0 0
  | .wrW fc a v   => newCycle .write fc a .word v 0
  | .wrBU fc a v  => newCycle .write fc a .upper (halfOfByte v) 0
  | .wrBL fc a v  => newCycle .write fc a .lower (halfOfByte v) 0
  | .rmwBU fc a   => newCycle .rmw fc a .upper 0 0
  | .rmwBL fc a   => newCycle .rmw fc a .lower 0 0
  | .rdB8 fc a    => newCycle .read fc a .ds 0 0
  | .wrB8 fc a v  => newCycle .write fc a .ds (halfOfByte v) 0
  | .rmwB8 fc a   => newCycle .rmw fc a .ds 0 0

/-- The state in which the first half clock of a cycle runs. -/
def launched (c : Cycle) (s : State) : State :=
  { s with run := some (s.prepared c), answers := s.answers.drop (answersTaken c.kind) }

/-- The states after each half clock of the cycle that is starting or in progress, at most `n`. -/
def halfTrace : Nat → State → List State
  | 0, _ => []
  | n + 1, s =>
    if s.cycleOver then []
    else
      match s.halfClock with
      | .next t    => t :: halfTrace n t
      | .fault _   => []
      | .refused _ => []

/-- A data strobe is asserted. -/
def Pins.strobed (p : Pins) : Bool := p.uds = .asserted || p.lds = .asserted || p.ds = .asserted

/-- `u` of R110; with DS both bits are its value (R111). -/
def Pins.seenU (p : Pins) : Bool := p.uds = .asserted || p.ds = .asserted

/-- `l` of R110; with DS both bits are its value (R111). -/
def Pins.seenL (p : Pins) : Bool := p.lds = .asserted || p.ds = .asserted

/-- The pins before the first strobe, and from it on. -/
def fromFirstStrobe : List Pins → List Pins
  | [] => []
  | p :: rest => if p.strobed then p :: rest else fromFirstStrobe rest

/-- AS at the first moment at which the strobes are negated again. -/
def asWhenNegated : List Pins → Bool
  | [] => false
  | p :: rest => if p.strobed then asWhenNegated rest else p.strobeAS = .asserted

/-- The cycle identification word an observer reads from the pins (R110). -/
def observeCiw (trace : List Pins) : Option Ciw :=
  match fromFirstStrobe trace with
  | [] => none
  | p :: rest =>
    match p.fc with
    | none => none
    | some fc => some (ciwOf (asWhenNegated rest) fc (p.rw = .high) p.seenU p.seenL)

/-- The pins after each half clock of a transaction that starts at the coming rising edge. -/
def observedPins (i : Instr) (s : State) : List Pins :=
  let c := cycleOf s.params.dataBus i
  (halfTrace (cycleBudget (s.prepared c)) (launched c s)).map (·.pins)

end Sys2Proof.Machine
end

