-- ==== Sys2Proof/Safety.lean ====
section
/-! DEFINITION. What claims are stated in: which states a cycle starts from, what keeps a run within
the protocol, and the invariants of the machine. -/

namespace Sys2Proof.Machine

/-! ## Environments that keep the protocol -/

/-- An event that touches neither the acknowledge line nor the PI/T. -/
def Event.harmless : Event → Bool
  | .brPlus     => true
  | .brMinus    => true
  | .ipl _      => true
  | .ackPlus    => false
  | .ackMinus   => false
  | .pitReset _ => false
  | .portA _    => false
  | .portB _    => false

/-- Nobody acknowledges a bus grant and nothing happens to the PI/T from outside while the processor
runs cycles; requests and interrupts may come at any time. -/
structure State.Calm (s : State) : Prop where
  owner    : s.owner = .processor
  arb      : s.arb ≠ .acknowledged
  bgack    : s.inputs.bgack = false
  pitReset : s.inputs.pitReset = false
  events   : ∀ e ∈ s.events, e.2.harmless = true

/-- The alternate master owns the bus and keeps it: it goes on acknowledging (three wires, R259), or
goes on requesting (two wires, R260). -/
structure State.Tenure (s : State) : Prop where
  owner    : s.owner = .alternate
  held     : (s.params.arbWires = .three ∧ s.arb = .acknowledged ∧ s.inputs.bgack = true) ∨
             (s.params.arbWires = .two ∧ s.arb = .granted ∧ s.inputs.br = true)
  pitReset : s.inputs.pitReset = false
  events   : ∀ e ∈ s.events, e.2.harmless = true ∧ (s.params.arbWires = .two → e.2 ≠ .brMinus)

/-- No cycle is in progress, VMA is negated (R53) and every device has let go, with CLK low: a cycle may start at the coming
rising edge, which is also the one that ends the last state of the cycle before (R151 e). -/
structure State.BusFree (s : State) : Prop where
  run   : s.run = none
  clk   : s.clk = .low
  data  : s.releaseClosing.pins.data = DataLines.z
  held  : s.held = DataLines.z
  vma   : s.pins.vma = .negated
  dtack : s.inputs.dtack = false
  berr  : s.inputs.berr = false
  vpa   : s.inputs.vpa = false
  avec  : s.inputs.avec = false

/-- The processor may start a cycle at the coming rising edge, and no device is still driving a
termination or the data bus (R141). -/
structure State.Ready (s : State) : Prop extends s.Calm, s.BusFree

/-! ## Runs -/

/-- `n` steps of the machine from `s` end in `t`. -/
def State.runsTo (s : State) (n : Nat) (t : State) : Prop := Host.Core.run Sys2Proof.core n s = .next t

/-- A transaction that started in `s` has come to the low half of its last state in `t`, with result
`r` and after `n` CLK cycles; the bus is free from the coming rising edge on, and its master is the one
it was. -/
structure Completed (s t : State) (r : Result) (n : Nat) : Prop extends t.BusFree where
  results : t.results = { master := s.owner, result := r } :: s.results
  length  : t.clkCount = s.clkCount + n
  owner   : t.owner = s.owner

/-! ## Lengths -/

/-- R238: the wait pairs after VPA is recognised with E in phase `p`. -/
def syncPairs (p : Nat) : Nat := if p ≤ 4 then 9 - p else 19 - p

/-- R238: the CLK cycles of a read, write or acknowledge cycle whose device asserts VPA after `w`
wait pairs, where `e0` is the phase of E during S0. -/
def syncLength (e0 w : Nat) : Nat := 4 + w + syncPairs ((e0 + 3 + w) % 10)

/-! ## What a cycle stores -/

/-- The keys of the bytes of plain memory that a bus cycle stores to. -/
def storedKeys (m : FcMap) : Instr → List Nat
  | .iack _       => []
  | .rdW _ _      => []
  | .rdBU _ _     => []
  | .rdBL _ _     => []
  | .wrW fc a _   => [cellKey m fc (upperByteAddr a), cellKey m fc (lowerByteAddr .word a)]
  | .wrBU fc a _  => [cellKey m fc (upperByteAddr a)]
  | .wrBL fc a _  => [cellKey m fc (lowerByteAddr .lower a)]
  | .rmwBU fc a   => [cellKey m fc (upperByteAddr a)]
  | .rmwBL fc a   => [cellKey m fc (lowerByteAddr .lower a)]
  | .rdB8 _ _     => []
  | .wrB8 fc a _  => [cellKey m fc (lowerByteAddr .ds a)]
  | .rmwB8 fc a   => [cellKey m fc (lowerByteAddr .ds a)]

/-- The byte addresses a bus cycle stores to (R75, R76). -/
def storedAddrs : Instr → List Addr
  | .iack _      => []
  | .rdW _ _     => []
  | .rdBU _ _    => []
  | .rdBL _ _    => []
  | .wrW _ a _   => [upperByteAddr a, lowerByteAddr .word a]
  | .wrBU _ a _  => [upperByteAddr a]
  | .wrBL _ a _  => [lowerByteAddr .lower a]
  | .rmwBU _ a   => [upperByteAddr a]
  | .rmwBL _ a   => [lowerByteAddr .lower a]
  | .rdB8 _ _    => []
  | .wrB8 _ a _  => [lowerByteAddr .ds a]
  | .rmwB8 _ a   => [lowerByteAddr .ds a]

/-- A PI/T register that one of these byte addresses is (R300). -/
def pitTouches (w : Option PitWiring) (addrs : List Addr) (r : PitReg) : Prop :=
  ∃ a ∈ addrs, ∃ sel, pitSelect w a = some sel ∧ PitReg.ofSel sel = some r

/-- The registers of the PI/T of which a write may be claimed to leave anything: not the status, count
and alternate registers (R301, 93 U14). -/
def PitReg.claimable : PitReg → Bool
  | .psr | .tsr | .cnth | .cntm | .cntl | .paar | .pbar => false
  | .pgcr | .psrr | .paddr | .pbddr | .pcddr | .pivr | .pacr | .pbcr | .padr | .pbdr | .pcdr
  | .tcr | .tivr | .cprh | .cprm | .cprl => true

/-- The resident device at a byte address holds `v`: as a byte of plain memory (R90), or as the cell
of a PI/T register, whose unused bits are 0 (R301). Nothing is claimed of the registers that U14 names,
and the null addresses hold nothing (R321). -/
def State.Holds (s : State) (fc : Fc) (a : Addr) (v : Byte) : Prop :=
  match pitSelect s.params.pit a with
  | none     => s.mem.read (cellKey s.params.fcMap fc a) = some v
  | some sel => ∀ r, PitReg.ofSel sel = some r → r.claimable = true →
      s.pit.cell s.inputs.portA s.inputs.portB r = v &&& r.usedBits

/-! ## The invariant of the bus (R100 to R102) -/

/-- The number of the state a cycle is in; a wait pair prolongs S4, or S16 in the write portion
(R20), and `faulted` follows S6 (R198). -/
def Cycle.pos (c : Cycle) : Nat :=
  match c.st with
  | .start => 0
  | .S0 => 0
  | .S1 => 1
  | .S2 => 2
  | .S3 => 3
  | .S4 => 4
  | .S5 => 5
  | .S6 => 6
  | .S7 => 7
  | .S8 => 8
  | .S9 => 9
  | .S10 => 10
  | .S11 => 11
  | .S12 => 12
  | .S13 => 13
  | .S14 => 14
  | .S15 => 15
  | .S16 => 16
  | .S17 => 17
  | .S18 => 18
  | .S19 => 19
  | .S20 => 20
  | .S21 => 21
  | .SwLow => if c.second then 16 else 4
  | .SwHigh => if c.second then 16 else 4
  | .faulted => 6

/-- The states before the last one in which the selected data strobes are asserted (column UDS/LDS of
R100, R101, R102). -/
def Cycle.strobing (c : Cycle) : Bool :=
  match c.kind with
  | .read  => 2 ≤ c.pos
  | .iack  => 2 ≤ c.pos
  | .write => 4 ≤ c.pos
  | .rmw   => (2 ≤ c.pos && c.pos ≤ 6) || 16 ≤ c.pos

/-- The states in which R/W is low (column R/W). -/
def Cycle.writing (c : Cycle) : Bool :=
  match c.kind with
  | .read  => false
  | .iack  => false
  | .write => 2 ≤ c.pos
  | .rmw   => 14 ≤ c.pos

/-- The states in which the master drives the data bus (column data bus). -/
def Cycle.drivingData (c : Cycle) : Bool :=
  match c.kind with
  | .read  => false
  | .iack  => false
  | .write => 3 ≤ c.pos
  | .rmw   => 15 ≤ c.pos

/-- What the master drives on the data bus (R164, R194). -/
def State.outData (s : State) (c : Cycle) : Half :=
  match c.kind with
  | .rmw => halfOfByte (s.newByte c)
  | .write => c.wdata
  | .read => 0
  | .iack => 0

/-- Which states a cycle of each kind passes through, and which terminations are recognised in them
(R41, R42, R144, R147, R198, R201). -/
def Cycle.legal (c : Cycle) (term : Term) : Bool :=
  match c.st with
  | .start => !c.second
  | .S0 | .S1 | .S2 | .S3 | .S4 => !c.second && term = .none
  | .SwLow | .SwHigh => (term = .none || term = .vpa) && (!c.second || c.kind = .rmw)
  | .S5 | .S6 => !c.second && term ≠ .none && (term ≠ .avec || c.kind = .iack)
  | .S7 | .S8 => !c.second &&
      (if c.kind = .rmw then term = .dtack || term = .vpa else term = .berr)
  | .S9 | .S10 | .S11 => !c.second && c.kind = .rmw && (term = .dtack || term = .vpa)
  | .S12 | .S13 | .S14 | .S15 | .S16 => c.second && c.kind = .rmw && term = .none
  | .S17 | .S18 => c.second && c.kind = .rmw && term ≠ .none && term ≠ .avec
  | .S19 | .S20 => c.second && c.kind = .rmw && term = .berr
  | .S21 => false
  | .faulted => !c.second && c.kind = .rmw && term.isBerr

/-- The lines between cycles (R34, R35, R36, R44, R53, R60); an alternate master that has not run a
cycle yet leaves them Z (R256). -/
structure State.LinesIdle (s : State) : Prop where
  addr : s.pins.addr = none
  as   : s.pins.strobeAS ≠ .asserted
  uds  : s.pins.uds ≠ .asserted
  lds  : s.pins.lds ≠ .asserted
  ds   : s.pins.ds ≠ .asserted
  rw   : s.pins.rw ≠ .low
  vma  : s.pins.vma = .negated
  own  : s.owner = .processor → s.pins.strobeAS = .negated ∧ s.pins.uds = .negated ∧
    s.pins.lds = .negated ∧ s.pins.ds = .negated ∧ s.pins.rw = .high

/-- The lines in a state of a cycle, column by column of R100, R101 and R102. -/
structure State.Shows (s : State) (c : Cycle) : Prop where
  fc   : s.pins.fc = some c.fc
  addr : s.pins.addr = if 1 ≤ c.pos then some (linesOf c.addr) else none
  as   : s.pins.strobeAS = assertIf (2 ≤ c.pos) .negated
  uds  : s.pins.uds = assertIf (c.strobing && c.strobes.selectsUpper) .negated
  lds  : s.pins.lds = assertIf (c.strobing && c.strobes.selectsLower) .negated
  ds   : s.pins.ds = assertIf (c.strobing && c.strobes.selectsDs) .negated
  rw   : s.pins.rw = if c.writing then .low else .high
  data : c.drivingData = true → ∃ fill, s.pins.data = place c.strobes (s.outData c) fill
  vma  : s.pins.vma = .negated ∨
    (s.pins.vma = .asserted ∧ c.strobing = true ∧ (s.term = .vpa ∨ s.term = .berr))

/-- The states a cycle ends in: S7; S9 after BERR without DTACK; S19 and S21 of a read-modify-write
cycle (R41, R147, R197, R201). -/
def Cycle.atLast (c : Cycle) (term : Term) : Bool :=
  match c.kind with
  | .rmw => c.second && c.st = (if term = .berr then .S21 else .S19)
  | _    => !c.second && c.st = (if term = .berr then .S9 else .S7)

/-- The lines in the last state of a cycle: AS, the strobes and VMA negated, the address still valid,
and after a cycle that writes R/W still low and the data still driven (R34, R37, R38, R139, R168,
R197, R241). -/
structure State.Closes (s : State) (c : Cycle) : Prop where
  fc   : s.pins.fc = some c.fc
  addr : s.pins.addr = some (linesOf c.addr)
  as   : s.pins.strobeAS = .negated
  uds  : s.pins.uds = .negated
  lds  : s.pins.lds = .negated
  ds   : s.pins.ds = .negated
  rw   : s.pins.rw = if c.writing then .low else .high
  data : c.drivingData = true → ∃ fill, s.pins.data = place c.strobes (s.outData c) fill
  vma  : s.pins.vma = .negated
  clk  : s.clk = .low
  last : c.atLast s.term = true

/-- The bus is idle, or the lines and the termination are those of the state the bus is in. A cycle
about to start does so at the edge that ends the last state of the one before. -/
structure State.BusInv (s : State) : Prop where
  /-- A device that has not let go is the one driver of the data bus (R347). -/
  held  : s.held = DataLines.z ∨ (s.pins.data = s.held ∧
    ∀ c, s.run = some c ∨ s.closing = some c → c.drivingData = false)
  idle  : s.run = none → s.closing = none → s.LinesIdle
  ends  : ∀ c, s.closing = some c → s.Closes c ∧ ∀ d, s.run = some d → d.st = .start
  legal : ∀ c, s.run = some c → c.legal s.term = true
  start : ∀ c, s.run = some c → c.st = .start → s.closing = none → s.LinesIdle
  shows : ∀ c, s.run = some c → c.st ≠ .start → s.Shows c

/-! ## The invariant of the arbiter (R54, R256, R258, R260) -/

/-- BG is out in this part of a tenure. -/
def TenureBg.out : TenureBg → Bool
  | .standing _ _ => true
  | .again _      => true
  | .off _        => false

/-- BG is out exactly as far as R54 and, within a tenure, R258 say, and the bus belongs to the alternate master exactly in its
tenure. -/
structure State.ArbInv (s : State) : Prop where
  line    : s.pins.bg = .asserted ∨ s.pins.bg = .negated
  granted : s.arb = .granted → s.pins.bg = .asserted
  bg      : s.pins.bg = .asserted → s.arb = .granted ∨ s.arb = .acknowledged
  tenure  : s.arb = .acknowledged → (s.pins.bg = .asserted ↔ s.tenureBg.out = true)
  three   : s.params.arbWires = .three → (s.owner = .alternate ↔ s.arb = .acknowledged)
  two     : s.params.arbWires = .two → s.arb ≠ .acknowledged ∧ (s.owner = .alternate → s.arb = .granted)

/-! ## The clock (R20) -/

/-- The states in which CLK is high: the even-numbered ones and the high half of a wait pair (R20). -/
def St.clkHigh : St → Bool
  | .S0 | .S2 | .S4 | .S6 | .S8 | .S10 | .S12 | .S14 | .S16 | .S18 | .S20 | .SwHigh => true
  | .start | .S1 | .S3 | .S5 | .S7 | .S9 | .S11 | .S13 | .S15 | .S17 | .S19 | .S21 | .SwLow
  | .faulted => false

/-- A cycle in progress is in a state of the present half of CLK (R20). -/
def State.inPhase (s : State) : Prop := ∀ c, s.run = some c → (c.st.clkHigh = true ↔ s.clk = .high)

/-! ## All of it -/

/-- The invariant every step keeps. -/
structure State.Inv (s : State) : Prop where
  bus   : s.BusInv
  arb   : s.ArbInv
  mem   : s.mem.wf = true
  pit   : s.pit.wf = true
  clk   : s.clk = .low
  phase : s.inPhase

end Sys2Proof.Machine
end

