-- ==== Sys2Proof/Certificates/Slice0/Obligations.lean ====
section
/-! DEFINITION. The statements for the provers. Each says in its docstring which rule of spec/ it
formalises, or which entry of notes/assumptions/ it rests on. -/

open Sys2Proof Sys2Proof.Machine

/-! ## Encoding (30_encoding.md) -/

/-- No bit of an encoding is dropped: R110, R111 with the operand bytes of log 2 and log 3. -/
def Obligations.DecodeOfEncodeIsTheInstruction : Prop :=
  ∀ (bus : DataBus) (i : Instr) (rest : List Byte), i.wf bus = true →
    decode bus (encode i ++ rest) = .ok (i, rest)

/-- Bytes that decode are the encoding of a well-formed instruction, and of one only (R120; log 2). -/
def Obligations.EncodeOfDecodeIsTheBytes : Prop :=
  ∀ (bus : DataBus) (bytes : List Byte) (i : Instr) (rest : List Byte),
    decode bus bytes = .ok (i, rest) → i.wf bus = true ∧ encode i ++ rest = bytes

/-- R111: the opcode map, row by row, in both data bus modes. -/
def Obligations.OpcodeMapSelectsTheRow : Prop :=
  (∀ bus, rowOf bus (ciwOf false 7 true true true) = .ok .iack) ∧
  ∀ fc : Fc, fc ≠ 7 →
    rowOf .d16 (ciwOf false fc true true true) = .ok (.rdW fc) ∧
    rowOf .d16 (ciwOf false fc true true false) = .ok (.rdBU fc) ∧
    rowOf .d16 (ciwOf false fc true false true) = .ok (.rdBL fc) ∧
    rowOf .d16 (ciwOf false fc false true true) = .ok (.wrW fc) ∧
    rowOf .d16 (ciwOf false fc false true false) = .ok (.wrBU fc) ∧
    rowOf .d16 (ciwOf false fc false false true) = .ok (.wrBL fc) ∧
    rowOf .d16 (ciwOf true fc true true false) = .ok (.rmwBU fc) ∧
    rowOf .d16 (ciwOf true fc true false true) = .ok (.rmwBL fc) ∧
    rowOf .d8 (ciwOf false fc true true true) = .ok (.rdB8 fc) ∧
    rowOf .d8 (ciwOf false fc false true true) = .ok (.wrB8 fc) ∧
    rowOf .d8 (ciwOf true fc true true true) = .ok (.rmwB8 fc)

/-- Words written out from the patterns of R111 and the vectors of 95_test_vectors.md; the operand
bytes are those of log 2 and log 3. -/
def Obligations.WordsOfTheOpcodeTableDecode : Prop :=
  decode .d16 [0x3F, 0x02] = .ok (.iack 5, []) ∧
  decode .d16 [0x2F, 0x00, 0x10, 0x00] = .ok (.rdW 5 0x001000, []) ∧
  decode .d16 [0x0D, 0x00, 0x10, 0x00] = .ok (.rdBL 1 0x001001, []) ∧
  decode .d16 [0x2B, 0x00, 0x10, 0x00, 0x12, 0x34] = .ok (.wrW 5 0x001000 0x1234, []) ∧
  decode .d16 [0x2A, 0x00, 0x10, 0x00, 0xAB] = .ok (.wrBU 5 0x001000 0xAB, []) ∧
  decode .d16 [0x6D, 0x00, 0x20, 0x00] = .ok (.rmwBL 5 0x002001, []) ∧
  decode .d8 [0x2F, 0x00, 0x10, 0x01] = .ok (.rdB8 5 0x001001, []) ∧
  decode .d8 [0x2B, 0x00, 0x10, 0x01, 0xAB] = .ok (.wrB8 5 0x001001 0xAB, [])

/-- R120: every pattern of its table has no row, and every request of its table is refused by its
meaning before any state is entered. -/
def Obligations.ReservedCombinationsAreRefused : Prop :=
  (∀ bus m fc rw, rowOf bus (ciwOf m fc rw false false) = .error .noStrobe) ∧
  (∀ bus u l, u ≠ l → rowOf bus (ciwOf false 7 true u l) = .error .cpuSpaceByteRead) ∧
  (∀ bus u l, (u || l) = true → rowOf bus (ciwOf false 7 false u l) = .error .cpuSpaceWrite) ∧
  (∀ bus u l, (u || l) = true → rowOf bus (ciwOf true 7 true u l) = .error .cpuSpaceRmw) ∧
  (∀ fc, fc ≠ 7 → rowOf .d16 (ciwOf true fc true true true) = .error .wordRmw) ∧
  (∀ bus fc u l, (u || l) = true → rowOf bus (ciwOf true fc false u l) = .error .rmwWriteFirst) ∧
  ∀ s : State,
    (s.owner = .processor → exec (.iack 0) s = .refused (.illegal .levelZero)) ∧
    (s.params.dataBus = .d16 →
      (∀ fc a v, fc ≠ 7 → Addr.isOdd a = true →
        exec (.rdW fc a) s = .refused (.illegal .oddWord) ∧
        exec (.wrW fc a v) s = .refused (.illegal .oddWord)) ∧
      ∀ a v16 v8, ∀ i ∈ [Instr.rdW 7 a, .rdBU 7 a, .rdBL 7 a, .wrW 7 a v16, .wrBU 7 a v8,
          .wrBL 7 a v8, .rmwBU 7 a, .rmwBL 7 a],
        exec i s = .refused (.illegal .cpuSpace)) ∧
    (s.params.dataBus = .d8 →
      ∀ a v8, ∀ i ∈ [Instr.rdB8 7 a, .wrB8 7 a v8, .rmwB8 7 a],
        exec i s = .refused (.illegal .cpuSpace))

/-- R110: the cycle identification word an observer reads from the lines of any cycle that its device
acknowledges is the one the opcode map gives its row. -/
def Obligations.ObservedWordIsTheWordOfTheRow : Prop :=
  ∀ (s : State) (i : Instr) (w1 w2 : Nat) (d1 d2 : Option Half) (rest : List Answer),
    s.Ready → i.wf s.params.dataBus = true →
    s.answers = Answer.of (.dtack w1 d1) :: Answer.of (.dtack w2 d2) :: rest →
    observeCiw (observedPins i s) = some i.row.ciw

/-! ## A step (30_encoding.md R115; log 1, log 2) -/

/-- The bytes at the head of the present master's program that decode to a transaction that may be
issued are run, and the bytes after them stay (log 1, log 2). -/
def Obligations.StepRunsTheDecodedTransaction : Prop :=
  ∀ (s : State) (bytes more : List Byte) (rest : List Item) (i : Instr),
    s.run = none → s.busAvailable = true → s.queue = .code bytes :: rest →
    decode s.params.dataBus bytes = .ok (i, more) → s.mayIssue i = true →
    step s = exec i (s.withQueue (restOf more rest))

/-- The other steps of an idle bus: `IDLE n` counts CLK cycles (R115), bytes that are no transaction
are refused by name (R120), and an empty program lets CLK run (log 1). -/
def Obligations.StepWithoutATransaction : Prop :=
  ∀ (s : State) (rest : List Item), s.run = none → s.busAvailable = true →
    (s.queue = [] → step s = s.clkCycle) ∧
    (s.queue = .idle 0 :: rest → step s = .next (s.withQueue rest)) ∧
    (∀ n, s.queue = .idle (n + 1) :: rest → step s = (s.withQueue (.idle n :: rest)).clkCycle) ∧
    ∀ bytes why, s.queue = .code bytes :: rest → decode s.params.dataBus bytes = .error why →
      step s = .refused (.undecodable why)

/-- R283 (with D27): the processor issues `IACK n` only if `ipl_seen = n` held at some earlier falling
edge; until then a step is one CLK cycle and the transaction stays. -/
def Obligations.AcknowledgeWaitsUntilItsLevelWasSeen : Prop :=
  ∀ (s t : State) (bytes more : List Byte) (rest : List Item) (level : Level),
    s.owner = .processor → s.run = none → s.program = .code bytes :: rest →
    decode s.params.dataBus bytes = .ok (.iack level, more) →
    s.iplHistory.getLsbD level.toNat = false → step s = .next t →
    t.run = none ∧ t.program = s.program ∧ t.results = s.results ∧ t.clkCount = s.clkCount + 1

/-- R254, by the inference the rule marks as its own: the processor starts no bus cycle while `arb` is
`Granted` or `Acknowledged`. -/
def Obligations.GrantedBusStartsNoCycle : Prop :=
  ∀ s t : State, s.owner = .processor → s.run = none → s.arb = .granted ∨ s.arb = .acknowledged →
    step s = .next t →
    t.run = none ∧ t.program = s.program ∧ t.results = s.results ∧ t.mem = s.mem ∧
    t.clkCount = s.clkCount + 1

/-- One step returns at most one result, and it is that of the master that owned the bus (R84, R85). -/
def Obligations.OneResultPerStep : Prop :=
  ∀ s t : State, step s = .next t →
    t.results = s.results ∨ ∃ r, t.results = { master := s.owner, result := r } :: s.results

/-! ## State by state -/

/-- R131 to R134, and R214 for the acknowledge cycle: S0 to S3 of format R, from the lines between
cycles; S4 alters nothing (R135). -/
def Obligations.ReadStatesS0ToS4 : Prop :=
  ∀ (s : State) (c : Cycle), s.Calm → s.BusInv → s.run = some c → c.kind = .read ∨ c.kind = .iack →
    (c.st = .start → s.clk = .low → ∃ t, s.halfClock = .next t ∧ t.run = some { c with st := .S0 } ∧
      t.pins = { s.releaseClosing.pins with
        fc := some c.fc, addr := none, rw := .high, strobeAS := .negated,
        uds := .negated, lds := .negated, ds := .negated }) ∧
    (c.st = .S0 → s.clk = .high → ∃ t, s.halfClock = .next t ∧ t.run = some { c with st := .S1 } ∧
      t.pins = { s.pins with addr := some (linesOf c.addr), bg := t.pins.bg }) ∧
    (c.st = .S1 → s.clk = .low → ∃ t, s.halfClock = .next t ∧ t.run = some { c with st := .S2 } ∧
      t.pins = { s.pins with
        strobeAS := .asserted,
        uds := if c.strobes.selectsUpper then .asserted else .negated,
        lds := if c.strobes.selectsLower then .asserted else .negated,
        ds := if c.strobes.selectsDs then .asserted else .negated }) ∧
    (c.st = .S2 → s.clk = .high → ∃ t, s.halfClock = .next t ∧ t.run = some { c with st := .S3 } ∧
      t.pins = { s.pins with bg := t.pins.bg }) ∧
    (c.st = .S3 → s.clk = .low → ∃ t, s.halfClock = .next t ∧ t.run = some { c with st := .S4 } ∧
      t.pins = s.pins)

/-- R161 to R164 and the strobes of R165: S0 to S4 of format W. -/
def Obligations.WriteStatesS0ToS4 : Prop :=
  ∀ (s : State) (c : Cycle), s.Calm → s.BusInv → s.run = some c → c.kind = .write →
    (c.st = .start → s.clk = .low → ∃ t, s.halfClock = .next t ∧ t.run = some { c with st := .S0 } ∧
      t.pins = { s.releaseClosing.pins with
        fc := some c.fc, addr := none, rw := .high, strobeAS := .negated,
        uds := .negated, lds := .negated, ds := .negated }) ∧
    (c.st = .S0 → s.clk = .high → ∃ t, s.halfClock = .next t ∧ t.run = some { c with st := .S1 } ∧
      t.pins = { s.pins with addr := some (linesOf c.addr), bg := t.pins.bg }) ∧
    (c.st = .S1 → s.clk = .low → ∃ t, s.halfClock = .next t ∧ t.run = some { c with st := .S2 } ∧
      t.pins = { s.pins with strobeAS := .asserted, rw := .low }) ∧
    (c.st = .S2 → s.clk = .high → s.pins.data = DataLines.z → ∃ t fill, s.halfClock = .next t ∧
      t.run = some { c with st := .S3 } ∧
      t.pins = { s.pins with data := place c.strobes c.wdata fill, bg := t.pins.bg }) ∧
    (c.st = .S3 → s.clk = .low → ∃ t, s.halfClock = .next t ∧ t.run = some { c with st := .S4 } ∧
      t.pins = { s.pins with
        uds := if c.strobes.selectsUpper then .asserted else .negated,
        lds := if c.strobes.selectsLower then .asserted else .negated,
        ds := if c.strobes.selectsDs then .asserted else .negated })

/-- R189, R191 to R194 and the strobe of R195: S8 to S16 of format M. The byte written is
`ALU_MODIFY` of the byte read (R190). -/
def Obligations.RmwStatesS8ToS16 : Prop :=
  ∀ (s : State) (c : Cycle), s.Calm → s.BusInv → s.run = some c → c.kind = .rmw →
    (∀ st st', (st, st') ∈ [(St.S7, St.S8), (.S9, .S10)] → c.st = st → s.clk = .low →
      ∃ t, s.halfClock = .next t ∧ t.run = some { c with st := st' } ∧ t.pins = s.pins) ∧
    (∀ st st', (st, st') ∈ [(St.S8, St.S9), (.S10, .S11), (.S12, .S13)] → c.st = st →
      s.clk = .high → ∃ t, s.halfClock = .next t ∧ t.run = some { c with st := st' } ∧
      t.pins = { s.pins with bg := t.pins.bg }) ∧
    (c.st = .S11 → s.clk = .low → ∃ t, s.halfClock = .next t ∧ t.term = .none ∧
      t.run = some { c with st := .S12, second := true, pairs := 0, edge := 0, answer := c.answer2 } ∧
      t.pins = s.pins) ∧
    (c.st = .S13 → s.clk = .low → ∃ t, s.halfClock = .next t ∧ t.run = some { c with st := .S14 } ∧
      t.pins = { s.pins with rw := .low }) ∧
    (c.st = .S14 → s.clk = .high → s.pins.data = DataLines.z → ∃ t fill, s.halfClock = .next t ∧
      t.run = some { c with st := .S15 } ∧
      t.pins = { s.pins with
        data := place c.strobes (halfOfByte (aluModify s.params.alu c.old)) fill,
        bg := t.pins.bg }) ∧
    (c.st = .S15 → s.clk = .low → ∃ t, s.halfClock = .next t ∧ t.run = some { c with st := .S16 } ∧
      t.pins = { s.pins with
        uds := if c.strobes.selectsUpper then .asserted else .negated,
        lds := if c.strobes.selectsLower then .asserted else .negated,
        ds := if c.strobes.selectsDs then .asserted else .negated })

/-- R144 (with the order of R121 and R290): what the falling edge decides at end(S4), end(S16) and the
end of a wait pair, and what end(S6) still changes, after each termination (R217, R244; logs 13 and 14
for the late check of a read-modify-write and of a synchronous cycle, and after AVEC and BERR). The lines
sampled are those the device drives at the edge, together with those still asserted from before (R344)
but for the later edges of a script that gives the lines edge by edge (R47, decision D7; log 21). E falls
at end(S6) of a synchronous cycle (R238). -/
def Obligations.SamplingEdgeDecides : Prop :=
  ∀ (s : State) (c : Cycle) (drive : Drive) (adds d b v : Bool), s.Calm → s.BusInv → s.clk = .high →
    s.run = some c → drive = c.answer.shape.driveAt c.edge (c.st = .S6) →
    adds = c.answer.shape.addsTo c.edge →
    d = ((adds && s.inputs.dtack) || drive.dtack) → b = ((adds && s.inputs.berr) || drive.berr) →
    v = ((adds && s.inputs.vpa) || drive.vpa) →
    (c.st = .S4 ∨ c.st = .S16 ∨ c.st = .SwHigh → s.term = .none →
      s.inputs.avec = false → drive.avec = false →
      (d = true → v = true → s.halfClock = .fault (.protocolViolation .dtackAndVpa)) ∧
      (b = true → d = true → v = false → ∃ t, s.halfClock = .next t ∧ t.term = .berrDtack ∧
        t.run = some { c with st := if c.second then .S17 else .S5, edge := c.edge + 1 }) ∧
      (b = true → d = false → ∃ t, s.halfClock = .next t ∧ t.term = .berr ∧
        t.run = some { c with st := if c.second then .S17 else .S5, edge := c.edge + 1 }) ∧
      (b = false → d = true → v = false → ∃ t, s.halfClock = .next t ∧ t.term = .dtack ∧
        t.run = some { c with st := if c.second then .S17 else .S5, edge := c.edge + 1 }) ∧
      (b = false → d = false → ∃ t, s.halfClock = .next t ∧ t.term = (if v then .vpa else .none) ∧
        t.run = some { c with st := .SwLow, pairs := c.pairs + 1, edge := c.edge + 1 })) ∧
    (c.st = .S6 → d = true → v = true → s.halfClock = .fault (.protocolViolation .dtackAndVpa)) ∧
    (c.st = .S6 → s.term = .dtack ∨ s.term = .berrDtack →
      (v = true → s.halfClock = .fault (.protocolViolation .dtackAndVpa)) ∧
      (v = false → (c.kind = .iack → s.params.iackBerr ≠ none) →
        ∃ t, s.halfClock = .next t ∧
          t.term = (if b then .berrDtack else s.term) ∧
          (c.kind ≠ .write → ∀ x, s.pins.data.lo = some x → loByte t.din = x) ∧
          (c.kind ≠ .write → c.strobes ≠ .ds → ∀ x, s.pins.data.hi = some x → hiByte t.din = x))) ∧
    (c.st = .S6 → s.term = .vpa → s.ephase = 9 →
      (b = false → d = true → s.halfClock = .fault (.protocolViolation .dtackAndVpa)) ∧
      (b = true ∨ d = false → ¬(d = true ∧ v = true) →
        ∃ t, s.halfClock = .next t ∧ t.term = (if b then .berr else .vpa) ∧
          (c.kind ≠ .write → ∀ x, s.pins.data.lo = some x → loByte t.din = x) ∧
          (c.kind ≠ .write → c.strobes ≠ .ds → ∀ x, s.pins.data.hi = some x → hiByte t.din = x))) ∧
    (c.st = .S6 → s.term = .avec → ¬(d = true ∧ v = true) → s.params.iackBerr ≠ none →
      ∃ t, s.halfClock = .next t ∧ t.term = (if b then .berrDtack else .avec)) ∧
    (c.st = .S6 → s.term = .berr → c.kind ≠ .rmw → s.pins.vma = .negated → ¬(d = true ∧ v = true) →
      ∃ t, s.halfClock = .next t ∧ t.term = .berr ∧ t.run = some { c with st := .S7 })

/-- R235, R236, R238 and R245 (alignment of D14), R244: a falling edge while a synchronous cycle waits
for E. `p` is the phase of E from this edge on; nobody else drives the data bus where the peripheral
begins to (R237). -/
def Obligations.SynchronousStretchFollowsE : Prop :=
  ∀ (s : State) (c : Cycle) (adds d b : Bool) (p : Fin 10), s.Calm → s.BusInv → s.clk = .high →
    s.run = some c → c.st = .SwHigh → s.term = .vpa → p = s.ephase + 1 →
    adds = c.answer.shape.addsTo c.edge →
    d = ((adds && s.inputs.dtack) || (c.answer.shape.driveAt c.edge false).dtack) →
    b = ((adds && s.inputs.berr) || (c.answer.shape.driveAt c.edge false).berr) →
    (p = 6 → c.reads = true → s.pins.vma = .asserted → s.pins.data = DataLines.z) →
    (b = true → ∃ t, s.halfClock = .next t ∧ t.term = .berr ∧
      t.run = some { c with st := if c.second then .S17 else .S5, edge := c.edge + 1 }) ∧
    (b = false → d = true → s.halfClock = .fault (.protocolViolation .dtackAndVpa)) ∧
    (b = false → d = false → s.pins.vma = .asserted → p = 9 →
      ∃ t, s.halfClock = .next t ∧ t.term = .vpa ∧
        t.run = some { c with st := if c.second then .S17 else .S5, edge := c.edge + 1 }) ∧
    (b = false → d = false → ¬(s.pins.vma = .asserted ∧ p = 9) →
      ∃ t, s.halfClock = .next t ∧ t.term = .vpa ∧
        t.run = some { c with st := .SwLow, pairs := c.pairs + 1, edge := c.edge + 1 } ∧
        t.pins.vma = if p.val ≤ 4 then .asserted else s.pins.vma)

/-- R53, R235, R236: VMA is asserted only at a falling edge of CLK, in a cycle whose device has
answered VPA, with E low and at least two CLK cycles left before it rises. -/
def Obligations.VmaIsAssertedOnlyWhileELeavesTime : Prop :=
  ∀ s t : State, s.BusInv → s.inPhase → s.halfClock = .next t → s.pins.vma = .negated →
    t.pins.vma = .asserted →
    s.clk = .high ∧ t.term = .vpa ∧ t.eHigh = false ∧ t.ephase.val ≤ 4 ∧
    ∃ c, t.run = some c ∧ c.st = .SwLow

/-! ## Cycles that end well -/

/-- R145: a read cycle ended by DTACK after `w` wait pairs returns the selected lanes of the word the
device drives, in 8 + 2w half clocks. -/
def Obligations.ReadEndsByDtack : Prop :=
  ∀ (s : State) (fc : Fc) (a : Addr) (w : Nat) (v : Half) (rest : List Answer),
    s.Ready → s.answers = Answer.of (.dtack w (some v)) :: rest →
    ∀ p ∈ [(Instr.rdW fc a, Result.okWord v), (.rdBU fc a, .okByte (v.extractLsb' 8 8)),
        (.rdBL fc a, .okByte (v.extractLsb' 0 8)), (.rdB8 fc a, .okByte (v.extractLsb' 0 8))],
      p.1.wf s.params.dataBus = true →
      ∃ t, exec p.1 s = .next t ∧ Completed s t p.2 (4 + w) ∧ t.Calm ∧ t.term = .dtack ∧
        t.answers = rest ∧ t.mem = s.mem ∧ t.pit = s.pit

/-- R75, R76, R90, R301: a read of the device at the address returns what it holds, byte by byte
(log 12: the wait pairs of `Mem(w)` are a parameter); a byte that nothing has written gives some
value (log 10). -/
def Obligations.ReadReturnsWhatTheDeviceHolds : Prop :=
  ∀ (s : State) (fc : Fc) (a : Addr), s.Ready → s.answers = [] →
    (Instr.wf s.params.dataBus (.rdW fc a) = true →
      ∃ t hi lo, exec (.rdW fc a) s = .next t ∧
        Completed s t (.okWord (halfOf hi lo)) (4 + s.params.memWaits) ∧ t.Calm ∧
        (∀ x, s.byteAt fc a = some x → hi = x) ∧ (∀ x, s.byteAt fc (a + 1) = some x → lo = x)) ∧
    ∀ i ∈ [Instr.rdBU fc a, .rdBL fc a, .rdB8 fc a], i.wf s.params.dataBus = true →
      ∃ t v, exec i s = .next t ∧ Completed s t (.okByte v) (4 + s.params.memWaits) ∧ t.Calm ∧
        ∀ x, s.byteAt fc a = some x → v = x

/-- R170, R119: a write cycle ended by DTACK after `w` wait pairs returns `ok` in 8 + 2w half clocks,
and the device has stored the value on the selected lanes. -/
def Obligations.WriteEndsByDtack : Prop :=
  ∀ (s : State) (fc : Fc) (a : Addr) (w : Nat) (d : Option Half) (rest : List Answer),
    s.Ready → s.answers = Answer.of (.dtack w d) :: rest →
    (∀ v, Instr.wf s.params.dataBus (.wrW fc a v) = true →
      ∃ t, exec (.wrW fc a v) s = .next t ∧ Completed s t .ok (4 + w) ∧ t.Calm ∧ t.term = .dtack ∧
        t.answers = rest ∧ t.Holds fc a (v.extractLsb' 8 8) ∧
        t.Holds fc (a + 1) (v.extractLsb' 0 8)) ∧
    ∀ v, ∀ i ∈ [Instr.wrBU fc a v, .wrBL fc a v, .wrB8 fc a v], i.wf s.params.dataBus = true →
      ∃ t, exec i s = .next t ∧ Completed s t .ok (4 + w) ∧ t.Calm ∧ t.term = .dtack ∧
        t.answers = rest ∧ t.Holds fc a v

/-- R202 (a), R190, R201: a read-modify-write cycle returns the byte its device drives in the read
portion, writes `ALU_MODIFY` of it, and takes 20 + 2(w1 + w2) half clocks. -/
def Obligations.RmwEndsByDtack : Prop :=
  ∀ (s : State) (fc : Fc) (a : Addr) (w1 w2 : Nat) (v : Half) (d : Option Half) (rest : List Answer),
    s.Ready → s.answers = Answer.of (.dtack w1 (some v)) :: Answer.of (.dtack w2 d) :: rest →
    ∀ p ∈ [(Instr.rmwBU fc a, v.extractLsb' 8 8), (.rmwBL fc a, v.extractLsb' 0 8),
        (.rmwB8 fc a, v.extractLsb' 0 8)],
      p.1.wf s.params.dataBus = true →
      ∃ t, exec p.1 s = .next t ∧ Completed s t (.okByte p.2) (10 + w1 + w2) ∧ t.Calm ∧
        t.term = .dtack ∧ t.answers = rest ∧ t.Holds fc a (aluModify s.params.alu p.2)

/-- R201 "in memory terms": `old = M[addr]; M[addr] <- ALU_MODIFY(old)` on the device at the address
(log 12). -/
def Obligations.RmwModifiesWhatTheDeviceHolds : Prop :=
  ∀ (s : State) (fc : Fc) (a : Addr) (old : Byte), s.Ready → s.answers = [] →
    s.byteAt fc a = some old →
    ∀ i ∈ [Instr.rmwBU fc a, .rmwBL fc a, .rmwB8 fc a], i.wf s.params.dataBus = true →
      ∃ t, exec i s = .next t ∧ Completed s t (.okByte old) (10 + 2 * s.params.memWaits) ∧ t.Calm ∧
        t.Holds fc a (aluModify s.params.alu old)

/-- R114, R215: a vectored acknowledge cycle returns the byte on D7-D0, whatever is on D15-D8. -/
def Obligations.AcknowledgeReturnsTheVectorOnTheBus : Prop :=
  ∀ (s : State) (level : Level) (w : Nat) (v : Half) (rest : List Answer),
    s.Ready → level ≠ 0 → s.answers = Answer.of (.dtack w (some v)) :: rest →
    ∃ t, exec (.iack level) s = .next t ∧ Completed s t (.vector (v.extractLsb' 0 8)) (4 + w) ∧
      t.Calm ∧ t.answers = rest ∧ t.mem = s.mem ∧ t.pit = s.pit

/-- R113, R216: an acknowledge cycle answered by VPA returns $18 plus the level, for all ten phases of
E (R243), without the data bus; its length is that of R218 and R238 (alignment of D14). -/
def Obligations.AcknowledgeByVpaReturnsTheAutovector : Prop :=
  ∀ (s : State) (level : Level) (w : Nat) (rest : List Answer),
    s.Ready → level ≠ 0 → s.answers = Answer.of (.vpa w) :: rest →
    ∃ t, exec (.iack level) s = .next t ∧
      Completed s t (.vector (0x18 + level.zeroExtend 8)) (syncLength s.ephase.val w) ∧
      t.Calm ∧ t.answers = rest ∧ t.mem = s.mem ∧ t.pit = s.pit

/-- R218, R16: on a machine with AVEC, AVEC alone gives the autovector without the stretch; on one
without it the line is not looked at and the cycle waits (log 14). -/
def Obligations.AcknowledgeByAvec : Prop :=
  ∀ (s : State) (level : Level) (rest : List Answer), s.Ready → level ≠ 0 →
    s.answers = Answer.of (.edges [{ Drive.quiet with avec := true }]) :: rest →
    (s.params.hasAvec = true → ∃ t, exec (.iack level) s = .next t ∧
      Completed s t (.vector (0x18 + level.zeroExtend 8)) 4 ∧ t.Calm) ∧
    (s.params.hasAvec = false → ∃ t, exec (.iack level) s = .next t ∧ t.run ≠ none ∧
      t.results = s.results)

/-- R219: where no answer is scripted, the responder of the level answers: the PI/T with the content
of a vector register, a device with its vector, or VPA (log 12: which one, a parameter). -/
def Obligations.AcknowledgeIsAnsweredByItsResponder : Prop :=
  ∀ (s : State) (level : Level), s.Ready → level ≠ 0 → s.answers = [] →
    (responderOf s.params level = .pitPort → ∃ t, exec (.iack level) s = .next t ∧
      Completed s t (.vector s.pit.pivr) 4 ∧ t.Calm ∧ t.pit = s.pit) ∧
    (responderOf s.params level = .pitTimer → ∃ t, exec (.iack level) s = .next t ∧
      Completed s t (.vector s.pit.tivr) 4 ∧ t.Calm ∧ t.pit = s.pit) ∧
    (∀ n, responderOf s.params level = .vector n → ∃ t, exec (.iack level) s = .next t ∧
      Completed s t (.vector n) 4 ∧ t.Calm ∧ t.pit = s.pit) ∧
    (responderOf s.params level = .autovector → ∃ t, exec (.iack level) s = .next t ∧
      Completed s t (.vector (0x18 + level.zeroExtend 8)) (syncLength s.ephase.val 0) ∧ t.Calm ∧
      t.pit = s.pit)

/-- R230, R238, R239 (alignment of D14): a read whose device answers VPA returns what the device
holds, for all ten phases of E. -/
def Obligations.ReadEndsByVpa : Prop :=
  ∀ (s : State) (fc : Fc) (a : Addr) (w : Nat) (rest : List Answer),
    s.Ready → s.answers = Answer.of (.vpa w) :: rest →
    (Instr.wf s.params.dataBus (.rdW fc a) = true →
      ∃ t hi lo, exec (.rdW fc a) s = .next t ∧
        Completed s t (.okWord (halfOf hi lo)) (syncLength s.ephase.val w) ∧ t.Calm ∧
        (∀ x, s.byteAt fc a = some x → hi = x) ∧ (∀ x, s.byteAt fc (a + 1) = some x → lo = x)) ∧
    ∀ i ∈ [Instr.rdBU fc a, .rdBL fc a, .rdB8 fc a], i.wf s.params.dataBus = true →
      ∃ t v, exec i s = .next t ∧ Completed s t (.okByte v) (syncLength s.ephase.val w) ∧ t.Calm ∧
        ∀ x, s.byteAt fc a = some x → v = x

/-- R172, R237, R238, R241 (alignment of D14): a write whose device answers VPA stores the value, for
all ten phases of E. -/
def Obligations.WriteEndsByVpa : Prop :=
  ∀ (s : State) (fc : Fc) (a : Addr) (w : Nat) (rest : List Answer),
    s.Ready → s.answers = Answer.of (.vpa w) :: rest →
    (∀ v, Instr.wf s.params.dataBus (.wrW fc a v) = true →
      ∃ t, exec (.wrW fc a v) s = .next t ∧ Completed s t .ok (syncLength s.ephase.val w) ∧ t.Calm ∧
        t.Holds fc a (v.extractLsb' 8 8) ∧ t.Holds fc (a + 1) (v.extractLsb' 0 8)) ∧
    ∀ v, ∀ i ∈ [Instr.wrBU fc a v, .wrBL fc a v, .wrB8 fc a v], i.wf s.params.dataBus = true →
      ∃ t, exec i s = .next t ∧ Completed s t .ok (syncLength s.ephase.val w) ∧ t.Calm ∧
        t.Holds fc a v

/-- R199, R242 (alignment of D14): each portion of a read-modify-write cycle may be stretched by VPA;
the write portion meets E five CLK cycles after the read portion has ended with its fall. -/
def Obligations.RmwEndsByVpa : Prop :=
  ∀ (s : State) (fc : Fc) (a : Addr) (old : Byte) (w1 w2 : Nat) (rest : List Answer),
    s.Ready → s.answers = Answer.of (.vpa w1) :: Answer.of (.vpa w2) :: rest →
    s.byteAt fc a = some old →
    ∀ i ∈ [Instr.rmwBU fc a, .rmwBL fc a, .rmwB8 fc a], i.wf s.params.dataBus = true →
      ∃ t, exec i s = .next t ∧ t.Calm ∧ t.Holds fc a (aluModify s.params.alu old) ∧
        Completed s t (.okByte old)
          (10 + w1 + w2 + syncPairs ((s.ephase.val + 3 + w1) % 10) + syncPairs ((5 + w2) % 10))

/-- R76, R85, R176 (e): what a word write has stored, a word read returns, and a byte read at the even
address returns its high byte, one at the odd address its low byte; on plain memory (log 12, log 29). -/
def Obligations.WordWriteThenReads : Prop :=
  ∀ (s t : State) (fc : Fc) (a : Addr) (v : Half), s.Ready → s.answers = [] →
    pitSelect s.params.pit a = none → pitSelect s.params.pit (a + 1) = none →
    exec (.wrW fc a v) s = .next t →
    (∃ u, exec (.rdW fc a) t = .next u ∧
      u.results = { master := .processor, result := .okWord v } ::
        { master := .processor, result := .ok } :: s.results) ∧
    (∃ u, exec (.rdBU fc a) t = .next u ∧
      u.results = { master := .processor, result := .okByte (v.extractLsb' 8 8) } ::
        { master := .processor, result := .ok } :: s.results) ∧
    (∃ u, exec (.rdBL fc (a + 1)) t = .next u ∧
      u.results = { master := .processor, result := .okByte (v.extractLsb' 0 8) } ::
        { master := .processor, result := .ok } :: s.results)

/-! ## Cycles ended by BERR, and cycles that never end -/

/-- R147, R270, R81: BERR without DTACK ends a read with a BusError that records its kind, function
code and address, one CLK cycle later than DTACK would have (D8, D9). -/
def Obligations.ReadEndedByBerr : Prop :=
  ∀ (s : State) (fc : Fc) (a : Addr) (w : Nat) (rest : List Answer),
    s.Ready → s.answers = Answer.of (.berr w) :: rest →
    ∀ i ∈ [Instr.rdW fc a, .rdBU fc a, .rdBL fc a, .rdB8 fc a], i.wf s.params.dataBus = true →
      ∃ t, exec i s = .next t ∧
        Completed s t (.busError { kind := .read, fc := fc, addr := a }) (5 + w) ∧ t.Calm ∧
        t.term = .berr ∧ t.mem = s.mem ∧ t.pit = s.pit

/-- R146, R42: BERR with DTACK, or after DTACK at end(S6), ends a read with a BusError in the time
DTACK alone would have taken (D9). -/
def Obligations.ReadEndedByBerrWithDtack : Prop :=
  ∀ (s : State) (fc : Fc) (a : Addr) (w : Nat) (d : Option Half) (rest : List Answer), s.Ready →
    s.answers = Answer.of (.berrDtack w d) :: rest ∨ s.answers = Answer.of (.lateBerr w d) :: rest →
    ∀ i ∈ [Instr.rdW fc a, .rdBU fc a, .rdBL fc a, .rdB8 fc a], i.wf s.params.dataBus = true →
      ∃ t, exec i s = .next t ∧
        Completed s t (.busError { kind := .read, fc := fc, addr := a }) (4 + w) ∧ t.Calm ∧
        t.term = .berrDtack ∧ t.mem = s.mem ∧ t.pit = s.pit

/-- R171, R270: BERR ends a write with a BusError; afterwards the location holds the old or the new
value, all of it one or the other (D9; log 22). -/
def Obligations.WriteEndedByBerr : Prop :=
  ∀ (s : State) (fc : Fc) (a : Addr) (w n : Nat) (d : Option Half) (rest : List Answer), s.Ready →
    (s.answers = Answer.of (.berr w) :: rest ∧ n = 5 + w) ∨
      (s.answers = Answer.of (.berrDtack w d) :: rest ∧ n = 4 + w) ∨
      (s.answers = Answer.of (.lateBerr w d) :: rest ∧ n = 4 + w) →
    (∀ v, Instr.wf s.params.dataBus (.wrW fc a v) = true →
      ∃ t, exec (.wrW fc a v) s = .next t ∧ t.Calm ∧
        Completed s t (.busError { kind := .write, fc := fc, addr := a }) n ∧
        ((t.mem = s.mem ∧ t.pit = s.pit) ∨
          (t.Holds fc a (v.extractLsb' 8 8) ∧ t.Holds fc (a + 1) (v.extractLsb' 0 8)))) ∧
    ∀ v, ∀ i ∈ [Instr.wrBU fc a v, .wrBL fc a v, .wrB8 fc a v], i.wf s.params.dataBus = true →
      ∃ t, exec i s = .next t ∧ t.Calm ∧
        Completed s t (.busError { kind := .write, fc := fc, addr := a }) n ∧
        ((t.mem = s.mem ∧ t.pit = s.pit) ∨ t.Holds fc a v)

/-- R198, R201: BERR in the read portion of a read-modify-write cycle, with or without DTACK, returns
a BusError; nothing is stored, and the run is faulted from that point (D10; log 15). That BERR is heard
there when first asserted at end(S6) is the model's deduction (log 13). -/
def Obligations.RmwReadPortionEndedByBerr : Prop :=
  ∀ (s : State) (fc : Fc) (a : Addr) (w : Nat) (d : Option Half) (rest : List Answer), s.Ready →
    s.answers = Answer.of (.berr w) :: rest ∨ s.answers = Answer.of (.berrDtack w d) :: rest ∨
      s.answers = Answer.of (.lateBerr w d) :: rest →
    ∀ i ∈ [Instr.rmwBU fc a, .rmwBL fc a, .rmwB8 fc a], i.wf s.params.dataBus = true →
      ∃ t, exec i s = .next t ∧
        t.results = {
          master := .processor,
          result := .busError { kind := .rmwRead, fc := fc, addr := a } } :: s.results ∧
        t.mem = s.mem ∧ t.pit = s.pit ∧ step t = .fault .rmwReadContinuation

/-- R198, R201: BERR in the write portion returns a BusError, two states later without DTACK; the byte
is the old or the new one (D10; log 22). -/
def Obligations.RmwWritePortionEndedByBerr : Prop :=
  ∀ (s : State) (fc : Fc) (a : Addr) (old : Byte) (w1 w2 n : Nat) (d : Option Half)
    (rest : List Answer), s.Ready → s.byteAt fc a = some old →
    (s.answers = Answer.of (.dtack w1 none) :: Answer.of (.berr w2) :: rest ∧ n = 11 + w1 + w2) ∨
      (s.answers = Answer.of (.dtack w1 none) :: Answer.of (.berrDtack w2 d) :: rest ∧
        n = 10 + w1 + w2) →
    ∀ i ∈ [Instr.rmwBU fc a, .rmwBL fc a, .rmwB8 fc a], i.wf s.params.dataBus = true →
      ∃ t, exec i s = .next t ∧ t.Calm ∧
        Completed s t (.busError { kind := .rmwWrite, fc := fc, addr := a }) n ∧
        ((t.mem = s.mem ∧ t.pit = s.pit) ∨ t.Holds fc a (aluModify s.params.alu old))

/-- R222: an acknowledge cycle ended by BERR has the bus activity of a read ended so, and yields the
parameter `IACK_BERR_VECTOR`, which may be a fault (D22). -/
def Obligations.AcknowledgeEndedByBerr : Prop :=
  ∀ (s : State) (level : Level) (w n : Nat) (d : Option Half) (rest : List Answer),
    s.Ready → level ≠ 0 →
    (s.answers = Answer.of (.berr w) :: rest ∧ n = 5 + w) ∨
      (s.answers = Answer.of (.berrDtack w d) :: rest ∧ n = 4 + w) ∨
      (s.answers = Answer.of (.lateBerr w d) :: rest ∧ n = 4 + w) →
    (∀ x, s.params.iackBerr = some x → ∃ t, exec (.iack level) s = .next t ∧
      Completed s t (.vector x) n ∧ t.Calm ∧ t.mem = s.mem ∧ t.pit = s.pit) ∧
    (s.params.iackBerr = none → exec (.iack level) s =
      .fault (.iackBusError { kind := .iack, fc := 7, addr := ackAddr level }))

/-- R150, R173, R204, R223, R261: a cycle whose device never answers waits without limit, with AS
asserted and the bus the processor's; no result comes and no step stops. -/
def Obligations.UnansweredCycleWaitsForEver : Prop :=
  ∀ (s : State) (i : Instr) (rest : List Answer), s.Ready → i.wf s.params.dataBus = true →
    s.answers = Answer.of .never :: rest →
    ∃ t, exec i s = .next t ∧ ∀ n, ∃ u, t.runsTo n u ∧ u.run ≠ none ∧
      u.pins.strobeAS = .asserted ∧ u.owner = .processor ∧ u.results = s.results ∧
      u.mem = s.mem ∧ u.clkCount = t.clkCount + n

/-- R344: a termination the device has not negated ends the next cycle with no wait state, although
the device addressed by it never answers. -/
def Obligations.StaleTerminationEndsTheNextCycle : Prop :=
  ∀ (s : State) (fc : Fc) (a : Addr) (rest : List Answer), s.Ready →
    s.answers = Answer.of .never :: rest →
    ∀ i ∈ [Instr.rdW fc a, .rdBU fc a, .rdBL fc a, .rdB8 fc a], i.wf s.params.dataBus = true →
      ∃ t r, exec i { s with inputs := { s.inputs with dtack := true } } = .next t ∧
        Completed s t r 4 ∧ t.term = .dtack

/-! ## Frames -/

/-- What no bus cycle writes: the parameters, both programs, and the owner of the bus. -/
def Obligations.NoCycleWritesTheOtherAgents : Prop :=
  ∀ (s t : State) (i : Instr), exec i s = .next t →
    t.params = s.params ∧ t.program = s.program ∧ t.altProgram = s.altProgram ∧ t.owner = s.owner ∧
    (s.inputs.pitReset = false → (∀ e ∈ s.events, e.2.harmless = true) →
      t.inputs.portA = s.inputs.portA ∧ t.inputs.portB = s.inputs.portB ∧
      t.inputs.pitReset = false)

/-- A read and an acknowledge cycle leave every byte of memory and every register of the PI/T alone
(R81: the bus gives a read no side effect of its own). -/
def Obligations.ReadCyclesStoreNothing : Prop :=
  ∀ (s t : State) (fc : Fc) (a : Addr) (level : Level),
    ∀ i ∈ [Instr.rdW fc a, .rdBU fc a, .rdBL fc a, .rdB8 fc a, .iack level],
      exec i s = .next t → t.mem = s.mem ∧
      (s.inputs.pitReset = false → (∀ e ∈ s.events, e.2.harmless = true) → t.pit = s.pit)

/-- A write and a read-modify-write cycle change no byte of memory but those of their selected lanes
(R176 d, R90), and no register of the PI/T but those at the same addresses; a write latches nothing
(R167). -/
def Obligations.WritingCyclesStoreOnlyTheirBytes : Prop :=
  ∀ (s t : State) (fc : Fc) (a : Addr) (v16 : Half) (v8 : Byte),
    ∀ i ∈ [Instr.wrW fc a v16, .wrBU fc a v8, .wrBL fc a v8, .wrB8 fc a v8, .rmwBU fc a, .rmwBL fc a,
        .rmwB8 fc a],
      exec i s = .next t →
      (∀ key, key ∉ storedKeys s.params.fcMap i → t.mem.read key = s.mem.read key) ∧
      (i ∈ [Instr.wrW fc a v16, .wrBU fc a v8, .wrBL fc a v8, .wrB8 fc a v8] → t.din = s.din) ∧
      (s.inputs.pitReset = false → (∀ e ∈ s.events, e.2.harmless = true) →
        ∀ r, ¬pitTouches s.params.pit (storedAddrs i) r →
          t.pit.cell t.inputs.portA t.inputs.portB r = s.pit.cell s.inputs.portA s.inputs.portB r)

/-! ## Masters of the bus (45_bus_arbitration.md) -/

/-- R264 with R252, R253, R254, R258, R259 and R265 (a), whose unlisted steps are the spec's decision D15 and
whose delays are scripted (log 17): the arbiter at a falling edge of CLK, three wires; the lines BR
and BGACK are those recognised at this edge, where no cycle is in its last state. The data bus is Z
unless a device still drives it (R21). A second requester that has BG when the bus comes back keeps it,
so that `Requested` lasts no edge (R258; log 17), and a delay of 0 edges grants at the edge of the
recognition. -/
def Obligations.ArbiterThreeWires : Prop :=
  ∀ s t : State, s.params.arbWires = .three → s.ArbInv → s.clk = .high → s.closing = none →
    s.halfClock = .next t →
    (s.arb = .noRequest →
      (t.inputs.br = false → t.arb = .noRequest ∧ t.pins.bg = .negated) ∧
      (t.inputs.br = true →
        (s.grantDelays = [] → t.arb = .requested ∧ t.bgWait = 0 ∧ t.pins.bg = .negated) ∧
        (∀ l, s.grantDelays = 0 :: l →
          t.arb = .granted ∧ t.pins.bg = .asserted ∧ t.grantDelays = l) ∧
        ∀ n l, s.grantDelays = (n + 1) :: l →
          t.arb = .requested ∧ t.bgWait = n ∧ t.pins.bg = .negated ∧ t.grantDelays = l)) ∧
    (s.arb = .requested →
      (t.inputs.br = false → t.arb = .noRequest ∧ t.pins.bg = .negated) ∧
      (t.inputs.br = true → s.bgWait = 0 → t.arb = .granted ∧ t.pins.bg = .asserted) ∧
      (t.inputs.br = true → s.bgWait ≠ 0 → t.arb = .requested ∧ t.bgWait = s.bgWait - 1)) ∧
    (s.arb = .granted →
      (t.inputs.bgack = true → s.run = none ∧ t.arb = .acknowledged ∧ t.owner = .alternate ∧
        t.cyc = .released ∧ t.pins.fc = none ∧ t.pins.addr = none ∧ t.pins.data = s.held ∧
        t.pins.strobeAS = .z ∧ t.pins.uds = .z ∧ t.pins.lds = .z ∧ t.pins.ds = .z ∧
        t.pins.rw = .z) ∧
      (t.inputs.bgack = false → t.inputs.br = true → t.arb = .granted ∧ t.owner = .processor) ∧
      (t.inputs.bgack = false → t.inputs.br = false →
        t.arb = .noRequest ∧ t.pins.bg = .negated ∧ t.owner = .processor)) ∧
    (s.arb = .acknowledged →
      (t.inputs.bgack = true → t.arb = .acknowledged ∧ t.owner = .alternate) ∧
      (t.inputs.bgack = false → s.run = none ∧ t.owner = .processor ∧ t.cyc = .idle ∧
        (t.pins.bg = .asserted ↔ t.arb = .granted) ∧
        t.arb = if t.inputs.br then
            (if s.tenureBg.isAgain || s.grantDelays.head? = some 0 then .granted else .requested)
          else .noRequest))

/-- R260 (the spec's decision D15; log 17): with two wires the requester owns the bus from the first
falling edge after the end of the current cycle at which `arb = Granted`, until BR is recognised
negated; a request is granted, or withdrawn, as with three (R254, R265 a). -/
def Obligations.ArbiterTwoWires : Prop :=
  ∀ s t : State, s.params.arbWires = .two → s.ArbInv → s.clk = .high → s.halfClock = .next t →
    (s.arb = .noRequest → t.owner = .processor ∧
      t.arb = if t.inputs.br then (if s.grantDelays.head? = some 0 then .granted else .requested)
        else .noRequest) ∧
    (s.arb = .requested → t.owner = .processor ∧
      (t.inputs.br = false → t.arb = .noRequest ∧ t.pins.bg = .negated) ∧
      (t.inputs.br = true → s.bgWait = 0 → t.arb = .granted ∧ t.pins.bg = .asserted) ∧
      (t.inputs.br = true → s.bgWait ≠ 0 →
        t.arb = .requested ∧ t.pins.bg = .negated ∧ t.bgWait = s.bgWait - 1)) ∧
    (s.arb = .granted → s.owner = .processor → t.inputs.br = true →
      t.arb = .granted ∧ (t.owner = .alternate ↔ s.run = none)) ∧
    (s.arb = .granted → s.owner = .alternate → t.inputs.br = true →
      t.arb = .granted ∧ t.owner = .alternate) ∧
    (s.arb = .granted → t.inputs.br = false →
      t.arb = .noRequest ∧ t.owner = .processor ∧ t.pins.bg = .negated)

/-- R264, R348, and R259 with 93 U16 (log 16): BGACK before the end of the current cycle, BGACK without a
grant, and a bus given back inside a cycle of the alternate master are ProtocolViolations. -/
def Obligations.BrokenArbitrationIsAViolation : Prop :=
  ∀ s : State, s.clk = .high → s.events = [] →
    (s.params.arbWires = .three → s.owner = .processor → s.inputs.bgack = true →
      (s.run ≠ none → s.halfClock = .fault (.protocolViolation .acknowledgeTooEarly)) ∧
      (s.run = none → s.arb ≠ .granted →
        s.halfClock = .fault (.protocolViolation .acknowledgeWithoutGrant))) ∧
    (s.owner = .alternate → s.run ≠ none →
      (s.params.arbWires = .three ∧ s.arb = .acknowledged ∧ s.inputs.bgack = false) ∨
        (s.params.arbWires = .two ∧ s.arb = .granted ∧ s.inputs.br = false) →
      s.halfClock = .fault (.protocolViolation .returnInsideCycle))

/-- R80, R200, R261: the bus changes hands only between cycles; no half clock of a cycle, from its
start to its end, does it. -/
def Obligations.OwnerChangesOnlyBetweenCycles : Prop :=
  ∀ s t : State, s.halfClock = .next t → t.owner ≠ s.owner →
    s.run = none ∧ t.run = none ∧ t.results = s.results ∧ t.mem = s.mem

/-- R257, R256: an alternate master that owns the bus runs cycles of the same formats, ended by the
same answers, and the result is its own; read-modify-write cycles included (log 18). -/
def Obligations.AlternateMasterRunsTheSameCycles : Prop :=
  ∀ (s : State) (fc : Fc) (a : Addr) (w : Nat) (x : Half) (rest : List Answer),
    s.Tenure → s.BusFree → s.answers = Answer.of (.dtack w (some x)) :: rest →
    (∀ p ∈ [(Instr.rdW fc a, Result.okWord x), (.rdBU fc a, .okByte (x.extractLsb' 8 8)),
        (.rdBL fc a, .okByte (x.extractLsb' 0 8)), (.rdB8 fc a, .okByte (x.extractLsb' 0 8))],
      p.1.wf s.params.dataBus = true →
      ∃ t, exec p.1 s = .next t ∧ Completed s t p.2 (4 + w) ∧ t.Tenure ∧
        t.program = s.program ∧ t.mem = s.mem) ∧
    (∀ v, Instr.wf s.params.dataBus (.wrW fc a v) = true →
      ∃ t, exec (.wrW fc a v) s = .next t ∧ Completed s t .ok (4 + w) ∧ t.Tenure ∧
        t.program = s.program ∧ t.Holds fc a (v.extractLsb' 8 8) ∧
        t.Holds fc (a + 1) (v.extractLsb' 0 8)) ∧
    (∀ v, ∀ i ∈ [Instr.wrBU fc a v, .wrBL fc a v, .wrB8 fc a v], i.wf s.params.dataBus = true →
      ∃ t, exec i s = .next t ∧ Completed s t .ok (4 + w) ∧ t.Tenure ∧ t.program = s.program ∧
        t.Holds fc a v) ∧
    ∀ w2 d rest2, rest = Answer.of (.dtack w2 d) :: rest2 →
      ∀ p ∈ [(Instr.rmwBU fc a, x.extractLsb' 8 8), (.rmwBL fc a, x.extractLsb' 0 8),
          (.rmwB8 fc a, x.extractLsb' 0 8)],
        p.1.wf s.params.dataBus = true →
        ∃ t, exec p.1 s = .next t ∧ Completed s t (.okByte p.2) (10 + w + w2) ∧ t.Tenure ∧
          t.program = s.program ∧ t.Holds fc a (aluModify s.params.alu p.2)

/-! ## Every falling edge -/

/-- R55, R281 (decision D20), R282: at every falling edge of CLK, inside and outside bus cycles, `ipl_seen` is
overwritten with the complement of the pins; nothing else of the request is kept but that the level
was seen (R283). A rising edge changes neither. -/
def Obligations.IplSeenFollowsThePins : Prop :=
  ∀ s t : State, s.halfClock = .next t →
    (s.clk = .high → t.iplSeen = ~~~t.inputs.ipl ∧
      ∀ n, t.iplHistory.getLsbD n =
        (s.iplHistory.getLsbD n || (decide (n < 8) && decide (n = t.iplSeen.toNat)))) ∧
    (s.clk = .low → t.iplSeen = s.iplSeen ∧ t.iplHistory = s.iplHistory)

/-- R50 (decision D13), R51, R243: E counts the CLK cycles modulo 10 through every step, whatever runs. -/
def Obligations.EPhaseCountsClockCycles : Prop :=
  ∀ s t : State, step s = .next t →
    s.clkCount ≤ t.clkCount ∧ t.ephase.val = (s.ephase.val + (t.clkCount - s.clkCount)) % 10

/-! ## Invariants -/

/-- Every step keeps the invariant: the lines are those of R100, R101, R102 in every state of a cycle
and idle between cycles (R34 to R38, R44, R53), the last state of a cycle included; the data bus has one
driver (R347); BG and the owner follow `arb` (R54, R256, R258, R260); the memory keeps its canonical
form; the unused bits of the PI/T stay 0 (R301, R307); CLK is high in the even states (R20). -/
def Obligations.EveryStepKeepsTheInvariant : Prop :=
  ∀ s t : State, s.Inv → step s = .next t → t.Inv

/-- The same half clock by half clock: lines, arbiter and clock need each other, since an arbiter that
handed the bus over inside a cycle would take the lines away from it. -/
def Obligations.EveryHalfClockKeepsTheBusInvariant : Prop :=
  ∀ s t : State, s.BusInv → s.ArbInv → s.inPhase → s.halfClock = .next t →
    t.BusInv ∧ t.ArbInv ∧ t.inPhase

/-- The machine right after reset meets the invariant. -/
def Obligations.ResetMeetsTheInvariant : Prop := State.reset.Inv

/-- R60, the spec's decision D16: the idle bus a model starts in, but for FC, `din` and the phase of E,
which the rule leaves unspecified. -/
def Obligations.ResetIsTheIdleBus : Prop :=
  State.reset.cyc = .idle ∧ State.reset.run = none ∧ State.reset.owner = .processor ∧
  State.reset.arb = .noRequest ∧ State.reset.term = .none ∧
  State.reset.pins.strobeAS = .negated ∧ State.reset.pins.uds = .negated ∧
  State.reset.pins.lds = .negated ∧ State.reset.pins.ds = .negated ∧ State.reset.pins.vma = .negated ∧
  State.reset.pins.bg = .negated ∧ State.reset.pins.addr = none ∧
  State.reset.pins.data = DataLines.z ∧ State.reset.pins.rw = .high ∧ State.reset.iplSeen = 0

/-! ## The PI/T (60_exceptions.md) -/

/-- R61, R330: what a falling edge with RESET asserted leaves in the PI/T. Port C Data and Port Status are
undetermined and nothing is said of them; the alternate registers read the pins. Inside a cycle every
register takes its reset column but for the ones the cycle may store to at the edge, and a write that
ends well stands in its register (R301). That RESET acts as a level, at every such edge, and that it
comes before a store is the model's choice (log 20). -/
def Obligations.PitTakesItsResetColumn : Prop :=
  ∀ s t : State, s.clk = .high → s.halfClock = .next t → t.inputs.pitReset = true →
    (s.run = none →
      t.pit.pgcr = 0x00 ∧ t.pit.psrr = 0x00 ∧ t.pit.paddr = 0x00 ∧ t.pit.pbddr = 0x00 ∧
      t.pit.pcddr = 0x00 ∧ t.pit.pivr = 0x0F ∧ t.pit.pacr = 0x00 ∧ t.pit.pbcr = 0x00 ∧
      t.pit.tcr = 0x00 ∧ t.pit.tivr = 0x0F ∧ t.pit.tsr = 0x00 ∧
      t.pit.padr = s.pit.padr ∧ t.pit.pbdr = s.pit.pbdr ∧
      t.pit.cprh = s.pit.cprh ∧ t.pit.cprm = s.pit.cprm ∧ t.pit.cprl = s.pit.cprl ∧
      t.pit.cnth = s.pit.cnth ∧ t.pit.cntm = s.pit.cntm ∧ t.pit.cntl = s.pit.cntl ∧
      t.pit.read t.inputs.portA t.inputs.portB 0b01010 = t.inputs.portA ∧
      t.pit.read t.inputs.portA t.inputs.portB 0b01011 = t.inputs.portB ∧
      ∀ sel, PitReg.ofSel sel = none → t.pit.read t.inputs.portA t.inputs.portB sel = 0x00) ∧
    ∀ c, s.run = some c →
      (∀ r, r ≠ .pcdr → r ≠ .psr →
        c.kind = .read ∨ c.kind = .iack ∨ c.st ∉ [St.S6, .S8, .S18, .S20] ∨
          ¬pitTouches s.params.pit [upperByteAddr c.addr, lowerByteAddr c.strobes c.addr] r →
        t.pit.cell t.inputs.portA t.inputs.portB r =
          (s.pit.reset 0 0).cell t.inputs.portA t.inputs.portB r) ∧
      (c.kind = .write → c.st = .S6 → t.run = none → t.term.isBerr = false →
        (c.strobes.upperLane = true →
          t.Holds c.fc (upperByteAddr c.addr) (storedUpper c.strobes c.wdata)) ∧
        (c.strobes.lowerLane = true →
          t.Holds c.fc (lowerByteAddr c.strobes c.addr) (loByte c.wdata)))

/-- R301 and R321 (decision D29; log 20), R307, R312, R313: what a register of the PI/T reads as after a
byte was written to some register select code: the byte with the unused bits 0 at that register, unless
it is a status, count or alternate register, of which 93 U14 lets no claim be made; the old value at
every other; the pins at the alternate registers; and $00 at the null addresses. -/
def Obligations.PitReadsWhatWasWritten : Prop :=
  ∀ (p : Pit) (portA portB v : Byte) (sel sel' : BitVec 5),
    (∀ r, PitReg.ofSel sel = some r → r.claimable = true →
      (p.write sel v).read portA portB sel = v &&& r.usedBits) ∧
    (sel' ≠ sel → (p.write sel v).read portA portB sel' = p.read portA portB sel') ∧
    p.read portA portB 0b01010 = portA ∧ p.read portA portB 0b01011 = portB ∧
    (PitReg.ofSel sel = none → p.write sel v = p ∧ p.read portA portB sel = 0x00)

/-- R302, R307, R315, R316, R318, R319, R320, and R303, R308, R309 in both layouts of `PIT_FIELDS`
(log 26 for the literal one): where each of the 34 named fields stands, and the two 24-bit values. -/
def Obligations.PitFieldsStandWhereTheTableSays : Prop :=
  ∀ p : Pit,
    (∀ layout,
      p.field layout .portModeControl = (p.pgcr.extractLsb' 6 2).toNat ∧
      p.field layout .h34Enable = (p.pgcr.extractLsb' 5 1).toNat ∧
      p.field layout .h12Enable = (p.pgcr.extractLsb' 4 1).toNat ∧
      p.field layout .h4Sense = (p.pgcr.extractLsb' 3 1).toNat ∧
      p.field layout .h3Sense = (p.pgcr.extractLsb' 2 1).toNat ∧
      p.field layout .h2Sense = (p.pgcr.extractLsb' 1 1).toNat ∧
      p.field layout .h1Sense = (p.pgcr.extractLsb' 0 1).toNat ∧
      p.field layout .interruptVectorNumber = (p.pivr.extractLsb' 2 6).toNat ∧
      p.field layout .portASubmode = (p.pacr.extractLsb' 6 2).toNat ∧
      p.field layout .portBSubmode = (p.pbcr.extractLsb' 6 2).toNat ∧
      p.field layout .h4Level = (p.psr.extractLsb' 7 1).toNat ∧
      p.field layout .h3Level = (p.psr.extractLsb' 6 1).toNat ∧
      p.field layout .h2Level = (p.psr.extractLsb' 5 1).toNat ∧
      p.field layout .h1Level = (p.psr.extractLsb' 4 1).toNat ∧
      p.field layout .h4S = (p.psr.extractLsb' 3 1).toNat ∧
      p.field layout .h3S = (p.psr.extractLsb' 2 1).toNat ∧
      p.field layout .h2S = (p.psr.extractLsb' 1 1).toNat ∧
      p.field layout .h1S = (p.psr.extractLsb' 0 1).toNat ∧
      p.field layout .toutTiackControl = (p.tcr.extractLsb' 5 3).toNat ∧
      p.field layout .zdCtrl = (p.tcr.extractLsb' 4 1).toNat ∧
      p.field layout .clockControl = (p.tcr.extractLsb' 1 2).toNat ∧
      p.field layout .timerEnable = (p.tcr.extractLsb' 0 1).toNat ∧
      p.field layout .zds = (p.tsr.extractLsb' 0 1).toNat) ∧
    p.field .literal .svcrqSelect = (p.psrr.extractLsb' 6 1).toNat ∧
    p.field .literal .ipfSelect = (p.psrr.extractLsb' 4 2).toNat ∧
    p.field .literal .portInterruptPriorityControl = (p.psrr.extractLsb' 0 4).toNat ∧
    p.field .literal .h2Control = (p.pacr.extractLsb' 4 2).toNat ∧
    p.field .literal .h2IntEnable = (p.pacr.extractLsb' 3 1).toNat ∧
    p.field .literal .h1SvcrqEnable = (p.pacr.extractLsb' 2 1).toNat ∧
    p.field .literal .h1StatCtrl = (p.pacr.extractLsb' 0 2).toNat ∧
    p.field .literal .h4Control = (p.pbcr.extractLsb' 4 2).toNat ∧
    p.field .literal .h4IntEnable = (p.pbcr.extractLsb' 3 1).toNat ∧
    p.field .literal .h3SvcrqEnable = (p.pbcr.extractLsb' 2 1).toNat ∧
    p.field .literal .h3StatCtrl = (p.pbcr.extractLsb' 0 2).toNat ∧
    p.field .datasheet .svcrqSelect = (p.psrr.extractLsb' 5 2).toNat ∧
    p.field .datasheet .ipfSelect = (p.psrr.extractLsb' 3 2).toNat ∧
    p.field .datasheet .portInterruptPriorityControl = (p.psrr.extractLsb' 0 3).toNat ∧
    p.field .datasheet .h2Control = (p.pacr.extractLsb' 3 3).toNat ∧
    p.field .datasheet .h2IntEnable = (p.pacr.extractLsb' 2 1).toNat ∧
    p.field .datasheet .h1SvcrqEnable = (p.pacr.extractLsb' 1 1).toNat ∧
    p.field .datasheet .h1StatCtrl = (p.pacr.extractLsb' 0 1).toNat ∧
    p.field .datasheet .h4Control = (p.pbcr.extractLsb' 3 3).toNat ∧
    p.field .datasheet .h4IntEnable = (p.pbcr.extractLsb' 2 1).toNat ∧
    p.field .datasheet .h3SvcrqEnable = (p.pbcr.extractLsb' 1 1).toNat ∧
    p.field .datasheet .h3StatCtrl = (p.pbcr.extractLsb' 0 1).toNat ∧
    p.counterPreload = p.cprh ++ p.cprm ++ p.cprl ∧ p.count = p.cnth ++ p.cntm ++ p.cntl

/-! ## The data bus and BG -/

/-- R237 (alignment of D14; log 31): in a synchronous read the selected peripheral drives what the device
at the address holds from the edge at which E rises, goes on to end(S6), where the processor latches it
and E falls, and stops there. -/
def Obligations.PeripheralDrivesWhileEIsHigh : Prop :=
  ∀ (s : State) (c : Cycle) (w : Nat), s.Calm → s.BusInv → s.run = some c →
    c.kind = .read ∨ (c.kind = .rmw ∧ c.second = false) → s.term = .vpa → s.pins.vma = .asserted →
    c.answer = Answer.of (.vpa w) → s.inputs.dtack = false → s.inputs.berr = false →
    (c.st = .SwHigh → s.clk = .high → s.ephase = 5 → s.pins.data = DataLines.z →
      ∃ t, s.halfClock = .next t ∧ t.eHigh = true ∧
        (c.strobes.upperLane = true → ∀ x, s.byteAt c.fc (upperByteAddr c.addr) = some x →
          t.pins.data.hi = some x) ∧
        (c.strobes.lowerLane = true → ∀ x, s.byteAt c.fc (lowerByteAddr c.strobes c.addr) = some x →
          t.pins.data.lo = some x)) ∧
    (c.st = .SwHigh → s.clk = .high → s.ephase ∈ [(6 : Fin 10), 7, 8] →
      ∃ t, s.halfClock = .next t ∧ t.eHigh = true ∧ t.pins.data = s.pins.data) ∧
    (c.st = .SwLow ∨ c.st = .S5 → s.clk = .low →
      ∃ t, s.halfClock = .next t ∧ t.pins.data = s.pins.data) ∧
    (c.st = .S6 → s.clk = .high → s.ephase = 9 →
      ∃ t, s.halfClock = .next t ∧ t.eHigh = false ∧ t.pins.data = s.held ∧
        (∀ x, s.pins.data.lo = some x → loByte t.din = x) ∧
        (c.strobes ≠ .ds → ∀ x, s.pins.data.hi = some x → hiByte t.din = x))

/-- R258 (decision D15; the delays are scripts, log 17): BG at a falling edge inside a tenure. It is
negated some edges after the acknowledge; it may be asserted again for a request that stands, and is
negated again when that request goes away. -/
def Obligations.BgInsideATenure : Prop :=
  ∀ s t : State, s.params.arbWires = .three → s.ArbInv → s.clk = .high →
    s.halfClock = .next t → t.inputs.bgack = true →
    (s.arb = .granted → t.pins.bg = .asserted ∧
      (s.tenures = [] → t.tenureBg = .standing 0 []) ∧
      ∀ x rest, s.tenures = x :: rest →
        t.tenureBg = .standing x.negateAfter x.grantsAfter ∧ t.tenures = rest) ∧
    (s.arb = .acknowledged →
      (∀ l, s.tenureBg = .standing 0 l → t.pins.bg = .negated ∧ t.tenureBg = .off l) ∧
      (∀ n l, s.tenureBg = .standing (n + 1) l →
        t.pins.bg = .asserted ∧ t.tenureBg = .standing n l) ∧
      (s.tenureBg = .off [] → t.pins.bg = .negated ∧ t.tenureBg = .off []) ∧
      (∀ n l, s.tenureBg = .off (n :: l) →
        (t.inputs.br = false → t.pins.bg = .negated ∧ t.tenureBg = .off (n :: l)) ∧
        (t.inputs.br = true → n = 0 → t.pins.bg = .asserted ∧ t.tenureBg = .again l) ∧
        (t.inputs.br = true → n ≠ 0 → t.pins.bg = .negated ∧ t.tenureBg = .off ((n - 1) :: l))) ∧
      ∀ l, s.tenureBg = .again l →
        (t.inputs.br = true → t.pins.bg = .asserted ∧ t.tenureBg = .again l) ∧
        (t.inputs.br = false → t.pins.bg = .negated ∧ t.tenureBg = .off l))

/-- R347 (93 U16), and R21 for `release`: a device that has not let go of the data bus keeps driving it
through every half clock (log 21), and a second driver is a ProtocolViolation: the device of a read at
S6, the peripheral of a synchronous read as E rises, and the master of a write at S3 or S15. -/
def Obligations.TwoDriversAreAViolation : Prop :=
  (∀ s t : State, s.BusInv → s.held ≠ DataLines.z → s.halfClock = .next t →
    t.held = s.held ∧ t.pins.data = s.held) ∧
  ∀ (s : State) (c : Cycle), s.Calm → s.BusInv → s.run = some c → s.pins.data ≠ DataLines.z →
    (c.kind = .read ∨ c.kind = .rmw → c.st = .S5 → s.clk = .low → s.pins.vma = .negated →
      s.halfClock = .fault (.protocolViolation .twoDrivers)) ∧
    (c.kind = .read ∨ (c.kind = .rmw ∧ c.second = false) → c.st = .SwHigh → s.clk = .high →
      s.term = .vpa → s.pins.vma = .asserted → s.ephase = 5 →
      (c.answer.shape.driveAt c.edge false).dtack = false →
      s.inputs.dtack = false → s.halfClock = .fault (.protocolViolation .twoDrivers)) ∧
    (c.kind = .write → c.st = .S2 → s.clk = .high →
      s.halfClock = .fault (.protocolViolation .twoDrivers)) ∧
    (c.kind = .rmw → c.st = .S14 → s.clk = .high →
      s.halfClock = .fault (.protocolViolation .twoDrivers))

/-! ## Free inputs: the sampled lines, and when a request acts -/

/-- R47 (decision D7), R144, R145 to R147, R42: a read whose environment gives a free boolean at every
sampling edge of every line, and in which DTACK or BERR is recognised first: nothing at `w` edges, then
`x`, then `y` at end(S6), whether or not what `x` asserts is still asserted there. That one of DTACK and
VPA alone is ignored at end(S6) after BERR is the model's choice (log 14). -/
def Obligations.ReadFollowsTheSampledLines : Prop :=
  ∀ (s : State) (fc : Fc) (a : Addr) (w : Nat) (x y : Drive) (rest : List Answer), s.Ready →
    s.answers = Answer.of (.edges (List.replicate w Drive.quiet ++ [x, y])) :: rest →
    ∀ p ∈ [(Instr.rdW fc a, Result.okWord), (.rdBU fc a, fun v => .okByte (v.extractLsb' 8 8)),
        (.rdBL fc a, fun v => .okByte (v.extractLsb' 0 8)),
        (.rdB8 fc a, fun v => .okByte (v.extractLsb' 0 8))],
      p.1.wf s.params.dataBus = true →
      ((x.dtack = true ∧ x.vpa = true) ∨ (x.dtack = true ∧ y.vpa = true) ∨
          (x.berr = true ∧ y.dtack = true ∧ y.vpa = true) →
        exec p.1 s = .fault (.protocolViolation .dtackAndVpa)) ∧
      (x.dtack = true → x.vpa = false → y.vpa = false → x.berr = true ∨ y.berr = true →
        ∃ t, exec p.1 s = .next t ∧ t.term = .berrDtack ∧ t.Calm ∧
          Completed s t (.busError { kind := .read, fc := fc, addr := a }) (4 + w)) ∧
      (x.dtack = true → x.vpa = false → y.vpa = false → x.berr = false → y.berr = false →
        ∃ t r, exec p.1 s = .next t ∧ t.term = .dtack ∧ t.Calm ∧ Completed s t r (4 + w) ∧
          ∀ v, y.data = some v → r = p.2 v) ∧
      (x.dtack = false → x.berr = true → ¬(y.dtack = true ∧ y.vpa = true) →
        ∃ t, exec p.1 s = .next t ∧ t.term = .berr ∧ t.Calm ∧
          Completed s t (.busError { kind := .read, fc := fc, addr := a }) (5 + w))

/-- R253, R343, decision D15 (the delay is a script, log 17): a BR recognised at any falling edge inside a
cycle, the last one included, may act at the end of that cycle, where the processor then starts no other,
or later, where it may. -/
def Obligations.RequestActsAtTheEndOfThisCycleOrOfTheNext : Prop :=
  ∀ (s t : State) (c : Cycle), s.owner = .processor → s.arb = .noRequest → s.ArbInv → s.clk = .high →
    s.run = some c → s.halfClock = .next t → t.inputs.br = true →
    (∀ l, s.grantDelays = 0 :: l → t.arb = .granted ∧ t.pins.bg = .asserted ∧
      (t.run = none → step t = t.clkCycle)) ∧
    (s.grantDelays = [] ∨ (∃ n l, s.grantDelays = (n + 1) :: l) →
      t.arb = .requested ∧ t.pins.bg = .negated ∧ (t.run = none → step t = t.issue))
end

