-- ==== Sys2Proof/Laws/Memory.lean ====
section
/-! SUPPORT. The memory operations: read after write, and that a write keeps the canonical form. -/

namespace Sys2Proof.Machine

@[simp] theorem Memory.read_write_same (m : Memory) (key : Nat) (v : Byte) :
    (m.write key v).read key = some v := by
  induction m with
  | nil => simp [Memory.write, Memory.read]
  | cons c rest ih =>
    obtain ⟨k, b⟩ := c
    simp only [Memory.write]
    split
    · simp [Memory.read]
    · split
      · simp [Memory.read]
      · next h => simp [Memory.read, ih, Ne.symm h]

theorem Memory.read_write_other (m : Memory) (key other : Nat) (v : Byte) (h : other ≠ key) :
    (m.write key v).read other = m.read other := by
  induction m with
  | nil => simp [Memory.write, Memory.read, Ne.symm h]
  | cons c rest ih =>
    obtain ⟨k, b⟩ := c
    simp only [Memory.write]
    split
    · simp [Memory.read, Ne.symm h]
    · split
      · next h' => subst h'; simp [Memory.read, Ne.symm h]
      · simp [Memory.read, ih]

/-- The first key of a memory, if it has one, is above `lo`. -/
def Memory.above (lo : Nat) : Memory → Prop
  | [] => True
  | c :: _ => lo < c.1

theorem Memory.wf_cons (c : Host.Cell) (rest : Memory) :
    Memory.wf (c :: rest) = true ↔ Memory.above c.1 rest ∧ Memory.wf rest = true := by
  cases rest <;> simp [Memory.wf, Memory.above]

theorem Memory.write_above (m : Memory) (lo key : Nat) (v : Byte) (hm : m.above lo) (hk : lo < key) :
    (m.write key v).above lo := by
  cases m with
  | nil => simpa [Memory.write, Memory.above]
  | cons c rest =>
    obtain ⟨k, b⟩ := c
    simp only [Memory.write]
    split
    · simpa [Memory.above]
    · split
      · simpa [Memory.above]
      · simpa [Memory.above] using hm

theorem Memory.write_wf (m : Memory) (key : Nat) (v : Byte) (h : m.wf = true) :
    (m.write key v).wf = true := by
  induction m with
  | nil => simp [Memory.write, Memory.wf]
  | cons c rest ih =>
    obtain ⟨k, b⟩ := c
    obtain ⟨ha, hr⟩ := (Memory.wf_cons _ _).1 h
    simp only [Memory.write]
    split
    · next hk => exact (Memory.wf_cons _ _).2 ⟨hk, h⟩
    · split
      · next hk => subst hk; exact (Memory.wf_cons _ _).2 ⟨ha, hr⟩
      · next h1 h2 =>
        exact (Memory.wf_cons _ _).2 ⟨Memory.write_above _ _ _ _ ha (by simp at h1 ⊢; omega), ih hr⟩

/-- Where a byte is stored, and that nothing else of memory changes. -/
theorem storeByte_mem (s : State) (fc : Fc) (a : Addr) (v : Byte) (key : Nat)
    (h : key ≠ cellKey s.params.fcMap fc a) :
    (s.storeByte fc a v).mem.read key = s.mem.read key := by
  unfold State.storeByte
  split
  · rfl
  · exact Memory.read_write_other _ _ _ _ h

theorem storeByte_wf (s : State) (fc : Fc) (a : Addr) (v : Byte) (h : s.mem.wf = true) :
    (s.storeByte fc a v).mem.wf = true := by
  unfold State.storeByte
  split
  · exact h
  · exact Memory.write_wf _ _ _ h

end Sys2Proof.Machine
end

