-- ==== Sys2Proof/Laws/Pit.lean ====
section
/-! SUPPORT. The PI/T's cells: read after write, and that writes and RESET keep the unused bits of the
storage at 0. -/

namespace Sys2Proof.Machine

theorem Pit.cell_setCell_same (p : Pit) (a b : Byte) (r : PitReg) (v : Byte)
    (ha : r ≠ .paar) (hb : r ≠ .pbar) : (p.setCell r v).cell a b r = v := by
  cases r <;> first | rfl | contradiction

theorem Pit.cell_setCell_other (p : Pit) (a b : Byte) (r q : PitReg) (v : Byte) (h : q ≠ r) :
    (p.setCell r v).cell a b q = p.cell a b q := by
  cases r <;> cases q <;> first | rfl | contradiction

theorem Pit.wf_setCell (p : Pit) (r : PitReg) (v : Byte) (h : p.wf = true) :
    (p.setCell r (v &&& r.usedBits)).wf = true := by
  have h1 : ∀ x : Byte, x &&& 0x7F &&& 0x80 = 0 := by decide
  have h2 : ∀ x : Byte, x &&& 0xF7 &&& 0x08 = 0 := by decide
  have h3 : ∀ x : Byte, x &&& 0x01 &&& 0xFE = 0 := by decide
  have h4 : ∀ x : Byte, x &&& 0xFC &&& 0x03 = 0 := by decide
  simp only [Pit.wf, Bool.and_eq_true, Bool.or_eq_true, decide_eq_true_eq] at h ⊢
  obtain ⟨⟨⟨hp, ht⟩, hs⟩, hv⟩ := h
  cases r <;>
    simp only [Pit.setCell, PitReg.usedBits, h1, h2, h3, h4] <;>
    first
    | exact ⟨⟨⟨hp, ht⟩, hs⟩, hv⟩
    | exact ⟨⟨⟨trivial, ht⟩, hs⟩, hv⟩
    | exact ⟨⟨⟨hp, trivial⟩, hs⟩, hv⟩
    | exact ⟨⟨⟨hp, ht⟩, trivial⟩, hv⟩
    | exact ⟨⟨⟨hp, ht⟩, hs⟩, .inr trivial⟩

theorem Pit.wf_write (p : Pit) (sel : BitVec 5) (v : Byte) (h : p.wf = true) :
    (p.write sel v).wf = true := by
  unfold Pit.write Pit.writeReg
  split
  · exact Pit.wf_setCell p _ v h
  · exact h

theorem Pit.wf_reset (p : Pit) (u v : Byte) : (p.reset u v).wf = true := by
  simp [Pit.reset, Pit.powerUp, Pit.wf]

end Sys2Proof.Machine
end

