-- ==== Sys2Proof/Laws/State.lean ====
section
/-! SUPPORT. One lemma for each update of the state: what it writes and that it leaves every other field
alone, for simp. -/

namespace Sys2Proof.Machine

@[simp] theorem placeCodes_fields (s : State) (fc : Fc) :
    (s.placeCodes fc).params = s.params ∧ (s.placeCodes fc).pins.fc = some fc ∧
    (s.placeCodes fc).pins.addr = s.pins.addr ∧ (s.placeCodes fc).pins.strobeAS = .negated ∧
    (s.placeCodes fc).pins.uds = .negated ∧ (s.placeCodes fc).pins.lds = .negated ∧
    (s.placeCodes fc).pins.ds = .negated ∧ (s.placeCodes fc).pins.rw = .high ∧
    (s.placeCodes fc).pins.data = s.pins.data ∧ (s.placeCodes fc).pins.vma = s.pins.vma ∧
    (s.placeCodes fc).pins.bg = s.pins.bg ∧ (s.placeCodes fc).held = s.held ∧
    (s.placeCodes fc).inputs = s.inputs ∧ (s.placeCodes fc).clk = s.clk ∧
    (s.placeCodes fc).clkCount = s.clkCount ∧ (s.placeCodes fc).run = s.run ∧
    (s.placeCodes fc).closing = s.closing ∧ (s.placeCodes fc).term = .none ∧
    (s.placeCodes fc).din = s.din ∧ (s.placeCodes fc).owner = s.owner ∧
    (s.placeCodes fc).arb = s.arb ∧ (s.placeCodes fc).bgWait = s.bgWait ∧
    (s.placeCodes fc).tenureBg = s.tenureBg ∧ (s.placeCodes fc).iplSeen = s.iplSeen ∧
    (s.placeCodes fc).iplHistory = s.iplHistory ∧ (s.placeCodes fc).ephase = s.ephase ∧
    (s.placeCodes fc).pit = s.pit ∧ (s.placeCodes fc).mem = s.mem ∧
    (s.placeCodes fc).program = s.program ∧ (s.placeCodes fc).altProgram = s.altProgram ∧
    (s.placeCodes fc).answers = s.answers ∧ (s.placeCodes fc).events = s.events ∧
    (s.placeCodes fc).grantDelays = s.grantDelays ∧ (s.placeCodes fc).tenures = s.tenures ∧
    (s.placeCodes fc).draws = s.draws ∧ (s.placeCodes fc).results = s.results := by
  and_intros <;> rfl

@[simp] theorem driveAddr_fields (s : State) (a : Addr) :
    (s.driveAddr a).params = s.params ∧ (s.driveAddr a).pins.fc = s.pins.fc ∧
    (s.driveAddr a).pins.addr = some (linesOf a) ∧
    (s.driveAddr a).pins.strobeAS = s.pins.strobeAS ∧ (s.driveAddr a).pins.uds = s.pins.uds ∧
    (s.driveAddr a).pins.lds = s.pins.lds ∧ (s.driveAddr a).pins.ds = s.pins.ds ∧
    (s.driveAddr a).pins.rw = s.pins.rw ∧ (s.driveAddr a).pins.data = s.pins.data ∧
    (s.driveAddr a).pins.vma = s.pins.vma ∧ (s.driveAddr a).pins.bg = s.pins.bg ∧
    (s.driveAddr a).held = s.held ∧ (s.driveAddr a).inputs = s.inputs ∧
    (s.driveAddr a).clk = s.clk ∧ (s.driveAddr a).clkCount = s.clkCount ∧
    (s.driveAddr a).run = s.run ∧ (s.driveAddr a).closing = s.closing ∧
    (s.driveAddr a).term = s.term ∧ (s.driveAddr a).din = s.din ∧ (s.driveAddr a).owner = s.owner ∧
    (s.driveAddr a).arb = s.arb ∧ (s.driveAddr a).bgWait = s.bgWait ∧
    (s.driveAddr a).tenureBg = s.tenureBg ∧ (s.driveAddr a).iplSeen = s.iplSeen ∧
    (s.driveAddr a).iplHistory = s.iplHistory ∧ (s.driveAddr a).ephase = s.ephase ∧
    (s.driveAddr a).pit = s.pit ∧ (s.driveAddr a).mem = s.mem ∧
    (s.driveAddr a).program = s.program ∧ (s.driveAddr a).altProgram = s.altProgram ∧
    (s.driveAddr a).answers = s.answers ∧ (s.driveAddr a).events = s.events ∧
    (s.driveAddr a).grantDelays = s.grantDelays ∧ (s.driveAddr a).tenures = s.tenures ∧
    (s.driveAddr a).draws = s.draws ∧ (s.driveAddr a).results = s.results := by
  and_intros <;> rfl

@[simp] theorem assertAS_fields (s : State) :
    s.assertAS.params = s.params ∧ s.assertAS.pins.fc = s.pins.fc ∧
    s.assertAS.pins.addr = s.pins.addr ∧ s.assertAS.pins.strobeAS = .asserted ∧
    s.assertAS.pins.uds = s.pins.uds ∧ s.assertAS.pins.lds = s.pins.lds ∧
    s.assertAS.pins.ds = s.pins.ds ∧ s.assertAS.pins.rw = s.pins.rw ∧
    s.assertAS.pins.data = s.pins.data ∧ s.assertAS.pins.vma = s.pins.vma ∧
    s.assertAS.pins.bg = s.pins.bg ∧ s.assertAS.held = s.held ∧ s.assertAS.inputs = s.inputs ∧
    s.assertAS.clk = s.clk ∧ s.assertAS.clkCount = s.clkCount ∧ s.assertAS.run = s.run ∧
    s.assertAS.closing = s.closing ∧ s.assertAS.term = s.term ∧ s.assertAS.din = s.din ∧
    s.assertAS.owner = s.owner ∧ s.assertAS.arb = s.arb ∧ s.assertAS.bgWait = s.bgWait ∧
    s.assertAS.tenureBg = s.tenureBg ∧ s.assertAS.iplSeen = s.iplSeen ∧
    s.assertAS.iplHistory = s.iplHistory ∧ s.assertAS.ephase = s.ephase ∧ s.assertAS.pit = s.pit ∧
    s.assertAS.mem = s.mem ∧ s.assertAS.program = s.program ∧
    s.assertAS.altProgram = s.altProgram ∧ s.assertAS.answers = s.answers ∧
    s.assertAS.events = s.events ∧ s.assertAS.grantDelays = s.grantDelays ∧
    s.assertAS.tenures = s.tenures ∧ s.assertAS.draws = s.draws ∧
    s.assertAS.results = s.results := by
  and_intros <;> rfl

@[simp] theorem assertStrobes_fields (s : State) (x : Strobes) :
    (s.assertStrobes x).params = s.params ∧ (s.assertStrobes x).pins.fc = s.pins.fc ∧
    (s.assertStrobes x).pins.addr = s.pins.addr ∧
    (s.assertStrobes x).pins.strobeAS = s.pins.strobeAS ∧
    (s.assertStrobes x).pins.uds = assertIf x.selectsUpper s.pins.uds ∧
    (s.assertStrobes x).pins.lds = assertIf x.selectsLower s.pins.lds ∧
    (s.assertStrobes x).pins.ds = assertIf x.selectsDs s.pins.ds ∧
    (s.assertStrobes x).pins.rw = s.pins.rw ∧ (s.assertStrobes x).pins.data = s.pins.data ∧
    (s.assertStrobes x).pins.vma = s.pins.vma ∧ (s.assertStrobes x).pins.bg = s.pins.bg ∧
    (s.assertStrobes x).held = s.held ∧ (s.assertStrobes x).inputs = s.inputs ∧
    (s.assertStrobes x).clk = s.clk ∧ (s.assertStrobes x).clkCount = s.clkCount ∧
    (s.assertStrobes x).run = s.run ∧ (s.assertStrobes x).closing = s.closing ∧
    (s.assertStrobes x).term = s.term ∧ (s.assertStrobes x).din = s.din ∧
    (s.assertStrobes x).owner = s.owner ∧ (s.assertStrobes x).arb = s.arb ∧
    (s.assertStrobes x).bgWait = s.bgWait ∧ (s.assertStrobes x).tenureBg = s.tenureBg ∧
    (s.assertStrobes x).iplSeen = s.iplSeen ∧ (s.assertStrobes x).iplHistory = s.iplHistory ∧
    (s.assertStrobes x).ephase = s.ephase ∧ (s.assertStrobes x).pit = s.pit ∧
    (s.assertStrobes x).mem = s.mem ∧ (s.assertStrobes x).program = s.program ∧
    (s.assertStrobes x).altProgram = s.altProgram ∧ (s.assertStrobes x).answers = s.answers ∧
    (s.assertStrobes x).events = s.events ∧ (s.assertStrobes x).grantDelays = s.grantDelays ∧
    (s.assertStrobes x).tenures = s.tenures ∧ (s.assertStrobes x).draws = s.draws ∧
    (s.assertStrobes x).results = s.results := by
  and_intros <;> rfl

@[simp] theorem negateStrobes_fields (s : State) :
    s.negateStrobes.params = s.params ∧ s.negateStrobes.pins.fc = s.pins.fc ∧
    s.negateStrobes.pins.addr = s.pins.addr ∧ s.negateStrobes.pins.strobeAS = s.pins.strobeAS ∧
    s.negateStrobes.pins.uds = .negated ∧ s.negateStrobes.pins.lds = .negated ∧
    s.negateStrobes.pins.ds = .negated ∧ s.negateStrobes.pins.rw = s.pins.rw ∧
    s.negateStrobes.pins.data = s.pins.data ∧ s.negateStrobes.pins.vma = .negated ∧
    s.negateStrobes.pins.bg = s.pins.bg ∧ s.negateStrobes.held = s.held ∧
    s.negateStrobes.inputs = s.inputs ∧ s.negateStrobes.clk = s.clk ∧
    s.negateStrobes.clkCount = s.clkCount ∧ s.negateStrobes.run = s.run ∧
    s.negateStrobes.closing = s.closing ∧ s.negateStrobes.term = s.term ∧
    s.negateStrobes.din = s.din ∧ s.negateStrobes.owner = s.owner ∧ s.negateStrobes.arb = s.arb ∧
    s.negateStrobes.bgWait = s.bgWait ∧ s.negateStrobes.tenureBg = s.tenureBg ∧
    s.negateStrobes.iplSeen = s.iplSeen ∧ s.negateStrobes.iplHistory = s.iplHistory ∧
    s.negateStrobes.ephase = s.ephase ∧ s.negateStrobes.pit = s.pit ∧ s.negateStrobes.mem = s.mem ∧
    s.negateStrobes.program = s.program ∧ s.negateStrobes.altProgram = s.altProgram ∧
    s.negateStrobes.answers = s.answers ∧ s.negateStrobes.events = s.events ∧
    s.negateStrobes.grantDelays = s.grantDelays ∧ s.negateStrobes.tenures = s.tenures ∧
    s.negateStrobes.draws = s.draws ∧ s.negateStrobes.results = s.results := by
  and_intros <;> rfl

@[simp] theorem negateAS_fields (s : State) :
    s.negateAS.params = s.params ∧ s.negateAS.pins.fc = s.pins.fc ∧
    s.negateAS.pins.addr = s.pins.addr ∧ s.negateAS.pins.strobeAS = .negated ∧
    s.negateAS.pins.uds = s.pins.uds ∧ s.negateAS.pins.lds = s.pins.lds ∧
    s.negateAS.pins.ds = s.pins.ds ∧ s.negateAS.pins.rw = s.pins.rw ∧
    s.negateAS.pins.data = s.pins.data ∧ s.negateAS.pins.vma = s.pins.vma ∧
    s.negateAS.pins.bg = s.pins.bg ∧ s.negateAS.held = s.held ∧ s.negateAS.inputs = s.inputs ∧
    s.negateAS.clk = s.clk ∧ s.negateAS.clkCount = s.clkCount ∧ s.negateAS.run = s.run ∧
    s.negateAS.closing = s.closing ∧ s.negateAS.term = s.term ∧ s.negateAS.din = s.din ∧
    s.negateAS.owner = s.owner ∧ s.negateAS.arb = s.arb ∧ s.negateAS.bgWait = s.bgWait ∧
    s.negateAS.tenureBg = s.tenureBg ∧ s.negateAS.iplSeen = s.iplSeen ∧
    s.negateAS.iplHistory = s.iplHistory ∧ s.negateAS.ephase = s.ephase ∧ s.negateAS.pit = s.pit ∧
    s.negateAS.mem = s.mem ∧ s.negateAS.program = s.program ∧
    s.negateAS.altProgram = s.altProgram ∧ s.negateAS.answers = s.answers ∧
    s.negateAS.events = s.events ∧ s.negateAS.grantDelays = s.grantDelays ∧
    s.negateAS.tenures = s.tenures ∧ s.negateAS.draws = s.draws ∧
    s.negateAS.results = s.results := by
  and_intros <;> rfl

@[simp] theorem driveRwLow_fields (s : State) :
    s.driveRwLow.params = s.params ∧ s.driveRwLow.pins.fc = s.pins.fc ∧
    s.driveRwLow.pins.addr = s.pins.addr ∧ s.driveRwLow.pins.strobeAS = s.pins.strobeAS ∧
    s.driveRwLow.pins.uds = s.pins.uds ∧ s.driveRwLow.pins.lds = s.pins.lds ∧
    s.driveRwLow.pins.ds = s.pins.ds ∧ s.driveRwLow.pins.rw = .low ∧
    s.driveRwLow.pins.data = s.pins.data ∧ s.driveRwLow.pins.vma = s.pins.vma ∧
    s.driveRwLow.pins.bg = s.pins.bg ∧ s.driveRwLow.held = s.held ∧
    s.driveRwLow.inputs = s.inputs ∧ s.driveRwLow.clk = s.clk ∧
    s.driveRwLow.clkCount = s.clkCount ∧ s.driveRwLow.run = s.run ∧
    s.driveRwLow.closing = s.closing ∧ s.driveRwLow.term = s.term ∧ s.driveRwLow.din = s.din ∧
    s.driveRwLow.owner = s.owner ∧ s.driveRwLow.arb = s.arb ∧ s.driveRwLow.bgWait = s.bgWait ∧
    s.driveRwLow.tenureBg = s.tenureBg ∧ s.driveRwLow.iplSeen = s.iplSeen ∧
    s.driveRwLow.iplHistory = s.iplHistory ∧ s.driveRwLow.ephase = s.ephase ∧
    s.driveRwLow.pit = s.pit ∧ s.driveRwLow.mem = s.mem ∧ s.driveRwLow.program = s.program ∧
    s.driveRwLow.altProgram = s.altProgram ∧ s.driveRwLow.answers = s.answers ∧
    s.driveRwLow.events = s.events ∧ s.driveRwLow.grantDelays = s.grantDelays ∧
    s.driveRwLow.tenures = s.tenures ∧ s.driveRwLow.draws = s.draws ∧
    s.driveRwLow.results = s.results := by
  and_intros <;> rfl

@[simp] theorem releaseAddr_fields (s : State) :
    s.releaseAddr.params = s.params ∧ s.releaseAddr.pins.fc = s.pins.fc ∧
    s.releaseAddr.pins.addr = none ∧ s.releaseAddr.pins.strobeAS = s.pins.strobeAS ∧
    s.releaseAddr.pins.uds = s.pins.uds ∧ s.releaseAddr.pins.lds = s.pins.lds ∧
    s.releaseAddr.pins.ds = s.pins.ds ∧ s.releaseAddr.pins.rw = s.pins.rw ∧
    s.releaseAddr.pins.data = s.pins.data ∧ s.releaseAddr.pins.vma = s.pins.vma ∧
    s.releaseAddr.pins.bg = s.pins.bg ∧ s.releaseAddr.held = s.held ∧
    s.releaseAddr.inputs = s.inputs ∧ s.releaseAddr.clk = s.clk ∧
    s.releaseAddr.clkCount = s.clkCount ∧ s.releaseAddr.run = s.run ∧
    s.releaseAddr.closing = s.closing ∧ s.releaseAddr.term = s.term ∧ s.releaseAddr.din = s.din ∧
    s.releaseAddr.owner = s.owner ∧ s.releaseAddr.arb = s.arb ∧ s.releaseAddr.bgWait = s.bgWait ∧
    s.releaseAddr.tenureBg = s.tenureBg ∧ s.releaseAddr.iplSeen = s.iplSeen ∧
    s.releaseAddr.iplHistory = s.iplHistory ∧ s.releaseAddr.ephase = s.ephase ∧
    s.releaseAddr.pit = s.pit ∧ s.releaseAddr.mem = s.mem ∧ s.releaseAddr.program = s.program ∧
    s.releaseAddr.altProgram = s.altProgram ∧ s.releaseAddr.answers = s.answers ∧
    s.releaseAddr.events = s.events ∧ s.releaseAddr.grantDelays = s.grantDelays ∧
    s.releaseAddr.tenures = s.tenures ∧ s.releaseAddr.draws = s.draws ∧
    s.releaseAddr.results = s.results := by
  and_intros <;> rfl

@[simp] theorem releaseData_fields (s : State) :
    s.releaseData.params = s.params ∧ s.releaseData.pins.fc = s.pins.fc ∧
    s.releaseData.pins.addr = s.pins.addr ∧ s.releaseData.pins.strobeAS = s.pins.strobeAS ∧
    s.releaseData.pins.uds = s.pins.uds ∧ s.releaseData.pins.lds = s.pins.lds ∧
    s.releaseData.pins.ds = s.pins.ds ∧ s.releaseData.pins.rw = s.pins.rw ∧
    s.releaseData.pins.data = s.held ∧ s.releaseData.pins.vma = s.pins.vma ∧
    s.releaseData.pins.bg = s.pins.bg ∧ s.releaseData.held = s.held ∧
    s.releaseData.inputs = s.inputs ∧ s.releaseData.clk = s.clk ∧
    s.releaseData.clkCount = s.clkCount ∧ s.releaseData.run = s.run ∧
    s.releaseData.closing = s.closing ∧ s.releaseData.term = s.term ∧ s.releaseData.din = s.din ∧
    s.releaseData.owner = s.owner ∧ s.releaseData.arb = s.arb ∧ s.releaseData.bgWait = s.bgWait ∧
    s.releaseData.tenureBg = s.tenureBg ∧ s.releaseData.iplSeen = s.iplSeen ∧
    s.releaseData.iplHistory = s.iplHistory ∧ s.releaseData.ephase = s.ephase ∧
    s.releaseData.pit = s.pit ∧ s.releaseData.mem = s.mem ∧ s.releaseData.program = s.program ∧
    s.releaseData.altProgram = s.altProgram ∧ s.releaseData.answers = s.answers ∧
    s.releaseData.events = s.events ∧ s.releaseData.grantDelays = s.grantDelays ∧
    s.releaseData.tenures = s.tenures ∧ s.releaseData.draws = s.draws ∧
    s.releaseData.results = s.results := by
  and_intros <;> rfl

@[simp] theorem releaseWrite_fields (s : State) :
    s.releaseWrite.params = s.params ∧ s.releaseWrite.pins.fc = s.pins.fc ∧
    s.releaseWrite.pins.addr = s.pins.addr ∧ s.releaseWrite.pins.strobeAS = s.pins.strobeAS ∧
    s.releaseWrite.pins.uds = s.pins.uds ∧ s.releaseWrite.pins.lds = s.pins.lds ∧
    s.releaseWrite.pins.ds = s.pins.ds ∧ s.releaseWrite.pins.rw = .high ∧
    s.releaseWrite.pins.data = s.held ∧ s.releaseWrite.pins.vma = s.pins.vma ∧
    s.releaseWrite.pins.bg = s.pins.bg ∧ s.releaseWrite.held = s.held ∧
    s.releaseWrite.inputs = s.inputs ∧ s.releaseWrite.clk = s.clk ∧
    s.releaseWrite.clkCount = s.clkCount ∧ s.releaseWrite.run = s.run ∧
    s.releaseWrite.closing = s.closing ∧ s.releaseWrite.term = s.term ∧
    s.releaseWrite.din = s.din ∧ s.releaseWrite.owner = s.owner ∧ s.releaseWrite.arb = s.arb ∧
    s.releaseWrite.bgWait = s.bgWait ∧ s.releaseWrite.tenureBg = s.tenureBg ∧
    s.releaseWrite.iplSeen = s.iplSeen ∧ s.releaseWrite.iplHistory = s.iplHistory ∧
    s.releaseWrite.ephase = s.ephase ∧ s.releaseWrite.pit = s.pit ∧ s.releaseWrite.mem = s.mem ∧
    s.releaseWrite.program = s.program ∧ s.releaseWrite.altProgram = s.altProgram ∧
    s.releaseWrite.answers = s.answers ∧ s.releaseWrite.events = s.events ∧
    s.releaseWrite.grantDelays = s.grantDelays ∧ s.releaseWrite.tenures = s.tenures ∧
    s.releaseWrite.draws = s.draws ∧ s.releaseWrite.results = s.results := by
  and_intros <;> rfl

@[simp] theorem assertVma_fields (s : State) :
    s.assertVma.params = s.params ∧ s.assertVma.pins.fc = s.pins.fc ∧
    s.assertVma.pins.addr = s.pins.addr ∧ s.assertVma.pins.strobeAS = s.pins.strobeAS ∧
    s.assertVma.pins.uds = s.pins.uds ∧ s.assertVma.pins.lds = s.pins.lds ∧
    s.assertVma.pins.ds = s.pins.ds ∧ s.assertVma.pins.rw = s.pins.rw ∧
    s.assertVma.pins.data = s.pins.data ∧ s.assertVma.pins.vma = .asserted ∧
    s.assertVma.pins.bg = s.pins.bg ∧ s.assertVma.held = s.held ∧ s.assertVma.inputs = s.inputs ∧
    s.assertVma.clk = s.clk ∧ s.assertVma.clkCount = s.clkCount ∧ s.assertVma.run = s.run ∧
    s.assertVma.closing = s.closing ∧ s.assertVma.term = s.term ∧ s.assertVma.din = s.din ∧
    s.assertVma.owner = s.owner ∧ s.assertVma.arb = s.arb ∧ s.assertVma.bgWait = s.bgWait ∧
    s.assertVma.tenureBg = s.tenureBg ∧ s.assertVma.iplSeen = s.iplSeen ∧
    s.assertVma.iplHistory = s.iplHistory ∧ s.assertVma.ephase = s.ephase ∧
    s.assertVma.pit = s.pit ∧ s.assertVma.mem = s.mem ∧ s.assertVma.program = s.program ∧
    s.assertVma.altProgram = s.altProgram ∧ s.assertVma.answers = s.answers ∧
    s.assertVma.events = s.events ∧ s.assertVma.grantDelays = s.grantDelays ∧
    s.assertVma.tenures = s.tenures ∧ s.assertVma.draws = s.draws ∧
    s.assertVma.results = s.results := by
  and_intros <;> rfl

@[simp] theorem negateBg_fields (s : State) :
    s.negateBg.params = s.params ∧ s.negateBg.pins.fc = s.pins.fc ∧
    s.negateBg.pins.addr = s.pins.addr ∧ s.negateBg.pins.strobeAS = s.pins.strobeAS ∧
    s.negateBg.pins.uds = s.pins.uds ∧ s.negateBg.pins.lds = s.pins.lds ∧
    s.negateBg.pins.ds = s.pins.ds ∧ s.negateBg.pins.rw = s.pins.rw ∧
    s.negateBg.pins.data = s.pins.data ∧ s.negateBg.pins.vma = s.pins.vma ∧
    s.negateBg.pins.bg = .negated ∧ s.negateBg.held = s.held ∧ s.negateBg.inputs = s.inputs ∧
    s.negateBg.clk = s.clk ∧ s.negateBg.clkCount = s.clkCount ∧ s.negateBg.run = s.run ∧
    s.negateBg.closing = s.closing ∧ s.negateBg.term = s.term ∧ s.negateBg.din = s.din ∧
    s.negateBg.owner = s.owner ∧ s.negateBg.arb = s.arb ∧ s.negateBg.bgWait = s.bgWait ∧
    s.negateBg.tenureBg = s.tenureBg ∧ s.negateBg.iplSeen = s.iplSeen ∧
    s.negateBg.iplHistory = s.iplHistory ∧ s.negateBg.ephase = s.ephase ∧ s.negateBg.pit = s.pit ∧
    s.negateBg.mem = s.mem ∧ s.negateBg.program = s.program ∧
    s.negateBg.altProgram = s.altProgram ∧ s.negateBg.answers = s.answers ∧
    s.negateBg.events = s.events ∧ s.negateBg.grantDelays = s.grantDelays ∧
    s.negateBg.tenures = s.tenures ∧ s.negateBg.draws = s.draws ∧
    s.negateBg.results = s.results := by
  and_intros <;> rfl

@[simp] theorem assertBg_fields (s : State) :
    s.assertBg.params = s.params ∧ s.assertBg.pins.fc = s.pins.fc ∧
    s.assertBg.pins.addr = s.pins.addr ∧ s.assertBg.pins.strobeAS = s.pins.strobeAS ∧
    s.assertBg.pins.uds = s.pins.uds ∧ s.assertBg.pins.lds = s.pins.lds ∧
    s.assertBg.pins.ds = s.pins.ds ∧ s.assertBg.pins.rw = s.pins.rw ∧
    s.assertBg.pins.data = s.pins.data ∧ s.assertBg.pins.vma = s.pins.vma ∧
    s.assertBg.pins.bg = .asserted ∧ s.assertBg.held = s.held ∧ s.assertBg.inputs = s.inputs ∧
    s.assertBg.clk = s.clk ∧ s.assertBg.clkCount = s.clkCount ∧ s.assertBg.run = s.run ∧
    s.assertBg.closing = s.closing ∧ s.assertBg.term = s.term ∧ s.assertBg.din = s.din ∧
    s.assertBg.owner = s.owner ∧ s.assertBg.arb = s.arb ∧ s.assertBg.bgWait = s.bgWait ∧
    s.assertBg.tenureBg = s.tenureBg ∧ s.assertBg.iplSeen = s.iplSeen ∧
    s.assertBg.iplHistory = s.iplHistory ∧ s.assertBg.ephase = s.ephase ∧ s.assertBg.pit = s.pit ∧
    s.assertBg.mem = s.mem ∧ s.assertBg.program = s.program ∧
    s.assertBg.altProgram = s.altProgram ∧ s.assertBg.answers = s.answers ∧
    s.assertBg.events = s.events ∧ s.assertBg.grantDelays = s.grantDelays ∧
    s.assertBg.tenures = s.tenures ∧ s.assertBg.draws = s.draws ∧
    s.assertBg.results = s.results := by
  and_intros <;> rfl

@[simp] theorem grant_fields (s : State) :
    s.grant.params = s.params ∧ s.grant.pins.fc = s.pins.fc ∧ s.grant.pins.addr = s.pins.addr ∧
    s.grant.pins.strobeAS = s.pins.strobeAS ∧ s.grant.pins.uds = s.pins.uds ∧
    s.grant.pins.lds = s.pins.lds ∧ s.grant.pins.ds = s.pins.ds ∧ s.grant.pins.rw = s.pins.rw ∧
    s.grant.pins.data = s.pins.data ∧ s.grant.pins.vma = s.pins.vma ∧ s.grant.pins.bg = .asserted ∧
    s.grant.held = s.held ∧ s.grant.inputs = s.inputs ∧ s.grant.clk = s.clk ∧
    s.grant.clkCount = s.clkCount ∧ s.grant.run = s.run ∧ s.grant.closing = s.closing ∧
    s.grant.term = s.term ∧ s.grant.din = s.din ∧ s.grant.owner = s.owner ∧
    s.grant.arb = .granted ∧ s.grant.bgWait = s.bgWait ∧ s.grant.tenureBg = s.tenureBg ∧
    s.grant.iplSeen = s.iplSeen ∧ s.grant.iplHistory = s.iplHistory ∧ s.grant.ephase = s.ephase ∧
    s.grant.pit = s.pit ∧ s.grant.mem = s.mem ∧ s.grant.program = s.program ∧
    s.grant.altProgram = s.altProgram ∧ s.grant.answers = s.answers ∧ s.grant.events = s.events ∧
    s.grant.grantDelays = s.grantDelays ∧ s.grant.tenures = s.tenures ∧ s.grant.draws = s.draws ∧
    s.grant.results = s.results := by
  and_intros <;> rfl

@[simp] theorem handOver_fields (s : State) :
    s.handOver.params = s.params ∧ s.handOver.pins.fc = none ∧ s.handOver.pins.addr = none ∧
    s.handOver.pins.strobeAS = .z ∧ s.handOver.pins.uds = .z ∧ s.handOver.pins.lds = .z ∧
    s.handOver.pins.ds = .z ∧ s.handOver.pins.rw = .z ∧ s.handOver.pins.data = s.held ∧
    s.handOver.pins.vma = s.pins.vma ∧ s.handOver.pins.bg = s.pins.bg ∧ s.handOver.held = s.held ∧
    s.handOver.inputs = s.inputs ∧ s.handOver.clk = s.clk ∧ s.handOver.clkCount = s.clkCount ∧
    s.handOver.run = s.run ∧ s.handOver.closing = s.closing ∧ s.handOver.term = s.term ∧
    s.handOver.din = s.din ∧ s.handOver.owner = .alternate ∧ s.handOver.arb = s.arb ∧
    s.handOver.bgWait = s.bgWait ∧ s.handOver.tenureBg = s.tenureBg ∧
    s.handOver.iplSeen = s.iplSeen ∧ s.handOver.iplHistory = s.iplHistory ∧
    s.handOver.ephase = s.ephase ∧ s.handOver.pit = s.pit ∧ s.handOver.mem = s.mem ∧
    s.handOver.program = s.program ∧ s.handOver.altProgram = s.altProgram ∧
    s.handOver.answers = s.answers ∧ s.handOver.events = s.events ∧
    s.handOver.grantDelays = s.grantDelays ∧ s.handOver.tenures = s.tenures ∧
    s.handOver.draws = s.draws ∧ s.handOver.results = s.results := by
  and_intros <;> rfl

@[simp] theorem startTenure_fields (s : State) :
    s.startTenure.params = s.params ∧ s.startTenure.pins.fc = none ∧
    s.startTenure.pins.addr = none ∧ s.startTenure.pins.strobeAS = .z ∧
    s.startTenure.pins.uds = .z ∧ s.startTenure.pins.lds = .z ∧ s.startTenure.pins.ds = .z ∧
    s.startTenure.pins.rw = .z ∧ s.startTenure.pins.data = s.held ∧
    s.startTenure.pins.vma = s.pins.vma ∧ s.startTenure.pins.bg = s.pins.bg ∧
    s.startTenure.held = s.held ∧ s.startTenure.inputs = s.inputs ∧ s.startTenure.clk = s.clk ∧
    s.startTenure.clkCount = s.clkCount ∧ s.startTenure.run = s.run ∧
    s.startTenure.closing = s.closing ∧ s.startTenure.term = s.term ∧ s.startTenure.din = s.din ∧
    s.startTenure.owner = .alternate ∧ s.startTenure.arb = .acknowledged ∧
    s.startTenure.bgWait = s.bgWait ∧ s.startTenure.iplSeen = s.iplSeen ∧
    s.startTenure.iplHistory = s.iplHistory ∧ s.startTenure.ephase = s.ephase ∧
    s.startTenure.pit = s.pit ∧ s.startTenure.mem = s.mem ∧ s.startTenure.program = s.program ∧
    s.startTenure.altProgram = s.altProgram ∧ s.startTenure.answers = s.answers ∧
    s.startTenure.events = s.events ∧ s.startTenure.grantDelays = s.grantDelays ∧
    s.startTenure.tenures = s.tenures.tail ∧ s.startTenure.draws = s.draws ∧
    s.startTenure.results = s.results := by
  and_intros <;> rfl

@[simp] theorem takeBack_fields (s : State) (arb : Arb) (bg : Line) :
    (s.takeBack arb bg).params = s.params ∧ (s.takeBack arb bg).pins.addr = none ∧
    (s.takeBack arb bg).pins.strobeAS = .negated ∧ (s.takeBack arb bg).pins.uds = .negated ∧
    (s.takeBack arb bg).pins.lds = .negated ∧ (s.takeBack arb bg).pins.ds = .negated ∧
    (s.takeBack arb bg).pins.rw = .high ∧ (s.takeBack arb bg).pins.data = s.pins.data ∧
    (s.takeBack arb bg).pins.vma = s.pins.vma ∧ (s.takeBack arb bg).pins.bg = bg ∧
    (s.takeBack arb bg).held = s.held ∧ (s.takeBack arb bg).inputs = s.inputs ∧
    (s.takeBack arb bg).clk = s.clk ∧ (s.takeBack arb bg).clkCount = s.clkCount ∧
    (s.takeBack arb bg).run = s.run ∧ (s.takeBack arb bg).closing = s.closing ∧
    (s.takeBack arb bg).term = s.term ∧ (s.takeBack arb bg).din = s.din ∧
    (s.takeBack arb bg).owner = .processor ∧ (s.takeBack arb bg).arb = arb ∧
    (s.takeBack arb bg).bgWait = s.bgWait ∧ (s.takeBack arb bg).tenureBg = .off [] ∧
    (s.takeBack arb bg).iplSeen = s.iplSeen ∧ (s.takeBack arb bg).iplHistory = s.iplHistory ∧
    (s.takeBack arb bg).ephase = s.ephase ∧ (s.takeBack arb bg).pit = s.pit ∧
    (s.takeBack arb bg).mem = s.mem ∧ (s.takeBack arb bg).program = s.program ∧
    (s.takeBack arb bg).altProgram = s.altProgram ∧ (s.takeBack arb bg).answers = s.answers ∧
    (s.takeBack arb bg).events = s.events ∧ (s.takeBack arb bg).grantDelays = s.grantDelays ∧
    (s.takeBack arb bg).tenures = s.tenures ∧ (s.takeBack arb bg).draws = s.draws + 1 ∧
    (s.takeBack arb bg).results = s.results := by
  and_intros <;> rfl

@[simp] theorem drawn_fields (s : State) (n : Nat) :
    (s.drawn n).params = s.params ∧ (s.drawn n).pins = s.pins ∧ (s.drawn n).held = s.held ∧
    (s.drawn n).inputs = s.inputs ∧ (s.drawn n).clk = s.clk ∧ (s.drawn n).clkCount = s.clkCount ∧
    (s.drawn n).run = s.run ∧ (s.drawn n).closing = s.closing ∧ (s.drawn n).term = s.term ∧
    (s.drawn n).din = s.din ∧ (s.drawn n).owner = s.owner ∧ (s.drawn n).arb = s.arb ∧
    (s.drawn n).bgWait = s.bgWait ∧ (s.drawn n).tenureBg = s.tenureBg ∧
    (s.drawn n).iplSeen = s.iplSeen ∧ (s.drawn n).iplHistory = s.iplHistory ∧
    (s.drawn n).ephase = s.ephase ∧ (s.drawn n).pit = s.pit ∧ (s.drawn n).mem = s.mem ∧
    (s.drawn n).program = s.program ∧ (s.drawn n).altProgram = s.altProgram ∧
    (s.drawn n).answers = s.answers ∧ (s.drawn n).events = s.events ∧
    (s.drawn n).grantDelays = s.grantDelays ∧ (s.drawn n).tenures = s.tenures ∧
    (s.drawn n).draws = s.draws + n ∧ (s.drawn n).results = s.results := by
  and_intros <;> rfl

@[simp] theorem report_fields (s : State) (r : Result) :
    (s.report r).params = s.params ∧ (s.report r).pins = s.pins ∧ (s.report r).held = s.held ∧
    (s.report r).inputs = s.inputs ∧ (s.report r).clk = s.clk ∧
    (s.report r).clkCount = s.clkCount ∧ (s.report r).run = s.run ∧
    (s.report r).closing = s.closing ∧ (s.report r).term = s.term ∧ (s.report r).din = s.din ∧
    (s.report r).owner = s.owner ∧ (s.report r).arb = s.arb ∧ (s.report r).bgWait = s.bgWait ∧
    (s.report r).tenureBg = s.tenureBg ∧ (s.report r).iplSeen = s.iplSeen ∧
    (s.report r).iplHistory = s.iplHistory ∧ (s.report r).ephase = s.ephase ∧
    (s.report r).pit = s.pit ∧ (s.report r).mem = s.mem ∧ (s.report r).program = s.program ∧
    (s.report r).altProgram = s.altProgram ∧ (s.report r).answers = s.answers ∧
    (s.report r).events = s.events ∧ (s.report r).grantDelays = s.grantDelays ∧
    (s.report r).tenures = s.tenures ∧ (s.report r).draws = s.draws ∧
    (s.report r).results = { master := s.owner, result := r } :: s.results := by
  and_intros <;> rfl

/-- What recognising a request does: a grant at once, or a wait of `n` more edges. -/
theorem request_cases (s : State) :
    (s.grantDelays.headD 1 = 0 ∧ s.request = ({ s with grantDelays := s.grantDelays.tail } : State).grant) ∨
    ∃ n, s.grantDelays.headD 1 = n + 1 ∧ s.request =
      { s with grantDelays := s.grantDelays.tail, arb := .requested, bgWait := n } := by
  unfold State.request
  cases h : s.grantDelays.headD 1 with
  | zero => exact .inl ⟨rfl, rfl⟩
  | succ n => exact .inr ⟨n, rfl, rfl⟩

@[simp] theorem request_fields (s : State) :
    s.request.params = s.params ∧ s.request.held = s.held ∧ s.request.inputs = s.inputs ∧
    s.request.clk = s.clk ∧ s.request.clkCount = s.clkCount ∧ s.request.run = s.run ∧
    s.request.closing = s.closing ∧ s.request.term = s.term ∧ s.request.din = s.din ∧
    s.request.owner = s.owner ∧ s.request.tenureBg = s.tenureBg ∧ s.request.iplSeen = s.iplSeen ∧
    s.request.iplHistory = s.iplHistory ∧ s.request.ephase = s.ephase ∧ s.request.pit = s.pit ∧
    s.request.mem = s.mem ∧ s.request.program = s.program ∧ s.request.altProgram = s.altProgram ∧
    s.request.answers = s.answers ∧ s.request.events = s.events ∧ s.request.tenures = s.tenures ∧
    s.request.draws = s.draws ∧ s.request.results = s.results ∧
    s.request.grantDelays = s.grantDelays.tail := by
  rcases request_cases s with ⟨-, h⟩ | ⟨n, -, h⟩ <;> rw [h] <;> (and_intros <;> rfl)

/-- Of the lines, only BG. -/
theorem request_pins (s : State) : s.request.pins = { s.pins with bg := s.request.pins.bg } := by
  rcases request_cases s with ⟨-, h⟩ | ⟨n, -, h⟩ <;> exact h ▸ rfl

@[simp] theorem request_vma (s : State) : s.request.pins.vma = s.pins.vma := by rw [request_pins]

@[simp] theorem request_not_acknowledged (s : State) : s.request.arb ≠ .acknowledged := by
  rcases request_cases s with ⟨-, h⟩ | ⟨n, -, h⟩ <;> rw [h] <;> simp

@[simp] theorem takeEvents_fields (s : State) :
    s.takeEvents.params = s.params ∧ s.takeEvents.pins = s.pins ∧ s.takeEvents.held = s.held ∧
    s.takeEvents.clk = s.clk ∧ s.takeEvents.clkCount = s.clkCount ∧ s.takeEvents.run = s.run ∧
    s.takeEvents.closing = s.closing ∧ s.takeEvents.term = s.term ∧ s.takeEvents.din = s.din ∧
    s.takeEvents.owner = s.owner ∧ s.takeEvents.arb = s.arb ∧ s.takeEvents.bgWait = s.bgWait ∧
    s.takeEvents.tenureBg = s.tenureBg ∧ s.takeEvents.iplSeen = s.iplSeen ∧
    s.takeEvents.iplHistory = s.iplHistory ∧ s.takeEvents.ephase = s.ephase ∧
    s.takeEvents.pit = s.pit ∧ s.takeEvents.mem = s.mem ∧ s.takeEvents.program = s.program ∧
    s.takeEvents.altProgram = s.altProgram ∧ s.takeEvents.answers = s.answers ∧
    s.takeEvents.grantDelays = s.grantDelays ∧ s.takeEvents.tenures = s.tenures ∧
    s.takeEvents.draws = s.draws ∧ s.takeEvents.results = s.results := by
  and_intros <;> rfl

@[simp] theorem clockEdge_fields (s : State) :
    s.clockEdge.params = s.params ∧ s.clockEdge.pins = s.pins ∧ s.clockEdge.held = s.held ∧
    s.clockEdge.inputs = s.inputs ∧ s.clockEdge.clk = s.clk ∧
    s.clockEdge.clkCount = s.clkCount + 1 ∧ s.clockEdge.run = s.run ∧
    s.clockEdge.closing = s.closing ∧ s.clockEdge.term = s.term ∧ s.clockEdge.din = s.din ∧
    s.clockEdge.owner = s.owner ∧ s.clockEdge.arb = s.arb ∧ s.clockEdge.bgWait = s.bgWait ∧
    s.clockEdge.tenureBg = s.tenureBg ∧ s.clockEdge.iplSeen = levelOfPins s.inputs.ipl ∧
    s.clockEdge.ephase = s.ephase + 1 ∧ s.clockEdge.pit = s.pit ∧ s.clockEdge.mem = s.mem ∧
    s.clockEdge.program = s.program ∧ s.clockEdge.altProgram = s.altProgram ∧
    s.clockEdge.answers = s.answers ∧ s.clockEdge.events = s.events ∧
    s.clockEdge.grantDelays = s.grantDelays ∧ s.clockEdge.tenures = s.tenures ∧
    s.clockEdge.draws = s.draws ∧ s.clockEdge.results = s.results := by
  and_intros <;> rfl

@[simp] theorem latch_fields (s : State) (x : Strobes) :
    (s.latch x).params = s.params ∧ (s.latch x).pins = s.pins ∧ (s.latch x).held = s.held ∧
    (s.latch x).inputs = s.inputs ∧ (s.latch x).clk = s.clk ∧ (s.latch x).clkCount = s.clkCount ∧
    (s.latch x).run = s.run ∧ (s.latch x).closing = s.closing ∧ (s.latch x).term = s.term ∧
    (s.latch x).owner = s.owner ∧ (s.latch x).arb = s.arb ∧ (s.latch x).bgWait = s.bgWait ∧
    (s.latch x).tenureBg = s.tenureBg ∧ (s.latch x).iplSeen = s.iplSeen ∧
    (s.latch x).iplHistory = s.iplHistory ∧ (s.latch x).ephase = s.ephase ∧
    (s.latch x).pit = s.pit ∧ (s.latch x).mem = s.mem ∧ (s.latch x).program = s.program ∧
    (s.latch x).altProgram = s.altProgram ∧ (s.latch x).answers = s.answers ∧
    (s.latch x).events = s.events ∧ (s.latch x).grantDelays = s.grantDelays ∧
    (s.latch x).tenures = s.tenures ∧ (s.latch x).draws = s.draws + 2 ∧
    (s.latch x).results = s.results := by
  and_intros <;> rfl

/-- The edge that ends a last state writes the address bus, the data bus and R/W, and nothing else. -/
theorem releaseClosing_eq (s : State) :
    s.releaseClosing = { s with closing := none, pins := s.releaseClosing.pins } := by
  unfold State.releaseClosing
  split
  · next h => rw [← h]
  · next c _ => cases c.kind <;> rfl

@[simp] theorem releaseClosing_none {s : State} (h : s.closing = none) : s.releaseClosing = s := by
  simp [State.releaseClosing, h]

theorem releaseClosing_pins (s : State) :
    ∃ a d r, s.releaseClosing.pins = { s.pins with addr := a, data := d, rw := r } := by
  unfold State.releaseClosing
  split
  · exact ⟨s.pins.addr, s.pins.data, s.pins.rw, rfl⟩
  · next c _ => cases c.kind <;> exact ⟨_, _, _, rfl⟩

end Sys2Proof.Machine
end

