-- ==== Sys2Proof/Laws/Steps.lean ====
section
/-! SUPPORT. How a step is made of half clocks: the meanings as one shape, the run of a cycle, and the
induction every property of a step goes through. -/

namespace Sys2Proof.Machine

/-! ## Sequencing outcomes -/

@[simp] theorem andThen_next (s : State) (k : State → Res) : andThen (.next s) k = k s := rfl
@[simp] theorem andThen_fault (f : Fault) (k : State → Res) : andThen (.fault f) k = .fault f := rfl
@[simp] theorem andThen_refused (f : Refusal) (k : State → Res) : andThen (.refused f) k = .refused f := rfl

/-- A sequence answers a next state exactly where both parts do. -/
theorem andThen_eq_next {r : Res} {k : State → Res} {t : State} :
    andThen r k = .next t ↔ ∃ u, r = .next u ∧ k u = .next t := by
  cases r <;> simp [andThen]

/-! ## The meanings as one shape -/

/-- Every meaning guards and runs the cycle of its instruction; IACK asks for the bus first. -/
theorem exec_eq (i : Instr) (s : State)
    (h : ∀ level, i = .iack level → s.owner = .processor) :
    exec i s = guarded i (cycleOf s.params.dataBus i) s := by
  cases i with
  | iack level => simp [exec, execIack, cycleOf, h level rfl]
  | _ => rfl

/-- What a meaning that answers a next state has done. -/
theorem exec_next {i : Instr} {s t : State} (h : exec i s = .next t) :
    s.run = none ∧ i.illegal s.params.dataBus = none ∧
      runCycle (cycleBudget (s.prepared (cycleOf s.params.dataBus i)))
        (launched (cycleOf s.params.dataBus i) s) = .next t := by
  have hown : ∀ level, i = .iack level → s.owner = .processor := by
    rintro level rfl
    by_contra hne
    simp [exec, execIack, hne] at h
  rw [exec_eq i s hown] at h
  simp only [guarded] at h
  split at h
  · simp at h
  · next hill =>
    simp only [runTransaction] at h
    split at h
    · simp at h
    · next hrun => exact ⟨hrun, hill, h⟩

/-- A well-formed transaction on an idle bus that the processor owns runs its cycle. -/
theorem exec_run {i : Instr} {s : State} (hw : i.wf s.params.dataBus = true) (hr : s.run = none)
    (ho : s.owner = .processor) :
    exec i s = runCycle (cycleBudget (s.prepared (cycleOf s.params.dataBus i)))
      (launched (cycleOf s.params.dataBus i) s) := by
  rw [exec_eq i s (fun _ _ => ho)]
  simp only [Instr.wf, decide_eq_true_eq] at hw
  simp only [guarded, hw, runTransaction, hr]
  rfl

/-! ## Induction over half clocks -/

/-- What every falling edge, every edge of the bus controller and of the peripheral and the end of a last
state keep, a half clock keeps. -/
theorem halfClock_induct {P : State → Prop}
    (hclk : ∀ s k, P s → P { s with clk := k })
    (hend : ∀ s, P s → P s.releaseClosing)
    (hfall : ∀ s t, P s → s.fallingEdge = .next t → P t)
    (hctl : ∀ s t, P s → s.controllerEdge = .next t → P t)
    (hper : ∀ s t, P s → s.peripheralEdge = .next t → P t)
    {s t : State} (hs : P s) (h : s.halfClock = .next t) : P t := by
  unfold State.halfClock at h
  split at h
  · exact hctl _ _ (hend _ (hclk _ _ hs)) h
  · obtain ⟨u, hu, hk⟩ := andThen_eq_next.1 h
    obtain ⟨v, hv, ht⟩ := andThen_eq_next.1 hk
    exact hper _ _ (hctl _ _ (hfall _ _ (hclk _ _ hs) hu) hv) ht

/-- What every half clock keeps, a CLK cycle keeps. -/
theorem clkCycle_induct {P : State → Prop} (hh : ∀ s t, P s → s.halfClock = .next t → P t)
    {s t : State} (hs : P s) (h : s.clkCycle = .next t) : P t := by
  obtain ⟨u, hu, ht⟩ := andThen_eq_next.1 h
  exact hh _ _ (hh _ _ hs hu) ht

/-- What every half clock keeps, the run of a cycle keeps. -/
theorem runCycle_induct {P : State → Prop} (hh : ∀ s t, P s → s.halfClock = .next t → P t)
    (n : Nat) {s t : State} (hs : P s) (h : runCycle n s = .next t) : P t := by
  induction n generalizing s with
  | zero => simp only [runCycle, Host.Outcome.next.injEq] at h; exact h ▸ hs
  | succ n ih =>
    simp only [runCycle] at h
    split at h
    · cases h; exact hs
    · obtain ⟨u, hu, ht⟩ := andThen_eq_next.1 h
      exact ih (hh _ _ hs hu) ht

/-- What every half clock and the launch of a cycle keep, a meaning keeps. -/
theorem exec_induct {P : State → Prop} (hh : ∀ s t, P s → s.halfClock = .next t → P t)
    (hl : ∀ s i, P s → s.run = none → i.illegal s.params.dataBus = none →
      P (launched (cycleOf s.params.dataBus i) s))
    {i : Instr} {s t : State} (hs : P s) (h : exec i s = .next t) : P t := by
  obtain ⟨hr, hi, hrun⟩ := exec_next h
  exact runCycle_induct hh _ (hl s i hs hr hi) hrun

/-- What every half clock, the launch of a cycle and the taking of an item keep, a step keeps. -/
theorem step_induct {P : State → Prop} (hh : ∀ s t, P s → s.halfClock = .next t → P t)
    (hl : ∀ s i, P s → s.run = none → i.illegal s.params.dataBus = none →
      P (launched (cycleOf s.params.dataBus i) s))
    (hq : ∀ s q, P s → P (s.withQueue q))
    {s t : State} (hs : P s) (h : step s = .next t) : P t := by
  simp only [step, stepOnce] at h
  split at h
  · exact clkCycle_induct hh hs h
  · split at h
    · unfold State.issue at h
      split at h
      · exact clkCycle_induct hh hs h
      · cases h; exact hq _ _ hs
      · exact clkCycle_induct hh (hq _ _ hs) h
      · split at h
        · simp at h
        · split at h
          · exact exec_induct hh hl (hq _ _ hs) h
          · exact clkCycle_induct hh hs h
    · exact clkCycle_induct hh hs h

/-! ## Running a cycle half clock by half clock -/

theorem runCycle_over {s : State} (n : Nat) (h : s.cycleOver = true) : runCycle n s = .next s := by
  cases n <;> simp [runCycle, h]

theorem runCycle_succ {s : State} (n : Nat) (h : s.cycleOver = false) :
    runCycle (n + 1) s = andThen s.halfClock (runCycle n) := by
  simp [runCycle, h]

/-- The run of a cycle may be cut anywhere. -/
theorem runCycle_add (m n : Nat) (s : State) :
    runCycle (m + n) s = andThen (runCycle m s) (runCycle n) := by
  induction m generalizing s with
  | zero => simp [runCycle]
  | succ m ih =>
    by_cases h : s.cycleOver = true
    · simp [runCycle_over, h]
    · simp only [Bool.not_eq_true] at h
      rw [Nat.add_right_comm, runCycle_succ _ h, runCycle_succ _ h]
      cases hc : s.halfClock <;> simp [ih]

/-- Budget beyond the end of a cycle changes nothing. -/
theorem runCycle_mono {m n : Nat} {s t : State} (hmn : m ≤ n) (h : runCycle m s = .next t)
    (ht : t.cycleOver = true) : runCycle n s = .next t := by
  obtain ⟨k, rfl⟩ := Nat.exists_eq_add_of_le hmn
  rw [runCycle_add, h, andThen_next, runCycle_over _ ht]

end Sys2Proof.Machine
end

