-- ==== Sys2Proof/Laws/Frames.lean ====
section
/-! SUPPORT. What the bus controller leaves alone at an edge of CLK, and what the other agents leave
alone at a falling edge: the two inversion lemmas every frame goes through. -/

namespace Sys2Proof.Machine

/-- The fields no bus controller edge writes: everything of the other agents. -/
structure Kept (s t : State) : Prop where
  params      : t.params = s.params
  bg          : t.pins.bg = s.pins.bg
  br          : t.inputs.br = s.inputs.br
  bgack       : t.inputs.bgack = s.inputs.bgack
  ipl         : t.inputs.ipl = s.inputs.ipl
  pitReset    : t.inputs.pitReset = s.inputs.pitReset
  portA       : t.inputs.portA = s.inputs.portA
  portB       : t.inputs.portB = s.inputs.portB
  clk         : t.clk = s.clk
  clkCount    : t.clkCount = s.clkCount
  owner       : t.owner = s.owner
  arb         : t.arb = s.arb
  bgWait      : t.bgWait = s.bgWait
  tenureBg    : t.tenureBg = s.tenureBg
  iplSeen     : t.iplSeen = s.iplSeen
  iplHistory  : t.iplHistory = s.iplHistory
  ephase      : t.ephase = s.ephase
  program     : t.program = s.program
  altProgram  : t.altProgram = s.altProgram
  answers     : t.answers = s.answers
  events      : t.events = s.events
  grantDelays : t.grantDelays = s.grantDelays
  tenures     : t.tenures = s.tenures

theorem Kept.refl (s : State) : Kept s s := by constructor <;> rfl

theorem Kept.trans {s t u : State} (h : Kept s t) (k : Kept t u) : Kept s u := by
  constructor
  · exact k.params.trans h.params
  · exact k.bg.trans h.bg
  · exact k.br.trans h.br
  · exact k.bgack.trans h.bgack
  · exact k.ipl.trans h.ipl
  · exact k.pitReset.trans h.pitReset
  · exact k.portA.trans h.portA
  · exact k.portB.trans h.portB
  · exact k.clk.trans h.clk
  · exact k.clkCount.trans h.clkCount
  · exact k.owner.trans h.owner
  · exact k.arb.trans h.arb
  · exact k.bgWait.trans h.bgWait
  · exact k.tenureBg.trans h.tenureBg
  · exact k.iplSeen.trans h.iplSeen
  · exact k.iplHistory.trans h.iplHistory
  · exact k.ephase.trans h.ephase
  · exact k.program.trans h.program
  · exact k.altProgram.trans h.altProgram
  · exact k.answers.trans h.answers
  · exact k.events.trans h.events
  · exact k.grantDelays.trans h.grantDelays
  · exact k.tenures.trans h.tenures

/-! ## Pieces of a bus controller edge -/

theorem kept_storeByte (s : State) (fc : Fc) (a : Addr) (v : Byte) : Kept s (s.storeByte fc a v) := by
  unfold State.storeByte
  split <;> (constructor <;> rfl)

theorem kept_storeLanes (s : State) (c : Cycle) (v : Half) : Kept s (s.storeLanes c v) := by
  unfold State.storeLanes
  have step : ∀ (b : Bool) (u : State) (a : Addr) (x : Byte),
      Kept u (if b then u.storeByte c.fc a x else u) := fun b u a x => by
    cases b
    · exact Kept.refl u
    · exact kept_storeByte ..
  exact (step _ s _ _).trans (step _ _ _ _)

theorem kept_deviceTakes (s : State) (c : Cycle) (v : Half) : Kept s (s.deviceTakes c v) := by
  unfold State.deviceTakes
  split
  · split
    · exact (kept_storeLanes s c v).trans (by constructor <;> rfl)
    · constructor <;> rfl
  · exact kept_storeLanes s c v

theorem kept_deviceNegates (s : State) (a : Answer) : Kept s (s.deviceNegates a) := by
  unfold State.deviceNegates
  split <;> (constructor <;> rfl)

theorem kept_deviceReleasesData (s : State) (a : Answer) : Kept s (s.deviceReleasesData a) := by
  unfold State.deviceReleasesData
  split <;> (constructor <;> rfl)

theorem kept_negateAll (s : State) (a : Answer) : Kept s (s.negateAll a) :=
  Kept.trans (by constructor <;> rfl) (kept_deviceNegates _ a)

theorem kept_driveData {s t : State} {d : DataLines} (h : s.driveData d = .next t) : Kept s t := by
  unfold State.driveData at h
  split at h
  · cases h; exact Kept.refl s
  · split at h
    · cases h; constructor <;> rfl
    · simp [violation] at h

theorem kept_deviceDrives {s t : State} {c : Cycle} (h : s.deviceDrives c = .next t) : Kept s t :=
  Kept.trans (by constructor <;> rfl) (kept_driveData h)

theorem kept_dataPhase {s t : State} {c : Cycle} (h : s.dataPhase c = .next t) : Kept s t := by
  unfold State.dataPhase at h
  split at h
  · cases h; exact Kept.refl s
  · exact kept_deviceDrives h

theorem kept_formatR {c : Cycle} {st : St} {s t : State} (h : formatR c st s = .next t) : Kept s t := by
  unfold formatR at h
  split at h
  · cases h; constructor <;> rfl
  · cases h; constructor <;> rfl
  · cases h; constructor <;> rfl
  · exact kept_dataPhase h
  · cases h
    split
    · exact Kept.refl s
    · exact (kept_negateAll s _).trans (kept_deviceReleasesData _ _)
  · cases h; exact (kept_negateAll s _).trans (kept_deviceReleasesData _ _)
  · cases h; exact Kept.refl s

theorem kept_formatW {c : Cycle} {st : St} {s t : State} (h : formatW c st s = .next t) : Kept s t := by
  unfold formatW at h
  split at h
  · cases h; constructor <;> rfl
  · cases h; constructor <;> rfl
  · cases h; constructor <;> rfl
  · exact Kept.trans (by constructor <;> rfl) (kept_driveData h)
  · cases h; constructor <;> rfl
  · cases h
    split
    · exact Kept.refl s
    · exact (kept_deviceTakes s _ _).trans (kept_negateAll _ _)
  · cases h; exact (kept_deviceTakes s _ _).trans (kept_negateAll _ _)
  · cases h; exact Kept.refl s

theorem kept_formatM {c : Cycle} {st : St} {s t : State} (h : formatM c st s = .next t) : Kept s t := by
  unfold formatM at h
  split at h
  · cases h; constructor <;> rfl
  · cases h; constructor <;> rfl
  · cases h; constructor <;> rfl
  · exact kept_dataPhase h
  · cases h
    exact Kept.trans (by constructor <;> rfl)
      ((kept_deviceNegates _ _).trans (kept_deviceReleasesData _ _))
  · cases h; constructor <;> rfl
  · cases h; constructor <;> rfl
  · exact Kept.trans (by constructor <;> rfl) (kept_driveData h)
  · cases h; constructor <;> rfl
  · cases h
    split
    · exact Kept.refl s
    · exact (kept_deviceTakes s _ _).trans (kept_negateAll _ _)
  · cases h; exact (kept_deviceTakes s _ _).trans (kept_negateAll _ _)
  · cases h; exact Kept.refl s

theorem kept_enterState {c : Cycle} {st : St} {s t : State} (h : enterState c st s = .next t) :
    Kept s t := by
  unfold enterState at h
  split at h
  · exact kept_formatR h
  · exact kept_formatR h
  · exact kept_formatW h
  · exact kept_formatM h

theorem kept_finishResult {s t : State} {c : Cycle} (h : s.finishResult c = .next t) : Kept s t := by
  unfold State.finishResult at h
  have report : ∀ u : State, ∀ r : Result, Kept u (u.report r) := fun u r => by constructor <;> rfl
  split at h
  · split at h <;> (cases h; exact report _ _)
  · split at h <;> (cases h; exact report _ _)
  · split at h <;> (cases h; exact report _ _)
  · split at h
    · split at h
      · cases h; exact report _ _
      · simp at h
    · split at h <;> (cases h; exact report _ _)

theorem kept_finish {s t : State} {c : Cycle} (h : s.finish c = .next t) : Kept s t := by
  exact Kept.trans (by constructor <;> rfl) (kept_finishResult h)

theorem kept_releaseClosing (s : State) : Kept s s.releaseClosing := by
  rw [releaseClosing_eq]
  obtain ⟨a, d, r, h⟩ := releaseClosing_pins s
  constructor <;> first | rfl | (rw [h])

theorem kept_goTo {s t : State} {c : Cycle} {st : St} (h : s.goTo c st = .next t) : Kept s t := by
  obtain ⟨u, hu, hk⟩ := andThen_eq_next.1 h
  refine (kept_enterState hu).trans ?_
  simp only at hk
  split at hk
  · exact Kept.trans (by constructor <;> rfl) (kept_finish hk)
  · cases hk; constructor <;> rfl

theorem kept_sampleLines (s : State) (c : Cycle) (late : Bool) : Kept s (s.sampleLines c late) := by
  constructor <;> rfl

theorem kept_stretchVma (s : State) : Kept s s.stretchVma := by
  unfold State.stretchVma
  split
  · constructor <;> rfl
  · exact Kept.refl s

theorem kept_follow {s t : State} {c : Cycle} {d : Decision} (h : s.follow c d = .next t) :
    Kept s t := by
  unfold State.follow at h
  split at h
  · simp [violation] at h
  · exact Kept.trans (by constructor <;> rfl) (kept_goTo h)
  · cases h; exact (kept_stretchVma s).trans (by constructor <;> rfl)
  · cases h; constructor <;> rfl

theorem kept_sampleAndDecide {s t : State} {c : Cycle} (h : s.sampleAndDecide c = .next t) :
    Kept s t := by
  refine (kept_sampleLines s c false).trans ?_
  unfold State.sampleAndDecide at h
  simp only at h
  split at h <;> exact kept_follow h

theorem kept_latchFor (s : State) (c : Cycle) : Kept s (s.latchFor c) := by
  unfold State.latchFor
  split <;> (constructor <;> rfl)

theorem kept_endS6 {s t : State} {c : Cycle} (h : s.endS6 c = .next t) : Kept s t := by
  refine ((kept_sampleLines s c true).trans (kept_latchFor _ c)).trans ?_
  unfold State.endS6 at h
  simp only at h
  split at h
  · simp [violation] at h
  · split at h
    · cases h; constructor <;> rfl
    · exact Kept.trans (by constructor <;> rfl) (kept_goTo h)

/-- The peripheral writes nothing of the other agents' state. -/
theorem kept_peripheralEdge {s t : State} (h : s.peripheralEdge = .next t) : Kept s t := by
  unfold State.peripheralEdge at h
  split at h
  · cases h; exact Kept.refl s
  · split at h
    · split at h
      · exact kept_deviceDrives h
      · split at h
        · cases h; exact kept_deviceReleasesData s _
        · cases h; exact Kept.refl s
    · cases h; exact Kept.refl s

/-- The bus controller writes nothing of the other agents' state. -/
theorem kept_controllerEdge {s t : State} (h : s.controllerEdge = .next t) : Kept s t := by
  unfold State.controllerEdge at h
  split at h
  · cases h; exact Kept.refl s
  · split at h
    · exact kept_sampleAndDecide h
    · exact kept_sampleAndDecide h
    · exact kept_sampleAndDecide h
    · cases h; constructor <;> rfl
    · exact kept_endS6 h
    · simp at h
    · split at h
      · exact kept_goTo h
      · exact kept_finish h

/-! ## The other agents -/

/-- The fields no other agent writes at a falling edge: everything of the bus controller and of the
memory. -/
structure Aside (s t : State) : Prop where
  params     : t.params = s.params
  held       : t.held = s.held
  vma        : t.pins.vma = s.pins.vma
  dtack      : t.inputs.dtack = s.inputs.dtack
  berr       : t.inputs.berr = s.inputs.berr
  vpa        : t.inputs.vpa = s.inputs.vpa
  avec       : t.inputs.avec = s.inputs.avec
  clk        : t.clk = s.clk
  clkCount   : t.clkCount = s.clkCount + 1
  run        : t.run = s.run
  closing    : t.closing = s.closing
  term       : t.term = s.term
  din        : t.din = s.din
  ephase     : t.ephase = s.ephase + 1
  mem        : t.mem = s.mem
  program    : t.program = s.program
  altProgram : t.altProgram = s.altProgram
  answers    : t.answers = s.answers
  results    : t.results = s.results

theorem applyDue_lines (now : Nat) (l : List (Nat × Event)) (i : Inputs) :
    (applyDue now l i).1.dtack = i.dtack ∧ (applyDue now l i).1.berr = i.berr ∧
    (applyDue now l i).1.vpa = i.vpa ∧ (applyDue now l i).1.avec = i.avec := by
  induction l generalizing i with
  | nil => simp [applyDue]
  | cons e rest ih =>
    obtain ⟨t, e⟩ := e
    simp only [applyDue]
    split
    · have := ih (e.apply i)
      cases e <;> exact this
    · simp

/-- The state in which the arbiter looks at a falling edge. -/
def beforeArbiter (s : State) : State := s.takeEvents.pitResetEdge.clockEdge

theorem aside_beforeArbiter (s : State) : Aside s (beforeArbiter s) := by
  obtain ⟨hd, hb, hv, ha⟩ := applyDue_lines s.clkCount s.events s.inputs
  have key : Aside s s.takeEvents.clockEdge := by
    constructor <;> first | rfl | assumption
  unfold beforeArbiter State.pitResetEdge
  split
  · constructor <;> first | rfl | assumption
  · exact key

theorem aside_arbiter {s t : State} (h : s.arbiter = .next t) :
    t.params = s.params ∧ t.held = s.held ∧ t.pins.vma = s.pins.vma ∧ t.inputs = s.inputs ∧
    t.clk = s.clk ∧ t.clkCount = s.clkCount ∧ t.run = s.run ∧ t.closing = s.closing ∧ t.term = s.term ∧
    t.din = s.din ∧
    t.iplSeen = s.iplSeen ∧ t.iplHistory = s.iplHistory ∧
    t.ephase = s.ephase ∧ t.pit = s.pit ∧ t.mem = s.mem ∧ t.program = s.program ∧
    t.altProgram = s.altProgram ∧ t.answers = s.answers ∧ t.events = s.events ∧
    t.results = s.results := by
  unfold State.arbiter at h
  split at h
  · simp [violation] at h
  · split at h
    · cases h
      split
      · simp
      · and_intros <;> rfl
    · cases h
      unfold State.requestedEdge
      split
      · split <;> (and_intros <;> rfl)
      · and_intros <;> rfl
    · split at h
      · unfold State.grantedThree at h
        split at h
        · cases h; and_intros <;> rfl
        · split at h <;> (cases h; and_intros <;> rfl)
      · unfold State.grantedTwo at h
        split at h
        · split at h
          · split at h <;> (cases h; and_intros <;> rfl)
          · cases h; and_intros <;> rfl
        · split at h
          · cases h; and_intros <;> rfl
          · split at h
            · cases h; and_intros <;> rfl
            · simp [violation] at h
    · unfold State.acknowledgedEdge at h
      split at h
      · cases h
        unfold State.tenureEdge
        split <;> (try split) <;> (and_intros <;> rfl)
      · split at h
        · cases h
          unfold State.returnBus
          split
          · split
            · and_intros <;> rfl
            · simp
          · and_intros <;> rfl
        · simp [violation] at h

/-- The other agents write nothing of the bus controller's state, and a falling edge is one CLK cycle
for E and the clock count. -/
theorem aside_fallingEdge {s t : State} (h : s.fallingEdge = .next t) : Aside s t := by
  have a := aside_beforeArbiter s
  obtain ⟨h1, hh, h2, h3, h4, h5, h6, hc, h7, h8, -, -, h9, -, h10, h11, h12, h13, -, h14⟩ := aside_arbiter h
  constructor
  · exact h1.trans a.params
  · exact hh.trans a.held
  · exact h2.trans a.vma
  · rw [h3]; exact a.dtack
  · rw [h3]; exact a.berr
  · rw [h3]; exact a.vpa
  · rw [h3]; exact a.avec
  · exact h4.trans a.clk
  · exact h5.trans a.clkCount
  · exact h6.trans a.run
  · exact hc.trans a.closing
  · exact h7.trans a.term
  · exact h8.trans a.din
  · exact h9.trans a.ephase
  · exact h10.trans a.mem
  · exact h11.trans a.program
  · exact h12.trans a.altProgram
  · exact h13.trans a.answers
  · exact h14.trans a.results

end Sys2Proof.Machine
end

