-- ==== Sys2Proof/Laws/Alone.lean ====
section
/-! SUPPORT. A cycle does not look at the arbiter, the interrupt inputs or the events: while the other
agents keep out of it, its run is that of a machine in which only E and the clock go on. -/

namespace Sys2Proof.Machine

/-- `s` with the other agents' state of `x`: the arbiter and its line, the request and interrupt
inputs, and the events to come. -/
def graft (s x : State) : State :=
  { s with
    pins := { s.pins with bg := x.pins.bg }
    inputs := { s.inputs with br := x.inputs.br, ipl := x.inputs.ipl }
    arb := x.arb
    bgWait := x.bgWait
    tenureBg := x.tenureBg
    iplSeen := x.iplSeen
    iplHistory := x.iplHistory
    events := x.events
    grantDelays := x.grantDelays
    tenures := x.tenures }

/-- The other agents' state of `x` in every next state of an outcome. -/
def graftRes (r : Res) (x : State) : Res :=
  match r with
  | .next s    => .next (graft s x)
  | .fault f   => .fault f
  | .refused f => .refused f

@[simp] theorem graftRes_next (s x : State) : graftRes (.next s) x = .next (graft s x) := rfl
@[simp] theorem graftRes_fault (f : Fault) (x : State) : graftRes (.fault f) x = .fault f := rfl
@[simp] theorem graftRes_refused (f : Refusal) (x : State) : graftRes (.refused f) x = .refused f := rfl

theorem graft_self (s : State) : graft s s = s := rfl
theorem graft_graft (s x y : State) : graft (graft s x) y = graft s y := rfl

theorem andThen_graft (r : Res) (x : State) (k l : State → Res)
    (h : ∀ s, k (graft s x) = graftRes (l s) x) :
    andThen (graftRes r x) k = graftRes (andThen r l) x := by
  cases r <;> simp [h]

/-! ## The bus controller looks at nothing of it -/

theorem driveData_graft (s x : State) (d : DataLines) :
    (graft s x).driveData d = graftRes (s.driveData d) x := by
  have hd : (graft s x).pins.data = s.pins.data := rfl
  simp only [State.driveData, hd]
  split
  · rfl
  · split <;> rfl

theorem storeByte_graft (s x : State) (fc : Fc) (a : Addr) (v : Byte) :
    (graft s x).storeByte fc a v = graft (s.storeByte fc a v) x := by
  have hp : (graft s x).params = s.params := rfl
  simp only [State.storeByte, hp]
  cases pitSelect s.params.pit a <;> rfl

theorem storeLanes_graft (s x : State) (c : Cycle) (v : Half) :
    (graft s x).storeLanes c v = graft (s.storeLanes c v) x := by
  unfold State.storeLanes
  cases c.strobes.upperLane <;> cases c.strobes.lowerLane <;> simp [storeByte_graft]

theorem deviceTakes_graft (s x : State) (c : Cycle) (v : Half) :
    (graft s x).deviceTakes c v = graft (s.deviceTakes c v) x := by
  have ht : (graft s x).term = s.term := rfl
  have hf : (graft s x).freeChoice = s.freeChoice := rfl
  simp only [State.deviceTakes, ht, hf, storeLanes_graft]
  split
  · split <;> rfl
  · rfl

theorem deviceNegates_graft (s x : State) (a : Answer) :
    (graft s x).deviceNegates a = graft (s.deviceNegates a) x := by
  unfold State.deviceNegates
  split <;> rfl

theorem deviceReleasesData_graft (s x : State) (a : Answer) :
    (graft s x).deviceReleasesData a = graft (s.deviceReleasesData a) x := by
  unfold State.deviceReleasesData
  split <;> rfl

theorem negateAll_graft (s x : State) (a : Answer) :
    (graft s x).negateAll a = graft (s.negateAll a) x :=
  deviceNegates_graft (s.negateStrobes.negateAS) x a

theorem deviceData_graft (s x : State) (c : Cycle) : (graft s x).deviceData c = s.deviceData c := rfl

theorem deviceDrives_graft (s x : State) (c : Cycle) :
    (graft s x).deviceDrives c = graftRes (s.deviceDrives c) x :=
  driveData_graft (s.drawn 2) x (s.deviceData c)

theorem dataPhase_graft (s x : State) (c : Cycle) :
    (graft s x).dataPhase c = graftRes (s.dataPhase c) x := by
  have hv : (graft s x).pins.vma = s.pins.vma := rfl
  simp only [State.dataPhase, hv]
  split
  · rfl
  · exact deviceDrives_graft s x c

theorem formatR_graft (c : Cycle) (st : St) (s x : State) :
    formatR c st (graft s x) = graftRes (formatR c st s) x := by
  have last : ((graft s x).negateAll c.answer).deviceReleasesData c.answer =
      graft ((s.negateAll c.answer).deviceReleasesData c.answer) x := by
    rw [negateAll_graft, deviceReleasesData_graft]
  have ht : (graft s x).term = s.term := rfl
  cases st <;> simp only [formatR, last, ht] <;> first | rfl | exact dataPhase_graft s x c | skip
  split <;> rfl

theorem formatW_graft (c : Cycle) (st : St) (s x : State) :
    formatW c st (graft s x) = graftRes (formatW c st s) x := by
  have last : ((graft s x).deviceTakes c c.wdata).negateAll c.answer =
      graft ((s.deviceTakes c c.wdata).negateAll c.answer) x := by
    rw [deviceTakes_graft, negateAll_graft]
  have ht : (graft s x).term = s.term := rfl
  cases st <;> simp only [formatW, last, ht] <;>
    first | rfl | exact driveData_graft (s.drawn 1) x _ | skip
  split <;> rfl

theorem formatM_graft (c : Cycle) (st : St) (s x : State) :
    formatM c st (graft s x) = graftRes (formatM c st s) x := by
  have last (v : Half) : ((graft s x).deviceTakes c v).negateAll c.answer =
      graft ((s.deviceTakes c v).negateAll c.answer) x := by
    rw [deviceTakes_graft, negateAll_graft]
  have read : ((graft s x).negateStrobes.deviceNegates c.answer).deviceReleasesData c.answer =
      graft ((s.negateStrobes.deviceNegates c.answer).deviceReleasesData c.answer) x := by
    rw [← deviceReleasesData_graft, ← deviceNegates_graft]; rfl
  have ht : (graft s x).term = s.term := rfl
  have hn : (graft s x).newByte c = s.newByte c := rfl
  cases st <;> simp only [formatM, last, read, ht, hn] <;>
    first | rfl | exact dataPhase_graft s x c | exact driveData_graft (s.drawn 1) x _ | skip
  split <;> rfl

theorem enterState_graft (c : Cycle) (st : St) (s x : State) :
    enterState c st (graft s x) = graftRes (enterState c st s) x := by
  unfold enterState
  cases c.kind
  · exact formatR_graft c st s x
  · exact formatW_graft c st s x
  · exact formatM_graft c st s x
  · exact formatR_graft c st s x

theorem finishResult_graft (s x : State) (c : Cycle) :
    (graft s x).finishResult c = graftRes (s.finishResult c) x := by
  have ht : (graft s x).term = s.term := rfl
  have hp : (graft s x).params = s.params := rfl
  simp only [State.finishResult, ht, hp]
  cases c.kind
  · simp only; split <;> rfl
  · simp only; split <;> rfl
  · simp only; split <;> rfl
  · simp only
    split
    · cases s.params.iackBerr <;> rfl
    · split <;> rfl

theorem finish_graft (s x : State) (c : Cycle) :
    (graft s x).finish c = graftRes (s.finish c) x := by
  exact finishResult_graft { s with run := none, closing := some c } x c

theorem goTo_graft (s x : State) (c : Cycle) (st : St) :
    (graft s x).goTo c st = graftRes (s.goTo c st) x := by
  unfold State.goTo
  rw [enterState_graft]
  refine andThen_graft _ x _ _ fun u => ?_
  have hd : (graft u x).din = u.din := rfl
  have ht : (graft u x).term = u.term := rfl
  simp only [hd, ht]
  cases nextSt (c.entered st u.din).kind u.term st
  · exact finish_graft { u with run := some (c.entered st u.din) } x _
  · rfl

theorem stretchVma_graft (s x : State) : (graft s x).stretchVma = graft s.stretchVma x := by
  have he : (graft s x).ephase = s.ephase := rfl
  simp only [State.stretchVma, he]
  split <;> rfl

theorem follow_graft (s x : State) (c : Cycle) (d : Decision) :
    (graft s x).follow c d = graftRes (s.follow c d) x := by
  cases d with
  | violation => rfl
  | proceed term => exact goTo_graft { s with term := term } x _ _
  | wait term =>
    cases term <;> simp only [State.follow, stretchVma_graft] <;> rfl

theorem sampleAndDecide_graft (s x : State) (c : Cycle) :
    (graft s x).sampleAndDecide c = graftRes (s.sampleAndDecide c) x := by
  have hs : (graft s x).sampleLines c false = graft (s.sampleLines c false) x := rfl
  simp only [State.sampleAndDecide, hs]
  generalize s.sampleLines c false = u
  have ht : (graft u x).term = u.term := rfl
  cases h : u.term <;> simp only [ht, h] <;> exact follow_graft u x c _

theorem latchFor_graft (s x : State) (c : Cycle) :
    (graft s x).latchFor c = graft (s.latchFor c) x := by
  unfold State.latchFor
  cases c.kind <;> rfl

theorem endS6_graft (s x : State) (c : Cycle) :
    (graft s x).endS6 c = graftRes (s.endS6 c) x := by
  have hl : ((graft s x).sampleLines c true).latchFor c = graft ((s.sampleLines c true).latchFor c) x :=
    latchFor_graft (s.sampleLines c true) x c
  simp only [State.endS6, hl]
  generalize (s.sampleLines c true).latchFor c = u
  have hd : decideLate (graft u x).term (graft u x).inputs.dtack (graft u x).inputs.berr
      (graft u x).inputs.vpa = decideLate u.term u.inputs.dtack u.inputs.berr u.inputs.vpa := rfl
  rw [hd]
  cases decideLate u.term u.inputs.dtack u.inputs.berr u.inputs.vpa with
  | none => rfl
  | some term =>
    simp only
    split
    · rfl
    · exact goTo_graft { u with term := term } x c .S7

/-- The bus controller does the same whatever the other agents' state is. -/
theorem controllerEdge_graft (s x : State) :
    (graft s x).controllerEdge = graftRes s.controllerEdge x := by
  have hr : (graft s x).run = s.run := rfl
  have ht : (graft s x).term = s.term := rfl
  simp only [State.controllerEdge, hr, ht]
  cases s.run with
  | none => rfl
  | some c =>
    cases h : c.st <;> simp only [h] <;>
      first
      | rfl
      | exact sampleAndDecide_graft s x c
      | exact endS6_graft s x c
      | (generalize nextSt _ _ _ = n
         cases n
         · exact finish_graft s x c
         · exact goTo_graft s x c _)

theorem peripheralEdge_graft (s x : State) :
    (graft s x).peripheralEdge = graftRes s.peripheralEdge x := by
  have hr : (graft s x).run = s.run := rfl
  have hv : (graft s x).pins.vma = s.pins.vma := rfl
  have he : (graft s x).ephase = s.ephase := rfl
  simp only [State.peripheralEdge, hr, hv, he]
  cases s.run with
  | none => rfl
  | some c =>
    simp only [deviceReleasesData_graft, deviceDrives_graft]
    split
    · split
      · rfl
      · split <;> rfl
    · rfl

/-- A peripheral that VMA does not select does nothing. -/
theorem peripheralEdge_idle {s : State} (h : s.pins.vma ≠ .asserted) : s.peripheralEdge = .next s := by
  unfold State.peripheralEdge
  cases s.run <;> simp [h]

theorem releaseClosing_graft (s x : State) :
    (graft s x).releaseClosing = graft s.releaseClosing x := by
  have hc : (graft s x).closing = s.closing := rfl
  simp only [State.releaseClosing, hc]
  cases s.closing with
  | none => rfl
  | some c =>
    obtain ⟨kind⟩ := c
    cases kind <;> rfl

/-! ## The other agents keep out of a cycle -/

/-- One CLK cycle for E and for the clock count. -/
def tick (s : State) : State := { s with ephase := s.ephase + 1, clkCount := s.clkCount + 1 }

theorem applyDue_harmless (now : Nat) (l : List (Nat × Event)) (i : Inputs)
    (h : ∀ e ∈ l, e.2.harmless = true) :
    (∃ b p, (applyDue now l i).1 = { i with br := b, ipl := p }) ∧
    ∀ e ∈ (applyDue now l i).2, e ∈ l := by
  induction l generalizing i with
  | nil => exact ⟨⟨i.br, i.ipl, rfl⟩, fun e he => by simp [applyDue] at he⟩
  | cons e rest ih =>
    obtain ⟨t, e⟩ := e
    simp only [applyDue]
    split
    · obtain ⟨⟨b, p, hb⟩, hr⟩ := ih (e.apply i) fun e he => h e (List.mem_cons_of_mem _ he)
      refine ⟨⟨b, p, ?_⟩, fun e he => List.mem_cons_of_mem _ (hr e he)⟩
      have he := h (t, e) (List.mem_cons_self ..)
      rw [hb]
      cases e <;> first | rfl | simp [Event.harmless] at he
    · exact ⟨⟨i.br, i.ipl, rfl⟩, fun _ he => he⟩

/-- BR stays asserted where no event negates it. -/
theorem applyDue_keeps_br (now : Nat) (l : List (Nat × Event)) (i : Inputs)
    (h : ∀ e ∈ l, e.2 ≠ .brMinus) (hi : i.br = true) : (applyDue now l i).1.br = true := by
  induction l generalizing i with
  | nil => exact hi
  | cons e rest ih =>
    obtain ⟨t, e⟩ := e
    simp only [applyDue]
    split
    · refine ih (e.apply i) (fun e he => h e (List.mem_cons_of_mem _ he)) ?_
      have he := h (t, e) (List.mem_cons_self ..)
      cases e <;> first | exact hi | rfl | exact absurd rfl he
    · exact hi

/-- Before the arbiter looks, a falling edge has changed what `graft` names and E and the clock. -/
theorem beforeArbiter_harmless (s : State) (hp : s.inputs.pitReset = false)
    (h : ∀ e ∈ s.events, e.2.harmless = true) :
    ∃ x, beforeArbiter s = graft (tick s) x ∧ (∀ e ∈ x.events, e ∈ s.events) ∧ x.arb = s.arb ∧
      x.inputs.br = (applyDue s.clkCount s.events s.inputs).1.br := by
  obtain ⟨⟨b, p, hb⟩, hr⟩ := applyDue_harmless s.clkCount s.events s.inputs h
  have hin : s.takeEvents.inputs =
      { s.inputs with br := s.takeEvents.inputs.br, ipl := s.takeEvents.inputs.ipl } := by
    show (applyDue s.clkCount s.events s.inputs).1 = { s.inputs with
      br := (applyDue s.clkCount s.events s.inputs).1.br
      ipl := (applyDue s.clkCount s.events s.inputs).1.ipl }
    rw [hb]
  have hpr : s.takeEvents.inputs.pitReset = false := by rw [hin]; exact hp
  have he : beforeArbiter s = s.takeEvents.clockEdge := by
    simp only [beforeArbiter, State.pitResetEdge, hpr, Bool.false_eq_true, if_false]
  refine ⟨s.takeEvents.clockEdge, ?_, hr, rfl, rfl⟩
  rw [he]
  have : s.takeEvents.clockEdge.inputs = (graft (tick s) s.takeEvents.clockEdge).inputs := hin
  generalize hg : graft (tick s) s.takeEvents.clockEdge = g at *
  calc s.takeEvents.clockEdge = { s.takeEvents.clockEdge with inputs := s.takeEvents.inputs } := rfl
    _ = { s.takeEvents.clockEdge with inputs := g.inputs } := by rw [← this]; rfl
    _ = g := by rw [← hg]; rfl

/-- The arbiter inside a cycle of the processor, while nobody acknowledges a grant. -/
theorem calm_arbiter {u : State} (hown : u.owner = .processor) (hbg : u.inputs.bgack = false)
    (hrun : u.run ≠ none) (harb : u.arb ≠ .acknowledged) :
    ∃ y, u.arbiter = .next (graft u y) ∧ y.arb ≠ .acknowledged ∧ y.events = u.events := by
  have herr : u.acknowledgeError = none := by simp [State.acknowledgeError, hbg]
  unfold State.arbiter
  rw [herr]
  simp only
  split
  · next ha =>
    split
    · refine ⟨u.request, ?_, request_not_acknowledged u, by simp⟩
      rcases request_cases u with ⟨-, h⟩ | ⟨n, -, h⟩ <;> rw [h] <;> rfl
    · exact ⟨u, rfl, harb, rfl⟩
  · unfold State.requestedEdge
    split
    · split
      · exact ⟨u.grant, rfl, by simp [State.grant], rfl⟩
      · next n _ => exact ⟨{ u with bgWait := n }, rfl, harb, rfl⟩
    · exact ⟨{ u with arb := .noRequest }, rfl, by simp, rfl⟩
  · have back : ∃ y, Host.Outcome.next ({ u with arb := .noRequest } : State).negateBg =
        (.next (graft u y) : Res) ∧ y.arb ≠ .acknowledged ∧ y.events = u.events :=
      ⟨({ u with arb := .noRequest } : State).negateBg, rfl, by simp, rfl⟩
    split
    · unfold State.grantedThree
      rw [if_neg (by simp [hbg])]
      split
      · exact ⟨u, rfl, harb, rfl⟩
      · exact back
    · unfold State.grantedTwo
      split
      · split
        · exact ⟨u, rfl, harb, rfl⟩
        · exact back
      · next h => rw [hown] at h; cases h
  · next h => exact absurd h harb

/-- A falling edge inside a cycle of the processor, while nobody acknowledges a grant. -/
theorem calm_fallingEdge {s : State} (h : s.Calm) (hr : s.run ≠ none) :
    ∃ x, s.fallingEdge = .next (graft (tick s) x) ∧ (graft (tick s) x).Calm := by
  obtain ⟨x, hx, he, ha, -⟩ := beforeArbiter_harmless s h.pitReset h.events
  obtain ⟨y, hy, hya, hye⟩ := calm_arbiter (u := graft (tick s) x) h.owner h.bgack hr
    (fun e => h.arb (ha.symm.trans e))
  refine ⟨y, ?_, ⟨h.owner, hya, h.bgack, h.pitReset, fun e hm => h.events e (he e ?_)⟩⟩
  · have : s.fallingEdge = (beforeArbiter s).arbiter := rfl
    rw [this, hx, hy]; rfl
  · have : e ∈ y.events := hm
    rw [hye] at this; exact this

/-- Inside a tenure only BG and its script change. -/
theorem tenureEdge_graft (s : State) : s.tenureEdge = graft s s.tenureEdge := by
  unfold State.tenureEdge
  split <;> (try split) <;> rfl

theorem tenureEdge_kept (s : State) : s.tenureEdge.arb = s.arb ∧ s.tenureEdge.events = s.events := by
  unfold State.tenureEdge
  split <;> (try split) <;> exact ⟨rfl, rfl⟩

/-- A falling edge in the tenure of an alternate master. -/
theorem tenure_fallingEdge {s : State} (h : s.Tenure) :
    ∃ x, s.fallingEdge = .next (graft (tick s) x) ∧ (graft (tick s) x).Tenure := by
  obtain ⟨x, hx, he, ha, hbr⟩ := beforeArbiter_harmless s h.pitReset fun e hm => (h.events e hm).1
  have hedge : s.fallingEdge = (graft (tick s) x).arbiter := by rw [← hx]; rfl
  have hev : ∀ e ∈ x.events, e.2.harmless = true ∧ (s.params.arbWires = .two → e.2 ≠ .brMinus) :=
    fun e hm => h.events e (he e hm)
  rcases h.held with ⟨hw, harb, hbg⟩ | ⟨hw, harb, hb⟩
  · refine ⟨(graft (tick s) x).tenureEdge, ?_, ?_⟩
    · rw [hedge]
      have h1 : (graft (tick s) x).acknowledgeError = none := by
        simp [State.acknowledgeError, graft, tick, h.owner]
      have h2 : (graft (tick s) x).arb = .acknowledged := ha.trans harb
      have h3 : (graft (tick s) x).inputs.bgack = true := hbg
      simp only [State.arbiter, h1, h2, State.acknowledgedEdge, h3, if_true]
      rw [tenureEdge_graft]
      rfl
    · have hk := tenureEdge_kept (graft (tick s) x)
      refine ⟨h.owner, .inl ⟨hw, hk.1.trans (ha.trans harb), hbg⟩, h.pitReset, ?_⟩
      intro e he
      exact hev e (by rw [← show (graft (tick s) x).events = x.events from rfl, ← hk.2]; exact he)
  · have hb' : x.inputs.br = true := by
      rw [hbr]
      exact applyDue_keeps_br _ _ _ (fun e hm => (h.events e hm).2 hw) hb
    refine ⟨graft (tick s) x, ?_, ?_⟩
    · rw [hedge]
      have h1 : (graft (tick s) x).acknowledgeError = none := by
        simp [State.acknowledgeError, graft, tick, h.owner]
      have h2 : (graft (tick s) x).arb = .granted := ha.trans harb
      have h3 : (graft (tick s) x).inputs.br = true := hb'
      have h4 : (graft (tick s) x).params.arbWires = .two := hw
      have h5 : (graft (tick s) x).owner = .alternate := h.owner
      simp only [State.arbiter, h1, h2, h4, State.grantedTwo, h5, h3, if_true]
      rfl
    · exact ⟨h.owner, .inr ⟨hw, ha.trans harb, hb'⟩, h.pitReset, hev⟩

/-! ## The run of a cycle -/

/-- A half clock of a machine in which only the cycle, E and the clock go on. -/
def loneHalf (s : State) : Res :=
  match s.clk with
  | .low  => ({ s with clk := .high }).releaseClosing.controllerEdge
  | .high => andThen (tick { s with clk := .low }).controllerEdge State.peripheralEdge

/-- The run of a cycle of such a machine. -/
def loneRun : Nat → State → Res
  | 0, s => .next s
  | n + 1, s => if s.cycleOver then .next s else andThen (loneHalf s) (loneRun n)

theorem loneHalf_graft (s x : State) : loneHalf (graft s x) = graftRes (loneHalf s) x := by
  have hc : (graft s x).clk = s.clk := rfl
  simp only [loneHalf, hc]
  cases s.clk
  · have h : tick { graft s x with clk := .low } = graft (tick { s with clk := .low }) x := rfl
    simp only [h, controllerEdge_graft]
    exact andThen_graft _ x _ _ fun u => peripheralEdge_graft u x
  · have h := releaseClosing_graft { s with clk := .high } x
    have h' : ({ graft s x with clk := .high } : State) = graft { s with clk := .high } x := rfl
    simp only [h', h]
    exact controllerEdge_graft _ x

theorem loneRun_graft (n : Nat) (s x : State) :
    loneRun n (graft s x) = graftRes (loneRun n s) x := by
  induction n generalizing s with
  | zero => rfl
  | succ n ih =>
    have hc : (graft s x).cycleOver = s.cycleOver := rfl
    simp only [loneRun, hc, loneHalf_graft]
    split
    · rfl
    · exact andThen_graft _ x _ _ fun u => ih u

/-- A condition on the environment under which the other agents keep out of cycles: it survives a
falling edge inside a cycle, which then does what `tick` does, and nothing of it is the bus
controller's. -/
structure KeepsOut (P : State → Prop) : Prop where
  falling : ∀ s, P s → s.run ≠ none →
    ∃ x, s.fallingEdge = .next (graft (tick s) x) ∧ P (graft (tick s) x)
  clk     : ∀ s k, P s → P { s with clk := k }
  kept    : ∀ s t, Kept s t → P s → P t

theorem keepsOut_calm : KeepsOut State.Calm where
  falling _ h hr := calm_fallingEdge h hr
  clk _ _ h := ⟨h.owner, h.arb, h.bgack, h.pitReset, h.events⟩
  kept _ _ k h := ⟨k.owner.trans h.owner, k.arb ▸ h.arb, k.bgack.trans h.bgack,
    k.pitReset.trans h.pitReset, k.events ▸ h.events⟩

theorem keepsOut_tenure : KeepsOut State.Tenure where
  falling _ h _ := tenure_fallingEdge h
  clk _ _ h := ⟨h.owner, h.held, h.pitReset, h.events⟩
  kept s t k h := by
    refine ⟨k.owner.trans h.owner, ?_, k.pitReset.trans h.pitReset, ?_⟩
    · rw [k.params, k.arb, k.bgack, k.br]; exact h.held
    · rw [k.params, k.events]; exact h.events

/-- A half clock of a cycle, while the other agents keep out. -/
theorem halfClock_lone {P : State → Prop} (hP : KeepsOut P) {s : State} (h : P s)
    (hr : s.run ≠ none) :
    (∃ x, s.halfClock = graftRes (loneHalf s) x) ∧ ∀ t, s.halfClock = .next t → P t := by
  unfold State.halfClock loneHalf
  cases s.clk with
  | low =>
    refine ⟨⟨s, ?_⟩, fun t ht => ?_⟩
    · have hg : graft ({ s with clk := .high } : State).releaseClosing s =
          ({ s with clk := .high } : State).releaseClosing :=
        (releaseClosing_graft { s with clk := .high } s).symm
      have he := controllerEdge_graft ({ s with clk := .high } : State).releaseClosing s
      rw [hg] at he
      exact he
    · exact hP.kept _ _ ((kept_releaseClosing _).trans (kept_controllerEdge ht)) (hP.clk _ _ h)
  | high =>
    obtain ⟨x, hx, hc⟩ := hP.falling { s with clk := .low } (hP.clk _ _ h) hr
    refine ⟨⟨x, ?_⟩, fun t ht => ?_⟩
    · simp only [hx, andThen_next, controllerEdge_graft]
      exact andThen_graft _ x _ _ fun u => peripheralEdge_graft u x
    · simp only [hx, andThen_next] at ht
      obtain ⟨u, hu, ht⟩ := andThen_eq_next.1 ht
      exact hP.kept _ _ ((kept_controllerEdge hu).trans (kept_peripheralEdge ht)) hc

theorem run_of_not_over {s : State} (h : s.cycleOver = false) : s.run ≠ none := by
  intro hr
  simp [State.cycleOver, hr] at h

/-- The run of a cycle, while the other agents keep out. -/
theorem runCycle_lone {P : State → Prop} (hP : KeepsOut P) (n : Nat) {s : State} (h : P s) :
    (∃ x, runCycle n s = graftRes (loneRun n s) x) ∧ ∀ t, runCycle n s = .next t → P t := by
  induction n generalizing s with
  | zero => exact ⟨⟨s, rfl⟩, fun t ht => by cases ht; exact h⟩
  | succ n ih =>
    by_cases ho : s.cycleOver = true
    · refine ⟨⟨s, ?_⟩, fun t ht => ?_⟩
      · simp [runCycle, loneRun, ho, graft_self]
      · simp only [runCycle, ho, if_true] at ht; cases ht; exact h
    · simp only [Bool.not_eq_true] at ho
      obtain ⟨⟨x, hx⟩, hn⟩ := halfClock_lone hP h (run_of_not_over ho)
      simp only [runCycle, loneRun, ho, Bool.false_eq_true, if_false]
      cases hl : loneHalf s with
      | fault f => exact ⟨⟨s, by simp [hx, hl]⟩, fun t ht => by simp [hx, hl] at ht⟩
      | refused f => exact ⟨⟨s, by simp [hx, hl]⟩, fun t ht => by simp [hx, hl] at ht⟩
      | next u =>
        have hu : s.halfClock = .next (graft u x) := by rw [hx, hl]; rfl
        obtain ⟨⟨y, hy⟩, hz⟩ := ih (hn _ hu)
        simp only [hu, andThen_next]
        refine ⟨⟨y, ?_⟩, hz⟩
        rw [hy, loneRun_graft]
        cases loneRun n u <;> rfl

/-- The run of a cycle may be cut anywhere. -/
theorem loneRun_add (m n : Nat) (s : State) :
    loneRun (m + n) s = andThen (loneRun m s) (loneRun n) := by
  induction m generalizing s with
  | zero => simp [loneRun]
  | succ m ih =>
    rw [Nat.add_right_comm]
    by_cases h : s.cycleOver = true
    · simp only [loneRun, h, if_true, andThen_next]
      cases n <;> simp [loneRun, h]
    · simp only [loneRun, h]
      cases loneHalf s <;> simp [ih]

end Sys2Proof.Machine
end

