-- ==== Sys2Proof/Laws/Encoding.lean ====
section
/-! SUPPORT. The bytes of an instruction: cutting and joining the operand fields, and what the checks of
a well-formed instruction say. -/

namespace Sys2Proof

/-- Three bytes of an address, joined again. -/
theorem addrOfBytes_extract (a : Addr) :
    addrOfBytes (a.extractLsb' 16 8) (a.extractLsb' 8 8) (a.extractLsb' 0 8) = a := by
  unfold addrOfBytes
  apply BitVec.eq_of_getLsbD_eq
  intro i hi
  simp only [BitVec.getLsbD_append, BitVec.getLsbD_extractLsb']
  by_cases h1 : i < 8
  · simp [h1]
  · by_cases h2 : i < 16
    · have h3 : i - 8 < 8 := by omega
      have h4 : 8 + (i - 8) = i := by omega
      simp [h1, h3, h4]
    · have h3 : ¬ i - 8 < 8 := by omega
      have h4 : i - 8 - 8 < 8 := by omega
      have h5 : 16 + (i - 8 - 8) = i := by omega
      simp [h1, h3, h4, h5]

/-- Bit 0 of an address, taken off and put back. -/
theorem even_or_bitZero (a : Addr) :
    (a &&& 0xFFFFFE) ||| (if Addr.isOdd a then 1 else 0) = a := by
  apply BitVec.eq_of_getLsbD_eq
  intro i hi
  have key : ∀ i < 24, (0xFFFFFE : Addr).getLsbD i = decide (i ≠ 0) ∧
      (1 : Addr).getLsbD i = decide (i = 0) := by decide
  obtain ⟨k1, k2⟩ := key i hi
  have e : (if Addr.isOdd a then (1 : Addr) else 0).getLsbD i =
      (Addr.isOdd a && decide (i = 0)) := by
    split <;> simp_all
  rw [BitVec.getLsbD_or, BitVec.getLsbD_and, k1, e]
  by_cases h : i = 0
  · subst h; simp [Addr.isOdd]
  · simp [h]

/-- The two bytes of a half, joined again. -/
theorem half_extract (v : Half) : (v.extractLsb' 8 8 ++ v.extractLsb' 0 8 : BitVec 16) = v := by
  apply BitVec.eq_of_getLsbD_eq
  intro i hi
  simp only [BitVec.getLsbD_append, BitVec.getLsbD_extractLsb']
  by_cases h1 : i < 8
  · simp [h1]
  · have h3 : i - 8 < 8 := by omega
    have h4 : 8 + (i - 8) = i := by omega
    simp [h1, h3, h4]

/-- A CIW as a byte, and back. -/
theorem ciwByte_fields (c : Ciw) :
    (ciwByte c).getLsbD 7 = false ∧ (ciwByte c).extractLsb' 0 7 = c := by
  revert c; decide

/-- The level byte of IACK, and back. -/
theorem levelByte_fields (level : Level) :
    ((pinsOfLevel level).zeroExtend 8 : Byte).extractLsb' 3 5 = 0 ∧
    levelOfPins (((pinsOfLevel level).zeroExtend 8 : Byte).extractLsb' 0 3) = level := by
  revert level; decide

/-- The address operand on a 16-bit bus, and back. -/
theorem withAddr_encode_d16 (a : Addr) (rest : List Byte)
    (k : Addr → List Byte → Except Undecodable (Instr × List Byte)) :
    withAddr .d16 (Addr.isOdd a) (encodeAddr .d16 a ++ rest) k = k a rest := by
  have low : ((a &&& 0xFFFFFE).extractLsb' 0 8).getLsbD 0 = false := by simp
  simp only [withAddr, encodeAddr, List.cons_append, List.nil_append, decodeAddr, low,
    Bool.false_eq_true, if_false, addrOfBytes_extract, even_or_bitZero]

/-- The address operand on an 8-bit bus, and back. -/
theorem withAddr_encode_d8 (a : Addr) (lane : Bool) (rest : List Byte)
    (k : Addr → List Byte → Except Undecodable (Instr × List Byte)) :
    withAddr .d8 lane (encodeAddr .d8 a ++ rest) k = k a rest := by
  simp only [withAddr, encodeAddr, List.cons_append, List.nil_append, decodeAddr,
    addrOfBytes_extract]

/-- What the checks of a request say when none fails. -/
theorem ofRequest_eq_none {bus wants : DataBus} {fc : Fc} {lane : Option Illegal}
    (h : Illegal.ofRequest bus wants fc lane = none) : bus = wants ∧ fc ≠ 7 ∧ lane = none := by
  unfold Illegal.ofRequest at h
  split at h
  · simp at h
  · next h1 =>
    split at h
    · simp at h
    · next h2 => exact ⟨by simpa using h1, h2, h⟩

/-- A well-formed instruction fails no check. -/
theorem illegal_of_wf {bus : DataBus} {i : Instr} (h : i.wf bus = true) : i.illegal bus = none := by
  simpa [Instr.wf] using h

end Sys2Proof
end

