-- ==== Sys2Proof/Laws/PerInstr.lean ====
section
/-! SUPPORT. The statements made of every instruction one by one. -/

namespace Sys2Proof.Laws.Encoding

/-- The CIW of a well-formed instruction selects its own row (30_encoding.md R111). -/
def Statement (i : Instr) : Prop :=
  ∀ bus : DataBus, i.wf bus = true → rowOf bus i.row.ciw = .ok i.row

theorem iack (level : Level) : Statement (.iack level) := by
  have key : ∀ bus, rowOf bus Row.iack.ciw = .ok .iack := by
    intro bus; cases bus <;> decide
  exact fun bus _ => key bus

theorem rdW (fc : Fc) (addr : Addr) : Statement (.rdW fc addr) := by
  have key : ∀ fc : Fc, fc ≠ 7 → rowOf .d16 (Row.rdW fc).ciw = .ok (.rdW fc) := by decide
  intro bus h
  obtain ⟨rfl, hfc, -⟩ := ofRequest_eq_none (illegal_of_wf h)
  exact key fc hfc

theorem rdBU (fc : Fc) (addr : Addr) : Statement (.rdBU fc addr) := by
  have key : ∀ fc : Fc, fc ≠ 7 → rowOf .d16 (Row.rdBU fc).ciw = .ok (.rdBU fc) := by decide
  intro bus h
  obtain ⟨rfl, hfc, -⟩ := ofRequest_eq_none (illegal_of_wf h)
  exact key fc hfc

theorem rdBL (fc : Fc) (addr : Addr) : Statement (.rdBL fc addr) := by
  have key : ∀ fc : Fc, fc ≠ 7 → rowOf .d16 (Row.rdBL fc).ciw = .ok (.rdBL fc) := by decide
  intro bus h
  obtain ⟨rfl, hfc, -⟩ := ofRequest_eq_none (illegal_of_wf h)
  exact key fc hfc

theorem wrW (fc : Fc) (addr : Addr) (v16 : Half) : Statement (.wrW fc addr v16) := by
  have key : ∀ fc : Fc, fc ≠ 7 → rowOf .d16 (Row.wrW fc).ciw = .ok (.wrW fc) := by decide
  intro bus h
  obtain ⟨rfl, hfc, -⟩ := ofRequest_eq_none (illegal_of_wf h)
  exact key fc hfc

theorem wrBU (fc : Fc) (addr : Addr) (v8 : Byte) : Statement (.wrBU fc addr v8) := by
  have key : ∀ fc : Fc, fc ≠ 7 → rowOf .d16 (Row.wrBU fc).ciw = .ok (.wrBU fc) := by decide
  intro bus h
  obtain ⟨rfl, hfc, -⟩ := ofRequest_eq_none (illegal_of_wf h)
  exact key fc hfc

theorem wrBL (fc : Fc) (addr : Addr) (v8 : Byte) : Statement (.wrBL fc addr v8) := by
  have key : ∀ fc : Fc, fc ≠ 7 → rowOf .d16 (Row.wrBL fc).ciw = .ok (.wrBL fc) := by decide
  intro bus h
  obtain ⟨rfl, hfc, -⟩ := ofRequest_eq_none (illegal_of_wf h)
  exact key fc hfc

theorem rmwBU (fc : Fc) (addr : Addr) : Statement (.rmwBU fc addr) := by
  have key : ∀ fc : Fc, fc ≠ 7 → rowOf .d16 (Row.rmwBU fc).ciw = .ok (.rmwBU fc) := by decide
  intro bus h
  obtain ⟨rfl, hfc, -⟩ := ofRequest_eq_none (illegal_of_wf h)
  exact key fc hfc

theorem rmwBL (fc : Fc) (addr : Addr) : Statement (.rmwBL fc addr) := by
  have key : ∀ fc : Fc, fc ≠ 7 → rowOf .d16 (Row.rmwBL fc).ciw = .ok (.rmwBL fc) := by decide
  intro bus h
  obtain ⟨rfl, hfc, -⟩ := ofRequest_eq_none (illegal_of_wf h)
  exact key fc hfc

theorem rdB8 (fc : Fc) (addr : Addr) : Statement (.rdB8 fc addr) := by
  have key : ∀ fc : Fc, fc ≠ 7 → rowOf .d8 (Row.rdB8 fc).ciw = .ok (.rdB8 fc) := by decide
  intro bus h
  obtain ⟨rfl, hfc, -⟩ := ofRequest_eq_none (illegal_of_wf h)
  exact key fc hfc

theorem wrB8 (fc : Fc) (addr : Addr) (v8 : Byte) : Statement (.wrB8 fc addr v8) := by
  have key : ∀ fc : Fc, fc ≠ 7 → rowOf .d8 (Row.wrB8 fc).ciw = .ok (.wrB8 fc) := by decide
  intro bus h
  obtain ⟨rfl, hfc, -⟩ := ofRequest_eq_none (illegal_of_wf h)
  exact key fc hfc

theorem rmwB8 (fc : Fc) (addr : Addr) : Statement (.rmwB8 fc addr) := by
  have key : ∀ fc : Fc, fc ≠ 7 → rowOf .d8 (Row.rmwB8 fc).ciw = .ok (.rmwB8 fc) := by decide
  intro bus h
  obtain ⟨rfl, hfc, -⟩ := ofRequest_eq_none (illegal_of_wf h)
  exact key fc hfc

end Sys2Proof.Laws.Encoding
end

