-- ==== Sys2Proof/Laws/Runs.lean ====
section
/-! SUPPORT. The run of a cycle in pieces: from its start to S4, through wait pairs, through the stretch
of a synchronous cycle, and to its end. -/

namespace Sys2Proof.Machine

/-- The lines at S4 of format R. -/
def pinsS4Read (p : Pins) (c : Cycle) : Pins :=
  { p with
    fc := some c.fc, addr := some (linesOf c.addr), rw := .high, strobeAS := .asserted
    uds := assertIf c.strobes.selectsUpper .negated
    lds := assertIf c.strobes.selectsLower .negated
    ds := assertIf c.strobes.selectsDs .negated }

/-- The state in S4 of a cycle whose first portion reads. -/
def atS4Read (c : Cycle) (s : State) : State :=
  { s with
    run := some { c with st := .S4 }, closing := none, term := .none, clk := .high
    ephase := s.ephase + 1 + 1, clkCount := s.clkCount + 1 + 1
    pins := pinsS4Read s.releaseClosing.pins c }

/-- A rising edge ends a last state before anything else. -/
theorem loneRun_releaseClosing (n : Nat) {s : State} (hc : s.clk = .low) :
    loneRun (n + 1) s.releaseClosing = loneRun (n + 1) s ∨ s.cycleOver = true := by
  by_cases ho : s.cycleOver = true
  · exact .inr ho
  · left
    have hrun : s.releaseClosing.cycleOver = s.cycleOver := by rw [releaseClosing_eq]; rfl
    have hcomm : ({ s.releaseClosing with clk := .high } : State).releaseClosing =
        ({ s with clk := .high } : State).releaseClosing := by
      cases h : s.closing with
      | none => simp [h]
      | some c => simp only [State.releaseClosing, h]; cases c.kind <;> rfl
    have hclk : s.releaseClosing.clk = .low := by rw [releaseClosing_eq]; exact hc
    have hhalf : loneHalf s.releaseClosing = loneHalf s := by
      simp only [loneHalf, hclk, hc, hcomm]
    simp only [loneRun, hrun, hhalf, if_neg ho]

/-- Five half clocks bring a cycle whose first portion reads to S4, from a bus that is idle. -/
theorem loneRun_toS4_read_idle (n : Nat) (s : State) (c : Cycle) (hk : c.kind ≠ .write)
    (hs : c.st = .start) (hr : s.run = some c) (hc : s.clk = .low) (hz : s.closing = none)
    (hv : s.pins.vma = .negated) :
    loneRun (n + 5) s = loneRun n (atS4Read c s) := by
  obtain ⟨kind, fc, addr, strobes, wdata, level, st, second, pairs, edge, old, answer, answer2⟩ := c
  obtain ⟨params, ⟨pfc, paddr, as, uds, lds, ds, rw, data, vma, bg⟩, held, inputs, clk, clkCount, run,
    closing, term, din, owner, arb, bgWait, tenureBg, iplSeen, iplHistory, ephase, pit, mem, program,
    altProgram, answers, events, grantDelays, tenures, draws, results⟩ := s
  simp only at hs hr hc hk hz hv
  subst hs hr hc hz hv
  cases kind
  · rfl
  · exact absurd rfl hk
  · cases second <;> rfl
  · rfl

theorem start_not_over {s : State} {c : Cycle} (hs : c.st = .start) (hr : s.run = some c) :
    s.cycleOver = false := by simp [State.cycleOver, hr, hs]

theorem releaseClosing_vma (s : State) : s.releaseClosing.pins.vma = s.pins.vma := by
  obtain ⟨a, d, r, h⟩ := releaseClosing_pins s
  rw [h]

theorem releaseClosing_twice (s : State) : s.releaseClosing.releaseClosing = s.releaseClosing :=
  releaseClosing_none (by rw [releaseClosing_eq])

/-- The same from the last state of the cycle before. -/
theorem loneRun_toS4_read (n : Nat) (s : State) (c : Cycle) (hk : c.kind ≠ .write)
    (hs : c.st = .start) (hr : s.run = some c) (hc : s.clk = .low) (hv : s.pins.vma = .negated) :
    loneRun (n + 5) s = loneRun n (atS4Read c s) := by
  rcases loneRun_releaseClosing (n + 4) hc with h | h
  · rw [show n + 5 = n + 4 + 1 by omega, ← h]
    have e := releaseClosing_eq s
    rw [show n + 4 + 1 = n + 5 by omega, loneRun_toS4_read_idle n s.releaseClosing c hk hs
      (by rw [e]; exact hr) (by rw [e]; exact hc) (by rw [e]) (by rw [releaseClosing_vma]; exact hv)]
    unfold atS4Read
    rw [releaseClosing_twice]
    rw [e]
  · rw [start_not_over hs hr] at h; cases h

/-- The lines at S4 of format W. -/
def pinsS4Write (p : Pins) (c : Cycle) (fill : Byte) : Pins :=
  { pinsS4Read p c with rw := .low, data := place c.strobes c.wdata fill }

/-- The state in S4 of a write cycle. -/
def atS4Write (c : Cycle) (s : State) : State :=
  { s with
    run := some { c with st := .S4 }, closing := none, term := .none, clk := .high
    ephase := s.ephase + 1 + 1, clkCount := s.clkCount + 1 + 1, draws := s.draws + 1
    pins := pinsS4Write s.releaseClosing.pins c s.freeByte }

theorem place_ne_z (x : Strobes) (v : Half) (fill : Byte) : place x v fill ≠ DataLines.z := by
  cases x <;> simp [place, DataLines.z]

theorem driveData_free {s : State} {d : DataLines} (h : s.pins.data = DataLines.z) :
    s.driveData d = .next { s with pins := { s.pins with data := d } } := by
  unfold State.driveData
  split
  · next hd => rw [hd, ← h]
  · rfl

/-- Five half clocks bring a write cycle to S4, from a bus that is idle. -/
theorem loneRun_toS4_write_idle (n : Nat) (s : State) (c : Cycle) (hk : c.kind = .write)
    (hs : c.st = .start) (hr : s.run = some c) (hc : s.clk = .low) (hz : s.closing = none)
    (hd : s.pins.data = DataLines.z) (hv : s.pins.vma = .negated) :
    loneRun (n + 5) s = loneRun n (atS4Write c s) := by
  obtain ⟨kind, fc, addr, strobes, wdata, level, st, second, pairs, edge, old, answer, answer2⟩ := c
  obtain ⟨params, ⟨pfc, paddr, as, uds, lds, ds, rw, data, vma, bg⟩, held, inputs, clk, clkCount, run,
    closing, term, din, owner, arb, bgWait, tenureBg, iplSeen, iplHistory, ephase, pit, mem, program,
    altProgram, answers, events, grantDelays, tenures, draws, results⟩ := s
  simp only at hs hr hc hk hd hz hv
  subst hs hr hc hk hd hz hv
  cases strobes <;> rfl

/-- The same from the last state of the cycle before. -/
theorem loneRun_toS4_write (n : Nat) (s : State) (c : Cycle) (hk : c.kind = .write)
    (hs : c.st = .start) (hr : s.run = some c) (hc : s.clk = .low)
    (hd : s.releaseClosing.pins.data = DataLines.z) (hv : s.pins.vma = .negated) :
    loneRun (n + 5) s = loneRun n (atS4Write c s) := by
  rcases loneRun_releaseClosing (n + 4) hc with h | h
  · rw [show n + 5 = n + 4 + 1 by omega, ← h]
    have e := releaseClosing_eq s
    rw [show n + 4 + 1 = n + 5 by omega, loneRun_toS4_write_idle n s.releaseClosing c hk hs
      (by rw [e]; exact hr) (by rw [e]; exact hc) (by rw [e]) hd (by rw [releaseClosing_vma]; exact hv)]
    unfold atS4Write
    rw [releaseClosing_twice]
    rw [e]
    rfl
  · rw [start_not_over hs hr] at h; cases h

/-- The termination lines, replaced. -/
def Inputs.withLines (i : Inputs) (d b v a : Bool) : Inputs :=
  { i with dtack := d, berr := b, vpa := v, avec := a }

/-- No device drives a termination line. -/
def Inputs.silent (i : Inputs) : Prop :=
  i.dtack = false ∧ i.berr = false ∧ i.vpa = false ∧ i.avec = false

theorem Inputs.withLines_silent {i : Inputs} (h : i.silent) :
    i.withLines false false false false = i := by
  obtain ⟨h1, h2, h3, h4⟩ := h
  unfold Inputs.withLines
  rw [← h1]
  rcases i with ⟨d, b, v, a⟩
  simp_all

/-- The drive `k` edges on, on the four termination lines. -/
def Cycle.lines (c : Cycle) (k : Nat) : Bool × Bool × Bool × Bool :=
  let d := c.answer.shape.driveAt k false
  (d.dtack, d.berr, d.vpa, d.avec)

/-- The states that a sampling edge ends. -/
def St.samples : St → Prop
  | .S4 | .S16 | .SwHigh => True
  | _ => False

theorem sampleLines_of {s : State} {c : Cycle} {d b v a : Bool} (hi : s.inputs.silent)
    (hl : c.lines c.edge = (d, b, v, a)) :
    s.sampleLines c false = { s with inputs := s.inputs.withLines d b v a } := by
  obtain ⟨h1, h2, h3, h4⟩ := hi
  simp only [Cycle.lines, Prod.mk.injEq] at hl
  obtain ⟨e1, e2, e3, e4⟩ := hl
  simp only [State.sampleLines, h1, h2, h3, h4, Bool.and_false, Bool.false_or, e1, e2, e3, e4]
  rfl

theorem controllerEdge_samples {s : State} {c : Cycle} (hr : s.run = some c) (hs : c.st.samples) :
    s.controllerEdge = s.sampleAndDecide c := by
  cases h : c.st <;> simp [h, St.samples] at hs <;> simp [State.controllerEdge, hr, h]

/-- The edge that ends S4, S16 or a wait pair before anything is recognised. -/
theorem loneHalf_samples {s : State} {c : Cycle} {d b v a : Bool} (hr : s.run = some c)
    (hs : c.st.samples) (hc : s.clk = .high) (ht : s.term = .none) (hi : s.inputs.silent)
    (hl : c.lines c.edge = (d, b, v, a)) :
    loneHalf s =
      andThen ((tick { s with clk := .low, inputs := s.inputs.withLines d b v a }).follow c
        (decideFirst d b v (s.params.hasAvec && c.kind = .iack && a))) State.peripheralEdge := by
  simp only [loneHalf, hc]
  have hr' : (tick { s with clk := .low }).run = some c := hr
  rw [controllerEdge_samples hr' hs]
  have hl' : (tick { s with clk := .low }).sampleLines c false =
      tick { s with clk := .low, inputs := s.inputs.withLines d b v a } := sampleLines_of hi hl
  simp only [State.sampleAndDecide, hl']
  have ht' : (tick { s with clk := .low, inputs := s.inputs.withLines d b v a }).term = .none := ht
  rw [ht']
  rfl

/-- `k` wait pairs later. -/
def waited (k : Nat) (c : Cycle) (s : State) : State :=
  { s with
    run := some { c with st := if k = 0 then c.st else .SwHigh, pairs := c.pairs + k, edge := c.edge + k }
    ephase := s.ephase + Fin.ofNat 10 k
    clkCount := s.clkCount + k }

theorem fin_add_ofNat_succ (p : Fin 10) (k : Nat) :
    p + Fin.ofNat 10 (k + 1) = p + Fin.ofNat 10 k + 1 := by
  apply Fin.ext
  simp only [Fin.val_add, Fin.val_ofNat]
  omega

theorem notOver {s : State} {c : Cycle} (hr : s.run = some c) (h : c.st ≠ .faulted) :
    s.cycleOver = false := by simp [State.cycleOver, hr, h]

theorem loneRun_succ {s : State} {c : Cycle} (n : Nat) (hr : s.run = some c) (h : c.st ≠ .faulted) :
    loneRun (n + 1) s = andThen (loneHalf s) (loneRun n) := by
  simp [loneRun, notOver hr h]

theorem St.samples_not_faulted {st : St} (h : st.samples) : st ≠ .faulted := by
  rintro rfl; exact h

/-- A wait pair in which nothing is recognised. -/
theorem loneRun_waitPair (n : Nat) {s : State} {c : Cycle} (hr : s.run = some c) (hs : c.st.samples)
    (hc : s.clk = .high) (hz : s.closing = none) (ht : s.term = .none) (hv : s.pins.vma = .negated)
    (hi : s.inputs.silent)
    (hl : c.lines c.edge = (false, false, false, false)) :
    loneRun (n + 2) s = loneRun n (tick { s with run := some { c.waiting with st := .SwHigh } }) := by
  rw [show n + 2 = n + 1 + 1 by omega, loneRun_succ _ hr (St.samples_not_faulted hs),
    loneHalf_samples hr hs hc ht hi hl]
  simp only [Bool.and_false, decideFirst, Bool.and_self, Bool.false_eq_true, if_false, State.follow,
    andThen_next, Inputs.withLines_silent hi]
  rw [peripheralEdge_idle (by show s.pins.vma ≠ .asserted; simp [hv]), andThen_next, loneRun_succ (c := c.waiting) _ rfl (by simp [Cycle.waiting])]
  simp only [loneHalf, tick, State.releaseClosing, State.controllerEdge, Cycle.waiting, andThen_next, hc,
    ht, hz]

theorem loneRun_waits (w n : Nat) {s : State} {c : Cycle} (hr : s.run = some c) (hs : c.st.samples)
    (hc : s.clk = .high) (hz : s.closing = none) (ht : s.term = .none) (hv : s.pins.vma = .negated)
    (hi : s.inputs.silent)
    (hl : ∀ k < w, c.lines (c.edge + k) = (false, false, false, false)) :
    loneRun (n + 2 * w) s = loneRun n (waited w c s) := by
  induction w generalizing n with
  | zero =>
    have : waited 0 c s = s := by
      simp only [waited, if_true, Nat.add_zero, Fin.ofNat_zero, Fin.add_zero]
      rw [← hr]
    rw [this]; rfl
  | succ w ih =>
    rw [show n + 2 * (w + 1) = (n + 2) + 2 * w by omega,
      ih (n + 2) fun k hk => hl k (by omega)]
    have hs' : (if w = 0 then c.st else St.SwHigh).samples := by
      split
      · exact hs
      · trivial
    rw [loneRun_waitPair n (s := waited w c s)
      (c := { c with st := if w = 0 then c.st else .SwHigh, pairs := c.pairs + w, edge := c.edge + w })
      rfl hs' hc hz ht hv hi (hl w (by omega))]
    congr 1
    simp only [waited, tick, Cycle.waiting, fin_add_ofNat_succ]
    rfl

end Sys2Proof.Machine
end

