-- ==== Sys2Proof/Tests/Slice0.lean ====
section
/-! SUPPORT. The model's own tests. Expected values are those of spec/95_test_vectors.md and of the
patterns of 30_encoding.md R111, written out by hand; the id of the vector stands in the docstring.
The theorems named witness_… show that the hypotheses of each obligation can be met. -/

namespace Sys2Proof.Tests

open Sys2Proof Sys2Proof.Machine

/-! ## Helpers -/

/-- The machine after reset with these answers of its devices. -/
def scripted (answers : List Answer) : State := { State.reset with answers := answers }

/-- The same on an 8-bit data bus. -/
def scripted8 (answers : List Answer) : State :=
  { scripted answers with params := { Params.default with dataBus := .d8 } }

/-- The results and the CLK cycles of a step that answers a next state. -/
def outcome (r : Res) : Option (List Result × Nat) :=
  match r with
  | .next s => some (s.results.map (·.result), s.clkCount)
  | _ => none

/-- One observation of the next state. -/
def observed {α : Type} (f : State → α) (r : Res) : Option α :=
  match r with
  | .next s => some (f s)
  | _ => none

/-- There is a next state. -/
def isNext (r : Res) : Bool := (observed (fun _ => ()) r).isSome

theorem exists_next {r : Res} (h : isNext r = true) : ∃ t, r = .next t := by
  cases r with
  | next t => exact ⟨t, rfl⟩
  | fault f => cases h
  | refused f => cases h

/-- Acknowledged after `w` wait pairs, with these data where the device is read. -/
def ack (w : Nat) (d : Option Half := none) : Answer := Answer.of (.dtack w d)

/-! ## Decoding: one word of every row, written out from R111 -/

/-- `0 111 1 1 1`; the level in the pins, active low (IA-6). -/
theorem test_decode_iack : decode .d16 [0b00111111, 0b010] = .ok (.iack 5, []) := by decide
/-- `0 101 1 1 1` on a 16-bit bus (RD-1). -/
theorem test_decode_rdW : decode .d16 [0b00101111, 0x00, 0x10, 0x00] = .ok (.rdW 5 0x001000, []) := by
  decide
/-- `0 001 1 1 0` (RD-4). -/
theorem test_decode_rdBU : decode .d16 [0b00001110, 0x00, 0x10, 0x00] = .ok (.rdBU 1 0x001000, []) := by
  decide
/-- `0 001 1 0 1` (RD-5): the lane gives bit 0. -/
theorem test_decode_rdBL : decode .d16 [0b00001101, 0x00, 0x10, 0x00] = .ok (.rdBL 1 0x001001, []) := by
  decide
/-- `0 101 0 1 1` (WR-1). -/
theorem test_decode_wrW : decode .d16 [0b00101011, 0x00, 0x10, 0x00, 0x12, 0x34] =
    .ok (.wrW 5 0x001000 0x1234, []) := by decide
/-- `0 101 0 1 0` (WR-3). -/
theorem test_decode_wrBU : decode .d16 [0b00101010, 0x00, 0x10, 0x00, 0xAB] =
    .ok (.wrBU 5 0x001000 0xAB, []) := by decide
/-- `0 101 0 0 1` (WR-2). -/
theorem test_decode_wrBL : decode .d16 [0b00101001, 0x00, 0x10, 0x00, 0xAB] =
    .ok (.wrBL 5 0x001001 0xAB, []) := by decide
/-- `1 101 1 1 0` (RMW-1). -/
theorem test_decode_rmwBU : decode .d16 [0b01101110, 0x00, 0x20, 0x00] = .ok (.rmwBU 5 0x002000, []) := by
  decide
/-- `1 101 1 0 1` (RMW-2). -/
theorem test_decode_rmwBL : decode .d16 [0b01101101, 0x00, 0x20, 0x00] = .ok (.rmwBL 5 0x002001, []) := by
  decide
/-- `0 fff 1 1 1` on an 8-bit bus (R111). -/
theorem test_decode_rdB8 : decode .d8 [0b00101111, 0x00, 0x10, 0x01] = .ok (.rdB8 5 0x001001, []) := by
  decide
/-- `0 fff 0 1 1` on an 8-bit bus (R111). -/
theorem test_decode_wrB8 : decode .d8 [0b00101011, 0x00, 0x10, 0x01, 0xAB] =
    .ok (.wrB8 5 0x001001 0xAB, []) := by decide
/-- `1 fff 1 1 1` on an 8-bit bus (R111). -/
theorem test_decode_rmwB8 : decode .d8 [0b01101111, 0x00, 0x20, 0x01] = .ok (.rmwB8 5 0x002001, []) := by
  decide
/-- The bytes after an instruction are left. -/
theorem test_decode_leaves_the_rest : decode .d16 [0x3F, 0x00, 0x2F] = .ok (.iack 7, [0x2F]) := by decide

/-! ## WellFormed refuses an ill-formed term for each check (R120) -/

/-- RD-12, WR-8, RMW-9: function code 111 belongs to IACK. -/
theorem test_wf_cpuSpace : (Instr.rdW 7 0x001000).illegal .d16 = some .cpuSpace ∧
    (Instr.wrW 7 0xFFFFF2 0).illegal .d16 = some .cpuSpace ∧
    (Instr.rmwBU 7 0x002000).illegal .d16 = some .cpuSpace := by decide
/-- RD-11, WR-7: a word at an odd address. -/
theorem test_wf_oddWord : (Instr.rdW 5 0x001001).illegal .d16 = some .oddWord ∧
    (Instr.wrW 5 0x001003 0x1234).illegal .d16 = some .oddWord := by decide
/-- R75: UDS is the even byte, LDS the odd one. -/
theorem test_wf_wrongLane : (Instr.rdBU 5 0x001001).illegal .d16 = some .wrongLane ∧
    (Instr.rmwBL 5 0x002000).illegal .d16 = some .wrongLane := by decide
/-- IA-7: `IACK 0`. -/
theorem test_wf_levelZero : (Instr.iack 0).illegal .d16 = some .levelZero := by decide
/-- R12: a word on an 8-bit bus, and DS on a 16-bit one. -/
theorem test_wf_wrongDataBus : (Instr.rdW 5 0x001000).illegal .d8 = some .wrongDataBus ∧
    (Instr.rdB8 5 0x001000).illegal .d16 = some .wrongDataBus := by decide
/-- R115: the notation resolves to a row by bit 0. -/
theorem test_resolve : Txn.resolve .d16 (.rdB 5 0x001001) = .ok (.rdBL 5 0x001001) ∧
    Txn.resolve .d16 (.wrB 5 0x001000 0xAB) = .ok (.wrBU 5 0x001000 0xAB) := by decide

/-! ## Meanings -/

/-- RD-2. -/
theorem test_rdW : outcome (exec (.rdW 5 0x001000) (scripted [ack 1 (some 0x1234)])) =
    some ([.okWord 0x1234], 5) := by decide
/-- RD-9: 16 half clocks. -/
theorem test_rdW_berr : outcome (exec (.rdW 5 0x001000) (scripted [Answer.of (.berr 3)])) =
    some ([.busError { kind := .read, fc := 5, addr := 0x001000 }], 8) := by decide
/-- RD-4: the byte on D7-D0 is ignored. -/
theorem test_rdBU : outcome (exec (.rdBU 1 0x001000) (scripted [ack 0 (some 0xAB77)])) =
    some ([.okByte 0xAB], 4) := by decide
/-- RD-5. -/
theorem test_rdBL : outcome (exec (.rdBL 1 0x001001) (scripted [ack 0 (some 0x77CD)])) =
    some ([.okByte 0xCD], 4) := by decide
/-- SY-4: 4 + 2 + 14 CLK. -/
theorem test_rdBL_sync : observed (·.clkCount)
    (exec (.rdBL 5 0x00E001) (scripted [Answer.of (.vpa 2)])) = some 20 := by decide
/-- R12: D7-D0 carry the byte under DS. -/
theorem test_rdB8 : outcome (exec (.rdB8 5 0x001000) (scripted8 [ack 0 (some 0x77CD)])) =
    some ([.okByte 0xCD], 4) := by decide
/-- WR-1: byte $001000 = $12, byte $001001 = $34 (function code 5, log 29). -/
theorem test_wrW : observed (fun s => (s.byteAt 5 0x001000, s.byteAt 5 0x001001))
    (exec (.wrW 5 0x001000 0x1234) (scripted [ack 0])) = some (some 0x12, some 0x34) := by decide
/-- WR-4: 10 half clocks. -/
theorem test_wrW_waits : outcome (exec (.wrW 5 0x001000 0x1234) (scripted [ack 1])) =
    some ([.ok], 5) := by decide
/-- WR-3: byte $001000 = $AB, its neighbour is untouched. -/
theorem test_wrBU : observed (fun s => (s.byteAt 5 0x001000, s.byteAt 5 0x001001))
    (exec (.wrBU 5 0x001000 0xAB) (scripted [ack 0])) = some (some 0xAB, none) := by decide
/-- WR-2. -/
theorem test_wrBL : observed (fun s => (s.byteAt 5 0x001000, s.byteAt 5 0x001001))
    (exec (.wrBL 5 0x001001 0xAB) (scripted [ack 0])) = some (none, some 0xAB) := by decide
/-- P3, transaction 3: `pit[00101] = $40`. -/
theorem test_wrBL_pit : observed (·.pit.pivr) (exec (.wrBL 5 0x00E00B 0x40) (scripted [])) =
    some 0x40 := by decide
/-- R12: a byte at an even address under DS. -/
theorem test_wrB8 : observed (fun s => s.byteAt 5 0x001000)
    (exec (.wrB8 5 0x001000 0xAB) (scripted8 [ack 0])) = some (some 0xAB) := by decide
/-- RMW-3: 26 half clocks, `ok($00)`, byte = $80. -/
theorem test_rmwBU : observed (fun s => (s.results.map (·.result), s.clkCount, s.byteAt 5 0x002000))
    (exec (.rmwBU 5 0x002000) (scripted [ack 1 (some 0x0000), ack 2])) =
    some ([.okByte 0x00], 13, some 0x80) := by decide
/-- RMW-2: `ok($7F)`, byte = $FF. -/
theorem test_rmwBL : observed (fun s => (s.results.map (·.result), s.byteAt 5 0x002001))
    (exec (.rmwBL 5 0x002001) (scripted [ack 0 (some 0x007F), ack 0])) =
    some ([.okByte 0x7F], some 0xFF) := by decide
/-- RMW-4 under DS. -/
theorem test_rmwB8 : observed (fun s => (s.results.map (·.result), s.byteAt 5 0x002000))
    (exec (.rmwB8 5 0x002000) (scripted8 [ack 0 (some 0x0080), ack 0])) =
    some ([.okByte 0x80], some 0x80) := by decide
/-- RMW-5. -/
theorem test_rmwBU_berr : observed (fun s => s.results.map (·.result))
    (exec (.rmwBU 5 0x002000) (scripted [Answer.of (.berr 0)])) =
    some [.busError { kind := .rmwRead, fc := 5, addr := 0x002000 }] := by decide
/-- IA-2: D15-D8 are ignored. -/
theorem test_iack : outcome (exec (.iack 5) (scripted [ack 0 (some 0xFF40)])) =
    some ([.vector 0x40], 4) := by decide
/-- IA-6: phase 1 during S0, nine CLK cycles, `vector($1D)`. -/
theorem test_iack_autovector : outcome (exec (.iack 5)
    { scripted [Answer.of (.vpa 0)] with ephase := 1 }) = some ([.vector 0x1D], 9) := by decide

/-! ## The lines (the traces of RD-1, WR-1, RMW-1 and SY-1) -/

/-- The pins after half clock `h` of a transaction, as the traces count them. -/
def pinsAt (h : Nat) (i : Instr) (s : State) : Option Pins := (observedPins i s)[h]?

/-- RD-1, h = 2: AS, UDS, LDS asserted, with the address of h = 1. -/
theorem test_trace_read : (pinsAt 2 (.rdW 5 0x001000) (scripted [ack 0 (some 0x1234)])).map
    (fun p => (p.fc, p.addr, p.strobeAS, p.uds, p.lds, p.rw)) =
    some (some 5, some 0x000800, .asserted, .asserted, .asserted, .high) := by decide
/-- WR-1, h = 3: data on the bus, R/W low, the data strobes not yet. -/
theorem test_trace_write : (pinsAt 3 (.wrW 5 0x001000 0x1234) (scripted [ack 0])).map
    (fun p => (p.data, p.rw, p.strobeAS, p.uds)) =
    some ({ hi := some 0x12, lo := some 0x34 }, .low, .asserted, .negated) := by decide
/-- RD-1, h = 7 and h = 8: AS negated with the address still valid, then the address bus released by
the rising edge. -/
theorem test_trace_read_end : (let r := exec (.rdW 5 0x001000) (scripted [ack 0 (some 0x1234)])
    (observed (fun s => (s.pins.strobeAS, s.pins.addr)) r,
      observed (fun s => s.pins.addr) (andThen r State.halfClock))) =
    (some (.negated, some 0x000800), some none) := by decide
/-- WR-1, h = 7 and h = 8: data still driven and R/W low, then both given up. -/
theorem test_trace_write_end : (let r := exec (.wrW 5 0x001000 0x1234) (scripted [ack 0])
    (observed (fun s => (s.pins.data.hi, s.pins.rw)) r,
      observed (fun s => (s.pins.data.hi, s.pins.rw)) (andThen r State.halfClock))) =
    (some (some 0x12, .low), some (none, .high)) := by decide
/-- RMW-1, h = 7: UDS negated, AS stays asserted. -/
theorem test_trace_rmw : (pinsAt 7 (.rmwBU 5 0x002000) (scripted [ack 0 (some 0x0000), ack 0])).map
    (fun p => (p.strobeAS, p.uds, p.addr)) = some (.asserted, .negated, some 0x001000) := by decide
/-- IA table, level 5: $FFFFFA, shifted right by one, on the address lines, function code 111. -/
theorem test_trace_iack : (pinsAt 2 (.iack 5) (scripted [ack 0 (some 0x0040)])).map
    (fun p => (p.fc, p.addr)) = some (some 7, some 0x7FFFFD) := by decide
/-- SY-1: VMA asserted at h = 5. -/
theorem test_trace_sync : ((pinsAt 4 (.rdBL 5 0x00E001) (scripted [Answer.of (.vpa 0)])).map (·.vma),
    (pinsAt 5 (.rdBL 5 0x00E001) (scripted [Answer.of (.vpa 0)])).map (·.vma)) =
    (some .negated, some .asserted) := by decide

/-! ## Stops -/

/-- RD-13: DTACK with VPA. -/
theorem test_protocol_violation : exec (.rdW 5 0x001000)
    (scripted [Answer.of (.edges [{ Drive.quiet with dtack := true, vpa := true }])]) =
    .fault (.protocolViolation .dtackAndVpa) := by rfl
/-- RD-11 through a meaning. -/
theorem test_refused : exec (.rdW 5 0x001001) State.reset = .refused (.illegal .oddWord) := by rfl

/-! ## Witnesses: encoding and steps -/

/-- One well-formed instruction of each row. -/
theorem witness_DecodeOfEncodeIsTheInstruction :
    (Instr.iack 7).wf .d16 = true ∧ (Instr.rdW 5 0xFFFFFE).wf .d16 = true ∧
    (Instr.rdBU 0 0).wf .d16 = true ∧ (Instr.rdBL 6 0xFFFFFF).wf .d16 = true ∧
    (Instr.wrW 5 0x001000 0xFFFF).wf .d16 = true ∧ (Instr.wrBU 5 0 0).wf .d16 = true ∧
    (Instr.wrBL 5 1 0).wf .d16 = true ∧ (Instr.rmwBU 5 0x002000).wf .d16 = true ∧
    (Instr.rmwBL 5 0x002001).wf .d16 = true ∧ (Instr.rdB8 5 1).wf .d8 = true ∧
    (Instr.wrB8 5 0xFFFFFF 0xAB).wf .d8 = true ∧ (Instr.rmwB8 5 0).wf .d8 = true := by decide
theorem witness_EncodeOfDecodeIsTheBytes :
    decode .d16 [0x2F, 0x00, 0x10, 0x00] = .ok (.rdW 5 0x001000, []) := by decide
theorem witness_OpcodeMapSelectsTheRow : (5 : Fc) ≠ 7 := by decide
/-- Each clause of R120: the equal and unequal strobes, the function codes, both bus modes. -/
theorem witness_ReservedCombinationsAreRefused : (true ≠ false) ∧ ((true || false) = true) ∧
    (6 : Fc) ≠ 7 ∧ Addr.isOdd 0x001001 = true ∧ State.reset.owner = .processor ∧
    State.reset.params.dataBus = .d16 ∧ (scripted8 []).params.dataBus = .d8 := by decide

/-- Nothing scripted but answers: a cycle may start. -/
theorem scripted_ready (l : List Answer) : (scripted l).Ready :=
  ⟨⟨rfl, by simp [scripted, State.reset], rfl, rfl, by simp [scripted, State.reset]⟩,
    ⟨rfl, rfl, rfl, rfl, rfl, rfl, rfl, rfl, rfl⟩⟩
theorem scripted8_ready (l : List Answer) : (scripted8 l).Ready :=
  ⟨⟨rfl, by simp [scripted8, scripted, State.reset], rfl, rfl,
    by simp [scripted8, scripted, State.reset]⟩, ⟨rfl, rfl, rfl, rfl, rfl, rfl, rfl, rfl, rfl⟩⟩

theorem witness_ObservedWordIsTheWordOfTheRow :
    (scripted [ack 0, ack 0]).Ready ∧ (Instr.rmwBU 5 0x002000).wf .d16 = true ∧
    (scripted [ack 0, ack 0]).answers = Answer.of (.dtack 0 none) :: Answer.of (.dtack 0 none) :: [] :=
  ⟨scripted_ready _, by decide, rfl⟩

/-- A machine with a program. -/
def programmed (q : List Item) : State := { State.reset with program := q }

theorem witness_StepRunsTheDecodedTransaction :
    let s := programmed [.code [0x2F, 0x00, 0x10, 0x00, 0x3F], .idle 2]
    s.run = none ∧ s.busAvailable = true ∧
    s.queue = .code [0x2F, 0x00, 0x10, 0x00, 0x3F] :: [.idle 2] ∧
    decode s.params.dataBus [0x2F, 0x00, 0x10, 0x00, 0x3F] = .ok (.rdW 5 0x001000, [0x3F]) ∧
    s.mayIssue (.rdW 5 0x001000) = true := by decide
/-- Each clause: an empty program, IDLE 0, IDLE 1, and bytes that are no transaction. -/
theorem witness_StepWithoutATransaction :
    State.reset.busAvailable = true ∧ State.reset.queue = [] ∧
    (programmed [.idle 0]).queue = .idle 0 :: [] ∧ (programmed [.idle 1]).queue = .idle (0 + 1) :: [] ∧
    (programmed [.code []]).queue = .code [] :: [] ∧ decode .d16 [] = .error .truncated ∧
    decode .d16 [0x2C] = .error .noStrobe := by decide
theorem witness_AcknowledgeWaitsUntilItsLevelWasSeen :
    let s := programmed [.code [0x3F, 0b010]]
    s.owner = .processor ∧ s.run = none ∧ decode .d16 [0x3F, 0b010] = .ok (.iack 5, []) ∧
    s.iplHistory.getLsbD 5 = false ∧ isNext (step s) = true := by decide
/-- A machine whose bus is granted, or taken. -/
def granted (arb : Arb) : State :=
  { programmed [.code [0x2F, 0x00, 0x10, 0x00]] with
    arb := arb, pins := { Pins.idle with bg := .asserted }, inputs := { Inputs.quiet with br := true } }
theorem witness_GrantedBusStartsNoCycle :
    (granted .granted).owner = .processor ∧ (granted .granted).run = none ∧
    isNext (step (granted .granted)) = true ∧ isNext (step (granted .acknowledged)) = true := by decide
theorem witness_OneResultPerStep :
    isNext (step (programmed [.code [0x2F, 0x00, 0x10, 0x00]])) = true := by decide

/-! ## Witnesses: states of a cycle -/

/-- `s` with a cycle in a state other than the start, its lines those of that state. -/
def showing (s : State) (c : Cycle) (vma : Line) : State :=
  { s with
    run := some c
    pins := { s.pins with
      fc := some c.fc
      addr := if 1 ≤ c.pos then some (linesOf c.addr) else none
      strobeAS := assertIf (2 ≤ c.pos) .negated
      uds := assertIf (c.strobing && c.strobes.selectsUpper) .negated
      lds := assertIf (c.strobing && c.strobes.selectsLower) .negated
      ds := assertIf (c.strobing && c.strobes.selectsDs) .negated
      rw := if c.writing then .low else .high
      data := if c.drivingData then place c.strobes (s.outData c) 0 else DataLines.z
      vma := vma } }

theorem showing_busInv {s : State} {c : Cycle} {vma : Line} (h : c.legal s.term = true)
    (hs : c.st ≠ .start) (hz : s.closing = none) (hv : vma = .negated ∨
      (vma = .asserted ∧ c.strobing = true ∧ (s.term = .vpa ∨ s.term = .berr)))
    (hh : s.held = DataLines.z := by rfl) :
    (showing s c vma).BusInv where
  held := .inl hh
  idle hr := by cases hr
  ends d hd := by rw [show (showing s c vma).closing = s.closing from rfl, hz] at hd; cases hd
  legal := by rintro d ⟨⟩; exact h
  start := by rintro d ⟨⟩ hd; exact absurd hd hs
  shows := by
    rintro d ⟨⟩ -
    exact ⟨rfl, rfl, rfl, rfl, rfl, rfl, rfl, fun hd => ⟨0, by simp [showing, hd]; rfl⟩, hv⟩

theorem showing_calm {s : State} {c : Cycle} {vma : Line} (h : s.Calm) : (showing s c vma).Calm :=
  ⟨h.owner, h.arb, h.bgack, h.pitReset, h.events⟩

/-- A cycle in a state. -/
def cycleIn (kind : Kind) (st : St) (second : Bool) : Cycle :=
  { newCycle kind 5 0x001000 .upper 0xAB 0 with st := st, second := second }

/-- A machine in the given half of CLK with a termination. -/
def clocked (clk : Clk) (term : Term) : State := { State.reset with clk := clk, term := term }

theorem clocked_calm (clk : Clk) (term : Term) : (clocked clk term).Calm :=
  ⟨rfl, by simp [clocked, State.reset], rfl, rfl, by simp [clocked, State.reset]⟩

theorem reset_linesIdle : State.reset.LinesIdle :=
  ⟨rfl, by decide, by decide, by decide, by decide, by decide, rfl, fun _ => ⟨rfl, rfl, rfl, rfl, rfl⟩⟩

/-- The bus invariant of the idle bus with a cycle about to start. -/
theorem starting_busInv (kind : Kind) :
    ({ State.reset with run := some (cycleIn kind .start false) } : State).BusInv where
  held := .inl rfl
  idle hr := by cases hr
  ends d hd := by cases hd
  legal := by rintro d ⟨⟩; rfl
  start := by
    rintro d ⟨⟩ - -
    have h := reset_linesIdle
    exact ⟨h.addr, h.as, h.uds, h.lds, h.ds, h.rw, h.vma, h.own⟩
  shows := by rintro d ⟨⟩ hd; exact absurd rfl hd

theorem starting_calm (kind : Kind) :
    ({ State.reset with run := some (cycleIn kind .start false) } : State).Calm :=
  ⟨rfl, by simp [State.reset], rfl, rfl, by simp [State.reset]⟩

/-- A cycle may start in the last state of a write, whose data are still on the bus. -/
theorem witness_StatesS0_after_a_write :
    let w := cycleIn .write .S7 false
    let s := { clocked .low .dtack with
      closing := some w, run := some (cycleIn .read .start false)
      pins := { Pins.idle with
        fc := some 5, addr := some (linesOf 0x001000), rw := .low, data := place .upper 0xAB 0 } }
    s.Calm ∧ s.BusInv ∧ s.run = some (cycleIn .read .start false) ∧ s.clk = .low := by
  refine ⟨⟨rfl, by simp [clocked, State.reset], rfl, rfl, by simp [clocked, State.reset]⟩,
    ⟨.inl rfl, ?_, ?_, ?_, ?_, ?_⟩, rfl, rfl⟩
  · rintro ⟨⟩
  · rintro c ⟨⟩
    exact ⟨⟨rfl, rfl, rfl, rfl, rfl, rfl, rfl, fun _ => ⟨0, rfl⟩, rfl, rfl, rfl⟩, by rintro d ⟨⟩; rfl⟩
  · rintro c ⟨⟩; rfl
  · rintro c ⟨⟩ - ⟨⟩
  · rintro c ⟨⟩ h; exact absurd rfl h

/-- The half of CLK that stands while a state does, where an edge is still to come. -/
def clkOf (st : St) : Clk := if st.clkHigh then .high else .low

/-- Each clause of the read statement, for a read and an acknowledge cycle. -/
theorem witness_ReadStatesS0ToS4 (kind : Kind) (hk : kind = .read ∨ kind = .iack) (st : St)
    (h : st ∈ [St.S0, .S1, .S2, .S3]) :
    let s := showing (clocked (clkOf st) .none) (cycleIn kind st false) .negated
    s.Calm ∧ s.BusInv ∧ s.run = some (cycleIn kind st false) ∧ (cycleIn kind st false).kind = kind ∧
    (cycleIn kind st false).st = st ∧ s.clk = clkOf st := by
  refine ⟨showing_calm (clocked_calm ..), showing_busInv ?_ ?_ rfl (.inl rfl), rfl, rfl, rfl, rfl⟩
  · revert st; rcases hk with rfl | rfl <;> decide
  · revert st; rcases hk with rfl | rfl <;> decide
/-- The first clause of the read and of the write statement: before S0, with CLK low. -/
theorem witness_StatesS0 (kind : Kind) :
    let s := { State.reset with run := some (cycleIn kind .start false) }
    s.Calm ∧ s.BusInv ∧ s.run = some (cycleIn kind .start false) ∧ s.clk = .low :=
  ⟨starting_calm kind, starting_busInv kind, rfl, rfl⟩
/-- The other clauses of the write statement; in S2 nobody drives the data bus. -/
theorem witness_WriteStatesS0ToS4 (st : St) (h : st ∈ [St.S0, .S1, .S2, .S3]) :
    let s := showing (clocked (clkOf st) .none) (cycleIn .write st false) .negated
    s.Calm ∧ s.BusInv ∧ s.run = some (cycleIn .write st false) ∧ s.clk = clkOf st ∧
    (st = .S2 → s.pins.data = DataLines.z) := by
  refine ⟨showing_calm (clocked_calm ..), showing_busInv ?_ ?_ rfl (.inl rfl), rfl, rfl, ?_⟩
  · revert st; decide
  · revert st; decide
  · rintro rfl; decide
/-- The clauses of the read-modify-write statement up to S11, after a read portion ended by DTACK. -/
theorem witness_RmwStatesS8ToS12 (st : St) (h : st ∈ [St.S7, .S8, .S9, .S10, .S11]) :
    let s := showing (clocked (clkOf st) .dtack) (cycleIn .rmw st false) .negated
    s.Calm ∧ s.BusInv ∧ s.run = some (cycleIn .rmw st false) ∧ s.clk = clkOf st := by
  refine ⟨showing_calm (clocked_calm ..), showing_busInv ?_ ?_ rfl (.inl rfl), rfl, rfl⟩
  · revert st; decide
  · revert st; decide
/-- Its clauses from S12 on. -/
theorem witness_RmwStatesS12ToS16 (st : St) (h : st ∈ [St.S12, .S13, .S14, .S15]) :
    let s := showing (clocked (clkOf st) .none) (cycleIn .rmw st true) .negated
    s.Calm ∧ s.BusInv ∧ s.run = some (cycleIn .rmw st true) ∧ s.clk = clkOf st ∧
    (st = .S14 → s.pins.data = DataLines.z) := by
  refine ⟨showing_calm (clocked_calm ..), showing_busInv ?_ ?_ rfl (.inl rfl), rfl, rfl, ?_⟩
  · revert st; decide
  · revert st; decide
  · rintro rfl; decide

/-- A cycle at a sampling edge, with the device's drive there. -/
def sampling (kind : Kind) (st : St) (second d b v : Bool) : Cycle :=
  { cycleIn kind st second with
    answer := Answer.of (.edges [{ Drive.quiet with dtack := d, berr := b, vpa := v }]) }

/-- Every combination of the three lines, at the three edges that decide. -/
theorem witness_SamplingEdgeDecides (d b v : Bool) (st : St) (h : st ∈ [St.S4, .S16, .SwHigh]) :
    let c := sampling .rmw st (st = .S16) d b v
    let s := showing (clocked .high .none) c .negated
    let drive := c.answer.shape.driveAt c.edge (c.st = .S6)
    let adds := c.answer.shape.addsTo c.edge
    s.Calm ∧ s.BusInv ∧ s.clk = .high ∧ s.run = some c ∧ s.term = .none ∧
    d = ((adds && s.inputs.dtack) || drive.dtack) ∧ b = ((adds && s.inputs.berr) || drive.berr) ∧
    v = ((adds && s.inputs.vpa) || drive.vpa) ∧ s.inputs.avec = false ∧ drive.avec = false := by
  refine ⟨showing_calm (clocked_calm ..), showing_busInv ?_ ?_ rfl (.inl rfl), rfl, rfl, rfl, ?_⟩
  · revert st; revert d b v; decide
  · revert st; revert d b v; decide
  · revert st; revert d b v; decide
/-- Every combination at end(S6), after each termination, for a read and for an acknowledge cycle; E
falls at the edge. -/
theorem witness_SamplingEdgeDecides_late (kind : Kind) (term : Term) (d b v : Bool)
    (hk : (kind, term) ∈ [(Kind.read, Term.dtack), (.read, .berrDtack), (.read, .vpa), (.read, .berr),
      (.iack, .dtack), (.iack, .avec), (.write, .vpa)]) :
    let c := sampling kind .S6 false d b v
    let s := showing { clocked .high term with ephase := 9 } c .negated
    let drive := c.answer.shape.driveAt c.edge (c.st = .S6)
    let adds := c.answer.shape.addsTo c.edge
    s.Calm ∧ s.BusInv ∧ s.clk = .high ∧ s.run = some c ∧ s.term = term ∧ s.ephase = 9 ∧
    s.pins.vma = .negated ∧
    d = ((adds && s.inputs.dtack) || drive.dtack) ∧ b = ((adds && s.inputs.berr) || drive.berr) ∧
    v = ((adds && s.inputs.vpa) || drive.vpa) ∧ s.params.iackBerr ≠ none := by
  refine ⟨showing_calm ⟨rfl, by simp [clocked, State.reset], rfl, rfl, by simp [clocked, State.reset]⟩,
    showing_busInv ?_ ?_ rfl (.inl rfl), rfl, rfl, rfl, rfl, rfl, ?_⟩
  · simp only [List.mem_cons, Prod.mk.injEq, List.not_mem_nil, or_false] at hk
    rcases hk with ⟨rfl, rfl⟩ | ⟨rfl, rfl⟩ | ⟨rfl, rfl⟩ | ⟨rfl, rfl⟩ | ⟨rfl, rfl⟩ | ⟨rfl, rfl⟩ |
      ⟨rfl, rfl⟩ <;> rfl
  · simp [sampling, cycleIn]
  · cases d <;> cases b <;> cases v <;>
      exact ⟨rfl, rfl, rfl, by simp [showing, clocked, State.reset, Params.default]⟩
/-- A synchronous cycle waiting for E in a phase. -/
def stretching (p : Fin 10) (d b : Bool) (vma : Line) : State :=
  showing { clocked .high .vpa with ephase := p } (sampling .read .SwHigh false d b false) vma
/-- Every clause of the stretch: BERR; DTACK; VMA asserted as E falls; and the other phases. -/
theorem witness_SynchronousStretchFollowsE (p : Fin 10) (d b : Bool) (vma : Line)
    (hv : vma = .negated ∨ vma = .asserted) :
    let s := stretching p d b vma
    let c := sampling .read .SwHigh false d b false
    s.Calm ∧ s.BusInv ∧ s.clk = .high ∧ s.run = some c ∧ c.st = .SwHigh ∧ s.term = .vpa ∧
    d = ((c.answer.shape.addsTo c.edge && s.inputs.dtack) || (c.answer.shape.driveAt c.edge false).dtack) ∧
    b = ((c.answer.shape.addsTo c.edge && s.inputs.berr) || (c.answer.shape.driveAt c.edge false).berr) ∧
    s.pins.data = DataLines.z := by
  refine ⟨⟨rfl, by simp [stretching, showing, clocked, State.reset], rfl, rfl,
      by simp [stretching, showing, clocked, State.reset]⟩,
    showing_busInv ?_ ?_ rfl ?_, rfl, rfl, rfl, rfl, ?_, ?_, rfl⟩
  · cases d <;> cases b <;> rfl
  · simp [sampling, cycleIn]
  · rcases hv with rfl | rfl
    · exact .inl rfl
    · exact .inr ⟨rfl, rfl, .inl rfl⟩
  · cases d <;> rfl
  · cases b <;> rfl
theorem witness_VmaIsAssertedOnlyWhileELeavesTime :
    let s := stretching 9 false false .negated
    s.BusInv ∧ s.inPhase ∧ s.pins.vma = .negated ∧
    ∃ t, s.halfClock = .next t ∧ t.pins.vma = .asserted :=
  ⟨(witness_SynchronousStretchFollowsE 9 false false .negated (.inl rfl)).2.1,
    by rintro c ⟨⟩; simp [stretching, showing, clocked, sampling, cycleIn, St.clkHigh], rfl, _, rfl, rfl⟩

/-! ## Witnesses: whole cycles -/

/-- The four reads, with a device that answers. -/
theorem witness_ReadEndsByDtack :
    (scripted [ack 0 (some 0x1234)]).Ready ∧ (scripted8 [ack 2 (some 0x1234)]).Ready ∧
    (scripted [ack 0 (some 0x1234)]).answers = Answer.of (.dtack 0 (some 0x1234)) :: [] ∧
    (Instr.rdW 5 0x001000).wf .d16 = true ∧ (Instr.rdBU 5 0x001000).wf .d16 = true ∧
    (Instr.rdBL 5 0x001001).wf .d16 = true ∧ (Instr.rdB8 5 0x001001).wf .d8 = true :=
  ⟨scripted_ready _, scripted8_ready _, rfl, by decide, by decide, by decide, by decide⟩
/-- Memory with a word, and the PI/T, hold bytes. -/
theorem witness_ReadReturnsWhatTheDeviceHolds :
    (scripted []).Ready ∧ (scripted []).answers = [] ∧
    ({ scripted [] with mem := [(5 * 2 ^ 24 + 0x001000, 0x12), (5 * 2 ^ 24 + 0x001001, 0x34)] } :
      State).byteAt 5 0x001000 = some 0x12 ∧
    ({ scripted [] with mem := [(5 * 2 ^ 24 + 0x001000, 0x12), (5 * 2 ^ 24 + 0x001001, 0x34)] } :
      State).byteAt 5 (0x001000 + 1) = some 0x34 ∧
    (scripted []).byteAt 5 0x00E00B = some 0x0F :=
  ⟨scripted_ready _, rfl, by decide, by decide, by decide⟩
theorem witness_WriteEndsByDtack :
    (scripted [ack 0]).Ready ∧ (scripted [ack 0]).answers = Answer.of (.dtack 0 none) :: [] ∧
    (Instr.wrW 5 0x001000 0x1234).wf .d16 = true ∧ (Instr.wrBU 5 0x001000 0xAB).wf .d16 = true ∧
    (Instr.wrBL 5 0x001001 0xAB).wf .d16 = true ∧ (scripted8 [ack 0]).Ready ∧
    (Instr.wrB8 5 0x001000 0xAB).wf .d8 = true :=
  ⟨scripted_ready _, rfl, by decide, by decide, by decide, scripted8_ready _, by decide⟩
theorem witness_RmwEndsByDtack :
    (scripted [ack 1 (some 0x007F), ack 2]).Ready ∧
    (scripted [ack 1 (some 0x007F), ack 2]).answers =
      Answer.of (.dtack 1 (some 0x007F)) :: Answer.of (.dtack 2 none) :: [] ∧
    (Instr.rmwBU 5 0x002000).wf .d16 = true ∧ (Instr.rmwBL 5 0x002001).wf .d16 = true ∧
    (Instr.rmwB8 5 0x002001).wf .d8 = true :=
  ⟨scripted_ready _, rfl, by decide, by decide, by decide⟩
/-- The Port Interrupt Vector Register is there from reset on. -/
theorem witness_RmwModifiesWhatTheDeviceHolds :
    (scripted []).Ready ∧ (scripted []).answers = [] ∧ (scripted []).byteAt 5 0x00E00B = some 0x0F ∧
    (Instr.rmwBL 5 0x00E00B).wf .d16 = true :=
  ⟨scripted_ready _, rfl, by decide, by decide⟩
theorem witness_AcknowledgeReturnsTheVectorOnTheBus :
    (scripted [ack 0 (some 0xFF40)]).Ready ∧ (1 : Level) ≠ 0 ∧ (7 : Level) ≠ 0 ∧
    (scripted [ack 0 (some 0xFF40)]).answers = Answer.of (.dtack 0 (some 0xFF40)) :: [] :=
  ⟨scripted_ready _, by decide, by decide, rfl⟩
theorem witness_AcknowledgeByVpaReturnsTheAutovector :
    (scripted [Answer.of (.vpa 0)]).Ready ∧ (5 : Level) ≠ 0 ∧
    (scripted [Answer.of (.vpa 0)]).answers = Answer.of (.vpa 0) :: [] :=
  ⟨scripted_ready _, by decide, rfl⟩
/-- With AVEC, and without it. -/
theorem witness_AcknowledgeByAvec (has : Bool) :
    let s := { scripted [Answer.of (.edges [{ Drive.quiet with avec := true }])] with
      params := { Params.default with hasAvec := has } }
    s.Ready ∧ s.params.hasAvec = has ∧
    s.answers = Answer.of (.edges [{ Drive.quiet with avec := true }]) :: [] :=
  ⟨⟨⟨rfl, by simp [scripted, State.reset], rfl, rfl, by simp [scripted, State.reset]⟩,
    ⟨rfl, rfl, rfl, rfl, rfl, rfl, rfl, rfl, rfl⟩⟩, rfl, rfl⟩
/-- Each of the responders, at levels 1 to 4. -/
theorem witness_AcknowledgeIsAnsweredByItsResponder :
    let s := { scripted [] with params := { Params.default with
      responders := [.nobody, .pitPort, .pitTimer, .vector 0x40, .autovector] } }
    s.Ready ∧ s.answers = [] ∧ responderOf s.params 1 = .pitPort ∧
    responderOf s.params 2 = .pitTimer ∧ responderOf s.params 3 = .vector 0x40 ∧
    responderOf s.params 4 = .autovector :=
  ⟨⟨⟨rfl, by simp [scripted, State.reset], rfl, rfl, by simp [scripted, State.reset]⟩,
    ⟨rfl, rfl, rfl, rfl, rfl, rfl, rfl, rfl, rfl⟩⟩, rfl, rfl, rfl, rfl, rfl⟩
/-- For the reads and the writes ended by VPA. -/
theorem witness_ReadEndsByVpa :
    (scripted [Answer.of (.vpa 0)]).Ready ∧
    (scripted [Answer.of (.vpa 0)]).answers = Answer.of (.vpa 0) :: [] ∧
    (Instr.rdW 5 0x00E000).wf .d16 = true ∧ (Instr.rdBL 5 0x00E001).wf .d16 = true :=
  ⟨scripted_ready _, rfl, by decide, by decide⟩
theorem witness_WriteEndsByVpa :
    (scripted8 [Answer.of (.vpa 2)]).Ready ∧
    (scripted8 [Answer.of (.vpa 2)]).answers = Answer.of (.vpa 2) :: [] ∧
    (Instr.wrW 5 0x00E000 0).wf .d16 = true ∧ (Instr.wrBU 5 0x00E000 0x55).wf .d16 = true ∧
    (Instr.wrBL 5 0x00E001 0x55).wf .d16 = true ∧ (Instr.wrB8 5 0x00E001 0x55).wf .d8 = true :=
  ⟨scripted8_ready _, rfl, by decide, by decide, by decide, by decide⟩
theorem witness_RmwEndsByVpa :
    let s := scripted [Answer.of (.vpa 0), Answer.of (.vpa 3)]
    s.Ready ∧ s.answers = Answer.of (.vpa 0) :: Answer.of (.vpa 3) :: [] ∧
    s.byteAt 5 0x00E00B = some 0x0F ∧ (Instr.rmwBL 5 0x00E00B).wf .d16 = true :=
  ⟨scripted_ready _, rfl, by decide, by decide⟩
theorem witness_WordWriteThenReads :
    (scripted []).Ready ∧ (scripted []).answers = [] ∧
    pitSelect (scripted []).params.pit 0x001000 = none ∧
    pitSelect (scripted []).params.pit (0x001000 + 1) = none ∧
    ∃ t, exec (.wrW 5 0x001000 0xBEEF) (scripted []) = .next t :=
  ⟨scripted_ready _, rfl, by decide, by decide, exists_next (by decide)⟩
theorem witness_ReadEndedByBerr :
    (scripted [Answer.of (.berr 2)]).Ready ∧
    (scripted [Answer.of (.berr 2)]).answers = Answer.of (.berr 2) :: [] ∧
    (Instr.rdW 5 0x800000).wf .d16 = true :=
  ⟨scripted_ready _, rfl, by decide⟩
/-- Both shapes of BERR with DTACK. -/
theorem witness_ReadEndedByBerrWithDtack :
    (scripted [Answer.of (.berrDtack 0 none)]).Ready ∧
    (scripted [Answer.of (.lateBerr 0 (some 0x1234))]).Ready ∧
    (scripted [Answer.of (.berrDtack 0 none)]).answers = Answer.of (.berrDtack 0 none) :: [] ∧
    (scripted [Answer.of (.lateBerr 0 (some 0x1234))]).answers =
      Answer.of (.lateBerr 0 (some 0x1234)) :: [] :=
  ⟨scripted_ready _, scripted_ready _, rfl, rfl⟩
/-- The three shapes of BERR, for the writes, the read portion and the acknowledge cycle. -/
theorem witness_EndedByBerr (x : Shape) :
    (scripted [Answer.of x]).Ready ∧ (scripted [Answer.of x]).answers = Answer.of x :: [] ∧
    (Instr.wrW 5 0x001000 0x1234).wf .d16 = true ∧ (Instr.wrBU 5 0x001000 0xAB).wf .d16 = true ∧
    (Instr.rmwBU 5 0x002000).wf .d16 = true ∧ (4 : Level) ≠ 0 ∧
    (scripted []).params.iackBerr = some 0x18 :=
  ⟨scripted_ready _, rfl, by decide, by decide, by decide, by decide, rfl⟩
/-- `IACK_BERR_VECTOR = fault`. -/
theorem witness_AcknowledgeEndedByBerr_fault :
    let s := { scripted [Answer.of (.berr 0)] with params := { Params.default with iackBerr := none } }
    s.Ready ∧ s.params.iackBerr = none ∧ s.answers = Answer.of (.berr 0) :: [] :=
  ⟨⟨⟨rfl, by simp [scripted, State.reset], rfl, rfl, by simp [scripted, State.reset]⟩,
    ⟨rfl, rfl, rfl, rfl, rfl, rfl, rfl, rfl, rfl⟩⟩, rfl, rfl⟩
/-- Both shapes in the write portion, on the Port Interrupt Vector Register. -/
theorem witness_RmwWritePortionEndedByBerr :
    let s := scripted [ack 0, Answer.of (.berr 0)]
    let s' := scripted [ack 0, Answer.of (.berrDtack 0 none)]
    s.Ready ∧ s'.Ready ∧ s.byteAt 5 0x00E00B = some 0x0F ∧ s'.byteAt 5 0x00E00B = some 0x0F ∧
    s.answers = Answer.of (.dtack 0 none) :: Answer.of (.berr 0) :: [] ∧
    s'.answers = Answer.of (.dtack 0 none) :: Answer.of (.berrDtack 0 none) :: [] ∧
    (Instr.rmwBL 5 0x00E00B).wf .d16 = true :=
  ⟨scripted_ready _, scripted_ready _, by decide, by decide, rfl, rfl, by decide⟩
theorem witness_UnansweredCycleWaitsForEver :
    (scripted [Answer.of .never]).Ready ∧ (Instr.iack 6).wf .d16 = true ∧
    (Instr.rdW 5 0x001000).wf .d16 = true ∧
    (scripted [Answer.of .never]).answers = Answer.of .never :: [] :=
  ⟨scripted_ready _, by decide, by decide, rfl⟩
theorem witness_StaleTerminationEndsTheNextCycle :
    (scripted [Answer.of .never]).Ready ∧ (Instr.rdW 5 0x001000).wf .d16 = true ∧
    (scripted [Answer.of .never]).answers = Answer.of .never :: [] :=
  ⟨scripted_ready _, by decide, rfl⟩

/-! ## Witnesses: frames -/

theorem witness_NoCycleWritesTheOtherAgents :
    (∃ t, exec (.rmwBU 5 0x002000) (scripted []) = .next t) ∧
    (scripted []).inputs.pitReset = false ∧ ∀ e ∈ (scripted []).events, e.2.harmless = true :=
  ⟨exists_next (by decide), rfl, by simp [scripted, State.reset]⟩
theorem witness_ReadCyclesStoreNothing :
    (∃ t, exec (.rdW 5 0x001000) (scripted []) = .next t) ∧
    ∃ t, exec (.iack 5) (scripted []) = .next t :=
  ⟨exists_next (by decide), exists_next (by decide)⟩
theorem witness_WritingCyclesStoreOnlyTheirBytes :
    (∃ t, exec (.wrW 5 0x001000 0x1234) (scripted []) = .next t) ∧
    (∃ t, exec (.rmwBL 5 0x002001) (scripted []) = .next t) ∧
    5 * 2 ^ 24 + 0x001002 ∉ storedKeys .perCode (.wrW 5 0x001000 0x1234) ∧
    ¬pitTouches Params.default.pit (storedAddrs (.wrW 5 0x001000 0x1234)) .pivr := by
  refine ⟨exists_next (by decide), exists_next (by decide), by decide, ?_⟩
  rintro ⟨a, ha, sel, hsel, -⟩
  have : a = 0x001000 ∨ a = 0x001001 := by simpa [storedAddrs, upperByteAddr, lowerByteAddr] using ha
  have none : ∀ a : Addr, a = 0x001000 ∨ a = 0x001001 → pitSelect Params.default.pit a = none := by
    rintro a (rfl | rfl) <;> decide
  rw [none a this] at hsel
  cases hsel

/-! ## Witnesses: masters of the bus -/

/-- An idle machine with its arbiter in a state, and the lines of the requester. -/
def arbitrating (wires : ArbWires) (owner : Owner) (arb : Arb) (bg : Line) (br bgack : Bool) : State :=
  { State.reset with
    params := { Params.default with arbWires := wires }
    clk := .high, owner := owner, arb := arb
    tenureBg := if bg = .asserted then .standing 0 [] else .off []
    pins := { Pins.idle with bg := bg }, inputs := { Inputs.quiet with br := br, bgack := bgack } }

/-- Every case of the three-wire arbiter from a state of the invariant, to a next state. -/
theorem witness_ArbiterThreeWires :
    (∀ owner arb bg br bgack, (arbitrating .three owner arb bg br bgack).closing = none) ∧
    (∀ br, (arbitrating .three .processor .noRequest .negated br false).ArbInv ∧
      isNext (arbitrating .three .processor .noRequest .negated br false).halfClock = true) ∧
    (∀ br, (arbitrating .three .processor .requested .negated br false).ArbInv ∧
      isNext (arbitrating .three .processor .requested .negated br false).halfClock = true) ∧
    (∀ br bgack, (arbitrating .three .processor .granted .asserted br bgack).ArbInv ∧
      isNext (arbitrating .three .processor .granted .asserted br bgack).halfClock = true) ∧
    ∀ br bgack, (arbitrating .three .alternate .acknowledged .asserted br bgack).ArbInv ∧
      isNext (arbitrating .three .alternate .acknowledged .asserted br bgack).halfClock = true := by
  refine ⟨fun _ _ _ _ _ => rfl, fun br => ⟨?_, ?_⟩, fun br => ⟨?_, ?_⟩, fun br bgack => ⟨?_, ?_⟩,
    fun br bgack => ⟨?_, ?_⟩⟩
  · constructor <;> simp [arbitrating, TenureBg.out]
  · revert br; decide
  · constructor <;> simp [arbitrating, TenureBg.out]
  · revert br; decide
  · constructor <;> simp [arbitrating, TenureBg.out]
  · revert br bgack; decide
  · constructor <;> simp [arbitrating, TenureBg.out]
  · revert br bgack; decide
/-- A request whose delay to BG is not over. -/
theorem witness_ArbiterThreeWires_delay :
    let s := { arbitrating .three .processor .requested .negated true false with bgWait := 1 }
    s.ArbInv ∧ isNext s.halfClock = true ∧ s.bgWait ≠ 0 := by
  refine ⟨?_, by decide, by decide⟩
  constructor <;> simp [arbitrating, TenureBg.out]
/-- Every delay a script may give a request that is recognised: none, at once, and later; a request and
the return of the bus. -/
theorem witness_Arbiter_scripts (wires : ArbWires) (l : List Nat) (h : l ∈ [[], [0], [0, 3], [2]]) :
    (let s := { arbitrating wires .processor .noRequest .negated true false with grantDelays := l }
     s.ArbInv ∧ isNext s.halfClock = true) ∧
    (let s := { arbitrating .three .alternate .acknowledged .negated true false with grantDelays := l }
     s.ArbInv ∧ isNext s.halfClock = true) := by
  refine ⟨⟨?_, ?_⟩, ?_, ?_⟩
  · constructor <;> simp [arbitrating]
  · simp only [List.mem_cons, List.not_mem_nil, or_false] at h
    cases wires <;> rcases h with rfl | rfl | rfl | rfl <;> decide
  · constructor <;> simp [arbitrating, TenureBg.out]
  · simp only [List.mem_cons, List.not_mem_nil, or_false] at h
    rcases h with rfl | rfl | rfl | rfl <;> decide
/-- Every case of the two-wire arbiter. -/
theorem witness_ArbiterTwoWires :
    (∀ br, (arbitrating .two .processor .requested .negated br false).ArbInv ∧
      isNext (arbitrating .two .processor .requested .negated br false).halfClock = true) ∧
    (∀ br, (arbitrating .two .processor .noRequest .negated br false).ArbInv ∧
      isNext (arbitrating .two .processor .noRequest .negated br false).halfClock = true) ∧
    ∀ owner br, (arbitrating .two owner .granted .asserted br false).ArbInv ∧
      isNext (arbitrating .two owner .granted .asserted br false).halfClock = true := by
  refine ⟨fun br => ⟨?_, ?_⟩, fun br => ⟨?_, ?_⟩, fun owner br => ⟨?_, ?_⟩⟩
  · constructor <;> simp [arbitrating]
  · revert br; decide
  · constructor <;> simp [arbitrating]
  · revert br; decide
  · constructor <;> simp [arbitrating]
  · revert br; cases owner <;> decide
/-- Each clause: BGACK inside a cycle and without a grant; a bus given back inside a cycle, by three
wires and by two. -/
theorem witness_BrokenArbitrationIsAViolation :
    let c := cycleIn .read .S4 false
    let s1 := showing (arbitrating .three .processor .granted .asserted true true) c .negated
    let s2 := arbitrating .three .processor .noRequest .negated false true
    let s3 := showing (arbitrating .three .alternate .acknowledged .negated false false) c .negated
    let s4 := showing (arbitrating .two .alternate .granted .asserted false false) c .negated
    (s1.owner = .processor ∧ s1.inputs.bgack = true ∧ s1.run ≠ none) ∧
    (s2.owner = .processor ∧ s2.inputs.bgack = true ∧ s2.run = none ∧ s2.arb ≠ .granted) ∧
    (s3.owner = .alternate ∧ s3.run ≠ none ∧ s3.arb = .acknowledged ∧ s3.inputs.bgack = false) ∧
    (s4.owner = .alternate ∧ s4.run ≠ none ∧ s4.arb = .granted ∧ s4.inputs.br = false) ∧
    ∀ s ∈ [s1, s2, s3, s4], s.clk = .high ∧ s.events = [] := by decide
theorem witness_OwnerChangesOnlyBetweenCycles :
    let s := arbitrating .three .processor .granted .asserted true true
    ∃ t, s.halfClock = .next t ∧ t.owner ≠ s.owner :=
  ⟨_, rfl, by decide⟩
/-- An alternate master in its tenure, by three wires and by two. -/
theorem witness_AlternateMasterRunsTheSameCycles :
    let l := [ack 0 (some 0x1234), ack 1]
    let s := { arbitrating .three .alternate .acknowledged .negated false true with
      clk := .low, answers := l }
    let s' := { arbitrating .two .alternate .granted .asserted true false with clk := .low, answers := l }
    s.Tenure ∧ s.BusFree ∧ s.answers = Answer.of (.dtack 0 (some 0x1234)) :: Answer.of (.dtack 1 none) :: [] ∧
    s'.Tenure ∧ s'.BusFree ∧ (Instr.rmwBU 5 0x002000).wf s.params.dataBus = true ∧ (Instr.rdW 5 0x001000).wf s.params.dataBus = true ∧
    (Instr.wrBU 5 0x001000 0xAB).wf s.params.dataBus = true := by
  refine ⟨⟨rfl, .inl ⟨rfl, rfl, rfl⟩, rfl, ?_⟩, ⟨rfl, rfl, rfl, rfl, rfl, rfl, rfl, rfl, rfl⟩, rfl,
    ⟨rfl, .inr ⟨rfl, rfl, rfl⟩, rfl, ?_⟩, ⟨rfl, rfl, rfl, rfl, rfl, rfl, rfl, rfl, rfl⟩, by decide, by decide, by decide⟩
  · simp [arbitrating, State.reset]
  · simp [arbitrating, State.reset]

/-! ## Witnesses: every edge, the invariants and the PI/T -/

/-- At a rising and at a falling edge. -/
theorem witness_IplSeenFollowsThePins :
    isNext State.reset.halfClock = true ∧ State.reset.clk = .low ∧
    isNext (clocked .high .none).halfClock = true ∧ (clocked .high .none).clk = .high := by decide
theorem witness_EPhaseCountsClockCycles : isNext (step State.reset) = true := by decide

theorem reset_inv : State.reset.Inv where
  bus := ⟨.inl rfl, fun _ _ => reset_linesIdle, by simp [State.reset], by simp [State.reset],
    by simp [State.reset], by simp [State.reset]⟩
  arb := by constructor <;> simp [State.reset, Pins.idle, Params.default]
  mem := by decide
  pit := by decide
  clk := rfl
  phase := by intro c h; cases h

theorem witness_EveryStepKeepsTheInvariant :
    State.reset.Inv ∧ (∃ t, step State.reset = .next t) ∧
    ∃ t, step (programmed [.code [0x2F, 0x00, 0x10, 0x00]]) = .next t :=
  ⟨reset_inv, exists_next (by decide), exists_next (by decide)⟩
theorem witness_EveryHalfClockKeepsTheBusInvariant (st : St) (h : st ∈ [St.S0, .S1, .S2, .S3, .S4]) :
    let s := showing (clocked (clkOf st) .none) (cycleIn .read st false) .negated
    s.BusInv ∧ s.ArbInv ∧ s.inPhase ∧ ∃ t, s.halfClock = .next t := by
  refine ⟨(showing_busInv ?_ ?_ rfl (.inl rfl)), ?_, ?_, exists_next ?_⟩
  · revert st; decide
  · revert st; decide
  rotate_left
  · rintro c ⟨⟩; revert st; decide
  rotate_left
  · constructor <;> simp [showing, clocked, State.reset, Pins.idle, Params.default]
  · revert st; decide
theorem witness_PitTakesItsResetColumn :
    let s := { clocked .high .none with inputs := { Inputs.quiet with pitReset := true } }
    s.clk = .high ∧ s.run = none ∧ ∃ t, s.halfClock = .next t ∧ t.inputs.pitReset = true :=
  ⟨rfl, rfl, _, rfl, rfl⟩
/-- Each clause: an implemented register, another code, and a null address. -/
theorem witness_PitReadsWhatWasWritten :
    PitReg.ofSel 0b00101 = some .pivr ∧ PitReg.pivr.claimable = true ∧
    (0b10000 : BitVec 5) ≠ 0b00101 ∧ PitReg.ofSel 0b11111 = none := by decide

/-! ## Witnesses: the data bus and BG -/

/-- A synchronous read of the PI/T's vector register in a state of the stretch, S5 or S6. -/
def peripheralReads (kind : Kind) (st : St) (p : Fin 10) (data : DataLines) : State :=
  let c := { newCycle kind 5 0x00E00B .lower 0 0 with st := st, answer := Answer.of (.vpa 0) }
  let s := showing { clocked (clkOf st) .vpa with ephase := p } c .asserted
  { s with pins := { s.pins with data := data } }

theorem peripheralReads_busInv (kind : Kind) (hk : kind = .read ∨ kind = .rmw) (st : St)
    (h : st ∈ [St.SwHigh, .SwLow, .S5, .S6]) (p : Fin 10) (data : DataLines) :
    (peripheralReads kind st p data).BusInv where
  held := .inl rfl
  idle hr := by cases hr
  ends d hd := by cases hd
  legal := by
    rintro d ⟨⟩
    simp only [List.mem_cons, List.not_mem_nil, or_false] at h
    rcases h with rfl | rfl | rfl | rfl <;> rcases hk with rfl | rfl <;> rfl
  start := by rintro d ⟨⟩ hd; subst hd; simp at h
  shows := by
    rintro d ⟨⟩ -
    simp only [List.mem_cons, List.not_mem_nil, or_false] at h
    refine ⟨rfl, rfl, rfl, rfl, rfl, rfl, rfl, fun hd => ?_, .inr ⟨rfl, ?_, .inl rfl⟩⟩
    · rcases h with rfl | rfl | rfl | rfl <;> rcases hk with rfl | rfl <;> cases hd
    · rcases h with rfl | rfl | rfl | rfl <;> rcases hk with rfl | rfl <;> rfl

/-- Each clause, for a read and for a read portion: E rises; E is high; wait pairs and S5; E falls. -/
theorem witness_PeripheralDrivesWhileEIsHigh (kind : Kind) (hk : kind = .read ∨ kind = .rmw) (st : St)
    (p : Fin 10) (data : DataLines)
    (h : (st, p) ∈ [(St.SwHigh, (5 : Fin 10)), (.SwHigh, 6), (.SwHigh, 8), (.SwLow, 7), (.S5, 9), (.S6, 9)]) :
    let s := peripheralReads kind st p data
    s.Calm ∧ s.BusInv ∧ s.term = .vpa ∧ s.pins.vma = .asserted ∧ s.inputs.dtack = false ∧
    s.inputs.berr = false ∧ s.clk = clkOf st ∧ s.ephase = p ∧ s.pins.data = data ∧
    s.byteAt 5 0x00E00B = some 0x0F := by
  refine ⟨⟨rfl, by simp [peripheralReads, showing, clocked, State.reset], rfl, rfl,
      by simp [peripheralReads, showing, clocked, State.reset]⟩,
    peripheralReads_busInv kind hk st ?_ p data, rfl, rfl, rfl, rfl, rfl, rfl, rfl, rfl⟩
  revert h; cases st <;> simp

/-- What the bus carries: $0F from the edge at which E rises (R237, R307). -/
theorem test_peripheral_drives : observed (·.pins.data)
    (peripheralReads .read .SwHigh 5 DataLines.z).halfClock = some { hi := none, lo := some 0x0F } := by
  decide

/-- A tenure whose BG is in each of its parts; the request stands or not. -/
def inTenure (bg : TenureBg) (br : Bool) : State :=
  { arbitrating .three .alternate .acknowledged (if bg.out then .asserted else .negated) br true with
    tenureBg := bg }

/-- Each clause: the start of a tenure, and every part of one. -/
theorem witness_BgInsideATenure (bg : TenureBg) (br : Bool)
    (h : bg ∈ [TenureBg.standing 0 [2], .standing 1 [], .off [], .off [0], .off [1], .again []]) :
    (let s := { arbitrating .three .processor .granted .asserted br true with
        tenures := [{ negateAfter := 1, grantsAfter := [0] }] }
     s.ArbInv ∧ isNext s.halfClock = true) ∧
    (inTenure bg br).ArbInv ∧ isNext (inTenure bg br).halfClock = true := by
  refine ⟨⟨?_, ?_⟩, ?_, ?_⟩
  · constructor <;> simp [arbitrating]
  · revert br; decide
  · constructor <;> cases bg <;> simp [inTenure, arbitrating, TenureBg.out]
  · simp only [List.mem_cons, List.not_mem_nil, or_false] at h
    revert br
    rcases h with rfl | rfl | rfl | rfl | rfl | rfl <;> decide

/-- A second requester that has BG when the bus comes back keeps it (R258). -/
theorem test_second_grant : observed (fun s => (s.owner, s.arb, s.pins.bg))
    ({ inTenure (.again []) true with inputs := { Inputs.quiet with br := true } } : State).halfClock =
    some (.processor, .granted, .asserted) := by decide

/-- `s` with a device that still drives the data bus. -/
def heldBus (s : State) : State :=
  { s with held := { hi := some 1, lo := some 2 }, pins := { s.pins with
    data := { hi := some 1, lo := some 2 } } }

/-- The machine of a cycle in a state, over a held bus. -/
def heldCycle (kind : Kind) (st : St) (second : Bool) (term : Term) (clk : Clk) (vma : Line)
    (p : Fin 10) : State :=
  heldBus (showing { clocked clk term with ephase := p } (cycleIn kind st second) vma)

theorem heldCycle_meets (kind : Kind) (st : St) (second : Bool) (term : Term) (clk : Clk) (vma : Line)
    (p : Fin 10) (h : (cycleIn kind st second).legal term = true) (hs : st ≠ .start)
    (hd : (cycleIn kind st second).drivingData = false) (hv : vma = .negated ∨
      (vma = .asserted ∧ (cycleIn kind st second).strobing = true ∧ (term = .vpa ∨ term = .berr))) :
    (heldCycle kind st second term clk vma p).Calm ∧
    (heldCycle kind st second term clk vma p).BusInv ∧
    (heldCycle kind st second term clk vma p).pins.data ≠ DataLines.z := by
  refine ⟨⟨rfl, by simp [heldCycle, heldBus, showing, clocked, State.reset], rfl, rfl,
    by simp [heldCycle, heldBus, showing, clocked, State.reset]⟩, ?_,
    by simp [heldCycle, heldBus, showing, DataLines.z]⟩
  constructor
  · refine .inr ⟨rfl, ?_⟩
    rintro c (h | h)
    · cases h; exact hd
    · cases h
  · intro hr; cases hr
  · intro d hd; cases hd
  · rintro d ⟨⟩; exact h
  · rintro d ⟨⟩ hd; exact absurd hd hs
  · rintro d ⟨⟩ -
    refine ⟨rfl, rfl, rfl, rfl, rfl, rfl, rfl, fun h => ?_, hv⟩
    rw [hd] at h
    cases h

/-- Each clause: a half clock over a held bus, and the four second drivers. -/
theorem witness_TwoDriversAreAViolation :
    (let s := heldCycle .read .S1 false .none .low .negated 0
     s.BusInv ∧ s.held ≠ DataLines.z ∧ ∃ t, s.halfClock = .next t) ∧
    (∀ s ∈ [heldCycle .read .S5 false .dtack .low .negated 0,
        heldCycle .read .SwHigh false .vpa .high .asserted 5,
        heldCycle .write .S2 false .none .high .negated 0,
        heldCycle .rmw .S14 true .none .high .negated 0],
      s.Calm ∧ s.BusInv ∧ s.pins.data ≠ DataLines.z ∧ s.inputs.dtack = false) := by
  refine ⟨⟨(heldCycle_meets .read .S1 false .none .low .negated 0 rfl (by decide) rfl (.inl rfl)).2.1,
    by decide, exists_next (by decide)⟩, ?_⟩
  have meets : ∀ s : State, s.Calm ∧ s.BusInv ∧ s.pins.data ≠ DataLines.z → s.inputs.dtack = false →
      s.Calm ∧ s.BusInv ∧ s.pins.data ≠ DataLines.z ∧ s.inputs.dtack = false :=
    fun _ h hd => ⟨h.1, h.2.1, h.2.2, hd⟩
  intro s hs
  simp only [List.mem_cons, List.not_mem_nil, or_false] at hs
  rcases hs with rfl | rfl | rfl | rfl
  · exact meets _ (heldCycle_meets _ _ _ _ _ _ _ rfl (by decide) rfl (.inl rfl)) rfl
  · exact meets _ (heldCycle_meets _ _ _ _ _ _ _ rfl (by decide) rfl (.inr ⟨rfl, rfl, .inl rfl⟩)) rfl
  · exact meets _ (heldCycle_meets _ _ _ _ _ _ _ rfl (by decide) rfl (.inl rfl)) rfl
  · exact meets _ (heldCycle_meets _ _ _ _ _ _ _ rfl (by decide) rfl (.inl rfl)) rfl

/-- A held bus stays driven when the bus is handed over (R21, R264), and the alternate master's write
meets it (R347). -/
theorem test_held_bus_at_hand_over : observed (fun s => (s.owner, s.pins.data.lo))
    (heldBus (arbitrating .three .processor .granted .asserted true true)).halfClock =
    some (.alternate, some 2) := by decide

/-- DTACK and VPA together at end(S6), after AVEC (R217, decision D12). -/
theorem test_violation_after_avec :
    (showing (clocked .high .avec) (sampling .iack .S6 false true false true) .negated).halfClock =
    .fault (.protocolViolation .dtackAndVpa) := by rfl

/-! ## Witnesses: free inputs -/

/-- What a device drives on the four lines. -/
def lines (d b v a : Bool) (data : Option Half) : Drive :=
  { dtack := d, berr := b, vpa := v, avec := a, data := data }

/-- Each clause: a violation at either edge, BERR early and late, DTACK alone, BERR alone. -/
theorem witness_ReadFollowsTheSampledLines (w : Nat) (x y : Drive) :
    let l := [Answer.of (.edges (List.replicate w Drive.quiet ++ [x, y]))]
    (scripted l).Ready ∧ (scripted8 l).Ready ∧ (scripted l).answers = l ∧
    (Instr.rdW 5 0x001000).wf .d16 = true ∧ (Instr.rdBU 5 0x001000).wf .d16 = true ∧
    (Instr.rdBL 5 0x001001).wf .d16 = true ∧ (Instr.rdB8 5 0x001001).wf .d8 = true :=
  ⟨scripted_ready _, scripted8_ready _, rfl, by decide, by decide, by decide, by decide⟩

/-- BERR with VPA at end(S4), both withdrawn and DTACK at end(S6): BERR without DTACK (R144, R147). -/
theorem test_withdrawn_lines : observed (fun s => (s.term, s.clkCount))
    (exec (.rdW 5 0x001000) (scripted [Answer.of (.edges [lines false true true false none,
      lines true false false false none])])) = some (.berr, 5) := by decide

/-- BR recognised as a read enters its last state. -/
def lateRequest (delays : List Nat) : State :=
  { showing (clocked .high .dtack) (cycleIn .read .S6 false) .negated with
    inputs := { Inputs.quiet with br := true }, grantDelays := delays }

/-- Each clause, at the last falling edge of the cycle. -/
theorem witness_RequestActsAtTheEndOfThisCycleOrOfTheNext (delays : List Nat)
    (h : delays ∈ [[0], [], [2]]) :
    let s := lateRequest delays
    s.owner = .processor ∧ s.arb = .noRequest ∧ s.ArbInv ∧ s.clk = .high ∧
    s.run = some (cycleIn .read .S6 false) ∧ s.inputs.br = true ∧ isNext s.halfClock = true ∧
    observed (·.run) s.halfClock = some none := by
  refine ⟨rfl, rfl, ?_, rfl, rfl, rfl, ?_, ?_⟩
  · constructor <;> simp [lateRequest, showing, clocked, State.reset, Pins.idle, Params.default]
  all_goals
    simp only [List.mem_cons, List.not_mem_nil, or_false] at h
    rcases h with rfl | rfl | rfl <;> decide

/-- R253: at fall(S7) the grant may still act at the end of this cycle, or not. -/
theorem test_late_request :
    observed (fun s => (s.arb, s.busAvailable)) (lateRequest [0]).halfClock = some (.granted, false) ∧
    observed (fun s => (s.arb, s.busAvailable)) (lateRequest []).halfClock = some (.requested, true) := by
  decide

/-- A cycle at the PI/T's vector register in a state, with RESET recognised. -/
def resetInside (kind : Kind) (st : St) (term : Term) : State :=
  { showing { clocked .high term with inputs := { Inputs.quiet with pitReset := true } }
      { newCycle kind 5 0x00E00B .lower 0xA4 0 with st := st } .negated with
    pit := { Pit.powerUp with pgcr := 0xFF } }

/-- Each clause: a read; a write before it stores; a write that stores. -/
theorem witness_PitTakesItsResetColumn_inside :
    let s1 := resetInside .read .S2 .none
    let s2 := resetInside .write .S4 .none
    let s3 := resetInside .write .S6 .dtack
    (∀ s ∈ [s1, s2, s3], s.clk = .high ∧ s.run ≠ none ∧ s.inputs.pitReset = true ∧
      isNext s.halfClock = true) ∧
    observed (fun t => (t.run, t.term.isBerr)) s3.halfClock = some (none, false) := by
  refine ⟨?_, by decide⟩
  intro s hs
  simp only [List.mem_cons, List.not_mem_nil, or_false] at hs
  rcases hs with rfl | rfl | rfl <;> decide

/-- RESET and a store of $A4 at one edge: the store stands, another register is reset (log 20). -/
theorem test_reset_and_store : observed (fun t => (t.pit.pivr, t.pit.pgcr))
    (resetInside .write .S6 .dtack).halfClock = some (0xA4, 0x00) := by decide

end Sys2Proof.Tests
end

section
/-! SUPPORT. The two halves of CLK taken apart, and what a half clock does to the interrupt inputs and to E
(10_state.md R50, R55). -/

namespace Sys2Proof.Machine

/-! ## The two halves of CLK -/

/-- A rising edge ends a last state and is then the bus controller's. -/
theorem halfClock_rising {s : State} (hc : s.clk = .low) :
    s.halfClock = ({ s with clk := .high } : State).releaseClosing.controllerEdge := by
  simp only [State.halfClock, hc]

/-- A falling edge is the other agents', then the bus controller's, then the peripheral's. -/
theorem halfClock_falling {s t : State} (hc : s.clk = .high) (h : s.halfClock = .next t) :
    ∃ u v, ({ s with clk := .low } : State).fallingEdge = .next u ∧ u.controllerEdge = .next v ∧
      v.peripheralEdge = .next t := by
  simp only [State.halfClock, hc] at h
  obtain ⟨u, hu, hv⟩ := andThen_eq_next.1 h
  obtain ⟨v, hv, ht⟩ := andThen_eq_next.1 hv
  exact ⟨u, v, hu, hv, ht⟩

/-! ## The interrupt inputs -/

@[simp] theorem beforeArbiter_ipl (s : State) :
    (beforeArbiter s).iplSeen = levelOfPins (beforeArbiter s).inputs.ipl := rfl

@[simp] theorem beforeArbiter_iplHistory (s : State) : (beforeArbiter s).iplHistory =
    s.iplHistory ||| ((1 : BitVec 8) <<< (beforeArbiter s).iplSeen.toNat) := by
  unfold beforeArbiter State.pitResetEdge
  split <;> rfl

/-- At a falling edge `ipl_seen` is the level on the pins, and that level counts as seen. -/
theorem fallingEdge_ipl {s t : State} (h : s.fallingEdge = .next t) :
    t.iplSeen = levelOfPins t.inputs.ipl ∧
    t.iplHistory = s.iplHistory ||| ((1 : BitVec 8) <<< t.iplSeen.toNat) := by
  obtain ⟨-, -, -, hin, -, -, -, -, -, -, hseen, hhist, -⟩ := aside_arbiter (s := beforeArbiter s) h
  rw [hin, hseen, hhist]
  exact ⟨beforeArbiter_ipl s, beforeArbiter_iplHistory s⟩

/-- Marking a level as seen sets its bit and no other. -/
theorem getLsbD_mark (history : BitVec 8) (level : Level) (n : Nat) :
    (history ||| ((1 : BitVec 8) <<< level.toNat)).getLsbD n =
      (history.getLsbD n || (decide (n < 8) && decide (n = level.toNat))) := by
  have hbit : (1 : BitVec 8) <<< level.toNat = BitVec.twoPow 8 level.toNat := rfl
  rw [hbit, BitVec.getLsbD_or, BitVec.getLsbD_twoPow]
  congr 1
  by_cases h : n = level.toNat
  · simp [h]
  · simp [h, Ne.symm h]

/-- Settles O47: the falling edge writes both from the pins, and nothing after it does. -/
theorem iplSeenFollowsThePins : Obligations.IplSeenFollowsThePins := by
  unfold Obligations.IplSeenFollowsThePins
  refine fun s t h => ⟨fun hc => ?_, fun hc => ?_⟩
  · obtain ⟨u, v, hu, hv, ht⟩ := halfClock_falling hc h
    have k := (kept_controllerEdge hv).trans (kept_peripheralEdge ht)
    obtain ⟨hseen, hhist⟩ := fallingEdge_ipl hu
    rw [k.iplSeen, k.iplHistory, k.ipl, hhist]
    exact ⟨hseen, getLsbD_mark s.iplHistory u.iplSeen⟩
  · rw [halfClock_rising hc] at h
    have k := (kept_releaseClosing _).trans (kept_controllerEdge h)
    exact ⟨k.iplSeen, k.iplHistory⟩

/-! ## E -/

/-- E has counted the CLK cycles from `s` to `t` (R50). -/
def ECounts (s t : State) : Prop :=
  s.clkCount ≤ t.clkCount ∧ t.ephase.val = (s.ephase.val + (t.clkCount - s.clkCount)) % 10

theorem ECounts.refl (s : State) : ECounts s s :=
  ⟨Nat.le_refl _, by have := s.ephase.isLt; omega⟩

theorem ECounts.of_same {s t u : State} (h : ECounts s t) (hc : u.clkCount = t.clkCount)
    (he : u.ephase = t.ephase) : ECounts s u := by
  rw [ECounts, hc, he]; exact h

theorem ECounts.kept {s t u : State} (h : ECounts s t) (k : Kept t u) : ECounts s u :=
  h.of_same k.clkCount k.ephase

/-- A falling edge is one CLK cycle more. -/
theorem ECounts.fallingEdge {s t u : State} (h : ECounts s t) (hu : t.fallingEdge = .next u) :
    ECounts s u := by
  have a := aside_fallingEdge hu
  obtain ⟨hle, he⟩ := h
  rw [ECounts, a.clkCount, a.ephase, Fin.val_add, Fin.val_one, he]
  omega

theorem ECounts.halfClock {s t u : State} (h : ECounts s t) (hu : t.halfClock = .next u) :
    ECounts s u :=
  halfClock_induct (P := ECounts s) (fun _ _ h => h.of_same rfl rfl)
    (fun t h => h.kept (kept_releaseClosing t)) (fun _ _ h => h.fallingEdge)
    (fun _ _ h ht => h.kept (kept_controllerEdge ht))
    (fun _ _ h ht => h.kept (kept_peripheralEdge ht)) h hu

@[simp] theorem withQueue_clkCount (s : State) (q : List Item) :
    (s.withQueue q).clkCount = s.clkCount := by
  unfold State.withQueue
  split <;> rfl

@[simp] theorem withQueue_ephase (s : State) (q : List Item) : (s.withQueue q).ephase = s.ephase := by
  unfold State.withQueue
  split <;> rfl

/-- Settles O48: every half clock keeps the count, and the launch of a cycle and the taking of an item
touch neither E nor the clock. -/
theorem ePhaseCountsClockCycles : Obligations.EPhaseCountsClockCycles := by
  unfold Obligations.EPhaseCountsClockCycles
  exact fun s t h => step_induct (P := ECounts s) (fun _ _ h => h.halfClock)
    (fun _ _ h _ _ => h.of_same rfl rfl)
    (fun u q h => h.of_same (withQueue_clkCount u q) (withQueue_ephase u q)) (ECounts.refl s) h

end Sys2Proof.Machine
end

section
/-! SUPPORT. The state after reset (10_state.md R60 to R62). -/

namespace Sys2Proof.Machine

theorem reset_linesIdle : State.reset.LinesIdle := by
  constructor <;> simp [State.reset, Pins.idle]

/-- No cycle is in progress and none is in its last state, so the idle lines are all there is. -/
theorem reset_busInv : State.reset.BusInv where
  held := .inl rfl
  idle _ _ := reset_linesIdle
  ends _ h := by cases h
  legal _ h := by cases h
  start _ h := by cases h
  shows _ h := by cases h

theorem reset_arbInv : State.reset.ArbInv := by
  constructor <;> simp [State.reset, Pins.idle, Params.default]

/-- Settles O51, part by part. -/
theorem resetMeetsTheInvariant : Obligations.ResetMeetsTheInvariant where
  bus := reset_busInv
  arb := reset_arbInv
  mem := rfl
  pit := by decide
  clk := rfl
  phase _ h := by cases h

/-- Settles O52: the values of `State.reset`. -/
theorem resetIsTheIdleBus : Obligations.ResetIsTheIdleBus := by
  unfold Obligations.ResetIsTheIdleBus
  and_intros <;> rfl

end Sys2Proof.Machine
end

section
/-! SUPPORT. Who asserts VMA (10_state.md R53, 44_sync_cycle.md R236): the wait pairs of the stretch, and
nothing else of a half clock. -/

namespace Sys2Proof.Machine

/-- VMA is asserted after only where it was before. -/
def AddsNoVma (s t : State) : Prop := t.pins.vma = .asserted → s.pins.vma = .asserted

theorem AddsNoVma.of_eq {s t : State} (h : t.pins.vma = s.pins.vma) : AddsNoVma s t := fun ht => h ▸ ht

theorem AddsNoVma.trans {s t u : State} (h : AddsNoVma s t) (k : AddsNoVma t u) : AddsNoVma s u :=
  fun hu => h (k hu)

/-! ## Pieces of a bus controller edge -/

/-- A store writes memory or the PI/T and nothing else. -/
theorem storeByte_eq (s : State) (fc : Fc) (a : Addr) (v : Byte) :
    s.storeByte fc a v = { s with mem := (s.storeByte fc a v).mem, pit := (s.storeByte fc a v).pit } := by
  unfold State.storeByte
  split <;> rfl

theorem storeLanes_eq (s : State) (c : Cycle) (v : Half) :
    s.storeLanes c v = { s with mem := (s.storeLanes c v).mem, pit := (s.storeLanes c v).pit } := by
  unfold State.storeLanes
  cases c.strobes.upperLane <;> cases c.strobes.lowerLane
  · rfl
  · exact storeByte_eq ..
  · exact storeByte_eq ..
  · exact (storeByte_eq ..).trans (by rw [storeByte_eq s]; rfl)

theorem deviceTakes_eq (s : State) (c : Cycle) (v : Half) :
    s.deviceTakes c v = { s with
      mem := (s.deviceTakes c v).mem, pit := (s.deviceTakes c v).pit
      draws := (s.deviceTakes c v).draws } := by
  unfold State.deviceTakes
  split
  · split
    · rw [storeLanes_eq]; rfl
    · rfl
  · rw [storeLanes_eq]

@[simp] theorem deviceTakes_pins (s : State) (c : Cycle) (v : Half) :
    (s.deviceTakes c v).pins = s.pins := by rw [deviceTakes_eq]

@[simp] theorem deviceTakes_term (s : State) (c : Cycle) (v : Half) :
    (s.deviceTakes c v).term = s.term := by rw [deviceTakes_eq]

@[simp] theorem deviceNegates_pins (s : State) (a : Answer) : (s.deviceNegates a).pins = s.pins := by
  unfold State.deviceNegates
  split <;> rfl

@[simp] theorem deviceNegates_term (s : State) (a : Answer) : (s.deviceNegates a).term = s.term := by
  unfold State.deviceNegates
  split <;> rfl

@[simp] theorem deviceReleasesData_vma (s : State) (a : Answer) :
    (s.deviceReleasesData a).pins.vma = s.pins.vma := by
  unfold State.deviceReleasesData
  split <;> rfl

@[simp] theorem deviceReleasesData_term (s : State) (a : Answer) :
    (s.deviceReleasesData a).term = s.term := by
  unfold State.deviceReleasesData
  split <;> rfl

@[simp] theorem negateAll_vma (s : State) (a : Answer) : (s.negateAll a).pins.vma = .negated := by
  simp [State.negateAll]

@[simp] theorem negateAll_term (s : State) (a : Answer) : (s.negateAll a).term = s.term := by
  simp [State.negateAll]

@[simp] theorem latchFor_pins (s : State) (c : Cycle) : (s.latchFor c).pins = s.pins := by
  unfold State.latchFor
  split <;> simp

theorem driveData_vma {s t : State} {d : DataLines} (h : s.driveData d = .next t) :
    t.pins.vma = s.pins.vma := by
  unfold State.driveData at h
  split at h
  · cases h; rfl
  · split at h
    · cases h; rfl
    · cases h

theorem deviceDrives_vma {s t : State} {c : Cycle} (h : s.deviceDrives c = .next t) :
    t.pins.vma = s.pins.vma := driveData_vma (s := s.drawn 2) h

theorem dataPhase_vma {s t : State} {c : Cycle} (h : s.dataPhase c = .next t) :
    t.pins.vma = s.pins.vma := by
  unfold State.dataPhase at h
  split at h
  · cases h; rfl
  · exact deviceDrives_vma h

theorem formatR_addsNoVma {c : Cycle} {st : St} {s t : State} (h : formatR c st s = .next t) :
    AddsNoVma s t := by
  unfold formatR at h
  split at h
  case h_4 => exact .of_eq (dataPhase_vma h)
  all_goals cases h
  case h_5 => split <;> simp [AddsNoVma]
  all_goals simp [AddsNoVma]

theorem formatW_addsNoVma {c : Cycle} {st : St} {s t : State} (h : formatW c st s = .next t) :
    AddsNoVma s t := by
  unfold formatW at h
  split at h
  case h_4 => exact .of_eq (driveData_vma (s := s.drawn 1) h)
  all_goals cases h
  case h_6 => split <;> simp [AddsNoVma]
  all_goals simp [AddsNoVma]

theorem formatM_addsNoVma {c : Cycle} {st : St} {s t : State} (h : formatM c st s = .next t) :
    AddsNoVma s t := by
  unfold formatM at h
  split at h
  case h_4 => exact .of_eq (dataPhase_vma h)
  case h_8 => exact .of_eq (driveData_vma (s := s.drawn 1) h)
  all_goals cases h
  case h_10 => split <;> simp [AddsNoVma]
  all_goals simp [AddsNoVma]

theorem enterState_addsNoVma {c : Cycle} {st : St} {s t : State} (h : enterState c st s = .next t) :
    AddsNoVma s t := by
  unfold enterState at h
  split at h
  · exact formatR_addsNoVma h
  · exact formatR_addsNoVma h
  · exact formatW_addsNoVma h
  · exact formatM_addsNoVma h

/-- The end of a cycle adds its result and writes nothing else. -/
theorem finishResult_reports {s t : State} {c : Cycle} (h : s.finishResult c = .next t) :
    ∃ r, t = s.report r := by
  unfold State.finishResult State.raiseBusError at h
  split at h
  · split at h <;> (cases h; exact ⟨_, rfl⟩)
  · split at h <;> (cases h; exact ⟨_, rfl⟩)
  · split at h <;> (cases h; exact ⟨_, rfl⟩)
  · split at h
    · split at h
      · cases h; exact ⟨_, rfl⟩
      · cases h
    · split at h <;> (cases h; exact ⟨_, rfl⟩)

theorem finish_reports {s t : State} {c : Cycle} (h : s.finish c = .next t) :
    ∃ r, t = ({ s with run := none, closing := some c } : State).report r := finishResult_reports h

@[simp] theorem Cycle.entered_kind (c : Cycle) (st : St) (din : Half) : (c.entered st din).kind = c.kind := by
  unfold Cycle.entered
  split <;> rfl

/-- Beyond the writes of the state it enters, a cycle going to a state writes itself, and in its last state
its result. -/
theorem goTo_enters {s t : State} {c : Cycle} {st : St} (h : s.goTo c st = .next t) :
    ∃ u, enterState c st s = .next u ∧
      ((nextSt c.kind u.term st ≠ none ∧ t = { u with run := some (c.entered st u.din) }) ∨
       (nextSt c.kind u.term st = none ∧
        ∃ r, t = ({ u with run := none, closing := some (c.entered st u.din) } : State).report r)) := by
  obtain ⟨u, hu, ht⟩ := andThen_eq_next.1 h
  refine ⟨u, hu, ?_⟩
  simp only [Cycle.entered_kind] at ht
  split at ht
  · next hn => exact .inr ⟨hn, finish_reports ht⟩
  · next hn => cases ht; exact .inl ⟨by simp [hn], rfl⟩

theorem goTo_addsNoVma {s t : State} {c : Cycle} {st : St} (h : s.goTo c st = .next t) :
    AddsNoVma s t := by
  obtain ⟨u, hu, ⟨-, rfl⟩ | ⟨-, r, rfl⟩⟩ := goTo_enters h <;>
    exact .trans (enterState_addsNoVma hu) (.of_eq rfl)

theorem finish_addsNoVma {s t : State} {c : Cycle} (h : s.finish c = .next t) : AddsNoVma s t := by
  obtain ⟨r, rfl⟩ := finish_reports h
  exact .of_eq rfl

/-- The state in which end(S6) goes on with the termination it has found. -/
def atEndS6 (s : State) (c : Cycle) (term : Term) : State :=
  { (s.sampleLines c true).latchFor c with term := term }

@[simp] theorem atEndS6_pins (s : State) (c : Cycle) (term : Term) : (atEndS6 s c term).pins = s.pins :=
  latchFor_pins (s.sampleLines c true) c

/-- What follows S6: S7, or the recorded BusError of a read portion that BERR has ended (R198). -/
theorem endS6_cases {s t : State} {c : Cycle} (h : s.endS6 c = .next t) : ∃ term,
    (c.kind = .rmw ∧ t =
      ({ atEndS6 s c term with run := some { c with st := .faulted } } : State).raiseBusError .rmwRead c) ∨
    (atEndS6 s c term).goTo c .S7 = .next t := by
  unfold State.endS6 at h
  simp only at h
  split at h
  · cases h
  · next term _ =>
    refine ⟨term, ?_⟩
    split at h
    · next hb =>
      simp only [Bool.and_eq_true, decide_eq_true_eq] at hb
      cases h; exact .inl ⟨hb.1, rfl⟩
    · exact .inr h

theorem endS6_addsNoVma {s t : State} {c : Cycle} (h : s.endS6 c = .next t) : AddsNoVma s t := by
  obtain ⟨term, ⟨-, rfl⟩ | hgo⟩ := endS6_cases h
  · exact .of_eq (congrArg Pins.vma (atEndS6_pins s c term))
  · exact .trans (.of_eq (congrArg Pins.vma (atEndS6_pins s c term))) (goTo_addsNoVma hgo)

/-! ## The stretch -/

/-- VMA is asserted in the low half of a wait pair after VPA, with E low and the margin to spare
(R235, R236). -/
structure StretchAsserts (t : State) : Prop where
  term   : t.term = .vpa
  window : vmaWindow t.ephase = true
  run    : ∃ c, t.run = some c ∧ c.st = .SwLow

theorem follow_vma {s t : State} {c : Cycle} {d : Decision} (h : s.follow c d = .next t) :
    AddsNoVma s t ∨ StretchAsserts t := by
  unfold State.follow at h
  split at h
  · cases h
  · exact .inl (goTo_addsNoVma h :)
  · cases h
    unfold State.stretchVma
    split
    · next hw => exact .inr ⟨rfl, hw, _, rfl, rfl⟩
    · exact .inl (.of_eq rfl)
  · cases h; exact .inl (.of_eq rfl)

theorem sampleAndDecide_vma {s t : State} {c : Cycle} (h : s.sampleAndDecide c = .next t) :
    AddsNoVma s t ∨ StretchAsserts t := by
  refine Or.imp_left (AddsNoVma.trans (s := s) (t := s.sampleLines c false) (.of_eq rfl)) ?_
  unfold State.sampleAndDecide at h
  simp only at h
  split at h <;> exact follow_vma h

/-- Only the edge that ends S4, S16 or a wait pair may assert VMA. -/
theorem controllerEdge_vma {s t : State} (h : s.controllerEdge = .next t) :
    AddsNoVma s t ∨
      (StretchAsserts t ∧ ∃ c, s.run = some c ∧ c.st.samples) := by
  unfold State.controllerEdge at h
  split at h
  · cases h; exact .inl (.of_eq rfl)
  · next c hr =>
    have sampling (hs : c.st.samples) (h : s.sampleAndDecide c = .next t) :
        AddsNoVma s t ∨ (StretchAsserts t ∧ ∃ c, s.run = some c ∧ c.st.samples) :=
      (sampleAndDecide_vma h).imp_right fun ha => ⟨ha, c, hr, hs⟩
    split at h
    · next hs => exact sampling (by rw [hs]; trivial) h
    · next hs => exact sampling (by rw [hs]; trivial) h
    · next hs => exact sampling (by rw [hs]; trivial) h
    · cases h; exact .inl (.of_eq rfl)
    · exact .inl (endS6_addsNoVma h)
    · cases h
    · split at h
      · exact .inl (goTo_addsNoVma h)
      · exact .inl (finish_addsNoVma h)

/-! ## Half clocks -/

/-- The peripheral drives or releases the data bus, and touches neither VMA nor the cycle. -/
theorem peripheralEdge_cycle {s t : State} (h : s.peripheralEdge = .next t) :
    t.pins.vma = s.pins.vma ∧ t.run = s.run ∧ t.term = s.term := by
  have drives {c : Cycle} (h : s.deviceDrives c = .next t) :
      t.pins.vma = s.pins.vma ∧ t.run = s.run ∧ t.term = s.term := by
    refine ⟨deviceDrives_vma h, ?_⟩
    unfold State.deviceDrives State.driveData at h
    split at h
    · cases h; exact ⟨rfl, rfl⟩
    · split at h <;> cases h
      exact ⟨rfl, rfl⟩
  have releases (a : Answer) : (s.deviceReleasesData a).pins.vma = s.pins.vma ∧
      (s.deviceReleasesData a).run = s.run ∧ (s.deviceReleasesData a).term = s.term := by
    unfold State.deviceReleasesData
    split <;> exact ⟨rfl, rfl, rfl⟩
  unfold State.peripheralEdge at h
  split at h
  · cases h; exact ⟨rfl, rfl, rfl⟩
  · split at h
    · split at h
      · exact drives h
      · split at h <;> cases h
        · exact releases _
        · exact ⟨rfl, rfl, rfl⟩
    · cases h; exact ⟨rfl, rfl, rfl⟩

theorem St.samples_clkHigh {st : St} (h : st.samples) : st.clkHigh = true := by
  cases st <;> first | rfl | exact h.elim

/-- A rising edge asserts no VMA: the states that a sampling edge ends have CLK high. -/
theorem halfClock_rising_addsNoVma {s t : State} (hp : s.inPhase) (hc : s.clk = .low)
    (h : s.halfClock = .next t) : AddsNoVma s t := by
  rw [halfClock_rising hc] at h
  have hrun : ({ s with clk := .high } : State).releaseClosing.run = s.run := by
    rw [releaseClosing_eq]
  rcases controllerEdge_vma h with hv | ⟨-, c, hr, hs⟩
  · exact .trans (.of_eq (releaseClosing_vma { s with clk := .high })) hv
  · have := (hp c (hrun ▸ hr)).1 (St.samples_clkHigh hs)
    rw [hc] at this; cases this

/-- A falling edge that asserts VMA is one of the stretch. -/
theorem halfClock_falling_vma {s t : State} (hc : s.clk = .high) (h : s.halfClock = .next t) :
    AddsNoVma s t ∨ StretchAsserts t := by
  obtain ⟨u, v, hu, hv, ht⟩ := halfClock_falling hc h
  obtain ⟨hvma, hrun, hterm⟩ := peripheralEdge_cycle ht
  rcases controllerEdge_vma hv with ha | ⟨⟨hpa, hw, hsw⟩, -⟩
  · exact .inl (.trans (.of_eq (aside_fallingEdge hu).vma) (.trans ha (.of_eq hvma)))
  · exact .inr ⟨hterm.trans hpa, (kept_peripheralEdge ht).ephase ▸ hw, hrun ▸ hsw⟩

/-- The window for VMA is phases 0 to 4, in all of which E is low (R50, R236). -/
theorem vmaWindow_iff : ∀ p : Fin 10, vmaWindow p = true ↔ p.val ≤ 4 := by decide

theorem eHigh_of_vmaWindow : ∀ {p : Fin 10}, vmaWindow p = true → eHigh p = false := by decide

/-- Settles O17: VMA can only come from the stretch, at a falling edge. -/
theorem vmaIsAssertedOnlyWhileELeavesTime : Obligations.VmaIsAssertedOnlyWhileELeavesTime := by
  unfold Obligations.VmaIsAssertedOnlyWhileELeavesTime
  intro s t _ hphase h hneg hasserted
  have hnew : ¬AddsNoVma s t := fun ha => by
    have := ha hasserted
    rw [hneg] at this; cases this
  have hc : s.clk = .high := by
    cases hc : s.clk with
    | high => rfl
    | low => exact absurd (halfClock_rising_addsNoVma hphase hc h) hnew
  obtain ⟨hterm, hwindow, hrun⟩ := (halfClock_falling_vma hc h).resolve_left hnew
  exact ⟨hc, hterm, eHigh_of_vmaWindow hwindow, (vmaWindow_iff _).1 hwindow, hrun⟩

end Sys2Proof.Machine
end

section
/-! SUPPORT. What a half clock does to the devices: where a write is stored (41_write_cycle.md R170), what
RESET does to the PI/T (10_state.md R61), and that nothing else touches them. -/

namespace Sys2Proof.Machine

/-! ## What stores nothing -/

/-- Memory, the PI/T and the wiring are what they were. -/
def SameDevices (s t : State) : Prop := t.params = s.params ∧ t.mem = s.mem ∧ t.pit = s.pit

theorem SameDevices.refl (s : State) : SameDevices s s := ⟨rfl, rfl, rfl⟩

theorem SameDevices.params {s t : State} (h : SameDevices s t) : t.params = s.params := h.1
theorem SameDevices.mem {s t : State} (h : SameDevices s t) : t.mem = s.mem := h.2.1
theorem SameDevices.pit {s t : State} (h : SameDevices s t) : t.pit = s.pit := h.2.2

theorem SameDevices.trans {s t u : State} (h : SameDevices s t) (k : SameDevices t u) : SameDevices s u :=
  ⟨k.params.trans h.params, k.mem.trans h.mem, k.pit.trans h.pit⟩

theorem sameDevices_deviceNegates (s : State) (a : Answer) : SameDevices s (s.deviceNegates a) := by
  unfold State.deviceNegates
  split <;> exact ⟨rfl, rfl, rfl⟩

theorem sameDevices_deviceReleasesData (s : State) (a : Answer) :
    SameDevices s (s.deviceReleasesData a) := by
  unfold State.deviceReleasesData
  split <;> exact ⟨rfl, rfl, rfl⟩

theorem sameDevices_negateAll (s : State) (a : Answer) : SameDevices s (s.negateAll a) :=
  sameDevices_deviceNegates s.negateStrobes.negateAS a

theorem sameDevices_latchFor (s : State) (c : Cycle) : SameDevices s (s.latchFor c) := by
  unfold State.latchFor
  split <;> exact ⟨rfl, rfl, rfl⟩

theorem sameDevices_stretchVma (s : State) : SameDevices s s.stretchVma := by
  unfold State.stretchVma
  split <;> exact ⟨rfl, rfl, rfl⟩

theorem sameDevices_driveData {s t : State} {d : DataLines} (h : s.driveData d = .next t) :
    SameDevices s t := by
  unfold State.driveData at h
  split at h
  · cases h; exact .refl s
  · split at h
    · cases h; exact ⟨rfl, rfl, rfl⟩
    · cases h

theorem sameDevices_deviceDrives {s t : State} {c : Cycle} (h : s.deviceDrives c = .next t) :
    SameDevices s t :=
  sameDevices_driveData (s := s.drawn 2) h

theorem sameDevices_dataPhase {s t : State} {c : Cycle} (h : s.dataPhase c = .next t) :
    SameDevices s t := by
  unfold State.dataPhase at h
  split at h
  · cases h; exact .refl s
  · exact sameDevices_deviceDrives h

theorem sameDevices_formatR {c : Cycle} {st : St} {s t : State} (h : formatR c st s = .next t) :
    SameDevices s t := by
  have last : SameDevices s ((s.negateAll c.answer).deviceReleasesData c.answer) :=
    (sameDevices_negateAll s _).trans (sameDevices_deviceReleasesData _ _)
  unfold formatR at h
  split at h
  case h_4 => exact sameDevices_dataPhase h
  all_goals cases h
  case h_5 =>
    split
    · exact .refl s
    · exact last
  case h_6 => exact last
  all_goals exact ⟨rfl, rfl, rfl⟩

theorem sameDevices_peripheralEdge {s t : State} (h : s.peripheralEdge = .next t) : SameDevices s t := by
  unfold State.peripheralEdge at h
  split at h
  · cases h; exact .refl s
  · split at h
    · split at h
      · exact sameDevices_deviceDrives h
      · split at h
        · cases h; exact sameDevices_deviceReleasesData s _
        · cases h; exact .refl s
    · cases h; exact .refl s

/-! ## What a write stores -/

theorem storeByte_params (s : State) (fc : Fc) (a : Addr) (v : Byte) :
    (s.storeByte fc a v).params = s.params := (kept_storeByte s fc a v).params

/-- A store depends on the devices and changes nothing else of the state. -/
theorem SameDevices.storeByte {s t : State} (h : SameDevices s t) (fc : Fc) (a : Addr) (v : Byte) :
    SameDevices (s.storeByte fc a v) (t.storeByte fc a v) := by
  obtain ⟨hp, hm, hpit⟩ := h
  simp only [State.storeByte, hp]
  split
  · exact ⟨rfl, hm, congrArg (Pit.write · _ v) hpit⟩
  · exact ⟨rfl, congrArg (Memory.write · _ v) hm, hpit⟩

theorem SameDevices.storeLanes {s t : State} (h : SameDevices s t) (c : Cycle) (v : Half) :
    SameDevices (s.storeLanes c v) (t.storeLanes c v) := by
  unfold State.storeLanes
  cases c.strobes.upperLane <;> cases c.strobes.lowerLane
  · exact h
  · exact h.storeByte ..
  · exact h.storeByte ..
  · exact (h.storeByte ..).storeByte ..

/-- A write that ends well is stored (R170). -/
theorem deviceTakes_stores {s : State} (c : Cycle) (v : Half) (h : s.term.isBerr = false) :
    s.deviceTakes c v = s.storeLanes c v := by
  simp [State.deviceTakes, h]

/-- A device takes the whole transfer or nothing of it (R171). -/
theorem deviceTakes_cases (s : State) (c : Cycle) (v : Half) :
    SameDevices s (s.deviceTakes c v) ∨ SameDevices (s.storeLanes c v) (s.deviceTakes c v) := by
  unfold State.deviceTakes
  split
  · split
    · exact .inr ⟨rfl, rfl, rfl⟩
    · exact .inl ⟨rfl, rfl, rfl⟩
  · exact .inr (.refl _)

/-- The states on entering which a device may take write data: the last ones (R168, R197). -/
def storesOnEntering (kind : Kind) (st : St) : Bool :=
  match kind with
  | .read  => false
  | .iack  => false
  | .write => st = .S7 || st = .S9
  | .rmw   => st = .S19 || st = .S21

/-- The devices after a move of the cycle `c`: as before, or with the write data stored on the lanes of
`c`, the latter only where `stores`. -/
def DevicesAfter (s : State) (c : Cycle) (stores : Prop) (t : State) : Prop :=
  SameDevices s t ∨ (stores ∧ ∃ v, SameDevices (s.storeLanes c v) t)

theorem DevicesAfter.trans {s t u : State} {c : Cycle} {stores : Prop} (h : DevicesAfter s c stores t)
    (k : SameDevices t u) : DevicesAfter s c stores u :=
  h.imp (·.trans k) fun ⟨hs, v, hv⟩ => ⟨hs, v, hv.trans k⟩

theorem DevicesAfter.of_same {s s' t : State} {c : Cycle} {stores : Prop} (k : SameDevices s s')
    (h : DevicesAfter s' c stores t) : DevicesAfter s c stores t :=
  h.imp k.trans fun ⟨hs, v, hv⟩ => ⟨hs, v, (k.storeLanes c v).trans hv⟩

theorem DevicesAfter.mono {s t : State} {c : Cycle} {p q : Prop} (h : DevicesAfter s c p t) (hpq : p → q) :
    DevicesAfter s c q t :=
  h.imp_right fun ⟨hp, hv⟩ => ⟨hpq hp, hv⟩

theorem devicesAfter_takes (s : State) (c : Cycle) (v : Half) {stores : Prop} (hs : stores) :
    DevicesAfter s c stores ((s.deviceTakes c v).negateAll c.answer) :=
  have : DevicesAfter s c stores (s.deviceTakes c v) :=
    (deviceTakes_cases s c v).imp_right fun h => ⟨hs, v, h⟩
  this.trans (sameDevices_negateAll _ _)

theorem devicesAfter_formatW {c : Cycle} {st : St} {s t : State} (hk : c.kind = .write)
    (h : formatW c st s = .next t) : DevicesAfter s c (storesOnEntering c.kind st = true) t := by
  rw [hk]
  unfold formatW at h
  split at h
  case h_4 => exact .inl (sameDevices_driveData (s := s.drawn 1) h)
  all_goals cases h
  case h_6 =>
    split
    · exact .inl (.refl s)
    · exact devicesAfter_takes s c _ rfl
  case h_7 => exact devicesAfter_takes s c _ rfl
  all_goals exact .inl ⟨rfl, rfl, rfl⟩

theorem devicesAfter_formatM {c : Cycle} {st : St} {s t : State} (hk : c.kind = .rmw)
    (h : formatM c st s = .next t) : DevicesAfter s c (storesOnEntering c.kind st = true) t := by
  rw [hk]
  unfold formatM at h
  split at h
  case h_4 => exact .inl (sameDevices_dataPhase h)
  case h_8 => exact .inl (sameDevices_driveData (s := s.drawn 1) h)
  all_goals cases h
  case h_5 =>
    exact .inl ((sameDevices_deviceNegates s.negateStrobes _).trans
      (sameDevices_deviceReleasesData _ _))
  case h_10 =>
    split
    · exact .inl (.refl s)
    · exact devicesAfter_takes s c _ rfl
  case h_11 => exact devicesAfter_takes s c _ rfl
  all_goals exact .inl ⟨rfl, rfl, rfl⟩

theorem devicesAfter_enterState {c : Cycle} {st : St} {s t : State} (h : enterState c st s = .next t) :
    DevicesAfter s c (storesOnEntering c.kind st = true) t := by
  unfold enterState at h
  split at h
  · exact .inl (sameDevices_formatR h)
  · exact .inl (sameDevices_formatR h)
  · next hk => exact devicesAfter_formatW hk h
  · next hk => exact devicesAfter_formatM hk h

theorem devicesAfter_goTo {c : Cycle} {st : St} {s t : State} (h : s.goTo c st = .next t) :
    DevicesAfter s c (storesOnEntering c.kind st = true) t := by
  obtain ⟨u, hu, ⟨-, rfl⟩ | ⟨-, r, rfl⟩⟩ := goTo_enters h <;>
    exact (devicesAfter_enterState hu).trans ⟨rfl, rfl, rfl⟩

theorem storesOnEntering_recognisedSt (c : Cycle) (kind : Kind) :
    storesOnEntering kind (recognisedSt c) = false := by
  unfold recognisedSt
  split <;> cases kind <;> rfl

theorem sameDevices_follow {s t : State} {c : Cycle} {d : Decision} (h : s.follow c d = .next t) :
    SameDevices s t := by
  unfold State.follow at h
  split at h
  · cases h
  · rcases (devicesAfter_goTo h :) with hs | ⟨hst, -⟩
    · exact hs
    · rw [storesOnEntering_recognisedSt] at hst; cases hst
  · cases h; exact (sameDevices_stretchVma s).trans ⟨rfl, rfl, rfl⟩
  · cases h; exact ⟨rfl, rfl, rfl⟩

theorem sameDevices_sampleAndDecide {s t : State} {c : Cycle} (h : s.sampleAndDecide c = .next t) :
    SameDevices s t := by
  refine SameDevices.trans (t := s.sampleLines c false) ⟨rfl, rfl, rfl⟩ ?_
  unfold State.sampleAndDecide at h
  simp only at h
  split at h <;> exact sameDevices_follow h

theorem sameDevices_atEndS6 (s : State) (c : Cycle) (term : Term) : SameDevices s (atEndS6 s c term) :=
  sameDevices_latchFor (s.sampleLines c true) c

theorem devicesAfter_endS6 {c : Cycle} {s t : State} (h : s.endS6 c = .next t) :
    DevicesAfter s c (storesOnEntering c.kind .S7 = true) t := by
  obtain ⟨term, ⟨-, rfl⟩ | hgo⟩ := endS6_cases h
  · exact .inl (sameDevices_atEndS6 s c term)
  · exact .of_same (sameDevices_atEndS6 s c term) (devicesAfter_goTo hgo)

/-- A cycle in this state may store at the coming edge. -/
def Cycle.mayStore (c : Cycle) : Prop :=
  c.kind ≠ .read ∧ c.kind ≠ .iack ∧ c.st ∈ [St.S6, .S8, .S18, .S20]

/-- The state before each of those in which a device may take the data. -/
theorem before_storing {kind : Kind} {term : Term} {st st' : St} (hn : nextSt kind term st = some st') :
    (st' = .S7 → st = .S6) ∧ (st' = .S9 → st = .S8) ∧ (st' = .S19 → st = .S18) ∧
      (st' = .S21 → st = .S20) := by
  cases st <;> grind [nextSt]

theorem mayStore_of_entering {c : Cycle} {st : St} {term : Term}
    (hn : nextSt c.kind term c.st = some st) (hs : storesOnEntering c.kind st = true) : c.mayStore := by
  obtain ⟨h7, h9, h19, h21⟩ := before_storing hn
  unfold storesOnEntering at hs
  split at hs
  · cases hs
  · cases hs
  all_goals
    next hk =>
    simp only [Bool.or_eq_true, decide_eq_true_eq] at hs
    refine ⟨by simp [hk], by simp [hk], ?_⟩
    rcases hs with hs | hs <;> simp [h7, h9, h19, h21, hs]

/-- What the bus controller does to the devices at an edge. -/
theorem devicesAfter_controllerEdge {c : Cycle} {s t : State} (hr : s.run = some c)
    (h : s.controllerEdge = .next t) : DevicesAfter s c c.mayStore t := by
  simp only [State.controllerEdge, hr] at h
  split at h
  · exact .inl (sameDevices_sampleAndDecide h)
  · exact .inl (sameDevices_sampleAndDecide h)
  · exact .inl (sameDevices_sampleAndDecide h)
  · cases h; exact .inl ⟨rfl, rfl, rfl⟩
  · next hst =>
    exact (devicesAfter_endS6 h).mono fun hs =>
      mayStore_of_entering (st := .S7) (term := .none) (by rw [hst]; rfl) hs
  · cases h
  · split at h
    · next hn => exact (devicesAfter_goTo h).mono (mayStore_of_entering hn)
    · obtain ⟨r, rfl⟩ := finish_reports h
      exact .inl ⟨rfl, rfl, rfl⟩

/-- A write that ends at S7 without BERR is stored (R170). -/
theorem endS6_write_stores {c : Cycle} {s t : State} (hk : c.kind = .write) (h : s.endS6 c = .next t)
    (hend : t.run = none) (hb : t.term.isBerr = false) : SameDevices (s.storeLanes c c.wdata) t := by
  obtain ⟨term, ⟨hrmw, -⟩ | hgo⟩ := endS6_cases h
  · rw [hk] at hrmw; cases hrmw
  refine ((sameDevices_atEndS6 s c term).storeLanes c _).trans ?_
  obtain ⟨u, hu, ⟨-, rfl⟩ | ⟨hlast, r, rfl⟩⟩ := goTo_enters hgo
  · cases hend
  have hu' : (if (atEndS6 s c term).term = .berr then atEndS6 s c term
      else ((atEndS6 s c term).deviceTakes c c.wdata).negateAll c.answer) = u := by
    simpa [enterState, hk, formatW] using hu
  split at hu'
  · next hberr => subst hu'; simp [nextSt, hberr] at hlast
  · subst hu'
    rw [← deviceTakes_stores c c.wdata (by simpa using hb)]
    exact sameDevices_negateAll _ _

/-! ## What a store leaves and what it changes -/

/-- A byte address at which the PI/T has a register is on the lane of its data port (R300). -/
theorem pitSelect_lane {w : Option PitWiring} {a : Addr} {sel : BitVec 5} (h : pitSelect w a = some sel) :
    ∃ x, w = some x ∧ a.getLsbD 0 = laneBitZero x.lane := by
  cases w with
  | none => cases h
  | some x =>
    refine ⟨x, rfl, ?_⟩
    simp only [pitSelect, pitLocate, Option.ite_none_right_eq_some, Bool.and_eq_true,
      decide_eq_true_eq] at h
    exact h.1.2

theorem cellKey_injective {m : FcMap} {fc : Fc} {a b : Addr} (h : cellKey m fc a = cellKey m fc b) :
    a = b := by
  refine BitVec.eq_of_toNat_eq ?_
  cases m with
  | shared => exact h
  | perCode => exact Nat.add_left_cancel h

theorem Pit.write_cell_other (p : Pit) (sel : BitVec 5) (v portA portB : Byte) (r : PitReg)
    (h : PitReg.ofSel sel ≠ some r) : (p.write sel v).cell portA portB r = p.cell portA portB r := by
  unfold Pit.write Pit.writeReg
  split
  · next q hq => exact Pit.cell_setCell_other p _ _ q r _ fun e => h (by rw [hq, e])
  · rfl

theorem Pit.write_cell_same (p : Pit) (sel : BitVec 5) (v portA portB : Byte) (r : PitReg)
    (h : PitReg.ofSel sel = some r) (hr : r.claimable = true) :
    (p.write sel v).cell portA portB r = v &&& r.usedBits := by
  simp only [Pit.write, Pit.writeReg, h]
  exact Pit.cell_setCell_same p _ _ r _ (by rintro rfl; cases hr) (by rintro rfl; cases hr)

/-- The port pins show in the alternate registers only, which are not claimable. -/
theorem Pit.cell_claimable_ports (p : Pit) (a b a' b' : Byte) {r : PitReg} (h : r.claimable = true) :
    p.cell a b r = p.cell a' b' r := by
  cases r
  case paar => cases h
  case pbar => cases h
  all_goals rfl

theorem storeByte_holds (s : State) (fc : Fc) (a : Addr) (v : Byte) : (s.storeByte fc a v).Holds fc a v := by
  simp only [State.Holds, storeByte_params]
  split
  · next h => simp [State.storeByte, h]
  · next sel h =>
    intro r hr hc
    simpa [State.storeByte, h] using Pit.write_cell_same s.pit sel v _ _ r hr hc

/-- A store on the other lane leaves what is held. -/
theorem storeByte_holds_other {s : State} {fc : Fc} {a b : Addr} {v : Byte} (h : s.Holds fc a v)
    (hab : a.getLsbD 0 ≠ b.getLsbD 0) (w : Byte) : (s.storeByte fc b w).Holds fc a v := by
  have hne : a ≠ b := fun e => hab (e ▸ rfl)
  simp only [State.Holds, storeByte_params] at h ⊢
  split at h
  · next ha =>
    rw [storeByte_mem _ _ _ _ _ fun e => hne (cellKey_injective e)]
    exact h
  · next sel ha =>
    have hb : pitSelect s.params.pit b = none := by
      by_contra hb
      obtain ⟨sel', hb⟩ := Option.ne_none_iff_exists'.1 hb
      obtain ⟨x, hx, hxa⟩ := pitSelect_lane ha
      obtain ⟨y, hy, hyb⟩ := pitSelect_lane hb
      obtain rfl : x = y := by simpa [hx] using hy
      exact hab (hxa.trans hyb.symm)
    simpa [State.storeByte, hb] using h

theorem upperByteAddr_even (a : Addr) : (upperByteAddr a).getLsbD 0 = false := by
  simp [upperByteAddr]

/-- Under UDS the byte on D7-D0 is the odd one of the pair (R75). -/
theorem lowerByteAddr_odd {x : Strobes} (h : x.upperLane = true) (a : Addr) :
    (lowerByteAddr x a).getLsbD 0 = true := by
  cases x
  case ds => cases h
  all_goals simp [lowerByteAddr]

theorem storeLanes_holds_upper (s : State) (c : Cycle) (v : Half) (h : c.strobes.upperLane = true) :
    (s.storeLanes c v).Holds c.fc (upperByteAddr c.addr) (storedUpper c.strobes v) := by
  simp only [State.storeLanes, h, if_true]
  split
  · refine storeByte_holds_other (storeByte_holds ..) ?_ _
    rw [upperByteAddr_even, lowerByteAddr_odd h]
    decide
  · exact storeByte_holds ..

theorem storeLanes_holds_lower (s : State) (c : Cycle) (v : Half) (h : c.strobes.lowerLane = true) :
    (s.storeLanes c v).Holds c.fc (lowerByteAddr c.strobes c.addr) (loByte v) := by
  simp only [State.storeLanes, h, if_true]
  exact storeByte_holds ..

theorem SameDevices.holds {s t : State} (k : SameDevices s t) {fc : Fc} {a : Addr} {v : Byte}
    (h : s.Holds fc a v) : t.Holds fc a v := by
  obtain ⟨hp, hm, hpit⟩ := k
  simp only [State.Holds, hp, hm, hpit] at h ⊢
  split at h
  · exact h
  · exact fun r hr hc => (Pit.cell_claimable_ports _ _ _ _ _ hc).trans (h r hr hc)

/-- A register of the PI/T that a transfer does not touch keeps its cell. -/
theorem storeByte_cell {s : State} {fc : Fc} {a : Addr} {r : PitReg}
    (h : ¬pitTouches s.params.pit [a] r) (v portA portB : Byte) :
    (s.storeByte fc a v).pit.cell portA portB r = s.pit.cell portA portB r := by
  unfold State.storeByte
  split
  · next sel ha =>
    exact Pit.write_cell_other _ _ _ _ _ _ fun hr => h ⟨a, List.mem_singleton_self a, sel, ha, hr⟩
  · rfl

theorem storeLanes_cell {s : State} {c : Cycle} {r : PitReg}
    (h : ¬pitTouches s.params.pit [upperByteAddr c.addr, lowerByteAddr c.strobes c.addr] r)
    (v : Half) (portA portB : Byte) :
    (s.storeLanes c v).pit.cell portA portB r = s.pit.cell portA portB r := by
  have hu : ¬pitTouches s.params.pit [upperByteAddr c.addr] r := fun ⟨a, ha, k⟩ =>
    h ⟨a, List.mem_cons.2 (.inl (List.mem_singleton.1 ha)), k⟩
  have hl : ¬pitTouches s.params.pit [lowerByteAddr c.strobes c.addr] r := fun ⟨a, ha, k⟩ =>
    h ⟨a, List.mem_cons_of_mem _ ha, k⟩
  unfold State.storeLanes
  cases c.strobes.upperLane <;> cases c.strobes.lowerLane
  · rfl
  · exact storeByte_cell hl ..
  · exact storeByte_cell hu ..
  · exact (storeByte_cell (by rw [if_pos rfl, storeByte_params]; exact hl) ..).trans (storeByte_cell hu ..)

/-! ## RESET of the PI/T (R61, R332) -/

/-- What RESET draws shows in the two undetermined registers only. -/
theorem Pit.reset_cell (p : Pit) (u v portA portB : Byte) {r : PitReg} (hc : r ≠ .pcdr) (hs : r ≠ .psr) :
    (p.reset u v).cell portA portB r = (p.reset 0 0).cell portA portB r := by
  cases r
  case pcdr => exact absurd rfl hc
  case psr => exact absurd rfl hs
  all_goals rfl

@[simp] theorem Pit.read_paar (p : Pit) (portA portB : Byte) : p.read portA portB 0b01010 = portA :=
  BitVec.and_allOnes

@[simp] theorem Pit.read_pbar (p : Pit) (portA portB : Byte) : p.read portA portB 0b01011 = portB :=
  BitVec.and_allOnes

theorem Pit.read_null (p : Pit) (portA portB : Byte) {sel : BitVec 5} (h : PitReg.ofSel sel = none) :
    p.read portA portB sel = 0 := by
  simp only [Pit.read, h]

theorem beforeArbiter_pit {s : State} (h : (beforeArbiter s).inputs.pitReset = true) :
    ∃ u v, (beforeArbiter s).pit = s.pit.reset u v := by
  have hin : (beforeArbiter s).inputs.pitReset = s.takeEvents.inputs.pitReset := by
    unfold beforeArbiter State.pitResetEdge
    split <;> rfl
  rw [hin] at h
  exact ⟨_, _, by simp only [beforeArbiter, State.pitResetEdge, h, if_true]; rfl⟩

/-- A falling edge at which RESET is recognised asserted leaves the reset column in the PI/T. -/
theorem fallingEdge_pitReset {s t : State} (h : s.fallingEdge = .next t)
    (hr : t.inputs.pitReset = true) : ∃ u v, t.pit = s.pit.reset u v := by
  obtain ⟨-, -, -, hin, -, -, -, -, -, -, -, -, -, hpit, -⟩ := aside_arbiter (s := beforeArbiter s) h
  rw [hin] at hr
  rw [hpit]
  exact beforeArbiter_pit hr

/-- A half clock that recognises RESET: the reset column first, then the bus controller, and the devices are
not touched again. -/
theorem halfClock_pitReset {s t : State} (hc : s.clk = .high) (h : s.halfClock = .next t)
    (hr : t.inputs.pitReset = true) : ∃ u v : State, u.params = s.params ∧ u.run = s.run ∧
      (∃ p q, u.pit = s.pit.reset p q) ∧ u.controllerEdge = .next v ∧
      SameDevices v t ∧ t.run = v.run ∧ t.term = v.term := by
  obtain ⟨u, v, hu, hv, ht⟩ := halfClock_falling hc h
  have a := aside_fallingEdge hu
  have k := (kept_controllerEdge hv).trans (kept_peripheralEdge ht)
  obtain ⟨-, hrun, hterm⟩ := peripheralEdge_cycle ht
  have hpit := fallingEdge_pitReset hu (k.pitReset ▸ hr)
  exact ⟨u, v, a.params, a.run, hpit, hv, sameDevices_peripheralEdge ht, hrun, hterm⟩

/-- Settles O53: RESET comes first at the edge, and what the bus controller may still store then is the
write data of a cycle in the state before a last one. -/
theorem pitTakesItsResetColumn : Obligations.PitTakesItsResetColumn := by
  unfold Obligations.PitTakesItsResetColumn
  intro s t hc h hreset
  obtain ⟨u, v, hparams, hrun, ⟨p, q, hpit⟩, hv, hdev, hrun', hterm⟩ := halfClock_pitReset hc h hreset
  refine ⟨fun hidle => ?_, fun c hr => ⟨fun r hpcdr hpsr hsafe => ?_, fun hk hst hend hb => ?_⟩⟩
  · have huv : u = v := by simpa [State.controllerEdge, hrun, hidle] using hv
    have ht : t.pit = s.pit.reset p q := by rw [hdev.pit, ← huv, hpit]
    rw [ht]
    exact ⟨rfl, rfl, rfl, rfl, rfl, rfl, rfl, rfl, rfl, rfl, rfl, rfl, rfl, rfl, rfl, rfl, rfl, rfl, rfl,
      Pit.read_paar .., Pit.read_pbar .., fun _ hsel => Pit.read_null _ _ _ hsel⟩
  · have huc : u.pit.cell t.inputs.portA t.inputs.portB r =
        (s.pit.reset 0 0).cell t.inputs.portA t.inputs.portB r := by
      rw [hpit, Pit.reset_cell _ _ _ _ _ hpcdr hpsr]
    rw [← huc]
    rcases (devicesAfter_controllerEdge (hrun.trans hr) hv).trans hdev with
      same | ⟨⟨hread, hiack, hlast⟩, x, hx⟩
    · rw [same.pit]
    · have huntouched := ((hsafe.resolve_left hread).resolve_left hiack).resolve_left (absurd hlast)
      rw [hx.pit, storeLanes_cell (hparams ▸ huntouched)]
  · have hs6 : u.endS6 c = .next v := by
      simpa [State.controllerEdge, hrun.trans hr, hst] using hv
    have stored := (endS6_write_stores hk hs6 (hrun' ▸ hend) (hterm ▸ hb)).trans hdev
    exact ⟨fun hl => stored.holds (storeLanes_holds_upper u c _ hl),
      fun hl => stored.holds (storeLanes_holds_lower u c _ hl)⟩

end Sys2Proof.Machine
end

section
/-! SUPPORT. The run of a read from its sampling edge to its end (40_read_cycle.md R137 to R147): S5, S6,
end(S6) and the last state, after each termination, for a device that keeps its obligations (R141). -/

namespace Sys2Proof.Machine

/-! ## A read on a bus nobody else drives -/

/-- The device negates its termination and lets go of the data bus in the last state (R141). -/
def Answer.polite (a : Answer) : Prop := a.stale = false ∧ a.holdsData = false

/-- A read in progress, asynchronous so far, with no device left on the bus and a polite device of its
own. -/
structure Reading (s : State) (c : Cycle) : Prop where
  run     : s.run = some c
  kind    : c.kind = .read
  first   : c.second = false
  polite  : c.answer.polite
  closing : s.closing = none
  vma     : s.pins.vma = .negated
  held    : s.held = DataLines.z

/-- A read at the end of S4 or of a wait pair, before anything is recognised. -/
structure Sampling (s : State) (c : Cycle) : Prop extends Reading s c where
  st     : c.st.samples
  clk    : s.clk = .high
  term   : s.term = .none
  data   : s.pins.data = DataLines.z
  silent : s.inputs.silent

/-- The state in S5, after `term` has been recognised with these input lines. -/
def inS5 (s : State) (c : Cycle) (i : Inputs) (term : Term) : State :=
  tick { s with clk := .low, inputs := i, term := term, run := some { c with st := .S5, edge := c.edge + 1 } }

/-- The state in S6: the device drives the data bus (R138). -/
def inS6 (s : State) (c : Cycle) : State :=
  { s with
    clk := .high, run := some { c with st := .S6 }, draws := s.draws + 2
    pins := { s.pins with data := s.deviceData c } }

/-- The inputs at end(S6). -/
def Cycle.lateInputs (c : Cycle) (i : Inputs) : Inputs :=
  let d := c.answer.shape.driveAt c.edge true
  let adds := c.answer.shape.addsTo c.edge
  i.withLines ((adds && i.dtack) || d.dtack) ((adds && i.berr) || d.berr) ((adds && i.vpa) || d.vpa)
    ((adds && i.avec) || d.avec)

/-- What end(S6) decides after `term`, with the lines as they were before it (R144). -/
def Cycle.lateDecision (c : Cycle) (i : Inputs) (term : Term) : Option Term :=
  let j := c.lateInputs i
  decideLate term j.dtack j.berr j.vpa

/-- The state after end(S6), with the data latched (R138). -/
def afterS6 (s : State) (c : Cycle) (term : Term) : State :=
  { (tick { s with clk := .low, inputs := c.lateInputs s.inputs }).latch c.strobes with term := term }

/-- The last state of a read: everything negated and released but the address bus (R139). -/
def closed (s : State) (c : Cycle) : State :=
  { (s.negateAll c.answer).deviceReleasesData c.answer with run := none, closing := some c }

/-- The result of a read (R145 to R147). -/
def readOutcome (s : State) (c : Cycle) : Result :=
  if s.term.isBerr then .busError { kind := .read, fc := c.fc, addr := c.addr }
  else readResult c.strobes s.din

/-- A read that has ended, in its last state, with its result. -/
def ended (s : State) (c : Cycle) : State := (closed s c).report (readOutcome s c)

/-! ## Moves of the bus controller, in closed form -/

/-- The states that an edge simply moves on from: nothing is sampled, and no wait pair goes on. -/
def St.movesOn : St → Bool
  | .S4 | .S16 | .SwLow | .SwHigh | .S6 | .faulted => false
  | .start | .S0 | .S1 | .S2 | .S3 | .S5 | .S7 | .S8 | .S9 | .S10 | .S11 | .S12 | .S13 | .S14 | .S15 | .S17
  | .S18 | .S19 | .S20 | .S21 => true

theorem controllerEdge_movesOn {s : State} {c : Cycle} {st : St} (hr : s.run = some c)
    (hm : c.st.movesOn = true) (hn : nextSt c.kind s.term c.st = some st) :
    s.controllerEdge = s.goTo c st := by
  simp only [State.controllerEdge, hr]
  split <;> rename_i hs
  case h_7 => rw [hn]
  all_goals simp [hs, St.movesOn] at hm

theorem goTo_between {s u : State} {c : Cycle} {st st' : St} (hu : enterState c st s = .next u)
    (hn : nextSt c.kind u.term st = some st') :
    s.goTo c st = .next { u with run := some (c.entered st u.din) } := by
  simp only [State.goTo, hu, andThen_next, Cycle.entered_kind, hn]

theorem goTo_last {s u : State} {c : Cycle} {st : St} (hu : enterState c st s = .next u)
    (hn : nextSt c.kind u.term st = none) :
    s.goTo c st = u.finish (c.entered st u.din) := by
  simp only [State.goTo, hu, andThen_next, Cycle.entered_kind, hn]
  rfl

theorem enterState_read {c : Cycle} (hk : c.kind = .read) (st : St) (s : State) :
    enterState c st s = formatR c st s := by
  simp only [enterState, hk]

theorem finish_read {c : Cycle} (hk : c.kind = .read) (s : State) :
    s.finish c = .next (({ s with run := none, closing := some c } : State).report (readOutcome s c)) := by
  simp only [State.finish, State.finishResult, hk, State.raiseBusError, readOutcome]
  split <;> rfl

theorem closing_readOutcome (s : State) (c : Cycle) :
    readOutcome ((s.negateAll c.answer).deviceReleasesData c.answer) c = readOutcome s c := by
  unfold State.deviceReleasesData State.negateAll State.deviceNegates
  split <;> split <;> rfl

/-- The writes of the last state, and the end of the cycle in it. -/
theorem finish_closing {c : Cycle} (hk : c.kind = .read) (s : State) :
    ((s.negateAll c.answer).deviceReleasesData c.answer).finish c = .next (ended s c) := by
  rw [finish_read hk, closing_readOutcome]
  rfl

@[simp] theorem ended_vma (s : State) (c : Cycle) : (ended s c).pins.vma = .negated := by
  simp [ended, closed]

theorem Cycle.entered_read {c : Cycle} (hk : c.kind = .read) {st : St} (hs : st ≠ .S12) (din : Half) :
    c.entered st din = { c with st := st } := by
  unfold Cycle.entered
  split
  · simp [hk]
  · exact absurd rfl hs
  · rfl

/-! ## Half clock by half clock -/

theorem loneHalf_falling {s t : State} (hc : s.clk = .high)
    (h : (tick { s with clk := .low }).controllerEdge = .next t) (hv : t.pins.vma = .negated) :
    loneHalf s = .next t := by
  simp only [loneHalf, hc, h, andThen_next]
  exact peripheralEdge_idle (by simp [hv])

/-- A rising edge at which the cycle simply moves on. -/
theorem loneHalf_rising {s : State} {c : Cycle} {st : St} (hc : s.clk = .low) (hz : s.closing = none)
    (hr : s.run = some c) (hm : c.st.movesOn = true) (hn : nextSt c.kind s.term c.st = some st) :
    loneHalf s = ({ s with clk := .high } : State).goTo c st := by
  simp only [loneHalf, hc]
  rw [releaseClosing_none (s := { s with clk := .high }) hz]
  exact controllerEdge_movesOn (s := { s with clk := .high }) hr hm hn

/-- What the first edge decides of a read on these lines. -/
theorem Sampling.loneHalf {s : State} {c : Cycle} {d b v a : Bool} (h : Sampling s c)
    (hl : c.lines c.edge = (d, b, v, a)) :
    loneHalf s = andThen ((tick { s with clk := .low, inputs := s.inputs.withLines d b v a }).follow c
      (decideFirst d b v false)) State.peripheralEdge := by
  rw [loneHalf_samples h.run h.st h.clk h.term h.silent hl]
  simp [h.kind]

theorem Sampling.violates {s : State} {c : Cycle} {d b v a : Bool} (h : Sampling s c)
    (hl : c.lines c.edge = (d, b, v, a)) (hd : decideFirst d b v false = .violation) :
    Machine.loneHalf s = violation .dtackAndVpa := by
  rw [h.loneHalf hl, hd]; rfl

theorem Sampling.recognises {s : State} {c : Cycle} {d b v a : Bool} {term : Term} (h : Sampling s c)
    (hl : c.lines c.edge = (d, b, v, a)) (hd : decideFirst d b v false = .proceed term) :
    Machine.loneHalf s = .next (inS5 s c (s.inputs.withLines d b v a) term) := by
  rw [h.loneHalf hl, hd]
  have hgo : (tick { s with clk := .low, inputs := s.inputs.withLines d b v a }).follow c (.proceed term) =
      .next (inS5 s c (s.inputs.withLines d b v a) term) := by
    have hrec : recognisedSt c = .S5 := by simp [recognisedSt, h.first]
    simp only [State.follow, hrec]
    exact (goTo_between (st' := .S6)
      (enterState_read (c := { c with edge := c.edge + 1 }) h.kind .S5 _) rfl).trans rfl
  rw [hgo, andThen_next]
  exact peripheralEdge_idle (by show s.pins.vma ≠ .asserted; simp [h.vma])

theorem Reading.fromS5 {s : State} {c : Cycle} (h : Reading s c) (hs : c.st = .S5) (hc : s.clk = .low)
    (hd : s.pins.data = DataLines.z) : loneHalf s = .next (inS6 s c) := by
  rw [loneHalf_rising (st := .S6) hc h.closing h.run (by rw [hs]; rfl) (by rw [hs]; rfl)]
  refine goTo_between (u := { inS6 s c with run := s.run }) (st := .S6) (st' := .S7) ?_ rfl
  rw [enterState_read h.kind]
  simp only [formatR, State.dataPhase, h.vma, reduceCtorEq, if_false]
  exact driveData_free (s := ({ s with clk := .high } : State).drawn 2) hd

theorem Reading.endS6_eq {s : State} {c : Cycle} (h : Reading s c) (hs : c.st = .S6) :
    (tick { s with clk := .low }).controllerEdge =
      match c.lateDecision s.inputs s.term with
      | none => violation .dtackAndVpa
      | some term => (afterS6 s c term).goTo c .S7 := by
  have hr : (tick { s with clk := .low }).run = some c := h.run
  simp only [State.controllerEdge, hr, hs, State.endS6, State.latchFor, h.kind, reduceCtorEq,
    decide_false, Bool.false_and, Bool.false_eq_true, if_false]
  rfl

theorem Reading.violatesAtS6 {s : State} {c : Cycle} (h : Reading s c) (hs : c.st = .S6)
    (hc : s.clk = .high) (hd : c.lateDecision s.inputs s.term = none) :
    loneHalf s = violation .dtackAndVpa := by
  simp only [loneHalf, hc, h.endS6_eq hs, hd]
  rfl

/-- Without BERR alone the read ends at S7 (R145, R146). -/
theorem Reading.endsAtS7 {s : State} {c : Cycle} {term : Term} (h : Reading s c) (hs : c.st = .S6)
    (hc : s.clk = .high) (hd : c.lateDecision s.inputs s.term = some term) (hb : term ≠ .berr) :
    loneHalf s = .next (ended (afterS6 s c term) { c with st := .S7 }) := by
  refine loneHalf_falling hc ?_ (ended_vma ..)
  rw [h.endS6_eq hs, hd]
  have ht : (afterS6 s c term).term = term := rfl
  have hu : enterState c .S7 (afterS6 s c term) =
      .next (((afterS6 s c term).negateAll c.answer).deviceReleasesData c.answer) := by
    simp only [enterState_read h.kind, formatR, ht, hb, if_false]
  refine (goTo_last hu (by simp [nextSt, h.kind, ht, hb])).trans ?_
  rw [Cycle.entered_read h.kind (by decide)]
  exact finish_closing (c := { c with st := .S7 }) h.kind _

/-- BERR without DTACK adds S8 and S9 (R147). -/
theorem Reading.entersS7 {s : State} {c : Cycle} (h : Reading s c) (hs : c.st = .S6)
    (hc : s.clk = .high) (hd : c.lateDecision s.inputs s.term = some .berr) :
    loneHalf s = .next { afterS6 s c .berr with run := some { c with st := .S7 } } := by
  refine loneHalf_falling hc ?_ h.vma
  rw [h.endS6_eq hs, hd, ← Cycle.entered_read h.kind (by decide) (afterS6 s c .berr).din]
  exact goTo_between (by rw [enterState_read h.kind]; rfl) (st' := .S8) (by simp [nextSt, afterS6])

theorem Reading.fromS7 {s : State} {c : Cycle} (h : Reading s c) (hs : c.st = .S7)
    (hc : s.clk = .low) (ht : s.term = .berr) :
    loneHalf s = .next { s with clk := .high, run := some { c with st := .S8 } } := by
  rw [loneHalf_rising (st := .S8) hc h.closing h.run (by rw [hs]; rfl) (by simp [hs, nextSt, ht])]
  exact goTo_between (st := .S8) (st' := .S9) (enterState_read h.kind _ _) rfl

theorem Reading.endsAtS9 {s : State} {c : Cycle} (h : Reading s c) (hs : c.st = .S8)
    (hc : s.clk = .high) :
    loneHalf s = .next (ended (tick { s with clk := .low }) { c with st := .S9 }) := by
  refine loneHalf_falling hc ?_ (ended_vma ..)
  refine (controllerEdge_movesOn (s := tick { s with clk := .low }) (st := .S9) h.run (by rw [hs]; rfl)
    (by rw [hs]; rfl)).trans ?_
  exact (goTo_last (enterState_read h.kind .S9 _) (by simp [nextSt, h.kind])).trans
    (finish_closing (c := { c with st := .S9 }) h.kind _)

end Sys2Proof.Machine
end

section
/-! SUPPORT. Whole reads: from the launch of the cycle to its result, for every script of the device. -/

namespace Sys2Proof.Machine

/-! ## From the sampling edge to the end -/

theorem ended_eq {s : State} {c : Cycle} (hp : c.answer.polite) :
    ended s c = { s with
      pins := { s.pins with
        strobeAS := .negated, uds := .negated, lds := .negated, ds := .negated, vma := .negated
        data := s.held }
      inputs := s.inputs.withLines false false false false
      run := none, closing := some c
      results := { master := s.owner, result := readOutcome s c } :: s.results } := by
  obtain ⟨hstale, hholds⟩ := hp
  simp only [ended, closed, State.negateAll, State.deviceNegates, hstale, State.deviceReleasesData, hholds,
    Bool.false_eq_true, if_false]
  rfl

/-- A read that has ended has completed, and the bus is free. -/
theorem ended_completed {s : State} {c : Cycle} (hk : c.kind = .read) (hp : c.answer.polite)
    (hh : s.held = DataLines.z) (hc : s.clk = .low) :
    Completed s (ended s c) (readOutcome s c) 0 := by
  rw [ended_eq hp]
  exact {
    run := rfl, clk := hc, data := by simpa [State.releaseClosing, hk] using hh, held := hh, vma := rfl
    dtack := rfl, berr := rfl, vpa := rfl, avec := rfl
    results := rfl, length := rfl, owner := rfl }

/-- What was completed from a state holds from any state with the same results and owner, with the CLK
cycles in between added. -/
theorem Completed.since {s u t : State} {r : Result} {m n : Nat} (h : Completed u t r n)
    (hr : u.results = s.results) (ho : u.owner = s.owner) (hc : u.clkCount = s.clkCount + m) :
    Completed s t r (m + n) where
  toBusFree := h.toBusFree
  results := by rw [h.results, hr, ho]
  length := by rw [h.length, hc, Nat.add_assoc]
  owner := h.owner.trans ho

theorem BusFree_graft {t : State} (h : t.BusFree) (x : State) : (graft t x).BusFree where
  run := h.run
  clk := h.clk
  data := by rw [releaseClosing_graft]; exact h.data
  held := h.held
  vma := h.vma
  dtack := h.dtack
  berr := h.berr
  vpa := h.vpa
  avec := h.avec

theorem Completed.graft {s t : State} {r : Result} {n : Nat} (h : Completed s t r n) (x : State) :
    Completed s (graft t x) r n where
  toBusFree := BusFree_graft h.toBusFree x
  results := h.results
  length := h.length
  owner := h.owner

/-! ## The data read -/

@[simp] theorem hiByte_halfOf (hi lo : Byte) : hiByte (halfOf hi lo) = hi :=
  BitVec.extractLsb'_append_eq_left

@[simp] theorem loByte_halfOf (hi lo : Byte) : loByte (halfOf hi lo) = lo :=
  BitVec.extractLsb'_append_eq_right

theorem halfOf_bytes (v : Half) : halfOf (hiByte v) (loByte v) = v := half_extract v

/-- A word on the lanes that carry data: an 8-bit bus has no upper one (R12). -/
def wordLines (x : Strobes) (v : Half) : DataLines :=
  if x = .ds then { hi := none, lo := some (loByte v) }
  else { hi := some (hiByte v), lo := some (loByte v) }

theorem deviceData_scripted {s : State} {c : Cycle} {v : Half}
    (h : (c.answer.shape.driveAt c.edge true).data = some v) : s.deviceData c = wordLines c.strobes v := by
  simp only [State.deviceData, h, wordLines]
  cases c.strobes <;> rfl

/-- What a read returns of a word latched from the lanes is what it returns of the word (R138, R145). -/
theorem readResult_latch {s : State} {x : Strobes} {v : Half} (h : s.pins.data = wordLines x v) :
    readResult x (s.latch x).din = readResult x v := by
  cases x <;> simp [State.latch, State.drawn, readResult, h, wordLines, halfOf_bytes]

/-! ## The two ways to the end -/

/-- The cycle in S6, after a termination recognised at this sampling edge. -/
def Cycle.recognised (c : Cycle) : Cycle := { c with st := .S6, edge := c.edge + 1 }

/-- The state in S6, after `term` recognised on these lines. -/
def sampledToS6 (s : State) (c : Cycle) (i : Inputs) (term : Term) : State :=
  inS6 (inS5 s c i term) { c with st := .S5, edge := c.edge + 1 }

theorem Sampling.inS6 {s : State} {c : Cycle} (h : Sampling s c) (i : Inputs) (term : Term) :
    Reading (sampledToS6 s c i term) c.recognised where
  run := rfl
  kind := h.kind
  first := h.first
  polite := h.polite
  closing := h.closing
  vma := h.vma
  held := h.held

theorem Sampling.loneRun_toS6 {s : State} {c : Cycle} {d b v a : Bool} {term : Term} (h : Sampling s c)
    (hl : c.lines c.edge = (d, b, v, a)) (hd : decideFirst d b v false = .proceed term) (n : Nat) :
    loneRun (n + 2) s = loneRun n (sampledToS6 s c (s.inputs.withLines d b v a) term) := by
  have hs5 : Reading (inS5 s c (s.inputs.withLines d b v a) term)
      { c with st := .S5, edge := c.edge + 1 } :=
    ⟨rfl, h.kind, h.first, h.polite, h.closing, h.vma, h.held⟩
  rw [show n + 2 = n + 1 + 1 from rfl, loneRun_succ _ h.run (St.samples_not_faulted h.st),
    h.recognises hl hd, andThen_next, loneRun_succ _ hs5.run nofun, hs5.fromS5 rfl rfl h.data,
    andThen_next]
  rfl

/-- The state in which S9 is entered after BERR at end(S6) (R147). -/
def afterS8 (s : State) (c : Cycle) : State :=
  tick { afterS6 s c .berr with run := some { c with st := .S8 } }

/-- From S6 through S8 to the end in S9. -/
theorem Reading.loneRun_berr {s : State} {c : Cycle} (h : Reading s c) (hs : c.st = .S6)
    (hc : s.clk = .high) (hd : c.lateDecision s.inputs s.term = some .berr) :
    loneRun 3 s = .next (ended (afterS8 s c) { c with st := .S9 }) := by
  have h7 : Reading { afterS6 s c .berr with run := some { c with st := .S7 } } { c with st := .S7 } :=
    ⟨rfl, h.kind, h.first, h.polite, h.closing, h.vma, h.held⟩
  have h8 : Reading { afterS6 s c .berr with clk := .high, run := some { c with st := .S8 } }
      { c with st := .S8 } := ⟨rfl, h.kind, h.first, h.polite, h.closing, h.vma, h.held⟩
  rw [loneRun_succ 2 h.run (by simp [hs]), h.entersS7 hs hc hd, andThen_next, loneRun_succ 1 h7.run nofun,
    h7.fromS7 rfl rfl rfl, andThen_next]
  refine (loneRun_succ 0 h8.run nofun).trans ?_
  rw [h8.endsAtS9 rfl rfl]
  rfl

/-- What the read `c` has left in `t`, ended by `term` and `n` CLK cycles after `s`: its result, the devices
as they were, and in `din` what its answer has for the edge after the present one, if that is scripted. -/
structure ReadDone (s : State) (c : Cycle) (t : State) (term : Term) (n : Nat) : Prop where
  completed : Completed s t (readOutcome t c) n
  term      : t.term = term
  mem       : t.mem = s.mem
  pit       : t.pit = s.pit
  scripted  : ∀ v, (c.answer.shape.driveAt (c.edge + 1) true).data = some v →
    readResult c.strobes t.din = readResult c.strobes v

/-- The end of a read in a state that the cycle has come to without touching results or devices. -/
theorem readDone_of_ended {s x : State} {c : Cycle} {st : St} {edge m : Nat} (hk : c.kind = .read)
    (hp : c.answer.polite) (hheld : x.held = DataLines.z) (hclk : x.clk = .low)
    (hresults : x.results = s.results) (howner : x.owner = s.owner)
    (hcount : x.clkCount = s.clkCount + m) (hmem : x.mem = s.mem) (hpit : x.pit = s.pit)
    (hdin : ∀ v, (c.answer.shape.driveAt (c.edge + 1) true).data = some v →
      readResult c.strobes x.din = readResult c.strobes v) :
    ReadDone s c (ended x { c with st := st, edge := edge }) x.term m := by
  have hdone : Completed x _ (readOutcome x c) 0 :=
    ended_completed (c := { c with st := st, edge := edge }) hk hp hheld hclk
  rw [ended_eq (c := { c with st := st, edge := edge }) hp] at hdone ⊢
  exact ⟨hdone.since hresults howner hcount, rfl, hmem, hpit, hdin⟩

/-- The data are latched from what the device drives in S6. -/
theorem afterS6_scripted {s : State} {c : Cycle} {i : Inputs} {term late : Term} {v : Half}
    (h : (c.answer.shape.driveAt (c.edge + 1) true).data = some v) :
    readResult c.strobes (afterS6 (sampledToS6 s c i term) c.recognised late).din =
      readResult c.strobes v :=
  readResult_latch (s := tick { sampledToS6 s c i term with clk := .low })
    (deviceData_scripted (c := { c with st := .S5, edge := c.edge + 1 }) h)

theorem ReadDone.since {s u t : State} {c : Cycle} {term : Term} {m n : Nat} (h : ReadDone u c t term n)
    (hr : u.results = s.results) (ho : u.owner = s.owner) (hc : u.clkCount = s.clkCount + m)
    (hm : u.mem = s.mem) (hp : u.pit = s.pit) : ReadDone s c t term (m + n) :=
  ⟨h.completed.since hr ho hc, h.term, h.mem.trans hm, h.pit.trans hp, h.scripted⟩

theorem ReadDone.busError {s t : State} {c : Cycle} {term : Term} {n : Nat} (h : ReadDone s c t term n)
    (hb : term.isBerr = true) :
    Completed s t (.busError { kind := .read, fc := c.fc, addr := c.addr }) n := by
  have := h.completed
  rwa [readOutcome, h.term, hb, if_pos rfl] at this

theorem ReadDone.ok {s t : State} {c : Cycle} {term : Term} {n : Nat} (h : ReadDone s c t term n)
    (hb : term.isBerr = false) : Completed s t (readResult c.strobes t.din) n := by
  have := h.completed
  rwa [readOutcome, h.term, hb, if_neg nofun] at this

theorem ReadDone.graft {s t : State} {c : Cycle} {term : Term} {n : Nat} (h : ReadDone s c t term n)
    (x : State) : ReadDone s c (graft t x) term n :=
  ⟨h.completed.graft x, h.term, h.mem, h.pit, h.scripted⟩

/-- DTACK and VPA together, at the first edge (R144). -/
theorem Sampling.loneRun_violates {s : State} {c : Cycle} {d b v a : Bool} (h : Sampling s c)
    (hl : c.lines c.edge = (d, b, v, a)) (hd : decideFirst d b v false = .violation) (n : Nat) :
    loneRun (n + 1) s = violation .dtackAndVpa := by
  rw [loneRun_succ _ h.run (St.samples_not_faulted h.st), h.violates hl hd]
  rfl

section
variable {s : State} {c : Cycle} {d b v a : Bool} {term : Term} (h : Sampling s c)
  (hl : c.lines c.edge = (d, b, v, a)) (hd : decideFirst d b v false = .proceed term)
include h hl hd

/-- A line that may not be asserted after `term`, at end(S6) (R144). -/
theorem Sampling.loneRun_violatesLate
    (hlate : c.recognised.lateDecision (s.inputs.withLines d b v a) term = none) (n : Nat) :
    loneRun (n + 3) s = violation .dtackAndVpa := by
  have h6 := h.inS6 (s.inputs.withLines d b v a) term
  rw [show n + 3 = n + 1 + 2 from rfl, h.loneRun_toS6 hl hd, loneRun_succ _ h6.run nofun,
    h6.violatesAtS6 rfl rfl hlate]
  rfl

/-- A read that ends at S7 (R145, R146). -/
theorem Sampling.loneRun_endsAtS7 {late : Term}
    (hlate : c.recognised.lateDecision (s.inputs.withLines d b v a) term = some late)
    (hb : late ≠ .berr) : ∃ t, loneRun 3 s = .next t ∧ ReadDone s c t late 2 := by
  have h6 := h.inS6 (s.inputs.withLines d b v a) term
  rw [h.loneRun_toS6 hl hd 1, loneRun_succ 0 h6.run nofun, h6.endsAtS7 rfl rfl hlate hb, andThen_next]
  exact ⟨_, rfl, readDone_of_ended h.kind h.polite h.held rfl rfl rfl rfl rfl rfl
    fun _ hv => afterS6_scripted hv⟩

/-- A read that BERR without DTACK ends at S9 (R147). -/
theorem Sampling.loneRun_endsAtS9
    (hlate : c.recognised.lateDecision (s.inputs.withLines d b v a) term = some .berr) :
    ∃ t, loneRun 5 s = .next t ∧ ReadDone s c t .berr 3 := by
  have h6 := h.inS6 (s.inputs.withLines d b v a) term
  rw [h.loneRun_toS6 hl hd 3, h6.loneRun_berr rfl rfl hlate]
  exact ⟨_, rfl, readDone_of_ended h.kind h.polite h.held rfl rfl rfl rfl rfl rfl
    fun _ hv => afterS6_scripted (late := .berr) hv⟩
end

end Sys2Proof.Machine
end

section
/-! SUPPORT. A read from its issue to its sampling edge, and what it returns for every script that gives the
sampled lines edge by edge (10_state.md R47, 40_read_cycle.md R144 to R147). -/

namespace Sys2Proof.Machine

/-! ## A meaning as the run of its cycle alone -/

/-- While the other agents keep out, a transaction of the processor is the run of its cycle alone. -/
theorem exec_lone {P : State → Prop} (hP : KeepsOut P) {i : Instr} {s : State}
    (hw : i.wf s.params.dataBus = true) (hr : s.run = none) (ho : s.owner = .processor)
    (h : P (launched (cycleOf s.params.dataBus i) s)) :
    (∃ x, exec i s = graftRes (loneRun (cycleBudget (s.prepared (cycleOf s.params.dataBus i)))
      (launched (cycleOf s.params.dataBus i) s)) x) ∧ ∀ t, exec i s = .next t → P t := by
  rw [exec_run hw hr ho]
  exact runCycle_lone hP _ h

theorem calm_launched {s : State} (h : s.Calm) (c : Cycle) : (launched c s).Calm :=
  ⟨h.owner, h.arb, h.bgack, h.pitReset, h.events⟩

/-- A run that more half clocks do not change. -/
def settled (r : Res) : Prop := ∀ t, r = .next t → t.cycleOver = true

theorem settled_next {t : State} (h : t.cycleOver = true) : settled (.next t) := by
  rintro u ⟨⟩; exact h

theorem settled_violation (what : Violation) : settled (violation what) :=
  fun _ h => by cases h

theorem loneRun_settled {k n : Nat} {s : State} (hkn : k ≤ n) (h : settled (loneRun k s)) :
    loneRun n s = loneRun k s := by
  obtain ⟨m, rfl⟩ := Nat.exists_eq_add_of_le hkn
  rw [loneRun_add]
  cases hr : loneRun k s with
  | next t => cases m <;> simp [loneRun, h t hr]
  | fault f => rfl
  | refused f => rfl

/-! ## From the launch to the sampling edge -/

/-- A scripted answer that names no resident device is the answer to the cycle. -/
theorem prepared_answer {s : State} {a : Answer} {rest : List Answer} (h : s.answers = a :: rest)
    (ha : a.shape ≠ .resident) (c : Cycle) : (s.prepared c).answer = a := by
  simp only [State.prepared, h, List.head?_cons, State.answerFor, Option.getD_some]

/-- A launched read `w` wait pairs after S4. -/
def sampledState (w : Nat) (c : Cycle) (s : State) : State :=
  waited w { s.prepared c with st := .S4 } (atS4Read (s.prepared c) (launched c s))

/-- Its cycle. -/
def sampledCycle (w : Nat) (c : Cycle) (s : State) : Cycle :=
  { s.prepared c with
    st := if w = 0 then .S4 else .SwHigh, pairs := c.pairs + w, edge := c.edge + w }

theorem launched_releaseClosing_data (c : Cycle) (s : State) :
    (launched c s).releaseClosing.pins.data = s.releaseClosing.pins.data := by
  simp only [State.releaseClosing, launched]
  split
  · rfl
  · next d _ => cases d.kind <;> rfl

/-- On a free bus a launched read comes to its sampling edges. -/
theorem sampledState_sampling {s : State} {c : Cycle} (h : s.BusFree) (hk : c.kind = .read)
    (hsecond : c.second = false) (hp : (s.prepared c).answer.polite) (w : Nat) :
    Sampling (sampledState w c s) (sampledCycle w c s) where
  run := rfl
  kind := hk
  first := hsecond
  polite := hp
  closing := rfl
  vma := (releaseClosing_vma (launched c s)).trans h.vma
  held := h.held
  st := by
    unfold sampledCycle
    split <;> trivial
  clk := rfl
  term := rfl
  data := (launched_releaseClosing_data c s).trans h.data
  silent := ⟨h.dtack, h.berr, h.vpa, h.avec⟩

theorem loneRun_sampled {s : State} {c : Cycle} (h : s.BusFree) (hk : c.kind = .read) (hs : c.st = .start)
    (w n : Nat) (hl : ∀ k < w, (s.prepared c).lines (c.edge + k) = (false, false, false, false)) :
    loneRun (n + 2 * w + 5) (launched c s) = loneRun n (sampledState w c s) := by
  have hv : (launched c s).releaseClosing.pins.vma = .negated :=
    (releaseClosing_vma (launched c s)).trans h.vma
  have hk' : (s.prepared c).kind ≠ .write := fun e => by
    have : c.kind = .write := e
    rw [hk] at this; cases this
  rw [loneRun_toS4_read (n + 2 * w) (launched c s) (s.prepared c) hk' hs rfl h.clk h.vma]
  exact loneRun_waits w n rfl trivial rfl rfl rfl hv ⟨h.dtack, h.berr, h.vpa, h.avec⟩ hl

/-- The meaning of a read comes to a sampling edge: `w` wait pairs after S4 nothing has been recognised,
and what the run from `u` settles is what the meaning answers, in a calm environment. -/
structure ComesToSample (i : Instr) (s u : State) (c : Cycle) (w : Nat) : Prop where
  sampling : Sampling u c
  results  : u.results = s.results
  owner    : u.owner = s.owner
  count    : u.clkCount = s.clkCount + (2 + w)
  mem      : u.mem = s.mem
  pit      : u.pit = s.pit
  edge     : c.edge = w
  runs     : ∀ k ≤ 100, settled (loneRun k u) → ∃ x, exec i s = graftRes (loneRun k u) x
  calm     : ∀ t, exec i s = .next t → t.Calm

/-- A read of the processor, with a polite device scripted to be silent at `w` edges, comes to the next
one; the budget of its cycle leaves far more than the half clocks it takes from there. -/
theorem exec_read_sampled {i : Instr} {s : State} {fc : Fc} {a : Addr} {strobes : Strobes} {ans : Answer}
    {rest : List Answer} {w : Nat} (h : s.Ready) (hw : i.wf s.params.dataBus = true)
    (hc : cycleOf s.params.dataBus i = newCycle .read fc a strobes 0 0) (ha : s.answers = ans :: rest)
    (hres : ans.shape ≠ .resident) (hp : ans.polite) (hpatience : w ≤ ans.shape.patience)
    (hquiet : ∀ k < w, ans.shape.driveAt k false = Drive.quiet) :
    ∃ u c, ComesToSample i s u c w ∧ c.fc = fc ∧ c.addr = a ∧ c.strobes = strobes ∧ c.answer = ans := by
  have hans := prepared_answer ha hres (newCycle .read fc a strobes 0 0)
  obtain ⟨⟨x, hx⟩, hcalm⟩ := exec_lone keepsOut_calm hw h.run h.owner (calm_launched h.toCalm _)
  rw [hc] at hx
  refine ⟨sampledState w (newCycle .read fc a strobes 0 0) s,
    sampledCycle w (newCycle .read fc a strobes 0 0) s,
    ⟨sampledState_sampling h.toBusFree rfl rfl (hans ▸ hp) w, rfl, rfl, ?_, rfl, rfl, Nat.zero_add w,
      fun k hk hs => ⟨x, ?_⟩, hcalm⟩, rfl, rfl, rfl, hans⟩
  · show s.clkCount + 1 + 1 + w = _
    omega
  · have hl : ∀ k < w, (s.prepared (newCycle .read fc a strobes 0 0)).lines
        ((newCycle .read fc a strobes 0 0).edge + k) = (false, false, false, false) := fun k hk => by
      have hz : (newCycle .read fc a strobes 0 0).edge + k = k := Nat.zero_add k
      simp only [hz, Cycle.lines, hans, hquiet k hk]
      rfl
    have hb : k + 2 * w + 5 ≤ cycleBudget (s.prepared (newCycle .read fc a strobes 0 0)) := by
      rw [cycleBudget, hans]
      omega
    have hrun := loneRun_sampled h.toBusFree rfl rfl w k hl
    rw [hx, loneRun_settled hb (by rw [hrun]; exact hs), hrun]

section
variable {i : Instr} {s u : State} {c : Cycle} {w : Nat} (h : ComesToSample i s u c w)
include h

theorem ComesToSample.faults {k : Nat} (hk : k ≤ 100)
    (hrun : loneRun k u = violation .dtackAndVpa) :
    exec i s = .fault (.protocolViolation .dtackAndVpa) := by
  obtain ⟨x, hx⟩ := h.runs k hk (hrun ▸ settled_violation _)
  rw [hx, hrun]
  rfl

theorem ComesToSample.completes {k n m : Nat} {term : Term} (hk : k ≤ 100)
    (hrun : ∃ t, loneRun k u = .next t ∧ ReadDone u c t term n) (hm : 2 + w + n = m) :
    ∃ t, exec i s = .next t ∧ t.Calm ∧ ReadDone s c t term m := by
  subst hm
  obtain ⟨t, ht, hdone⟩ := hrun
  have hover : t.cycleOver = true := by simp [State.cycleOver, hdone.completed.run]
  obtain ⟨x, hx⟩ := h.runs k hk (ht ▸ settled_next hover)
  rw [ht] at hx
  exact ⟨graft t x, hx, h.calm _ hx,
    (hdone.graft x).since h.results h.owner h.count h.mem h.pit⟩

end

/-! ## A device that gives its lines edge by edge (R47) -/

/-- A device silent for `w` edges, then with the lines `x`, then with `y`. -/
def edgesAnswer (w : Nat) (x y : Drive) : Answer :=
  Answer.of (.edges (List.replicate w Drive.quiet ++ [x, y]))

section
variable (w : Nat) (x y : Drive)

theorem edgesAnswer_before {k : Nat} (h : k < w) (late : Bool) :
    (edgesAnswer w x y).shape.driveAt k late = Drive.quiet := by
  simp [edgesAnswer, Answer.of, Shape.driveAt, List.getD_eq_getElem?_getD, List.getElem?_append, h]

theorem edgesAnswer_first (late : Bool) : (edgesAnswer w x y).shape.driveAt w late = x := by
  simp [edgesAnswer, Answer.of, Shape.driveAt, List.getD_eq_getElem?_getD]

theorem edgesAnswer_late (late : Bool) : (edgesAnswer w x y).shape.driveAt (w + 1) late = y := by
  simp [edgesAnswer, Answer.of, Shape.driveAt, List.getD_eq_getElem?_getD]

/-- From its second edge on the script gives the lines themselves. -/
theorem edgesAnswer_lateDecision {c : Cycle} (ha : c.answer = edgesAnswer w x y) (he : c.edge = w + 1)
    (i : Inputs) (term : Term) : c.lateDecision i term = decideLate term y.dtack y.berr y.vpa := by
  have hadds : (edgesAnswer w x y).shape.addsTo (w + 1) = false := by
    simp [edgesAnswer, Answer.of, Shape.addsTo]
  simp only [Cycle.lateDecision, Cycle.lateInputs, Inputs.withLines, ha, he, hadds, edgesAnswer_late,
    Bool.false_and, Bool.false_or]

end

/-- What the two sampled edges of a read make of it, the first one at `w` (R144 to R147). -/
theorem exec_read_edges {i : Instr} {s : State} {fc : Fc} {a : Addr} {strobes : Strobes} {w : Nat}
    {x y : Drive} {rest : List Answer} (h : s.Ready) (hw : i.wf s.params.dataBus = true)
    (hc : cycleOf s.params.dataBus i = newCycle .read fc a strobes 0 0)
    (ha : s.answers = edgesAnswer w x y :: rest) :
    ∃ u c, ComesToSample i s u c w ∧ c.fc = fc ∧ c.addr = a ∧ c.strobes = strobes ∧
      c.lines c.edge = (x.dtack, x.berr, x.vpa, x.avec) ∧
      (∀ j term, c.recognised.lateDecision j term = decideLate term y.dtack y.berr y.vpa) ∧
      (c.answer.shape.driveAt (c.edge + 1) true).data = y.data := by
  have hpatience : w ≤ (edgesAnswer w x y).shape.patience := by
    simp [edgesAnswer, Answer.of, Shape.patience]
  obtain ⟨u, c, hsample, hfc, haddr, hstrobes, hans⟩ := exec_read_sampled h hw hc ha nofun ⟨rfl, rfl⟩
    hpatience fun k hk => edgesAnswer_before w x y hk false
  refine ⟨u, c, hsample, hfc, haddr, hstrobes, ?_, fun j term => ?_, ?_⟩
  · simp only [Cycle.lines, hans, hsample.edge, edgesAnswer_first]
  · exact edgesAnswer_lateDecision w x y (c := c.recognised) hans (congrArg (· + 1) hsample.edge) j term
  · rw [hans, hsample.edge, edgesAnswer_late]

/-- The termination of the first edge at which DTACK or BERR is recognised (R144). -/
def firstTerm (d b : Bool) : Term := if d then (if b then .berrDtack else .dtack) else .berr

theorem decideFirst_violation : ∀ {d v : Bool}, d = true → v = true → ∀ b a,
    decideFirst d b v a = .violation := by decide

theorem decideFirst_proceeds : ∀ {d b v : Bool}, (d && v) = false → (d || b) = true →
    ∀ a, decideFirst d b v a = .proceed (firstTerm d b) := by decide

theorem decideLate_violation : ∀ {d b d' b' v' : Bool}, (d && v' || d' && v') = true →
    decideLate (firstTerm d b) d' b' v' = none := by decide

theorem decideLate_dtack : ∀ {d b d' b' v' : Bool}, d = true → v' = false →
    decideLate (firstTerm d b) d' b' v' = some (if b || b' then .berrDtack else .dtack) := by decide

theorem decideLate_berr : ∀ {d b d' b' v' : Bool}, d = false → (d' && v') = false →
    decideLate (firstTerm d b) d' b' v' = some .berr := by decide

/-- The four reads as cycles, and what they return of a word. -/
theorem reads_as_cycles {bus : DataBus} {fc : Fc} {a : Addr} {p : Instr × (Half → Result)}
    (h : p ∈ [(Instr.rdW fc a, Result.okWord), (.rdBU fc a, fun v => .okByte (v.extractLsb' 8 8)),
      (.rdBL fc a, fun v => .okByte (v.extractLsb' 0 8)),
      (.rdB8 fc a, fun v => .okByte (v.extractLsb' 0 8))]) :
    ∃ strobes, cycleOf bus p.1 = newCycle .read fc a strobes 0 0 ∧
      ∀ v, readResult strobes v = p.2 v := by
  simp only [List.mem_cons, List.not_mem_nil, or_false] at h
  rcases h with rfl | rfl | rfl | rfl
  · exact ⟨.word, rfl, fun _ => rfl⟩
  · exact ⟨.upper, rfl, fun _ => rfl⟩
  · exact ⟨.lower, rfl, fun _ => rfl⟩
  · exact ⟨.ds, rfl, fun _ => rfl⟩

/-- Settles O59: the first edge recognises a termination or a violation, and end(S6) has the last word. -/
theorem readFollowsTheSampledLines : Obligations.ReadFollowsTheSampledLines := by
  unfold Obligations.ReadFollowsTheSampledLines
  intro s fc a w x y rest hready hans p hp hw
  obtain ⟨strobes, hc, hresult⟩ := reads_as_cycles (bus := s.params.dataBus) hp
  obtain ⟨u, c, h, rfl, rfl, rfl, hlines, hlate, hdata⟩ := exec_read_edges hready hw hc hans
  have hproceeds (hd : (x.dtack && x.vpa) = false) (hb : (x.dtack || x.berr) = true) :=
    decideFirst_proceeds hd hb false
  refine ⟨fun hv => ?_, fun hd hv hvy hb => ?_, fun hd hv hvy hb hby => ?_, fun hd hb hn => ?_⟩
  · by_cases hfirst : x.dtack = true ∧ x.vpa = true
    · obtain ⟨hd, hvpa⟩ := hfirst
      exact h.faults (k := 1) (by decide)
        (h.sampling.loneRun_violates hlines (decideFirst_violation hd hvpa _ _) 0)
    · refine h.faults (k := 3) (by decide) (h.sampling.loneRun_violatesLate hlines
        (hproceeds (by simpa using hfirst) ?_) ?_ 0)
      · rcases hv with ⟨hd, -⟩ | ⟨hd, -⟩ | ⟨hb, -⟩
        · simp [hd]
        · simp [hd]
        · simp [hb]
      · rw [hlate]
        refine decideLate_violation ?_
        rcases hv with hv | ⟨hd, hv⟩ | ⟨-, hd, hv⟩
        · exact absurd hv hfirst
        · simp [hd, hv]
        · simp [hd, hv]
  · obtain ⟨t, ht, hcalm, hdone⟩ := h.completes (k := 3) (m := 4 + w) (by decide)
      (h.sampling.loneRun_endsAtS7 hlines (hproceeds (by simp [hv]) (by simp [hd])) (late := .berrDtack)
        (by rw [hlate, decideLate_dtack hd hvy]; rcases hb with hb | hb <;> simp [hb]) nofun) (by omega)
    exact ⟨t, ht, hdone.term, hcalm, hdone.busError rfl⟩
  · obtain ⟨t, ht, hcalm, hdone⟩ := h.completes (k := 3) (m := 4 + w) (by decide)
      (h.sampling.loneRun_endsAtS7 hlines (hproceeds (by simp [hv]) (by simp [hd])) (late := .dtack)
        (by rw [hlate, decideLate_dtack hd hvy]; simp [hb, hby]) nofun) (by omega)
    refine ⟨t, _, ht, hdone.term, hcalm, hdone.ok rfl, fun v hy => ?_⟩
    rw [hdone.scripted v (hdata.trans hy), hresult]
  · obtain ⟨t, ht, hcalm, hdone⟩ := h.completes (k := 5) (m := 5 + w) (by decide)
      (h.sampling.loneRun_endsAtS9 hlines (hproceeds (by simp [hd]) (by simp [hb]))
        (by rw [hlate]; exact decideLate_berr hd (by simpa using hn))) (by omega)
    exact ⟨t, ht, hdone.term, hcalm, hdone.busError rfl⟩

end Sys2Proof.Machine
end

section
/-! SUPPORT. What a bus cycle leaves to the other agents (20_memory.md R80), and that the bus changes hands
only between cycles (42_rmw_cycle.md R200, 45_bus_arbitration.md R261). -/

namespace Sys2Proof.Machine

/-! ## Between cycles -/

@[simp] theorem releaseClosing_run (s : State) : s.releaseClosing.run = s.run := by
  rw [releaseClosing_eq]

@[simp] theorem releaseClosing_results (s : State) : s.releaseClosing.results = s.results := by
  rw [releaseClosing_eq]

@[simp] theorem releaseClosing_mem (s : State) : s.releaseClosing.mem = s.mem := by
  rw [releaseClosing_eq]

@[simp] theorem releaseClosing_pit (s : State) : s.releaseClosing.pit = s.pit := by
  rw [releaseClosing_eq]

/-- The bus controller does nothing between cycles. -/
theorem controllerEdge_idle {s : State} (h : s.run = none) : s.controllerEdge = .next s := by
  simp only [State.controllerEdge, h]

/-- Nor does a peripheral, since no cycle has selected it. -/
theorem peripheralEdge_noCycle {s : State} (h : s.run = none) : s.peripheralEdge = .next s := by
  simp only [State.peripheralEdge, h]

/-- A half clock between cycles starts none, and reports and stores nothing. -/
theorem halfClock_noCycle {s t : State} (hr : s.run = none) (h : s.halfClock = .next t) :
    t.run = none ∧ t.results = s.results ∧ t.mem = s.mem := by
  cases hc : s.clk with
  | low =>
    rw [halfClock_rising hc, controllerEdge_idle (by simpa using hr)] at h
    cases h
    simpa using hr
  | high =>
    obtain ⟨u, v, hu, hv, ht⟩ := halfClock_falling hc h
    have a := aside_fallingEdge hu
    have hur : u.run = none := a.run.trans hr
    rw [controllerEdge_idle hur] at hv
    cases hv
    rw [peripheralEdge_noCycle hur] at ht
    cases ht; exact ⟨hur, a.results, a.mem⟩

/-! ## The owner of the bus -/

theorem requestedEdge_owner (s : State) : s.requestedEdge.owner = s.owner := by
  unfold State.requestedEdge
  split
  · split <;> rfl
  · rfl

theorem tenureEdge_owner (s : State) : s.tenureEdge.owner = s.owner := by
  rw [tenureEdge_graft]; rfl

/-- A grant with the acknowledge line passes the bus on BGACK, which R264 allows between cycles only. -/
theorem grantedThree_owner {s t : State} (hw : s.params.arbWires = .three)
    (herr : s.acknowledgeError = none) (hr : s.run ≠ none) (h : s.grantedThree = .next t) :
    t.owner = s.owner := by
  unfold State.grantedThree at h
  split at h
  · next hbg =>
    cases h
    cases ho : s.owner with
    | processor => simp [State.acknowledgeError, hw, hbg, ho, hr] at herr
    | alternate => simp
  · split at h <;> (cases h; rfl)

theorem grantedTwo_owner {s t : State} (hr : s.run ≠ none) (h : s.grantedTwo = .next t) :
    t.owner = s.owner := by
  unfold State.grantedTwo at h
  simp only [if_neg hr] at h
  split at h
  · split at h <;> (cases h; rfl)
  · split at h <;> cases h
    rfl

theorem acknowledgedEdge_owner {s t : State} (hr : s.run ≠ none) (h : s.acknowledgedEdge = .next t) :
    t.owner = s.owner := by
  unfold State.acknowledgedEdge at h
  simp only [if_neg hr] at h
  split at h <;> cases h
  exact tenureEdge_owner s

/-- Inside a cycle the arbiter lets nobody take the bus or give it back. -/
theorem arbiter_owner {s t : State} (hr : s.run ≠ none) (h : s.arbiter = .next t) :
    t.owner = s.owner := by
  unfold State.arbiter at h
  split at h
  · cases h
  · next herr =>
    split at h
    · cases h; split <;> simp
    · cases h; exact requestedEdge_owner s
    · split at h
      · next hw => exact grantedThree_owner hw herr hr h
      · exact grantedTwo_owner hr h
    · exact acknowledgedEdge_owner hr h

theorem beforeArbiter_owner (s : State) : (beforeArbiter s).owner = s.owner := by
  unfold beforeArbiter State.pitResetEdge
  split <;> rfl

theorem fallingEdge_owner {s t : State} (hr : s.run ≠ none) (h : s.fallingEdge = .next t) :
    t.owner = s.owner :=
  (arbiter_owner (s := beforeArbiter s) ((aside_beforeArbiter s).run ▸ hr) h).trans
    (beforeArbiter_owner s)

/-- No half clock of a cycle changes the owner of the bus. -/
theorem halfClock_owner {s t : State} (hr : s.run ≠ none) (h : s.halfClock = .next t) :
    t.owner = s.owner := by
  cases hc : s.clk with
  | low =>
    rw [halfClock_rising hc] at h
    exact ((kept_releaseClosing _).trans (kept_controllerEdge h)).owner
  | high =>
    obtain ⟨u, v, hu, hv, ht⟩ := halfClock_falling hc h
    exact ((kept_controllerEdge hv).trans (kept_peripheralEdge ht)).owner.trans
      (fallingEdge_owner (s := { s with clk := .low }) hr hu)

/-- Settles O45: a half clock that changes the owner is one between cycles. -/
theorem ownerChangesOnlyBetweenCycles : Obligations.OwnerChangesOnlyBetweenCycles := by
  unfold Obligations.OwnerChangesOnlyBetweenCycles
  intro s t h hne
  have hr : s.run = none := by
    by_contra hr
    exact hne (halfClock_owner hr h)
  exact ⟨hr, halfClock_noCycle hr h⟩

/-! ## The run of a cycle -/

/-- What every half clock of a cycle keeps, the run of the cycle keeps. -/
theorem runCycle_induct_running {P : State → Prop}
    (hh : ∀ s t, P s → s.cycleOver = false → s.halfClock = .next t → P t)
    (n : Nat) {s t : State} (hs : P s) (h : runCycle n s = .next t) : P t := by
  induction n generalizing s with
  | zero => cases h; exact hs
  | succ n ih =>
    cases ho : s.cycleOver with
    | true => rw [runCycle_over _ ho] at h; cases h; exact hs
    | false =>
      rw [runCycle_succ _ ho] at h
      obtain ⟨u, hu, ht⟩ := andThen_eq_next.1 h
      exact ih (hh s u hs ho hu) ht

/-- What the launch of its cycle gives and every half clock of a cycle keeps holds after a meaning. -/
theorem exec_induct_running {P : State → Prop} {i : Instr} {s t : State}
    (hl : P (launched (cycleOf s.params.dataBus i) s))
    (hh : ∀ s t, P s → s.cycleOver = false → s.halfClock = .next t → P t)
    (h : exec i s = .next t) : P t := by
  obtain ⟨-, -, hrun⟩ := exec_next h
  exact runCycle_induct_running hh _ hl hrun

/-! ## What is not the bus controller's -/

/-- The parameters and both programs are what they were, and so are the answers still to come. -/
structure SameScripts (s t : State) : Prop where
  params     : t.params = s.params
  program    : t.program = s.program
  altProgram : t.altProgram = s.altProgram
  answers    : t.answers = s.answers

theorem SameScripts.refl (s : State) : SameScripts s s := ⟨rfl, rfl, rfl, rfl⟩

theorem SameScripts.kept {s t u : State} (h : SameScripts s t) (k : Kept t u) : SameScripts s u :=
  ⟨k.params.trans h.params, k.program.trans h.program, k.altProgram.trans h.altProgram,
    k.answers.trans h.answers⟩

theorem SameScripts.aside {s t u : State} (h : SameScripts s t) (a : Aside t u) : SameScripts s u :=
  ⟨a.params.trans h.params, a.program.trans h.program, a.altProgram.trans h.altProgram,
    a.answers.trans h.answers⟩

theorem SameScripts.halfClock {s t u : State} (h : SameScripts s t) (hu : t.halfClock = .next u) :
    SameScripts s u :=
  halfClock_induct (P := SameScripts s) (fun _ _ h => ⟨h.params, h.program, h.altProgram, h.answers⟩)
    (fun t h => h.kept (kept_releaseClosing t)) (fun _ _ h ht => h.aside (aside_fallingEdge ht))
    (fun _ _ h ht => h.kept (kept_controllerEdge ht))
    (fun _ _ h ht => h.kept (kept_peripheralEdge ht)) h hu

/-- Of the scripts, a cycle takes its answers and nothing else. -/
theorem exec_scripts {i : Instr} {s t : State} (h : exec i s = .next t) :
    SameScripts (launched (cycleOf s.params.dataBus i) s) t :=
  exec_induct_running (P := SameScripts (launched (cycleOf s.params.dataBus i) s)) (.refl _)
    (fun _ _ h _ ht => h.halfClock ht) h

/-- A cycle ends under the owner it started under. -/
theorem exec_owner {i : Instr} {s t : State} (h : exec i s = .next t) : t.owner = s.owner :=
  exec_induct_running (P := fun t => t.owner = s.owner) rfl
    (fun _ _ h ho ht => (halfClock_owner (run_of_not_over ho) ht).trans h) h

/-- From `s` to `t` nothing outside the bus has touched the PI/T, and no event to come will. -/
structure PitAlone (s t : State) : Prop where
  portA    : t.inputs.portA = s.inputs.portA
  portB    : t.inputs.portB = s.inputs.portB
  pitReset : t.inputs.pitReset = false
  events   : ∀ e ∈ t.events, e.2.harmless = true

theorem PitAlone.refl {s : State} (hp : s.inputs.pitReset = false)
    (he : ∀ e ∈ s.events, e.2.harmless = true) : PitAlone s s := ⟨rfl, rfl, hp, he⟩

theorem PitAlone.launched {s t : State} (h : PitAlone s t) (c : Cycle) : PitAlone s (launched c t) :=
  ⟨h.portA, h.portB, h.pitReset, h.events⟩

theorem PitAlone.kept {s t u : State} (h : PitAlone s t) (k : Kept t u) : PitAlone s u :=
  ⟨k.portA.trans h.portA, k.portB.trans h.portB, k.pitReset.trans h.pitReset, k.events ▸ h.events⟩

/-- At a falling edge without RESET the registers stay as they are. -/
theorem PitAlone.fallingEdge {s t u : State} (h : PitAlone s t) (hu : t.fallingEdge = .next u) :
    PitAlone s u ∧ u.pit = t.pit := by
  obtain ⟨x, hx, hev, -⟩ := beforeArbiter_harmless t h.pitReset h.events
  obtain ⟨-, -, -, hin, -, -, -, -, -, -, -, -, -, hpit, -, -, -, -, hevents, -⟩ :=
    aside_arbiter (s := beforeArbiter t) hu
  rw [hx] at hin hpit hevents
  refine ⟨⟨?_, ?_, ?_, fun e he => h.events e (hev e (hevents ▸ he))⟩, hpit⟩ <;> rw [hin]
  · exact h.portA
  · exact h.portB
  · exact h.pitReset

theorem PitAlone.halfClock {s t u : State} (h : PitAlone s t) (hu : t.halfClock = .next u) :
    PitAlone s u :=
  halfClock_induct (P := PitAlone s) (fun _ _ h => ⟨h.portA, h.portB, h.pitReset, h.events⟩)
    (fun t h => h.kept (kept_releaseClosing t)) (fun _ _ h ht => (h.fallingEdge ht).1)
    (fun _ _ h ht => h.kept (kept_controllerEdge ht))
    (fun _ _ h ht => h.kept (kept_peripheralEdge ht)) h hu

/-- Settles O39: the scripts and the owner are kept half clock by half clock, and so are the PI/T's pins
where no event touches them. -/
theorem noCycleWritesTheOtherAgents : Obligations.NoCycleWritesTheOtherAgents := by
  unfold Obligations.NoCycleWritesTheOtherAgents
  intro s t i h
  obtain ⟨hparams, hprogram, halt, -⟩ := exec_scripts h
  refine ⟨hparams, hprogram, halt, exec_owner h, fun hp he => ?_⟩
  have hpit : PitAlone s t := exec_induct_running (P := PitAlone s)
    ((PitAlone.refl hp he).launched _) (fun _ _ h _ ht => h.halfClock ht) h
  exact ⟨hpit.portA, hpit.portB, hpit.pitReset⟩

end Sys2Proof.Machine
end

section
/-! SUPPORT. Read and acknowledge cycles store nothing (20_memory.md R81): a cycle keeps its kind to its end,
and the devices take data in writing cycles only. -/

namespace Sys2Proof.Machine

/-! ## A cycle keeps its kind -/

/-- What is in progress in `t` is a cycle of the kind of `c`, if anything is. -/
def GoesOn (c : Cycle) (t : State) : Prop := ∀ d, t.run = some d → d.kind = c.kind

theorem GoesOn.of_some {c d : Cycle} {t : State} (hr : t.run = some d) (hk : d.kind = c.kind) :
    GoesOn c t := fun e he => by
  rw [hr] at he
  cases he; exact hk

theorem GoesOn.of_none {c : Cycle} {t : State} (hr : t.run = none) : GoesOn c t := fun d hd => by
  rw [hr] at hd; cases hd

theorem goTo_goesOn {s t : State} {c : Cycle} {st : St} (h : s.goTo c st = .next t) : GoesOn c t := by
  obtain ⟨u, -, ⟨-, rfl⟩ | ⟨-, r, rfl⟩⟩ := goTo_enters h
  · exact .of_some rfl (Cycle.entered_kind ..)
  · exact .of_none rfl

theorem follow_goesOn {s t : State} {c : Cycle} {d : Decision} (h : s.follow c d = .next t) :
    GoesOn c t := by
  unfold State.follow at h
  split at h
  · cases h
  · exact (goTo_goesOn h :)
  · cases h; exact .of_some rfl rfl
  · cases h; exact .of_some rfl rfl

theorem sampleAndDecide_goesOn {s t : State} {c : Cycle} (h : s.sampleAndDecide c = .next t) :
    GoesOn c t := by
  unfold State.sampleAndDecide at h
  simp only at h
  split at h <;> exact follow_goesOn h

theorem endS6_goesOn {s t : State} {c : Cycle} (h : s.endS6 c = .next t) : GoesOn c t := by
  obtain ⟨term, ⟨-, rfl⟩ | hgo⟩ := endS6_cases h
  · exact .of_some rfl rfl
  · exact goTo_goesOn hgo

theorem controllerEdge_goesOn {s t : State} {c : Cycle} (hr : s.run = some c)
    (h : s.controllerEdge = .next t) : GoesOn c t := by
  simp only [State.controllerEdge, hr] at h
  split at h
  · exact sampleAndDecide_goesOn h
  · exact sampleAndDecide_goesOn h
  · exact sampleAndDecide_goesOn h
  · cases h; exact .of_some rfl rfl
  · exact endS6_goesOn h
  · cases h
  · split at h
    · exact goTo_goesOn h
    · obtain ⟨r, rfl⟩ := finish_reports h
      exact .of_none rfl

/-! ## Reading stores nothing -/

/-- A cycle that only reads. -/
def Cycle.readsOnly (c : Cycle) : Prop := c.kind = .read ∨ c.kind = .iack

theorem controllerEdge_readsOnly {s t : State} {c : Cycle} (hr : s.run = some c) (hc : c.readsOnly)
    (h : s.controllerEdge = .next t) : SameDevices s t :=
  (devicesAfter_controllerEdge hr h).resolve_right fun ⟨⟨hread, hiack, _⟩, _⟩ => hc.elim hread hiack

/-- Between `s` and `t` nothing but a cycle that only reads has run: memory is what it was, and so is the
PI/T where nothing outside the bus touches it. -/
structure OnlyRead (s t : State) : Prop where
  run : ∀ c, t.run = some c → c.readsOnly
  mem : t.mem = s.mem
  pit : PitAlone s s → PitAlone s t ∧ t.pit = s.pit

theorem OnlyRead.kept {s t u : State} (h : OnlyRead s t) (hr : ∀ c, u.run = some c → c.readsOnly)
    (k : Kept t u) (hm : u.mem = t.mem) (hp : u.pit = t.pit) : OnlyRead s u :=
  ⟨hr, hm.trans h.mem, fun hs => ⟨(h.pit hs).1.kept k, hp.trans (h.pit hs).2⟩⟩

theorem OnlyRead.fallingEdge {s t u : State} (h : OnlyRead s t) (hu : t.fallingEdge = .next u) :
    OnlyRead s u where
  run := (aside_fallingEdge hu).run ▸ h.run
  mem := (aside_fallingEdge hu).mem.trans h.mem
  pit hs := by
    obtain ⟨halone, hpit⟩ := h.pit hs
    obtain ⟨halone', hpit'⟩ := halone.fallingEdge hu
    exact ⟨halone', hpit'.trans hpit⟩

theorem OnlyRead.controllerEdge {s t u : State} (h : OnlyRead s t) (hu : t.controllerEdge = .next u) :
    OnlyRead s u := by
  cases hr : t.run with
  | none =>
    rw [controllerEdge_idle hr] at hu
    cases hu; exact h
  | some c =>
    have hc := h.run c hr
    have same := controllerEdge_readsOnly hr hc hu
    refine h.kept (fun d hd => ?_) (kept_controllerEdge hu) same.mem same.pit
    rw [Cycle.readsOnly, controllerEdge_goesOn hr hu d hd]
    exact hc

theorem OnlyRead.peripheralEdge {s t u : State} (h : OnlyRead s t) (hu : t.peripheralEdge = .next u) :
    OnlyRead s u :=
  have same := sameDevices_peripheralEdge hu
  h.kept ((peripheralEdge_cycle hu).2.1 ▸ h.run) (kept_peripheralEdge hu) same.mem same.pit

theorem OnlyRead.halfClock {s t u : State} (h : OnlyRead s t) (hu : t.halfClock = .next u) :
    OnlyRead s u :=
  halfClock_induct (P := OnlyRead s)
    (fun t k h => ⟨h.run, h.mem, fun hs =>
      have ⟨⟨hA, hB, hp, he⟩, hpit⟩ := h.pit hs
      ⟨⟨hA, hB, hp, he⟩, hpit⟩⟩)
    (fun t h => h.kept (by simpa using h.run) (kept_releaseClosing t) (releaseClosing_mem t)
      (releaseClosing_pit t))
    (fun _ _ h => h.fallingEdge) (fun _ _ h => h.controllerEdge) (fun _ _ h => h.peripheralEdge) h hu

theorem exec_onlyRead {i : Instr} {s t : State} (hi : (cycleOf s.params.dataBus i).readsOnly)
    (h : exec i s = .next t) : OnlyRead s t := by
  refine exec_induct_running (P := OnlyRead s) ⟨?_, rfl, fun hs => ⟨hs.launched _, rfl⟩⟩
    (fun _ _ h _ => h.halfClock) h
  rintro _ ⟨⟩
  exact hi

theorem cycleOf_readsOnly {bus : DataBus} {fc : Fc} {a : Addr} {level : Level} {i : Instr}
    (h : i ∈ [Instr.rdW fc a, .rdBU fc a, .rdBL fc a, .rdB8 fc a, .iack level]) :
    (cycleOf bus i).readsOnly := by
  simp only [List.mem_cons, List.not_mem_nil, or_false] at h
  rcases h with rfl | rfl | rfl | rfl | rfl
  case inr.inr.inr.inr => exact .inr rfl
  all_goals exact .inl rfl

/-- Settles O40: the cycle only reads, half clock by half clock. -/
theorem readCyclesStoreNothing : Obligations.ReadCyclesStoreNothing := by
  unfold Obligations.ReadCyclesStoreNothing
  intro s t fc a level i hi h
  have hread := exec_onlyRead (cycleOf_readsOnly hi) h
  exact ⟨hread.mem, fun hp he => (hread.pit (PitAlone.refl hp he)).2⟩

end Sys2Proof.Machine
end

section
/-! SUPPORT. A step returns at most one result, under the master that owns the bus (20_memory.md R84, R85): a
cycle reports in the half clock that ends it, and no other cycle starts in the same step. -/

namespace Sys2Proof.Machine

/-! ## The states of a cycle report nothing -/

@[simp] theorem deviceTakes_results (s : State) (c : Cycle) (v : Half) :
    (s.deviceTakes c v).results = s.results := by rw [deviceTakes_eq]

@[simp] theorem deviceNegates_results (s : State) (a : Answer) :
    (s.deviceNegates a).results = s.results := by
  unfold State.deviceNegates
  split <;> rfl

@[simp] theorem deviceReleasesData_results (s : State) (a : Answer) :
    (s.deviceReleasesData a).results = s.results := by
  unfold State.deviceReleasesData
  split <;> rfl

@[simp] theorem negateAll_results (s : State) (a : Answer) : (s.negateAll a).results = s.results := by
  simp [State.negateAll]

theorem driveData_results {s t : State} {d : DataLines} (h : s.driveData d = .next t) :
    t.results = s.results := by
  unfold State.driveData at h
  split at h
  · cases h; rfl
  · split at h <;> cases h
    rfl

theorem deviceDrives_results {s t : State} {c : Cycle} (h : s.deviceDrives c = .next t) :
    t.results = s.results := driveData_results (s := s.drawn 2) h

theorem dataPhase_results {s t : State} {c : Cycle} (h : s.dataPhase c = .next t) :
    t.results = s.results := by
  unfold State.dataPhase at h
  split at h
  · cases h; rfl
  · exact deviceDrives_results h

theorem formatR_results {c : Cycle} {st : St} {s t : State} (h : formatR c st s = .next t) :
    t.results = s.results := by
  unfold formatR at h
  split at h
  case h_4 => exact dataPhase_results h
  all_goals cases h
  case h_5 => split <;> simp
  all_goals simp

theorem formatW_results {c : Cycle} {st : St} {s t : State} (h : formatW c st s = .next t) :
    t.results = s.results := by
  unfold formatW at h
  split at h
  case h_4 => exact driveData_results (s := s.drawn 1) h
  all_goals cases h
  case h_6 => split <;> simp
  all_goals simp

theorem formatM_results {c : Cycle} {st : St} {s t : State} (h : formatM c st s = .next t) :
    t.results = s.results := by
  unfold formatM at h
  split at h
  case h_4 => exact dataPhase_results h
  case h_8 => exact driveData_results (s := s.drawn 1) h
  all_goals cases h
  case h_10 => split <;> simp
  all_goals simp

theorem enterState_results {c : Cycle} {st : St} {s t : State} (h : enterState c st s = .next t) :
    t.results = s.results := by
  unfold enterState at h
  split at h
  · exact formatR_results h
  · exact formatR_results h
  · exact formatW_results h
  · exact formatM_results h

theorem peripheralEdge_results {s t : State} (h : s.peripheralEdge = .next t) :
    t.results = s.results := by
  unfold State.peripheralEdge at h
  split at h
  · cases h; rfl
  · split at h
    · split at h
      · exact deviceDrives_results h
      · split at h <;> cases h
        · exact deviceReleasesData_results s _
        · rfl
    · cases h; rfl

/-! ## A cycle reports where it ends -/

/-- From `s` to `t` the master of `s` has ended its cycle with one result. -/
def Reported (s t : State) : Prop :=
  t.cycleOver = true ∧ ∃ r, t.results = { master := s.owner, result := r } :: s.results

/-- Nothing has been reported, or the cycle is over with its result. -/
def ReportsAtEnd (s t : State) : Prop := t.results = s.results ∨ Reported s t

/-- What is the same for a report. -/
theorem ReportsAtEnd.of_same {s s' t t' : State} (h : ReportsAtEnd s' t) (hs : s'.results = s.results)
    (ho : s'.owner = s.owner) (ht : t'.results = t.results) (hr : t'.run = t.run) :
    ReportsAtEnd s t' := by
  simpa only [ReportsAtEnd, Reported, State.cycleOver, hs, ho, ht, hr] using h

theorem goTo_reportsAtEnd {s t : State} {c : Cycle} {st : St} (h : s.goTo c st = .next t) :
    ReportsAtEnd s t := by
  obtain ⟨u, hu, ⟨-, rfl⟩ | ⟨-, r, rfl⟩⟩ := goTo_enters h
  · exact .inl (enterState_results hu :)
  · refine .inr ⟨rfl, r, ?_⟩
    rw [← enterState_results hu, ← (kept_enterState hu).owner]
    rfl

theorem finish_reportsAtEnd {s t : State} {c : Cycle} (h : s.finish c = .next t) : ReportsAtEnd s t := by
  obtain ⟨r, rfl⟩ := finish_reports h
  exact .inr ⟨rfl, r, rfl⟩

theorem follow_reportsAtEnd {s t : State} {c : Cycle} {d : Decision} (h : s.follow c d = .next t) :
    ReportsAtEnd s t := by
  unfold State.follow at h
  split at h
  · cases h
  · exact (goTo_reportsAtEnd h :)
  · cases h
    unfold State.stretchVma
    split <;> exact .inl rfl
  · cases h; exact .inl rfl

theorem sampleAndDecide_reportsAtEnd {s t : State} {c : Cycle} (h : s.sampleAndDecide c = .next t) :
    ReportsAtEnd s t := by
  refine ReportsAtEnd.of_same (s' := s.sampleLines c false) (t := t) ?_ rfl rfl rfl rfl
  unfold State.sampleAndDecide at h
  simp only at h
  split at h <;> exact follow_reportsAtEnd h

theorem atEndS6_results (s : State) (c : Cycle) (term : Term) : (atEndS6 s c term).results = s.results := by
  unfold atEndS6 State.latchFor
  split <;> rfl

theorem atEndS6_owner (s : State) (c : Cycle) (term : Term) : (atEndS6 s c term).owner = s.owner :=
  (kept_latchFor (s.sampleLines c true) c).owner

theorem endS6_reportsAtEnd {s t : State} {c : Cycle} (h : s.endS6 c = .next t) : ReportsAtEnd s t := by
  obtain ⟨term, h⟩ := endS6_cases h
  refine ReportsAtEnd.of_same (s' := atEndS6 s c term) (t := t) ?_ (atEndS6_results ..)
    (atEndS6_owner ..) rfl rfl
  rcases h with ⟨-, rfl⟩ | hgo
  · exact .inr ⟨rfl, _, rfl⟩
  · exact goTo_reportsAtEnd hgo

theorem controllerEdge_reportsAtEnd {s t : State} (h : s.controllerEdge = .next t) :
    ReportsAtEnd s t := by
  unfold State.controllerEdge at h
  split at h
  · cases h; exact .inl rfl
  · split at h
    · exact sampleAndDecide_reportsAtEnd h
    · exact sampleAndDecide_reportsAtEnd h
    · exact sampleAndDecide_reportsAtEnd h
    · cases h; exact .inl rfl
    · exact endS6_reportsAtEnd h
    · cases h
    · split at h
      · exact goTo_reportsAtEnd h
      · exact finish_reportsAtEnd h

/-- A half clock of a cycle. -/
theorem halfClock_reportsAtEnd {s t : State} (hr : s.run ≠ none) (h : s.halfClock = .next t) :
    ReportsAtEnd s t := by
  cases hc : s.clk with
  | low =>
    rw [halfClock_rising hc] at h
    exact (controllerEdge_reportsAtEnd h).of_same (by simp) (kept_releaseClosing _).owner rfl rfl
  | high =>
    obtain ⟨u, v, hu, hv, ht⟩ := halfClock_falling hc h
    exact (controllerEdge_reportsAtEnd hv).of_same (aside_fallingEdge hu).results
      (fallingEdge_owner (s := { s with clk := .low }) hr hu) (peripheralEdge_results ht)
      (peripheralEdge_cycle ht).2.1

/-! ## A cycle that is over reports nothing more -/

/-- After BERR in the read portion of a read-modify-write cycle there is no further half clock (R198). -/
theorem halfClock_faulted {s t : State} {c : Cycle} (hr : s.run = some c) (hst : c.st = .faulted) :
    s.halfClock ≠ .next t := by
  have stops {u v : State} (hu : u.run = some c) : u.controllerEdge ≠ .next v := by
    simp [State.controllerEdge, hu, hst]
  intro h
  cases hc : s.clk with
  | low =>
    rw [halfClock_rising hc] at h
    exact stops (by simpa using hr) h
  | high =>
    obtain ⟨u, v, hu, hv, -⟩ := halfClock_falling hc h
    exact stops ((aside_fallingEdge hu).run.trans hr) hv

theorem halfClock_over {s t : State} (ho : s.cycleOver = true) (h : s.halfClock = .next t) :
    t.run = none ∧ t.results = s.results := by
  cases hr : s.run with
  | none =>
    obtain ⟨hrun, hresults, -⟩ := halfClock_noCycle hr h
    exact ⟨hrun, hresults⟩
  | some c =>
    have hst : c.st = .faulted := by simpa [State.cycleOver, hr] using ho
    exact absurd h (halfClock_faulted hr hst)

/-! ## A step -/

/-- On the way of a step from `s`: nothing is reported yet, and a cycle in progress is that of the master
of `s`; or that cycle is over with its result. -/
def ReportsOnce (s t : State) : Prop :=
  (t.results = s.results ∧ (t.run ≠ none → t.owner = s.owner)) ∨ Reported s t

theorem ReportsOnce.start {s t : State} (hr : t.results = s.results) (ho : t.owner = s.owner) :
    ReportsOnce s t := .inl ⟨hr, fun _ => ho⟩

theorem ReportsOnce.halfClock {s t u : State} (h : ReportsOnce s t) (hu : t.halfClock = .next u) :
    ReportsOnce s u := by
  rcases h with ⟨hresults, howner⟩ | ⟨hover, r, hr⟩
  · by_cases hrun : t.run = none
    · obtain ⟨hrun', hresults', -⟩ := halfClock_noCycle hrun hu
      exact .inl ⟨hresults'.trans hresults, fun hne => absurd hrun' hne⟩
    · rcases halfClock_reportsAtEnd hrun hu with hsame | ⟨hover, r, hr⟩
      · exact .start (hsame.trans hresults) ((halfClock_owner hrun hu).trans (howner hrun))
      · exact .inr ⟨hover, r, by rw [hr, howner hrun, hresults]⟩
  · obtain ⟨hrun, hresults⟩ := halfClock_over hover hu
    exact .inr ⟨by simp [State.cycleOver, hrun], r, hresults.trans hr⟩

theorem withQueue_queue (s : State) : s.withQueue s.queue = s := by
  unfold State.withQueue State.queue
  split <;> rfl

/-- What a step can do once it has taken its item: nothing, one CLK cycle, or one transaction. -/
theorem step_cases {s t : State} (h : step s = .next t) : ∃ q,
    t = s.withQueue q ∨ (s.withQueue q).clkCycle = .next t ∨
      ∃ i, exec i (s.withQueue q) = .next t := by
  have idle (h : s.clkCycle = .next t) : (s.withQueue s.queue).clkCycle = .next t := by
    rwa [withQueue_queue]
  simp only [step, stepOnce] at h
  split at h
  · exact ⟨_, .inr (.inl (idle h))⟩
  · split at h
    · unfold State.issue at h
      split at h
      · exact ⟨_, .inr (.inl (idle h))⟩
      · cases h; exact ⟨_, .inl rfl⟩
      · exact ⟨_, .inr (.inl h)⟩
      · split at h
        · cases h
        · split at h
          · exact ⟨_, .inr (.inr ⟨_, h⟩)⟩
          · exact ⟨_, .inr (.inl (idle h))⟩
    · exact ⟨_, .inr (.inl (idle h))⟩

@[simp] theorem withQueue_results (s : State) (q : List Item) : (s.withQueue q).results = s.results := by
  unfold State.withQueue
  split <;> rfl

@[simp] theorem withQueue_owner (s : State) (q : List Item) : (s.withQueue q).owner = s.owner := by
  unfold State.withQueue
  split <;> rfl

/-- Settles O11: a step is one CLK cycle or one transaction, and both report once. -/
theorem oneResultPerStep : Obligations.OneResultPerStep := by
  unfold Obligations.OneResultPerStep
  intro s t h
  have once : ReportsOnce s t := by
    obtain ⟨q, rfl | h | ⟨i, h⟩⟩ := step_cases h
    · exact .start (withQueue_results s q) (withQueue_owner s q)
    · exact clkCycle_induct (P := ReportsOnce s) (fun _ _ h => h.halfClock)
        (.start (withQueue_results s q) (withQueue_owner s q)) h
    · exact exec_induct_running (P := ReportsOnce s)
        (.start (withQueue_results s q) (withQueue_owner s q)) (fun _ _ h _ => h.halfClock) h
  exact once.imp (·.1) (·.2)

end Sys2Proof.Machine
end

section
/-! SUPPORT. A read of the resident device (20_memory.md R75, R76, R90): where no answer is scripted, DTACK
after the wait pairs of `Mem(w)`, and on each lane the byte the device holds. -/

namespace Sys2Proof.Machine

/-! ## DTACK after some wait pairs -/

/-- Where nothing is scripted, the device at the address answers by DTACK (R90; log 12). -/
theorem prepared_answer_unscripted {s : State} {c : Cycle} (h : s.answers = []) (hk : c.kind ≠ .iack) :
    (s.prepared c).answer = Answer.of (.dtack s.params.memWaits none) := by
  have hshape : s.residentShape c = .dtack s.params.memWaits none := by
    unfold State.residentShape
    split
    · next he => exact absurd he hk
    all_goals rfl
  simp [State.prepared, State.answerFor, h, Answer.of, hshape]

section
variable {c : Cycle} {w : Nat} {d : Option Half} (ha : c.answer = Answer.of (.dtack w d))
include ha

theorem Cycle.polite_dtack : c.answer.polite := by
  rw [ha]; exact ⟨rfl, rfl⟩

theorem Cycle.lines_before_dtack {k : Nat} (hk : k < w) : c.lines k = (false, false, false, false) := by
  simp [Cycle.lines, ha, Answer.of, Shape.driveAt, Drive.quiet, hk]

theorem Cycle.lines_dtack {k : Nat} (hk : w ≤ k) : c.lines k = (true, false, false, false) := by
  simp [Cycle.lines, ha, Answer.of, Shape.driveAt, Drive.quiet, hk]

/-- end(S6) confirms DTACK, since nothing else is asserted with it (R144). -/
theorem Cycle.lateDecision_dtack (i : Inputs) :
    c.lateDecision (i.withLines true false false false) .dtack = some .dtack := by
  simp [Cycle.lateDecision, Cycle.lateInputs, Inputs.withLines, ha, Answer.of, Shape.driveAt, Drive.quiet,
    decideLate]

end

/-! ## A meaning that comes to its sampling edge -/

/-- The explicit form of `exec_read_sampled`: whoever answers, scripted or not. -/
theorem comesToSample_sampledState {i : Instr} {s : State} {fc : Fc} {a : Addr} {strobes : Strobes} {w : Nat}
    {d : Option Half} (h : s.Ready) (hw : i.wf s.params.dataBus = true)
    (hc : cycleOf s.params.dataBus i = newCycle .read fc a strobes 0 0)
    (ha : (s.prepared (newCycle .read fc a strobes 0 0)).answer = Answer.of (.dtack w d)) :
    ComesToSample i s (sampledState w (newCycle .read fc a strobes 0 0) s)
      (sampledCycle w (newCycle .read fc a strobes 0 0) s) w := by
  obtain ⟨⟨x, hx⟩, hcalm⟩ := exec_lone keepsOut_calm hw h.run h.owner (calm_launched h.toCalm _)
  rw [hc] at hx
  have hrun (n : Nat) := loneRun_sampled (c := newCycle .read fc a strobes 0 0) h.toBusFree rfl rfl w n
    fun k hk => Cycle.lines_before_dtack ha (by simpa [newCycle] using hk)
  exact {
    sampling := sampledState_sampling h.toBusFree rfl rfl (Cycle.polite_dtack ha) w
    results := rfl
    owner := rfl
    count := by
      show s.clkCount + 1 + 1 + w = _
      omega
    mem := rfl
    pit := rfl
    edge := Nat.zero_add w
    runs := fun k hk hs => by
      have hb : k + 2 * w + 5 ≤ cycleBudget (s.prepared (newCycle .read fc a strobes 0 0)) := by
        rw [cycleBudget, ha]
        simp only [Answer.of, Shape.patience]
        omega
      refine ⟨x, ?_⟩
      rw [hx, loneRun_settled hb (by rw [hrun]; exact hs), hrun]
    calm := hcalm }

/-- `ComesToSample.completes` for a final state that is known. -/
theorem ComesToSample.completes_in {i : Instr} {s u t : State} {c : Cycle} {w k n m : Nat} {term : Term}
    (h : ComesToSample i s u c w) (hk : k ≤ 100) (hrun : loneRun k u = .next t)
    (hdone : ReadDone u c t term n) (hm : 2 + w + n = m) :
    ∃ x, exec i s = .next (graft t x) ∧ (graft t x).Calm ∧ ReadDone s c (graft t x) term m := by
  subst hm
  have hover : t.cycleOver = true := by simp [State.cycleOver, hdone.completed.run]
  obtain ⟨x, hx⟩ := h.runs k hk (hrun ▸ settled_next hover)
  rw [hrun] at hx
  exact ⟨x, hx, h.calm _ hx, (hdone.graft x).since h.results h.owner h.count h.mem h.pit⟩

/-! ## What the device drives is what it holds -/

theorem hiByte_latch {s : State} {x : Strobes} {v : Byte} (hx : x.upperLane = true)
    (h : s.pins.data.hi = some v) : hiByte (s.latch x).din = v := by
  cases x
  case ds => cases hx
  all_goals simp [State.latch, State.drawn, h]

theorem loByte_latch {s : State} {x : Strobes} {v : Byte} (h : s.pins.data.lo = some v) :
    loByte (s.latch x).din = v := by
  simp [State.latch, State.drawn, h]

theorem deviceData_unscripted {s : State} {c : Cycle} (hk : c.kind = .read)
    (h : (c.answer.shape.driveAt c.edge true).data = none) : s.deviceData c = s.residentData c := by
  simp only [State.deviceData, h, hk]

theorem residentData_hi {s : State} {c : Cycle} {v : Byte} (hl : c.strobes.upperLane = true)
    (h : s.byteAt c.fc (upperByteAddr c.addr) = some v) : (s.residentData c).hi = some v := by
  simp [State.residentData, hl, h]

theorem residentData_lo {s : State} {c : Cycle} {v : Byte} (hl : c.strobes.lowerLane = true)
    (h : s.byteAt c.fc (lowerByteAddr c.strobes c.addr) = some v) : (s.residentData c).lo = some v := by
  simp [State.residentData, hl, h]

/-- In `din` of `t` stands, on each selected lane, the byte that the device held in `s` at the address of the
lane, if it held one. -/
structure LatchesHeld (s : State) (fc : Fc) (a : Addr) (x : Strobes) (t : State) : Prop where
  hi : x.upperLane = true → ∀ v, s.byteAt fc (upperByteAddr a) = some v → hiByte t.din = v
  lo : x.lowerLane = true → ∀ v, s.byteAt fc (lowerByteAddr x a) = some v → loByte t.din = v

@[simp] theorem deviceReleasesData_din (s : State) (a : Answer) : (s.deviceReleasesData a).din = s.din := by
  unfold State.deviceReleasesData
  split <;> rfl

@[simp] theorem negateAll_din (s : State) (a : Answer) : (s.negateAll a).din = s.din := by
  unfold State.negateAll State.deviceNegates
  split <;> rfl

@[simp] theorem ended_din (s : State) (c : Cycle) : (ended s c).din = s.din := by
  simp [ended, closed]

/-- The data latched at end(S6), from what the device at the address drives in S6 (R138). -/
theorem afterS6_latchesHeld {s : State} {c : Cycle} (d b v a : Bool) (term late : Term) (hk : c.kind = .read)
    (h : (c.answer.shape.driveAt (c.edge + 1) true).data = none) :
    LatchesHeld s c.fc c.addr c.strobes
      (afterS6 (sampledToS6 s c (s.inputs.withLines d b v a) term) c.recognised late) := by
  have hdata : (sampledToS6 s c (s.inputs.withLines d b v a) term).pins.data =
      (inS5 s c (s.inputs.withLines d b v a) term).residentData { c with st := .S5, edge := c.edge + 1 } :=
    deviceData_unscripted (c := { c with st := .S5, edge := c.edge + 1 }) hk h
  have hbyte (fc : Fc) (x : Addr) :
      (inS5 s c (s.inputs.withLines d b v a) term).byteAt fc x = s.byteAt fc x := rfl
  refine ⟨fun hl x hx => hiByte_latch hl ?_, fun hl x hx => loByte_latch ?_⟩
  · exact (congrArg DataLines.hi hdata).trans (residentData_hi hl ((hbyte _ _).trans hx))
  · exact (congrArg DataLines.lo hdata).trans (residentData_lo hl ((hbyte _ _).trans hx))

/-- A read that its unscripted device ends by DTACK. -/
theorem Sampling.loneRun_resident {s : State} {c : Cycle} {w : Nat} (h : Sampling s c)
    (ha : c.answer = Answer.of (.dtack w none)) (hedge : w ≤ c.edge) :
    ∃ t, loneRun 3 s = .next t ∧ ReadDone s c t .dtack 2 ∧ LatchesHeld s c.fc c.addr c.strobes t := by
  have h6 := h.inS6 (s.inputs.withLines true false false false) .dtack
  have hlatch := afterS6_latchesHeld (s := s) true false false false .dtack .dtack h.kind
    (by rw [ha]; rfl)
  rw [h.loneRun_toS6 (Cycle.lines_dtack ha hedge) rfl 1, loneRun_succ 0 h6.run nofun,
    h6.endsAtS7 rfl rfl (Cycle.lateDecision_dtack (c := c.recognised) ha _) nofun, andThen_next]
  refine ⟨_, rfl, readDone_of_ended h.kind h.polite h.held rfl rfl rfl rfl rfl rfl
    fun _ hv => afterS6_scripted hv, fun hl v hv => ?_, fun hl v hv => ?_⟩
  · rw [ended_din]; exact hlatch.hi hl v hv
  · rw [ended_din]; exact hlatch.lo hl v hv

/-! ## Whole reads -/

/-- A read of the resident device, from its issue to its result. -/
theorem exec_read_resident {i : Instr} {s : State} {fc : Fc} {a : Addr} {x : Strobes} (h : s.Ready)
    (hans : s.answers = []) (hw : i.wf s.params.dataBus = true)
    (hc : cycleOf s.params.dataBus i = newCycle .read fc a x 0 0) :
    ∃ t, exec i s = .next t ∧ Completed s t (readResult x t.din) (4 + s.params.memWaits) ∧ t.Calm ∧
      LatchesHeld s fc a x t := by
  have ha := prepared_answer_unscripted (c := newCycle .read fc a x 0 0) hans nofun
  have hsample := comesToSample_sampledState h hw hc ha
  obtain ⟨t, ht, hdone, hheld⟩ := hsample.sampling.loneRun_resident ha hsample.edge.ge
  obtain ⟨y, hy, hcalm, hdone'⟩ := hsample.completes_in (m := 4 + s.params.memWaits) (by decide) ht hdone
    (by omega)
  exact ⟨graft t y, hy, hdone'.ok rfl, hcalm, hheld.hi, hheld.lo⟩

/-! ## The addresses of the lanes -/

theorem upperByteAddr_of_even {a : Addr} (h : Addr.isOdd a = false) : upperByteAddr a = a := by
  simpa [upperByteAddr, h] using even_or_bitZero a

theorem or_one_of_odd {a : Addr} (h : Addr.isOdd a = true) : a ||| 1 = a := by
  have ha : (a &&& 0xFFFFFE) ||| 1 = a := by simpa [h] using even_or_bitZero a
  rw [← ha, BitVec.or_assoc, BitVec.or_self]

theorem or_one_of_even {a : Addr} (h : Addr.isOdd a = false) : a ||| 1 = a + 1 := by
  have hdisjoint : a &&& 1 = 0 := by
    refine BitVec.eq_of_getLsbD_eq fun i hi => ?_
    by_cases h0 : i = 0
    · subst h0; simpa [Addr.isOdd] using h
    · simp [h0]
  exact (BitVec.add_eq_or_of_and_eq_zero a 1 hdisjoint).symm

/-! ## What a well-formed read is -/

theorem even_of_wf_rdW {bus : DataBus} {fc : Fc} {a : Addr} (h : Instr.wf bus (.rdW fc a) = true) :
    Addr.isOdd a = false := by
  simpa using (ofRequest_eq_none (illegal_of_wf h)).2.2

theorem even_of_wf_rdBU {bus : DataBus} {fc : Fc} {a : Addr} (h : Instr.wf bus (.rdBU fc a) = true) :
    Addr.isOdd a = false := by
  simpa using (ofRequest_eq_none (illegal_of_wf h)).2.2

theorem odd_of_wf_rdBL {bus : DataBus} {fc : Fc} {a : Addr} (h : Instr.wf bus (.rdBL fc a) = true) :
    Addr.isOdd a = true := by
  simpa using (ofRequest_eq_none (illegal_of_wf h)).2.2

section
variable {s : State} {fc : Fc} {a : Addr} (h : s.Ready) (hans : s.answers = [])
include h hans

/-- RD.W returns the byte at its address, then the one after it (R76). -/
theorem exec_rdW_resident (hw : Instr.wf s.params.dataBus (.rdW fc a) = true) :
    ∃ t hi lo, exec (.rdW fc a) s = .next t ∧
      Completed s t (.okWord (halfOf hi lo)) (4 + s.params.memWaits) ∧ t.Calm ∧
      (∀ x, s.byteAt fc a = some x → hi = x) ∧ (∀ x, s.byteAt fc (a + 1) = some x → lo = x) := by
  obtain ⟨t, ht, hdone, hcalm, hheld⟩ := exec_read_resident (x := .word) h hans hw rfl
  have heven := even_of_wf_rdW hw
  have hupper : upperByteAddr a = a := upperByteAddr_of_even heven
  have hlower : lowerByteAddr .word a = a + 1 := or_one_of_even heven
  refine ⟨t, hiByte t.din, loByte t.din, ht, ?_, hcalm, ?_, ?_⟩
  · rwa [halfOf_bytes]
  · exact hupper ▸ hheld.hi rfl
  · exact hlower ▸ hheld.lo rfl

theorem exec_rdBU_resident (hw : Instr.wf s.params.dataBus (.rdBU fc a) = true) :
    ∃ t v, exec (.rdBU fc a) s = .next t ∧ Completed s t (.okByte v) (4 + s.params.memWaits) ∧ t.Calm ∧
      ∀ x, s.byteAt fc a = some x → v = x := by
  obtain ⟨t, ht, hdone, hcalm, hheld⟩ := exec_read_resident (x := .upper) h hans hw rfl
  have hupper : upperByteAddr a = a := upperByteAddr_of_even (even_of_wf_rdBU hw)
  exact ⟨t, hiByte t.din, ht, hdone, hcalm, hupper ▸ hheld.hi rfl⟩

theorem exec_rdBL_resident (hw : Instr.wf s.params.dataBus (.rdBL fc a) = true) :
    ∃ t v, exec (.rdBL fc a) s = .next t ∧ Completed s t (.okByte v) (4 + s.params.memWaits) ∧ t.Calm ∧
      ∀ x, s.byteAt fc a = some x → v = x := by
  obtain ⟨t, ht, hdone, hcalm, hheld⟩ := exec_read_resident (x := .lower) h hans hw rfl
  have hlower : lowerByteAddr .lower a = a := or_one_of_odd (odd_of_wf_rdBL hw)
  exact ⟨t, loByte t.din, ht, hdone, hcalm, hlower ▸ hheld.lo rfl⟩

theorem exec_rdB8_resident (hw : Instr.wf s.params.dataBus (.rdB8 fc a) = true) :
    ∃ t v, exec (.rdB8 fc a) s = .next t ∧ Completed s t (.okByte v) (4 + s.params.memWaits) ∧ t.Calm ∧
      ∀ x, s.byteAt fc a = some x → v = x := by
  obtain ⟨t, ht, hdone, hcalm, hheld⟩ := exec_read_resident (x := .ds) h hans hw rfl
  exact ⟨t, loByte t.din, ht, hdone, hcalm, hheld.lo rfl⟩

end

/-- Settles O19: on each lane the byte of its address is latched, and the result is what is latched. -/
theorem readReturnsWhatTheDeviceHolds : Obligations.ReadReturnsWhatTheDeviceHolds := by
  unfold Obligations.ReadReturnsWhatTheDeviceHolds
  refine fun s fc a h hans => ⟨exec_rdW_resident h hans, fun i hi => ?_⟩
  simp only [List.mem_cons, List.not_mem_nil, or_false] at hi
  rcases hi with rfl | rfl | rfl
  · exact exec_rdBU_resident h hans
  · exact exec_rdBL_resident h hans
  · exact exec_rdB8_resident h hans

end Sys2Proof.Machine
end

section
/-! SUPPORT. The run of a write that DTACK ends (41_write_cycle.md R161 to R170), half clock by half clock, for
a device that keeps its obligations (R141). -/

namespace Sys2Proof.Machine

/-! ## A write on a bus nobody else drives -/

/-- A write in progress, asynchronous so far, with no device left on the bus and a polite device of its
own. -/
structure Writing (s : State) (c : Cycle) : Prop where
  run     : s.run = some c
  kind    : c.kind = .write
  first   : c.second = false
  polite  : c.answer.polite
  closing : s.closing = none
  vma     : s.pins.vma = .negated
  held    : s.held = DataLines.z

/-- A write at the end of S4 or of a wait pair, before anything is recognised. -/
structure WriteSampling (s : State) (c : Cycle) : Prop extends Writing s c where
  st     : c.st.samples
  clk    : s.clk = .high
  term   : s.term = .none
  silent : s.inputs.silent

/-- The state in S6 of a write: nothing is driven but CLK (R166). -/
def writeInS6 (s : State) (c : Cycle) : State := { s with clk := .high, run := some { c with st := .S6 } }

/-- The state after end(S6) of a write, which latches nothing (R167). -/
def writeAfterS6 (s : State) (c : Cycle) (term : Term) : State :=
  { tick { s with clk := .low, inputs := c.lateInputs s.inputs } with term := term }

/-- A write that has ended, in its last state, with its result (R168, R170, R171). -/
def written (s : State) (c : Cycle) : State :=
  ({ (s.deviceTakes c c.wdata).negateAll c.answer with run := none, closing := some c } : State).report
    (if s.term.isBerr then .busError { kind := .write, fc := c.fc, addr := c.addr } else .ok)

theorem enterState_write {c : Cycle} (hk : c.kind = .write) (st : St) (s : State) :
    enterState c st s = formatW c st s := by
  simp only [enterState, hk]

theorem Cycle.entered_S7_write {c : Cycle} (hk : c.kind = .write) (din : Half) :
    c.entered .S7 din = { c with st := .S7 } := by
  simp [Cycle.entered, hk]

theorem finish_written {c : Cycle} (hk : c.kind = .write) (s : State) :
    ((s.deviceTakes c c.wdata).negateAll c.answer).finish c = .next (written s c) := by
  have hterm : ((s.deviceTakes c c.wdata).negateAll c.answer).term = s.term := by simp
  simp only [State.finish, State.finishResult, hk, hterm, State.raiseBusError, written]
  split <;> rfl

@[simp] theorem written_vma (s : State) (c : Cycle) : (written s c).pins.vma = .negated := by
  simp [written]

/-! ## Half clock by half clock -/

theorem WriteSampling.recognises {s : State} {c : Cycle} {d b v a : Bool} {term : Term}
    (h : WriteSampling s c) (hl : c.lines c.edge = (d, b, v, a))
    (hd : decideFirst d b v false = .proceed term) :
    loneHalf s = .next (inS5 s c (s.inputs.withLines d b v a) term) := by
  have hrec : recognisedSt c = .S5 := by simp [recognisedSt, h.first]
  have hgo : (tick { s with clk := .low, inputs := s.inputs.withLines d b v a }).follow c (.proceed term) =
      .next (inS5 s c (s.inputs.withLines d b v a) term) := by
    simp only [State.follow, hrec]
    exact (goTo_between (st' := .S6)
      (enterState_write (c := { c with edge := c.edge + 1 }) h.kind .S5 _) rfl).trans rfl
  have hiack : (s.params.hasAvec && decide (c.kind = .iack) && a) = false := by simp [h.kind]
  rw [loneHalf_samples h.run h.st h.clk h.term h.silent hl, hiack, hd, hgo, andThen_next]
  exact peripheralEdge_idle (by show s.pins.vma ≠ .asserted; simp [h.vma])

theorem Writing.fromS5 {s : State} {c : Cycle} (h : Writing s c) (hs : c.st = .S5) (hc : s.clk = .low) :
    loneHalf s = .next (writeInS6 s c) := by
  rw [loneHalf_rising (st := .S6) hc h.closing h.run (by rw [hs]; rfl) (by rw [hs]; rfl)]
  exact goTo_between (st := .S6) (st' := .S7) (enterState_write h.kind _ _) rfl

/-- end(S6) goes on to S7 with what it has decided, outside a read-modify-write cycle (R144). -/
theorem endS6_of_lateDecision {s : State} {c : Cycle} {term : Term} (hk : c.kind ≠ .rmw)
    (hd : c.lateDecision s.inputs s.term = some term) :
    s.endS6 c = (atEndS6 s c term).goTo c .S7 := by
  have hlate : decideLate ((s.sampleLines c true).latchFor c).term
      ((s.sampleLines c true).latchFor c).inputs.dtack ((s.sampleLines c true).latchFor c).inputs.berr
      ((s.sampleLines c true).latchFor c).inputs.vpa = some term := by
    unfold State.latchFor
    split <;> exact hd
  simp [State.endS6, hlate, hk, atEndS6]

theorem Writing.controllerEdge_S6 {s : State} {c : Cycle} {term : Term} (h : Writing s c) (hs : c.st = .S6)
    (hd : c.lateDecision s.inputs s.term = some term) :
    (tick { s with clk := .low }).controllerEdge = (writeAfterS6 s c term).goTo c .S7 := by
  have hr : (tick { s with clk := .low }).run = some c := h.run
  have hlatch : atEndS6 (tick { s with clk := .low }) c term = writeAfterS6 s c term := by
    simp only [atEndS6, State.latchFor, h.kind]
    rfl
  simp only [State.controllerEdge, hr, hs]
  rw [endS6_of_lateDecision (by simp [h.kind]) (by exact hd), hlatch]

/-- Without BERR alone the write ends at S7 (R170). -/
theorem Writing.endsAtS7 {s : State} {c : Cycle} {term : Term} (h : Writing s c) (hs : c.st = .S6)
    (hc : s.clk = .high) (hd : c.lateDecision s.inputs s.term = some term) (hb : term ≠ .berr) :
    loneHalf s = .next (written (writeAfterS6 s c term) { c with st := .S7 }) := by
  refine loneHalf_falling hc ?_ (written_vma ..)
  have ht : (writeAfterS6 s c term).term = term := rfl
  have hu : enterState c .S7 (writeAfterS6 s c term) =
      .next (((writeAfterS6 s c term).deviceTakes c c.wdata).negateAll c.answer) := by
    simp only [enterState_write h.kind, formatW, ht, hb, if_false]
  rw [h.controllerEdge_S6 hs hd, goTo_last hu (by simp [nextSt, h.kind, ht, hb]),
    Cycle.entered_S7_write h.kind]
  exact finish_written (c := { c with st := .S7 }) h.kind _

/-! ## From the sampling edge to the end -/

theorem written_eq {s : State} {c : Cycle} (hp : c.answer.polite) (hb : s.term.isBerr = false) :
    written s c = { s with
      pins := { s.pins with
        strobeAS := .negated, uds := .negated, lds := .negated, ds := .negated, vma := .negated }
      inputs := s.inputs.withLines false false false false
      run := none, closing := some c
      mem := (s.storeLanes c c.wdata).mem, pit := (s.storeLanes c c.wdata).pit
      results := { master := s.owner, result := .ok } :: s.results } := by
  simp only [written, deviceTakes_stores _ _ hb, State.negateAll, State.deviceNegates, hp.1, hb,
    Bool.false_eq_true, if_false]
  rw [storeLanes_eq]
  rfl

/-- What the write `c` has left in `t`, ended well by `term` and `n` CLK cycles after `s`: its data, stored on
its lanes. -/
structure WriteDone (s : State) (c : Cycle) (t : State) (term : Term) (n : Nat) : Prop where
  completed : Completed s t .ok n
  term      : t.term = term
  stored    : SameDevices (s.storeLanes c c.wdata) t

/-- A write that has ended has completed, and the bus is free. -/
theorem written_done {s : State} {c : Cycle} (hk : c.kind = .write) (hp : c.answer.polite)
    (hh : s.held = DataLines.z) (hc : s.clk = .low) (hb : s.term.isBerr = false) :
    WriteDone s c (written s c) s.term 0 := by
  rw [written_eq hp hb]
  exact {
    completed := {
      run := rfl, clk := hc, data := by simpa [State.releaseClosing, hk] using hh, held := hh, vma := rfl
      dtack := rfl, berr := rfl, vpa := rfl, avec := rfl
      results := rfl, length := rfl, owner := rfl }
    term := rfl
    stored := ⟨(kept_storeLanes s c c.wdata).params.symm, rfl, rfl⟩ }

theorem WriteDone.since {s u t : State} {c d : Cycle} {term : Term} {m n : Nat} (h : WriteDone u c t term n)
    (hr : u.results = s.results) (ho : u.owner = s.owner) (hc : u.clkCount = s.clkCount + m)
    (hdev : SameDevices s u) (hcd : ∀ x : State, x.storeLanes d d.wdata = x.storeLanes c c.wdata) :
    WriteDone s d t term (m + n) :=
  ⟨h.completed.since hr ho hc, h.term, hcd s ▸ (hdev.storeLanes c c.wdata).trans h.stored⟩

theorem WriteDone.graft {s t : State} {c : Cycle} {term : Term} {n : Nat} (h : WriteDone s c t term n)
    (x : State) : WriteDone s c (graft t x) term n :=
  ⟨h.completed.graft x, h.term, h.stored⟩

/-- The state in S6 of a write, after `term` recognised on these lines. -/
def sampledToWriteS6 (s : State) (c : Cycle) (i : Inputs) (term : Term) : State :=
  writeInS6 (inS5 s c i term) { c with st := .S5, edge := c.edge + 1 }

/-- A write that DTACK ends at S7 (R170). -/
theorem WriteSampling.loneRun_dtack {s : State} {c : Cycle} {w : Nat} {d : Option Half}
    (h : WriteSampling s c) (ha : c.answer = Answer.of (.dtack w d)) (hedge : w ≤ c.edge) :
    ∃ t, loneRun 3 s = .next t ∧ WriteDone s c t .dtack 2 := by
  let i := s.inputs.withLines true false false false
  have h5 : Writing (inS5 s c i .dtack) { c with st := .S5, edge := c.edge + 1 } :=
    ⟨rfl, h.kind, h.first, h.polite, h.closing, h.vma, h.held⟩
  have h6 : Writing (sampledToWriteS6 s c i .dtack) c.recognised :=
    ⟨rfl, h.kind, h.first, h.polite, h.closing, h.vma, h.held⟩
  have hend := h6.endsAtS7 rfl rfl (Cycle.lateDecision_dtack (c := c.recognised) ha _) nofun
  have hrun : loneRun 3 s =
      .next (written (writeAfterS6 (sampledToWriteS6 s c i .dtack) c.recognised .dtack)
        { c.recognised with st := .S7 }) := by
    rw [loneRun_succ 2 h.run (St.samples_not_faulted h.st), h.recognises (Cycle.lines_dtack ha hedge) rfl,
      andThen_next, loneRun_succ 1 h5.run nofun, h5.fromS5 rfl rfl, andThen_next]
    refine (loneRun_succ 0 h6.run nofun).trans ?_
    rw [hend]
    rfl
  have hdone := written_done (s := writeAfterS6 (sampledToWriteS6 s c i .dtack) c.recognised .dtack)
    (c := { c.recognised with st := .S7 }) h.kind h.polite h.held rfl rfl
  exact ⟨_, hrun, hdone.since (m := 2) rfl rfl rfl ⟨rfl, rfl, rfl⟩ fun _ => rfl⟩

/-! ## Whole writes -/

/-- A launched write `w` wait pairs after S4. -/
def sampledWrite (w : Nat) (c : Cycle) (s : State) : State :=
  waited w { s.prepared c with st := .S4 } (atS4Write (s.prepared c) (launched c s))

/-- On a free bus a launched write comes to its sampling edges. -/
theorem sampledWrite_sampling {s : State} {c : Cycle} (h : s.BusFree) (hk : c.kind = .write)
    (hsecond : c.second = false) (hp : (s.prepared c).answer.polite) (w : Nat) :
    WriteSampling (sampledWrite w c s) (sampledCycle w c s) where
  run := rfl
  kind := hk
  first := hsecond
  polite := hp
  closing := rfl
  vma := (releaseClosing_vma (launched c s)).trans h.vma
  held := h.held
  st := by
    unfold sampledCycle
    split <;> trivial
  clk := rfl
  term := rfl
  silent := ⟨h.dtack, h.berr, h.vpa, h.avec⟩

theorem loneRun_sampledWrite {s : State} {c : Cycle} (h : s.BusFree) (hk : c.kind = .write)
    (hs : c.st = .start) (w n : Nat)
    (hl : ∀ k < w, (s.prepared c).lines (c.edge + k) = (false, false, false, false)) :
    loneRun (n + 2 * w + 5) (launched c s) = loneRun n (sampledWrite w c s) := by
  have hv : (launched c s).releaseClosing.pins.vma = .negated :=
    (releaseClosing_vma (launched c s)).trans h.vma
  rw [loneRun_toS4_write (n + 2 * w) (launched c s) (s.prepared c) hk hs rfl h.clk
    ((launched_releaseClosing_data c s).trans h.data) h.vma]
  exact loneRun_waits w n rfl trivial rfl rfl rfl hv ⟨h.dtack, h.berr, h.vpa, h.avec⟩ hl

/-- A write of the processor that DTACK ends after `w` wait pairs, scripted or not: its result, and its data
stored on its lanes. -/
theorem exec_write_dtack {i : Instr} {s : State} {fc : Fc} {a : Addr} {x : Strobes} {v : Half} {w : Nat}
    {d : Option Half} (h : s.Ready) (hw : i.wf s.params.dataBus = true)
    (hc : cycleOf s.params.dataBus i = newCycle .write fc a x v 0)
    (ha : (s.prepared (newCycle .write fc a x v 0)).answer = Answer.of (.dtack w d)) :
    ∃ t, exec i s = .next t ∧ t.Calm ∧ WriteDone s (newCycle .write fc a x v 0) t .dtack (4 + w) := by
  obtain ⟨⟨y, hy⟩, hcalm⟩ := exec_lone keepsOut_calm hw h.run h.owner (calm_launched h.toCalm _)
  rw [hc] at hy
  have hsample := sampledWrite_sampling (c := newCycle .write fc a x v 0) h.toBusFree rfl rfl
    (Cycle.polite_dtack ha) w
  obtain ⟨t, ht, hdone⟩ := hsample.loneRun_dtack ha (Nat.zero_add w).ge
  have hrun := (loneRun_sampledWrite (c := newCycle .write fc a x v 0) h.toBusFree rfl rfl w 3
    fun k hk => Cycle.lines_before_dtack ha (by simpa [newCycle] using hk)).trans ht
  have hbudget : 3 + 2 * w + 5 ≤ cycleBudget (s.prepared (newCycle .write fc a x v 0)) := by
    rw [cycleBudget, ha]
    simp only [Answer.of, Shape.patience]
    omega
  have hover : t.cycleOver = true := by simp [State.cycleOver, hdone.completed.run]
  rw [loneRun_settled hbudget (hrun ▸ settled_next hover), hrun] at hy
  refine ⟨graft t y, hy, hcalm _ hy, ?_⟩
  rw [show 4 + w = 2 + w + 2 by omega]
  exact (hdone.graft y).since rfl rfl (by show s.clkCount + 1 + 1 + w = _; omega) ⟨rfl, rfl, rfl⟩
    fun _ => rfl

end Sys2Proof.Machine
end

section
/-! SUPPORT. Reading back what a word write has stored (20_memory.md R76, 41_write_cycle.md R176). -/

namespace Sys2Proof.Machine

/-- What plain memory holds is what is read there (R90). -/
theorem byteAt_of_holds {s : State} {fc : Fc} {a : Addr} {v : Byte} (hp : pitSelect s.params.pit a = none)
    (h : s.Holds fc a v) : s.byteAt fc a = some v := by
  simpa [State.Holds, State.byteAt, hp] using h

/-! ## Well-formed at the same word -/

theorem isOdd_add_one {a : Addr} (h : Addr.isOdd a = false) : Addr.isOdd (a + 1) = true := by
  rw [← or_one_of_even h]
  simp [Addr.isOdd]

/-- A word write and a word read are checked alike (R120). -/
theorem wf_rdW_of_wrW {bus : DataBus} {fc : Fc} {a : Addr} {v : Half}
    (h : Instr.wf bus (.wrW fc a v) = true) : Instr.wf bus (.rdW fc a) = true := h

theorem ofRequest_passes {bus wants : DataBus} {fc : Fc} (hbus : bus = wants) (hfc : fc ≠ 7) :
    Illegal.ofRequest bus wants fc none = none := by
  exact (if_neg (not_not.2 hbus)).trans (if_neg hfc)

theorem wf_rdBU_of_rdW {bus : DataBus} {fc : Fc} {a : Addr} (h : Instr.wf bus (.rdW fc a) = true) :
    Instr.wf bus (.rdBU fc a) = true := by
  obtain ⟨hbus, hfc, -⟩ := ofRequest_eq_none (illegal_of_wf h)
  simp only [Instr.wf, Instr.illegal, even_of_wf_rdW h, Bool.false_eq_true, if_false,
    ofRequest_passes hbus hfc, decide_true]

theorem wf_rdBL_of_rdW {bus : DataBus} {fc : Fc} {a : Addr} (h : Instr.wf bus (.rdW fc a) = true) :
    Instr.wf bus (.rdBL fc (a + 1)) = true := by
  obtain ⟨hbus, hfc, -⟩ := ofRequest_eq_none (illegal_of_wf h)
  simp only [Instr.wf, Instr.illegal, isOdd_add_one (even_of_wf_rdW h), if_true,
    ofRequest_passes hbus hfc, decide_true]

/-! ## After a word write -/

/-- A word write to the resident device leaves the bus ready, nothing scripted, and the two bytes in the
device, the high one at its address (R76). -/
theorem exec_wrW_resident {s : State} {fc : Fc} {a : Addr} {v : Half} (h : s.Ready) (hans : s.answers = [])
    (hw : Instr.wf s.params.dataBus (.wrW fc a v) = true) :
    ∃ t, exec (.wrW fc a v) s = .next t ∧ Completed s t .ok (4 + s.params.memWaits) ∧ t.Calm ∧
      t.answers = [] ∧ t.params = s.params ∧ t.Holds fc a (hiByte v) ∧ t.Holds fc (a + 1) (loByte v) := by
  obtain ⟨t, ht, hcalm, hdone⟩ := exec_write_dtack (x := .word) h hw rfl
    (prepared_answer_unscripted hans nofun)
  have hscripts := exec_scripts ht
  have heven := even_of_wf_rdW (wf_rdW_of_wrW hw)
  have hupper : upperByteAddr a = a := upperByteAddr_of_even heven
  have hlower : lowerByteAddr .word a = a + 1 := or_one_of_even heven
  have hhi := hdone.stored.holds (storeLanes_holds_upper s (newCycle .write fc a .word v 0) v rfl)
  have hlo := hdone.stored.holds (storeLanes_holds_lower s (newCycle .write fc a .word v 0) v rfl)
  refine ⟨t, ht, hdone.completed, hcalm, ?_, hscripts.params, hupper ▸ hhi, hlower ▸ hlo⟩
  rw [hscripts.answers]
  simp [launched, hans]

/-- Settles O30: after the write the bus is ready and the device holds both bytes, so each read returns
them. -/
theorem wordWriteThenReads : Obligations.WordWriteThenReads := by
  unfold Obligations.WordWriteThenReads
  intro s t fc a v h hans hpita hpitb hexec
  have hww : Instr.wf s.params.dataBus (.wrW fc a v) = true := by
    simpa [Instr.wf] using (exec_next hexec).2.1
  obtain ⟨t', ht', hdone, hcalm, htans, hparams, hhi, hlo⟩ := exec_wrW_resident h hans hww
  obtain rfl : t = t' := by rw [hexec] at ht'; cases ht'; rfl
  have ready : t.Ready := ⟨hcalm, hdone.toBusFree⟩
  have hbyteHi : t.byteAt fc a = some (hiByte v) := byteAt_of_holds (by rw [hparams]; exact hpita) hhi
  have hbyteLo : t.byteAt fc (a + 1) = some (loByte v) :=
    byteAt_of_holds (by rw [hparams]; exact hpitb) hlo
  have hw : Instr.wf t.params.dataBus (.rdW fc a) = true := by rw [hparams]; exact wf_rdW_of_wrW hww
  have results {u : State} {r : Result} {n : Nat} (hu : Completed t u r n) :
      u.results = { master := .processor, result := r } ::
        { master := .processor, result := .ok } :: s.results := by
    rw [hu.results, hdone.results, hdone.owner, h.owner]
  refine ⟨?_, ?_, ?_⟩
  · obtain ⟨u, hi, lo, hu, hread, -, hhi, hlo⟩ := exec_rdW_resident ready htans hw
    rw [hhi _ hbyteHi, hlo _ hbyteLo, halfOf_bytes] at hread
    exact ⟨u, hu, results hread⟩
  · obtain ⟨u, x, hu, hread, -, hx⟩ := exec_rdBU_resident ready htans (wf_rdBU_of_rdW hw)
    rw [hx _ hbyteHi] at hread
    exact ⟨u, hu, results hread⟩
  · obtain ⟨u, x, hu, hread, -, hx⟩ := exec_rdBL_resident ready htans (wf_rdBL_of_rdW hw)
    rw [hx _ hbyteLo] at hread
    exact ⟨u, hu, results hread⟩

end Sys2Proof.Machine
end

section
/-! SUPPORT. The encoder and the decoder are inverse to each other (30_encoding.md R110, R111, R120; logs 2
and 3): the row of a cycle identification word, then the operand bytes of the row. -/

namespace Sys2Proof

/-! ## Decoding what is encoded -/

/-- The CIW of a well-formed instruction selects its own row (R111). -/
theorem rowOf_ciw {bus : DataBus} {i : Instr} (h : i.wf bus = true) : rowOf bus i.row.ciw = .ok i.row := by
  cases i with
  | iack level => exact Laws.Encoding.iack level bus h
  | rdW fc a => exact Laws.Encoding.rdW fc a bus h
  | rdBU fc a => exact Laws.Encoding.rdBU fc a bus h
  | rdBL fc a => exact Laws.Encoding.rdBL fc a bus h
  | wrW fc a v => exact Laws.Encoding.wrW fc a v bus h
  | wrBU fc a v => exact Laws.Encoding.wrBU fc a v bus h
  | wrBL fc a v => exact Laws.Encoding.wrBL fc a v bus h
  | rmwBU fc a => exact Laws.Encoding.rmwBU fc a bus h
  | rmwBL fc a => exact Laws.Encoding.rmwBL fc a bus h
  | rdB8 fc a => exact Laws.Encoding.rdB8 fc a bus h
  | wrB8 fc a v => exact Laws.Encoding.wrB8 fc a v bus h
  | rmwB8 fc a => exact Laws.Encoding.rmwB8 fc a bus h

/-- The rows a machine with this data bus has, with the function codes they may carry (R105, R111, R120). -/
def Row.served (bus : DataBus) : Row → Bool
  | .iack => true
  | .rdW fc | .rdBU fc | .rdBL fc | .wrW fc | .wrBU fc | .wrBL fc | .rmwBU fc | .rmwBL fc =>
    bus = .d16 && fc ≠ Config.cpuSpace
  | .rdB8 fc | .wrB8 fc | .rmwB8 fc => bus = .d8 && fc ≠ Config.cpuSpace

/-- Operands the row has an encoding for: a level above 0, a word at an even address, a byte on the lane of
its address (R75, R78, R120). -/
def Instr.operandsFit : Instr → Prop
  | .iack level => level ≠ 0
  | .rdW _ a | .rdBU _ a | .rmwBU _ a => Addr.isOdd a = false
  | .wrW _ a _ => Addr.isOdd a = false
  | .wrBU _ a _ => Addr.isOdd a = false
  | .rdBL _ a | .rmwBL _ a => Addr.isOdd a = true
  | .wrBL _ a _ => Addr.isOdd a = true
  | .rdB8 _ _ | .rmwB8 _ _ => True
  | .wrB8 _ _ _ => True

theorem ofRequest_eq_none_iff {bus wants : DataBus} {fc : Fc} {lane : Option Illegal} :
    Illegal.ofRequest bus wants fc lane = none ↔ (bus = wants ∧ fc ≠ Config.cpuSpace) ∧ lane = none := by
  unfold Illegal.ofRequest
  split
  · next h => simp [h]
  · next h =>
    split
    · next hfc => simp [hfc]
    · next hfc => simp [not_not.1 h, hfc]

/-- The checks of R120 are one on the row and one on the operands. -/
theorem wf_iff {bus : DataBus} {i : Instr} : i.wf bus = true ↔ i.row.served bus = true ∧ i.operandsFit := by
  cases i <;>
    simp [Instr.wf, Instr.illegal, ofRequest_eq_none_iff, Instr.row, Row.served, Instr.operandsFit]

theorem decodeOperands_encode {i : Instr} (h : i.operandsFit) (rest : List Byte) :
    decodeOperands i.row (i.operandBytes ++ rest) = .ok (i, rest) := by
  have lane {a : Addr} {odd : Bool} (ho : Addr.isOdd a = odd) (rest : List Byte)
      (k : Addr → List Byte → Except Undecodable (Instr × List Byte)) :
      withAddr .d16 odd (encodeAddr .d16 a ++ rest) k = k a rest := ho ▸ withAddr_encode_d16 a rest k
  cases i with
  | iack level =>
    obtain ⟨hclear, hlevel⟩ := levelByte_fields level
    simp only [Instr.row, Instr.operandBytes, decodeOperands, withLevel, List.cons_append, List.nil_append,
      hclear, hlevel, ne_eq, not_true_eq_false, if_false]
    exact if_neg h
  | rdW _ _ | rdBU _ _ | rdBL _ _ | rmwBU _ _ | rmwBL _ _ =>
    simp only [Instr.row, Instr.operandBytes, decodeOperands, lane h]
  | wrW _ _ _ | wrBU _ _ _ | wrBL _ _ _ =>
    simp only [Instr.row, Instr.operandBytes, decodeOperands, List.append_assoc, lane h, List.cons_append,
      List.nil_append, withHalf, withByte, half_extract]
  | rdB8 _ _ | rmwB8 _ _ => simp only [Instr.row, Instr.operandBytes, decodeOperands, withAddr_encode_d8]
  | wrB8 _ _ _ =>
    simp only [Instr.row, Instr.operandBytes, decodeOperands, List.append_assoc, withAddr_encode_d8,
      List.cons_append, List.nil_append, withByte]

/-- Settles O1: the first byte gives back the row, and the bytes after it the operands. -/
theorem decodeOfEncodeIsTheInstruction : Obligations.DecodeOfEncodeIsTheInstruction := by
  unfold Obligations.DecodeOfEncodeIsTheInstruction
  intro bus i rest h
  obtain ⟨hbit, hciw⟩ := ciwByte_fields i.row.ciw
  simp only [encode, List.cons_append, decode, hbit, hciw, rowOf_ciw h, Bool.false_eq_true, if_false]
  exact decodeOperands_encode (wf_iff.1 h).2 rest

/-! ## Encoding what was decoded -/

/-- A row is selected by its own CIW only, and only on a machine that has it (R111, R120). -/
theorem rowOf_eq_ok {bus : DataBus} {c : Ciw} {row : Row} (h : rowOf bus c = .ok row) :
    row.ciw = c ∧ row.served bus = true := by
  have all : ∀ c : Ciw, ∀ row ∈ (rowOf bus c).toOption, row.ciw = c ∧ row.served bus = true := by
    cases bus <;> decide
  exact all c row (by rw [h]; rfl)

theorem ciwByte_extract : ∀ {w : Byte}, w.getLsbD 7 = false → ciwByte (w.extractLsb' 0 7) = w := by
  decide

/-- What the decoder reads before the operands. -/
theorem decode_eq_ok {bus : DataBus} {bytes : List Byte} {r : Instr × List Byte}
    (h : decode bus bytes = .ok r) : ∃ row tail, bytes = ciwByte row.ciw :: tail ∧
      row.served bus = true ∧ decodeOperands row tail = .ok r := by
  unfold decode at h
  split at h
  · cases h
  · next w tail =>
    split at h
    · cases h
    · next hw =>
      split at h
      · cases h
      · next row hrow =>
        obtain ⟨hciw, hserved⟩ := rowOf_eq_ok hrow
        exact ⟨row, tail, by rw [hciw, ciwByte_extract (by simpa using hw)], hserved, h⟩

theorem addrOfBytes_fields (a b c : Byte) : (addrOfBytes a b c).extractLsb' 16 8 = a ∧
    (addrOfBytes a b c).extractLsb' 8 8 = b ∧ (addrOfBytes a b c).extractLsb' 0 8 = c := by
  refine ⟨?_, ?_, BitVec.extractLsb'_append_eq_right⟩
  · exact (BitVec.extractLsb'_append_eq_of_le (by decide)).trans BitVec.extractLsb'_append_eq_left
  · exact (BitVec.extractLsb'_append_eq_of_le (by decide)).trans BitVec.extractLsb'_append_eq_right

theorem isOdd_addrOfBytes (a b c : Byte) : Addr.isOdd (addrOfBytes a b c) = c.getLsbD 0 := by
  exact (BitVec.getLsbD_append ..).trans (if_pos (by decide))

/-- Bit 0 of an even address, put on and taken off. -/
theorem bitZero_or_and {a : Addr} (h : Addr.isOdd a = false) (odd : Bool) :
    Addr.isOdd (a ||| if odd then 1 else 0) = odd ∧ (a ||| if odd then 1 else 0) &&& 0xFFFFFE = a := by
  have hclear : a &&& 0xFFFFFE = a := Machine.upperByteAddr_of_even h
  cases odd
  · exact ⟨(congrArg Addr.isOdd BitVec.or_zero).trans h, (congrArg (· &&& _) BitVec.or_zero).trans hclear⟩
  · refine ⟨by simp [Addr.isOdd], ?_⟩
    rw [if_pos rfl, BitVec.and_or_distrib_right, hclear]
    exact BitVec.or_zero

/-- The address operand of a 16-bit bus, whose bit 0 the lane gives. -/
theorem withAddr_d16_eq_ok {odd : Bool} {bytes : List Byte} {r : Instr × List Byte}
    {k : Addr → List Byte → Except Undecodable (Instr × List Byte)} (h : withAddr .d16 odd bytes k = .ok r) :
    ∃ a tail, Addr.isOdd a = odd ∧ bytes = encodeAddr .d16 a ++ tail ∧ k a tail = .ok r := by
  unfold withAddr decodeAddr at h
  split at h
  · next a b c tail =>
    by_cases hc : c.getLsbD 0 = true
    · simp [hc] at h
    · simp only [hc] at h
      have heven : Addr.isOdd (addrOfBytes a b c) = false := by
        simpa only [isOdd_addrOfBytes, Bool.not_eq_true] using hc
      obtain ⟨hodd, hclear⟩ := bitZero_or_and heven odd
      obtain ⟨ha, hb, hc⟩ := addrOfBytes_fields a b c
      exact ⟨_, tail, hodd, by simp only [encodeAddr, hclear, ha, hb, hc]; rfl, h⟩
  · cases h

theorem withAddr_d8_eq_ok {odd : Bool} {bytes : List Byte} {r : Instr × List Byte}
    {k : Addr → List Byte → Except Undecodable (Instr × List Byte)} (h : withAddr .d8 odd bytes k = .ok r) :
    ∃ a tail, bytes = encodeAddr .d8 a ++ tail ∧ k a tail = .ok r := by
  unfold withAddr decodeAddr at h
  split at h
  · next a b c tail =>
    obtain ⟨ha, hb, hc⟩ := addrOfBytes_fields a b c
    exact ⟨addrOfBytes a b c, tail, by simp only [encodeAddr, ha, hb, hc]; rfl, h⟩
  · cases h

theorem withByte_eq_ok {bytes : List Byte} {k : Byte → Instr} {r : Instr × List Byte}
    (h : withByte bytes k = .ok r) : ∃ v, r.1 = k v ∧ bytes = v :: r.2 := by
  unfold withByte at h
  split at h <;> cases h
  exact ⟨_, rfl, rfl⟩

theorem withHalf_eq_ok {bytes : List Byte} {k : Half → Instr} {r : Instr × List Byte}
    (h : withHalf bytes k = .ok r) :
    ∃ v, r.1 = k v ∧ bytes = v.extractLsb' 8 8 :: v.extractLsb' 0 8 :: r.2 := by
  unfold withHalf at h
  split at h <;> cases h
  exact ⟨_, rfl, by rw [BitVec.extractLsb'_append_eq_left, BitVec.extractLsb'_append_eq_right]⟩

/-- A level byte without unused bits is that of its level. -/
theorem levelByte_of_clear : ∀ {p : Byte}, p.extractLsb' 3 5 = 0 →
    (pinsOfLevel (levelOfPins (p.extractLsb' 0 3))).zeroExtend 8 = p := by
  decide

theorem withLevel_eq_ok {bytes : List Byte} {r : Instr × List Byte} (h : withLevel bytes = .ok r) :
    ∃ level, level ≠ 0 ∧ r.1 = .iack level ∧ bytes = (pinsOfLevel level).zeroExtend 8 :: r.2 := by
  unfold withLevel at h
  split at h
  · next p tail =>
    split at h
    · cases h
    · next hclear =>
      simp only at h
      split at h <;> cases h
      next hlevel =>
      exact ⟨_, hlevel, rfl, by rw [levelByte_of_clear (not_not.1 hclear)]⟩
  · cases h

/-- The bytes after the CIW are those of the operands, which fit the row. -/
theorem decodeOperands_eq_ok {row : Row} {bytes rest : List Byte} {i : Instr}
    (h : decodeOperands row bytes = .ok (i, rest)) :
    i.row = row ∧ i.operandsFit ∧ i.operandBytes ++ rest = bytes := by
  simp only [decodeOperands] at h
  cases row with
  | iack =>
    obtain ⟨level, hlevel, rfl, rfl⟩ := withLevel_eq_ok h
    exact ⟨rfl, hlevel, rfl⟩
  | rdW _ | rdBU _ | rdBL _ | rmwBU _ | rmwBL _ =>
    obtain ⟨a, tail, hodd, rfl, hk⟩ := withAddr_d16_eq_ok h
    cases hk
    exact ⟨rfl, hodd, rfl⟩
  | wrW _ =>
    obtain ⟨a, tail, hodd, rfl, hk⟩ := withAddr_d16_eq_ok h
    obtain ⟨v, rfl, rfl⟩ := withHalf_eq_ok hk
    exact ⟨rfl, hodd, List.append_assoc ..⟩
  | wrBU _ | wrBL _ =>
    obtain ⟨a, tail, hodd, rfl, hk⟩ := withAddr_d16_eq_ok h
    obtain ⟨v, rfl, rfl⟩ := withByte_eq_ok hk
    exact ⟨rfl, hodd, List.append_assoc ..⟩
  | rdB8 _ | rmwB8 _ =>
    obtain ⟨a, tail, rfl, hk⟩ := withAddr_d8_eq_ok h
    cases hk
    exact ⟨rfl, trivial, rfl⟩
  | wrB8 _ =>
    obtain ⟨a, tail, rfl, hk⟩ := withAddr_d8_eq_ok h
    obtain ⟨v, rfl, rfl⟩ := withByte_eq_ok hk
    exact ⟨rfl, trivial, List.append_assoc ..⟩

/-- Settles O2: the row is served, its operands fit, and both are encoded as they were read. -/
theorem encodeOfDecodeIsTheBytes : Obligations.EncodeOfDecodeIsTheBytes := by
  unfold Obligations.EncodeOfDecodeIsTheBytes
  intro bus bytes i rest h
  obtain ⟨row, tail, rfl, hserved, hops⟩ := decode_eq_ok h
  obtain ⟨rfl, hfit, rfl⟩ := decodeOperands_eq_ok hops
  exact ⟨wf_iff.2 ⟨hserved, hfit⟩, rfl⟩

/-! ## The opcode map -/

/-- Settles O3: the CIW of each row, read back. -/
theorem opcodeMapSelectsTheRow : Obligations.OpcodeMapSelectsTheRow := by
  unfold Obligations.OpcodeMapSelectsTheRow
  refine ⟨fun bus => by cases bus <;> decide, ?_⟩
  decide

/-- Settles O4: eight decodings, each computed. -/
theorem wordsOfTheOpcodeTableDecode : Obligations.WordsOfTheOpcodeTableDecode := by
  unfold Obligations.WordsOfTheOpcodeTableDecode
  and_intros <;> rfl

end Sys2Proof
end

section
/-! SUPPORT. What is refused before any state is entered (30_encoding.md R120), and what a step makes of the
item at the head of the queue (R115; logs 1 and 2). -/

namespace Sys2Proof.Machine

/-! ## Refusals -/

/-- A meaning refuses what fails a check of R120, and IACK asks for the bus before that. -/
theorem exec_illegal {i : Instr} {s : State} {why : Illegal}
    (ho : ∀ level, i = .iack level → s.owner = .processor) (h : i.illegal s.params.dataBus = some why) :
    exec i s = .refused (.illegal why) := by
  simp only [exec_eq i s ho, guarded, h]

theorem ofRequest_cpuSpace (bus : DataBus) (lane : Option Illegal) :
    Illegal.ofRequest bus bus 7 lane = some .cpuSpace := by
  simp [Illegal.ofRequest, Config.cpuSpace]

theorem ofRequest_lane (bus : DataBus) {fc : Fc} (h : fc ≠ 7) (lane : Option Illegal) :
    Illegal.ofRequest bus bus fc lane = lane := by
  exact (if_neg (not_not.2 rfl)).trans (if_neg h)

section
variable {s : State}

theorem exec_oddWord (hbus : s.params.dataBus = .d16) {fc : Fc} {a : Addr} (hfc : fc ≠ 7)
    (hodd : Addr.isOdd a = true) (v : Half) :
    exec (.rdW fc a) s = .refused (.illegal .oddWord) ∧
      exec (.wrW fc a v) s = .refused (.illegal .oddWord) := by
  constructor <;> refine exec_illegal nofun ?_ <;>
    simp only [Instr.illegal, hbus, ofRequest_lane _ hfc, hodd, if_true]

theorem exec_cpuSpace_d16 (hbus : s.params.dataBus = .d16) (a : Addr) (v16 : Half) (v8 : Byte) :
    ∀ i ∈ [Instr.rdW 7 a, .rdBU 7 a, .rdBL 7 a, .wrW 7 a v16, .wrBU 7 a v8, .wrBL 7 a v8, .rmwBU 7 a,
      .rmwBL 7 a], exec i s = .refused (.illegal .cpuSpace) := by
  intro i hi
  simp only [List.mem_cons, List.not_mem_nil, or_false] at hi
  rcases hi with rfl | rfl | rfl | rfl | rfl | rfl | rfl | rfl <;> refine exec_illegal nofun ?_ <;>
    rw [hbus] <;> exact ofRequest_cpuSpace ..

theorem exec_cpuSpace_d8 (hbus : s.params.dataBus = .d8) (a : Addr) (v8 : Byte) :
    ∀ i ∈ [Instr.rdB8 7 a, .wrB8 7 a v8, .rmwB8 7 a], exec i s = .refused (.illegal .cpuSpace) := by
  intro i hi
  simp only [List.mem_cons, List.not_mem_nil, or_false] at hi
  rcases hi with rfl | rfl | rfl <;> refine exec_illegal nofun ?_ <;>
    rw [hbus] <;> exact ofRequest_cpuSpace ..

end

/-- Settles O5: the patterns have no row, in either data bus mode, and the requests fail a check. -/
theorem reservedCombinationsAreRefused : Obligations.ReservedCombinationsAreRefused := by
  unfold Obligations.ReservedCombinationsAreRefused
  refine ⟨fun bus => ?_, fun bus => ?_, fun bus => ?_, fun bus => ?_, by decide, fun bus => ?_, fun s => ?_⟩
  case refine_6 =>
    refine ⟨fun ho => exec_illegal (fun _ _ => ho) rfl, fun hbus => ⟨?_, exec_cpuSpace_d16 hbus⟩,
      exec_cpuSpace_d8⟩
    exact fun fc a v hfc hodd => exec_oddWord hbus hfc hodd v
  all_goals cases bus <;> decide

/-! ## Steps of an idle bus -/

/-- On an idle, available bus a step takes the next item. -/
theorem step_idle {s : State} (hr : s.run = none) (ha : s.busAvailable = true) : step s = s.issue := by
  simp only [step, stepOnce, hr, ha, if_true]

/-- Settles O7: the transaction that the head of the queue decodes to is what the step runs. -/
theorem stepRunsTheDecodedTransaction : Obligations.StepRunsTheDecodedTransaction := by
  unfold Obligations.StepRunsTheDecodedTransaction
  intro s bytes more rest i hr ha hq hd hi
  simp only [step_idle hr ha, State.issue, hq, hd, hi, if_true]

/-- Settles O8: the other arms of `State.issue`. -/
theorem stepWithoutATransaction : Obligations.StepWithoutATransaction := by
  unfold Obligations.StepWithoutATransaction
  intro s rest hr ha
  rw [step_idle hr ha]
  refine ⟨fun hq => ?_, fun hq => ?_, fun n hq => ?_, fun bytes why hq hd => ?_⟩
  · simp only [State.issue, hq]
  · simp only [State.issue, hq]
  · simp only [State.issue, hq]
  · simp only [State.issue, hq, hd]

end Sys2Proof.Machine
end

section
/-! SUPPORT. The lines of a cycle, column by column of the format tables (30_encoding.md R100 to R102), and what
each operation of the bus controller does to the columns. -/

namespace Sys2Proof.Machine

/-! ## The columns of the format tables -/

/-- What the master does with its lines in one state: whether the address is valid, AS and the data strobes
are asserted, R/W is low and the data bus is driven. -/
structure Columns where
  addr   : Bool
  as     : Bool
  strobe : Bool
  write  : Bool
  drive  : Bool

/-- The columns of the formats at state `Sp` (R100, R101, R102). -/
def Kind.columns (k : Kind) (p : Nat) : Columns :=
  match k with
  | .read | .iack => { addr := 1 ≤ p, as := 2 ≤ p, strobe := 2 ≤ p, write := false, drive := false }
  | .write        => { addr := 1 ≤ p, as := 2 ≤ p, strobe := 4 ≤ p, write := 2 ≤ p, drive := 3 ≤ p }
  | .rmw          => { addr := 1 ≤ p, as := 2 ≤ p, strobe := (2 ≤ p && p ≤ 6) || 16 ≤ p
                       write := 14 ≤ p, drive := 15 ≤ p }

/-- The columns in a last state: AS and the strobes are negated (R139, R168, R197). -/
def Columns.closed (k : Columns) : Columns := { k with as := false, strobe := false }

/-- The lines of the cycle `c` stand as the columns say, VMA is asserted only with the strobes and after VPA,
and a device that has not let go of the data bus is its one driver (R53, R347). -/
structure State.On (s : State) (c : Cycle) (k : Columns) : Prop where
  fc   : s.pins.fc = some c.fc
  addr : s.pins.addr = if k.addr then some (linesOf c.addr) else none
  as   : s.pins.strobeAS = assertIf k.as .negated
  uds  : s.pins.uds = assertIf (k.strobe && c.strobes.selectsUpper) .negated
  lds  : s.pins.lds = assertIf (k.strobe && c.strobes.selectsLower) .negated
  ds   : s.pins.ds = assertIf (k.strobe && c.strobes.selectsDs) .negated
  rw   : s.pins.rw = if k.write then .low else .high
  data : k.drive = true → ∃ fill, s.pins.data = place c.strobes (s.outData c) fill
  vma  : s.pins.vma = .negated ∨
    (s.pins.vma = .asserted ∧ k.strobe = true ∧ (s.term = .vpa ∨ s.term = .berr))
  held : s.held = DataLines.z ∨ (s.pins.data = s.held ∧ k.drive = false)

/-- The columns in the words of `Shows`. -/
theorem Cycle.columns_eq (c : Cycle) : c.kind.columns c.pos =
    { addr := 1 ≤ c.pos, as := 2 ≤ c.pos, strobe := c.strobing, write := c.writing, drive := c.drivingData } := by
  unfold Cycle.strobing Cycle.writing Cycle.drivingData Kind.columns
  cases c.kind <;> rfl

/-- `Shows` and the data bus, in terms of the columns. -/
theorem on_iff_shows {s : State} {c : Cycle} : s.On c (c.kind.columns c.pos) ↔ s.Shows c ∧
    (s.held = DataLines.z ∨ (s.pins.data = s.held ∧ c.drivingData = false)) := by
  rw [Cycle.columns_eq]
  refine ⟨fun h => ⟨⟨h.fc, ?_, h.as, h.uds, h.lds, h.ds, h.rw, h.data, h.vma⟩, h.held⟩,
    fun ⟨h, hheld⟩ => ⟨h.fc, ?_, h.as, h.uds, h.lds, h.ds, h.rw, h.data, h.vma, hheld⟩⟩
  · simpa only [decide_eq_true_eq] using h.addr
  · simpa only [decide_eq_true_eq] using h.addr

/-- `Closes` and the data bus, in terms of the columns. -/
theorem closes_iff_on {s : State} {c : Cycle} (hp : 1 ≤ c.pos) (hclk : s.clk = .low) :
    (s.Closes c ∧ (s.held = DataLines.z ∨ (s.pins.data = s.held ∧ c.drivingData = false))) ↔
      s.On c (c.kind.columns c.pos).closed ∧ c.atLast s.term = true := by
  rw [Cycle.columns_eq]
  constructor
  · rintro ⟨h, hheld⟩
    exact ⟨⟨h.fc, by simpa [Columns.closed, hp] using h.addr, h.as, h.uds, h.lds, h.ds, h.rw, h.data,
      .inl h.vma, hheld⟩, h.last⟩
  · rintro ⟨h, hlast⟩
    have hvma : s.pins.vma = .negated := h.vma.resolve_right fun ⟨_, hs, _⟩ => by cases hs
    exact ⟨⟨h.fc, by simpa [Columns.closed, hp] using h.addr, h.as, h.uds, h.lds, h.ds, h.rw, h.data,
      hvma, hclk, hlast⟩, h.held⟩

/-! ## What each operation does to the columns -/

@[simp] theorem assertIf_true (x : Line) : assertIf true x = .asserted := rfl
@[simp] theorem assertIf_false (x : Line) : assertIf false x = x := rfl

section
variable {s t : State} {c d : Cycle} {k : Columns}

/-- What writes none of the master's lines keeps the columns, as long as a stretch that has asserted VMA goes
on or is ended by BERR. -/
theorem State.On.of_pins (h : s.On c k) (hp : ∃ bg, t.pins = { s.pins with bg := bg }) (hh : t.held = s.held)
    (hpar : t.params = s.params)
    (ht : k.strobe = true → s.term = .vpa ∨ s.term = .berr → t.term = .vpa ∨ t.term = .berr) :
    t.On c k := by
  obtain ⟨bg, hp⟩ := hp
  have hout : t.outData c = s.outData c := by simp only [State.outData, State.newByte, hpar]
  constructor <;> simp only [hp, hh, hout]
  case vma => exact h.vma.imp_right fun ⟨hv, hs, hterm⟩ => ⟨hv, hs, ht hs hterm⟩
  exacts [h.fc, h.addr, h.as, h.uds, h.lds, h.ds, h.rw, h.data, h.held]

/-- The columns speak of the fields of a cycle that its run does not change. -/
theorem State.On.of_cycle (h : s.On c k) (hfc : d.fc = c.fc) (ha : d.addr = c.addr) (hx : d.strobes = c.strobes)
    (hout : k.drive = true → s.outData d = s.outData c) : s.On d k := by
  refine ⟨hfc ▸ h.fc, ha ▸ h.addr, h.as, hx ▸ h.uds, hx ▸ h.lds, hx ▸ h.ds, h.rw, fun hd => ?_, h.vma, h.held⟩
  rw [hx, hout hd]
  exact h.data hd

theorem State.On.driveAddr (h : s.On c k) : (s.driveAddr c.addr).On c { k with addr := true } :=
  ⟨h.fc, rfl, h.as, h.uds, h.lds, h.ds, h.rw, h.data, h.vma, h.held⟩

theorem State.On.assertAS (h : s.On c k) : s.assertAS.On c { k with as := true } :=
  ⟨h.fc, h.addr, rfl, h.uds, h.lds, h.ds, h.rw, h.data, h.vma, h.held⟩

theorem assertIf_again (a b : Bool) : assertIf b (assertIf (a && b) .negated) = assertIf b .negated := by
  cases a <;> cases b <;> rfl

theorem State.On.assertStrobes (h : s.On c k) :
    (s.assertStrobes c.strobes).On c { k with strobe := true } := by
  refine ⟨h.fc, h.addr, h.as, ?_, ?_, ?_, h.rw, h.data, ?_, h.held⟩
  · simp only [assertStrobes_fields, h.uds, assertIf_again, Bool.true_and]
  · simp only [assertStrobes_fields, h.lds, assertIf_again, Bool.true_and]
  · simp only [assertStrobes_fields, h.ds, assertIf_again, Bool.true_and]
  · exact h.vma.imp_right fun ⟨hv, _, ht⟩ => ⟨hv, rfl, ht⟩

theorem State.On.driveRwLow (h : s.On c k) : s.driveRwLow.On c { k with write := true } :=
  ⟨h.fc, h.addr, h.as, h.uds, h.lds, h.ds, rfl, h.data, h.vma, h.held⟩

theorem State.On.negateStrobes (h : s.On c k) : s.negateStrobes.On c { k with strobe := false } :=
  ⟨h.fc, h.addr, h.as, rfl, rfl, rfl, h.rw, h.data, .inl rfl, h.held⟩

theorem State.On.negateAS (h : s.On c k) : s.negateAS.On c { k with as := false } :=
  ⟨h.fc, h.addr, rfl, h.uds, h.lds, h.ds, h.rw, h.data, h.vma, h.held⟩

/-- S0 gives every line its idle level, wherever the address bus is released and VMA negated. -/
theorem on_placeCodes (ha : s.pins.addr = none) (hv : s.pins.vma = .negated)
    (hh : s.held = DataLines.z ∨ s.pins.data = s.held) :
    (s.placeCodes c.fc).On c { addr := false, as := false, strobe := false, write := false, drive := false } :=
  ⟨rfl, ha, rfl, rfl, rfl, rfl, rfl, nofun, .inl hv, hh.imp_right (⟨·, rfl⟩)⟩

/-- What a device may put on the data bus where the master does not drive it. -/
theorem State.On.driveData {x : DataLines} (h : s.On c k) (hk : k.drive = false) (hx : s.driveData x = .next t) :
    t.On c k := by
  unfold State.driveData at hx
  split at hx
  · cases hx; exact h
  · split at hx <;> cases hx
    next hz =>
    refine ⟨h.fc, h.addr, h.as, h.uds, h.lds, h.ds, h.rw, fun hd => ?_, h.vma, .inl ?_⟩
    · rw [hk] at hd; cases hd
    · exact h.held.elim id fun ⟨hs, _⟩ => hs.symm.trans hz

/-- The master may drive the data bus where no device has held on to it, and a second driver is a
ProtocolViolation (R347). -/
theorem State.On.driveOut {fill : Byte} (h : s.On c k)
    (hx : s.driveData (place c.strobes (s.outData c) fill) = .next t) : t.On c { k with drive := true } := by
  unfold State.driveData at hx
  rw [if_neg (place_ne_z _ _ _)] at hx
  split at hx <;> cases hx
  next hz =>
  exact ⟨h.fc, h.addr, h.as, h.uds, h.lds, h.ds, h.rw, fun _ => ⟨fill, rfl⟩, h.vma,
    .inl (h.held.elim id fun ⟨hs, _⟩ => hs.symm.trans hz)⟩

theorem State.On.drawn (h : s.On c k) (n : Nat) : (s.drawn n).On c k :=
  h.of_pins ⟨s.pins.bg, rfl⟩ rfl rfl fun _ => id

theorem State.On.dataPhase (h : s.On c k) (hk : k.drive = false) (hx : s.dataPhase c = .next t) : t.On c k := by
  unfold State.dataPhase at hx
  split at hx
  · cases hx; exact h
  · exact (h.drawn 2).driveData hk hx

theorem State.On.deviceNegates (h : s.On c k) (a : Answer) : (s.deviceNegates a).On c k :=
  h.of_pins ⟨s.pins.bg, deviceNegates_pins s a⟩ (by unfold State.deviceNegates; split <;> rfl)
    (kept_deviceNegates s a).params fun _ ht => by rwa [deviceNegates_term]

/-- A device that lets go of the data bus, or holds it from now on. -/
theorem State.On.deviceReleasesData (h : s.On c k) (hk : k.drive = false) (a : Answer) :
    (s.deviceReleasesData a).On c k := by
  have hd (hd : k.drive = true) : False := by rw [hk] at hd; cases hd
  unfold State.deviceReleasesData
  split
  · exact ⟨h.fc, h.addr, h.as, h.uds, h.lds, h.ds, h.rw, fun h => (hd h).elim, h.vma, .inr ⟨rfl, hk⟩⟩
  · exact ⟨h.fc, h.addr, h.as, h.uds, h.lds, h.ds, h.rw, fun h => (hd h).elim, h.vma, .inr ⟨rfl, hk⟩⟩

theorem State.On.negateAll (h : s.On c k) (a : Answer) : (s.negateAll a).On c k.closed :=
  h.negateStrobes.negateAS.deviceNegates a

theorem State.On.deviceTakes (h : s.On c k) (v : Half) : (s.deviceTakes c v).On c k :=
  h.of_pins ⟨s.pins.bg, deviceTakes_pins s c v⟩ (by rw [deviceTakes_eq]) (kept_deviceTakes s c v).params
    fun _ ht => by rwa [deviceTakes_term]

end

/-! ## The formats -/

/-- The columns of a cycle that has come to the state `st`, number `p`: those of the last state, if `st` is
the last one. -/
def columnsIn (kind : Kind) (term : Term) (st : St) (p : Nat) : Columns :=
  if nextSt kind term st = none then (kind.columns p).closed else kind.columns p

theorem columnsIn_between {kind : Kind} {term : Term} {st : St} (h : nextSt kind term st ≠ none) (p : Nat) :
    columnsIn kind term st p = kind.columns p := if_neg h

theorem columnsIn_last {kind : Kind} {term : Term} {st : St} (h : nextSt kind term st = none) (p : Nat) :
    columnsIn kind term st p = (kind.columns p).closed := if_pos h

/-- The states a cycle of this kind moves through, wait pairs apart (R41, R147, R201). -/
def Kind.passes (k : Kind) (st : St) : Prop :=
  match st with
  | .S0 | .S1 | .S2 | .S3 | .S4 | .S5 | .S6 | .S7 | .S8 | .S9 => True
  | .S10 | .S11 | .S12 | .S13 | .S14 | .S15 | .S16 | .S17 | .S18 | .S19 | .S20 | .S21 => k = .rmw
  | .start | .SwLow | .SwHigh | .faulted => False

theorem Kind.passes_read {st : St} (h : Kind.iack.passes st) : Kind.read.passes st := by
  cases st <;> trivial

section
variable {s u : State} {c : Cycle} {st : St} {n : Nat} (hn : ({ c with st := st } : Cycle).pos = n + 1)
include hn

theorem formatR_on (hst : Kind.read.passes st) (h : s.On c (Kind.read.columns n))
    (hu : formatR c st s = .next u) : u.On c (columnsIn .read u.term st (n + 1)) := by
  have last : ((s.negateAll c.answer).deviceReleasesData c.answer).On c (Kind.read.columns n).closed :=
    (h.negateAll c.answer).deviceReleasesData rfl c.answer
  unfold formatR at hu
  split at hu
  · cases hn
  · cases hn; cases hu
    exact h.driveAddr
  · cases hn; cases hu
    exact h.assertAS.assertStrobes
  · cases hn
    exact h.dataPhase rfl hu
  · cases hn; cases hu
    split
    · next ht =>
      rw [columnsIn_between (by simp [nextSt, ht])]
      exact h
    · next ht =>
      rw [columnsIn_last (by simpa [nextSt] using ht)]
      exact last
  · cases hn; cases hu
    exact last
  · cases hu
    cases st <;> first | contradiction | (cases hn; exact h)

theorem formatW_on (hst : Kind.write.passes st) (hk : c.kind = .write) (h : s.On c (Kind.write.columns n))
    (hu : formatW c st s = .next u) : u.On c (columnsIn .write u.term st (n + 1)) := by
  have hout : (s.drawn 1).outData c = c.wdata := by simp only [State.outData, hk]
  have last : ((s.deviceTakes c c.wdata).negateAll c.answer).On c (Kind.write.columns n).closed :=
    (h.deviceTakes _).negateAll c.answer
  unfold formatW at hu
  split at hu
  · cases hn
  · cases hn; cases hu
    exact h.driveAddr
  · cases hn; cases hu
    exact h.assertAS.driveRwLow
  · cases hn
    exact (h.drawn 1).driveOut (hout ▸ hu)
  · cases hn; cases hu
    exact h.assertStrobes
  · cases hn; cases hu
    split
    · next ht =>
      rw [columnsIn_between (by simp [nextSt, ht])]
      exact h
    · next ht =>
      rw [columnsIn_last (by simpa [nextSt] using ht)]
      exact last
  · cases hn; cases hu
    exact last
  · cases hu
    cases st <;> first | contradiction | (cases hn; exact h)

theorem formatM_on (hst : Kind.rmw.passes st) (hk : c.kind = .rmw) (h : s.On c (Kind.rmw.columns n))
    (hu : formatM c st s = .next u) : u.On c (columnsIn .rmw u.term st (n + 1)) := by
  have hout : (s.drawn 1).outData c = halfOfByte (s.newByte c) := by simp only [State.outData, hk]; rfl
  have last : ((s.deviceTakes c (halfOfByte (s.newByte c))).negateAll c.answer).On c
      (Kind.rmw.columns n).closed := (h.deviceTakes _).negateAll c.answer
  unfold formatM at hu
  split at hu
  · cases hn
  · cases hn; cases hu
    exact h.driveAddr
  · cases hn; cases hu
    exact h.assertAS.assertStrobes
  · cases hn
    exact h.dataPhase rfl hu
  · cases hn; cases hu
    exact (h.negateStrobes.deviceNegates c.answer).deviceReleasesData rfl c.answer
  · cases hn; cases hu
    exact h.of_pins ⟨_, rfl⟩ rfl rfl nofun
  · cases hn; cases hu
    exact h.driveRwLow
  · cases hn
    exact (h.drawn 1).driveOut (hout ▸ hu)
  · cases hn; cases hu
    exact h.assertStrobes
  · cases hn; cases hu
    split
    · next ht =>
      rw [columnsIn_between (by simp [nextSt, ht])]
      exact h
    · next ht =>
      rw [columnsIn_last (by simpa [nextSt] using ht)]
      exact last
  · cases hn; cases hu
    exact last
  · cases hu
    cases st <;> first | contradiction | (cases hn; exact h)

end

/-- Entering the next state writes the columns of that state. -/
theorem enterState_on {s u : State} {c : Cycle} {st : St} {n : Nat}
    (hn : ({ c with st := st } : Cycle).pos = n + 1) (hst : c.kind.passes st)
    (h : s.On c (c.kind.columns n)) (hu : enterState c st s = .next u) :
    u.On c (columnsIn c.kind u.term st (n + 1)) := by
  unfold enterState at hu
  cases hk : c.kind with
  | read => rw [hk] at h hst hu; exact formatR_on hn hst h hu
  | write => rw [hk] at h hst hu; exact formatW_on hn hst hk h hu
  | rmw => rw [hk] at h hst hu; exact formatM_on hn hst hk h hu
  | iack => rw [hk] at h hst hu; exact formatR_on hn (Kind.passes_read hst) h hu

end Sys2Proof.Machine
end

section
/-! SUPPORT. The order of the states (10_state.md R41): where a cycle that is in progress goes, and that its
lines and its termination fit there. -/

namespace Sys2Proof.Machine

/-- A cycle is in progress past its start, and its lines and `term` fit its state. -/
structure State.Going (s : State) (c : Cycle) : Prop where
  run     : s.run = some c
  closing : s.closing = none
  started : c.st ≠ .start
  legal   : c.legal s.term = true
  on      : s.On c (c.kind.columns c.pos)

/-- A cycle is in its last state, and its lines and `term` fit it. -/
structure State.Over (s : State) (c : Cycle) : Prop where
  run     : s.run = none
  closing : s.closing = some c
  last    : c.atLast s.term = true
  on      : s.On c (c.kind.columns c.pos).closed

/-- `term` after a state has been entered: S0 and S12 start a portion (R42). -/
def termIn (st : St) (term : Term) : Term :=
  match st with
  | .S0 | .S12 => .none
  | _ => term

/-- A cycle that has come to its state with this termination may be there. -/
def Cycle.fits (d : Cycle) (term : Term) : Prop :=
  if nextSt d.kind term d.st = none then d.atLast term = true else d.legal term = true

@[simp] theorem Cycle.entered_st (c : Cycle) (st : St) (din : Half) : (c.entered st din).st = st := by
  unfold Cycle.entered
  split <;> rfl

theorem Cycle.entered_same (c : Cycle) (st : St) (din : Half) : (c.entered st din).fc = c.fc ∧
    (c.entered st din).addr = c.addr ∧ (c.entered st din).strobes = c.strobes ∧
    (c.entered st din).wdata = c.wdata := by
  unfold Cycle.entered
  split <;> exact ⟨rfl, rfl, rfl, rfl⟩

theorem Cycle.entered_pos (c : Cycle) (st : St) (din : Half) :
    (c.entered st din).pos = ({ c with st := st } : Cycle).pos := by
  unfold Cycle.entered
  split <;> rfl

/-- Driving the data bus writes its lanes and nothing else. -/
theorem driveData_eq {s t : State} {x : DataLines} (h : s.driveData x = .next t) :
    ∃ y, t = { s with pins := { s.pins with data := y } } := by
  unfold State.driveData at h
  split at h
  · cases h; exact ⟨s.pins.data, rfl⟩
  · split at h <;> cases h
    exact ⟨x, rfl⟩

@[simp] theorem deviceTakes_closing (s : State) (c : Cycle) (v : Half) :
    (s.deviceTakes c v).closing = s.closing := by rw [deviceTakes_eq]

@[simp] theorem deviceNegates_closing (s : State) (a : Answer) : (s.deviceNegates a).closing = s.closing := by
  unfold State.deviceNegates
  split <;> rfl

@[simp] theorem deviceReleasesData_closing (s : State) (a : Answer) :
    (s.deviceReleasesData a).closing = s.closing := by
  unfold State.deviceReleasesData
  split <;> rfl

@[simp] theorem negateAll_closing (s : State) (a : Answer) : (s.negateAll a).closing = s.closing := by
  simp [State.negateAll]

/-- Of `term` and the cycle in its last state, entering a state writes `term` at the start of a portion. -/
def KeepsTerm (st : St) (s u : State) : Prop := u.term = termIn st s.term ∧ u.closing = s.closing

section
variable {c : Cycle} {st : St} {s u : State}

theorem driveData_keepsTerm {x : DataLines} (h : s.driveData x = .next u) :
    u.term = s.term ∧ u.closing = s.closing := by
  obtain ⟨y, rfl⟩ := driveData_eq h
  exact ⟨rfl, rfl⟩

theorem dataPhase_keepsTerm (h : s.dataPhase c = .next u) : u.term = s.term ∧ u.closing = s.closing := by
  unfold State.dataPhase at h
  split at h
  · cases h; exact ⟨rfl, rfl⟩
  · exact driveData_keepsTerm (s := s.drawn 2) h

theorem formatR_keepsTerm (hst : Kind.read.passes st) (hu : formatR c st s = .next u) : KeepsTerm st s u := by
  unfold formatR at hu
  split at hu
  case h_4 => exact dataPhase_keepsTerm hu
  all_goals cases hu
  case h_5 => split <;> simp [KeepsTerm, termIn]
  case h_6 => simp [KeepsTerm, termIn]
  case h_7 => cases st <;> first | exact ⟨rfl, rfl⟩ | contradiction
  all_goals exact ⟨rfl, rfl⟩

theorem formatW_keepsTerm (hst : Kind.write.passes st) (hu : formatW c st s = .next u) : KeepsTerm st s u := by
  unfold formatW at hu
  split at hu
  case h_4 => exact driveData_keepsTerm (s := s.drawn 1) hu
  all_goals cases hu
  case h_6 => split <;> simp [KeepsTerm, termIn]
  case h_7 => simp [KeepsTerm, termIn]
  case h_8 => cases st <;> first | exact ⟨rfl, rfl⟩ | contradiction
  all_goals exact ⟨rfl, rfl⟩

theorem formatM_keepsTerm (hu : formatM c st s = .next u) : KeepsTerm st s u := by
  unfold formatM at hu
  split at hu
  case h_4 => exact dataPhase_keepsTerm hu
  case h_8 => exact driveData_keepsTerm (s := s.drawn 1) hu
  all_goals cases hu
  case h_5 => simp [KeepsTerm, termIn]
  case h_10 => split <;> simp [KeepsTerm, termIn]
  case h_11 => simp [KeepsTerm, termIn]
  case h_12 => cases st <;> first | exact ⟨rfl, rfl⟩ | contradiction
  all_goals exact ⟨rfl, rfl⟩

theorem enterState_keepsTerm (hst : c.kind.passes st) (hu : enterState c st s = .next u) :
    KeepsTerm st s u := by
  unfold enterState at hu
  split at hu
  · next hk => exact formatR_keepsTerm (hk ▸ hst) hu
  · next hk => exact formatR_keepsTerm (Kind.passes_read (hk ▸ hst)) hu
  · next hk => exact formatW_keepsTerm (hk ▸ hst) hu
  · exact formatM_keepsTerm hu

end

/-- What the master writes is settled before it drives the data bus: the byte read is at hand from S7 on
(R190, R201). -/
theorem outData_entered (s : State) (c : Cycle) (st : St) (din : Half)
    (h : (c.kind.columns ({ c with st := st } : Cycle).pos).drive = true) :
    s.outData (c.entered st din) = s.outData c := by
  unfold Cycle.entered
  split
  · cases hk : c.kind with
    | rmw => rw [hk] at h; cases h
    | read | write | iack => simp only [State.outData, hk]
  · rfl
  · rfl

/-- A cycle that has entered a state whose lines it finds written goes on there, or is over in it. -/
theorem goTo_arrives_of_on {s t : State} {c : Cycle} {st : St} (hz : s.closing = none)
    (hp : c.kind.passes st) (hfit : ∀ din, (c.entered st din).fits (termIn st s.term))
    (hon : ∀ u, enterState c st s = .next u →
      u.On c (columnsIn c.kind u.term st ({ c with st := st } : Cycle).pos))
    (h : s.goTo c st = .next t) : ∃ d, d.st = st ∧ (t.Going d ∨ t.Over d) := by
  obtain ⟨u, hu, ht⟩ := goTo_enters h
  obtain ⟨hterm, hclosing⟩ := enterState_keepsTerm hp hu
  obtain ⟨hfc, haddr, hstrobes, -⟩ := c.entered_same st u.din
  have hfit := hfit u.din
  rw [← hterm, Cycle.fits, Cycle.entered_kind, Cycle.entered_st] at hfit
  have hstart : st ≠ .start := by rintro rfl; exact hp
  refine ⟨c.entered st u.din, Cycle.entered_st .., ?_⟩
  rcases ht with ⟨hn, rfl⟩ | ⟨hn, r, rfl⟩
  · have on := hon u hu
    rw [columnsIn_between hn] at on
    rw [if_neg hn] at hfit
    refine .inl ⟨rfl, hclosing.trans hz, by rwa [Cycle.entered_st], hfit, ?_⟩
    rw [Cycle.entered_kind, Cycle.entered_pos]
    exact (on.of_cycle hfc haddr hstrobes (outData_entered u c st u.din)).of_pins ⟨_, rfl⟩ rfl rfl fun _ => id
  · have on := hon u hu
    rw [columnsIn_last hn] at on
    rw [if_pos hn] at hfit
    refine .inr ⟨rfl, rfl, hfit, ?_⟩
    rw [Cycle.entered_kind, Cycle.entered_pos]
    exact (on.of_cycle hfc haddr hstrobes (outData_entered u c st u.din)).of_pins ⟨_, rfl⟩ rfl rfl fun _ => id

/-- A move from one state to the next. -/
theorem goTo_arrives {s t : State} {c : Cycle} {st : St} (hz : s.closing = none)
    (hn : ({ c with st := st } : Cycle).pos = c.pos + 1) (hp : c.kind.passes st)
    (hon : s.On c (c.kind.columns c.pos)) (hfit : ∀ din, (c.entered st din).fits (termIn st s.term))
    (h : s.goTo c st = .next t) : ∃ d, d.st = st ∧ (t.Going d ∨ t.Over d) :=
  goTo_arrives_of_on hz hp hfit (fun _ hu => hn ▸ enterState_on hn hp hon hu) h

end Sys2Proof.Machine
end

section
/-! SUPPORT. An edge of the bus controller keeps a cycle and its lines together (30_encoding.md R100 to R102):
through the states that simply move on, the sampling edges, the wait pairs and end(S6). -/

namespace Sys2Proof.Machine

/-! ## Moves -/

section
variable {c : Cycle} {term : Term} {st : St} (hm : c.st.movesOn = true) (hs : c.st ≠ .start)
  (hn : nextSt c.kind term c.st = some st)
include hm hs hn

/-- A state that simply moves on moves to the next one, in the other half of CLK (R20). -/
theorem Cycle.moves_pos : ({ c with st := st } : Cycle).pos = c.pos + 1 ∧ st.clkHigh = !c.st.clkHigh := by
  unfold Cycle.pos
  cases hc : c.st <;> grind [nextSt, St.movesOn, St.clkHigh]

theorem Cycle.moves_passes (hl : c.legal term = true) : c.kind.passes st := by
  unfold Cycle.legal at hl
  cases hc : c.st <;> grind [nextSt, St.movesOn, Kind.passes]

theorem Cycle.moves_fits (hl : c.legal term = true) (din : Half) :
    (c.entered st din).fits (termIn st term) := by
  unfold Cycle.legal at hl
  cases hc : c.st <;>
    grind [nextSt, St.movesOn, Cycle.fits, Cycle.entered, termIn, Cycle.atLast, Cycle.legal]

end

/-- A state that a legal cycle moves on from has a next one. -/
theorem Cycle.legal_nextSt {c : Cycle} {term : Term} (hl : c.legal term = true) (hm : c.st.movesOn = true) :
    nextSt c.kind term c.st ≠ none := by
  unfold Cycle.legal at hl
  cases hc : c.st <;> grind [nextSt, St.movesOn]

/-! ## Sampling edges -/

/-- What a sampling edge may decide while `term` stands: a recognised termination is one that the kind of
cycle knows, and a stretch is ended by E or by BERR only. -/
def Decision.suits (kind : Kind) (term : Term) : Decision → Prop
  | .violation => True
  | .proceed new => new ≠ .none ∧ (new = .avec → kind = .iack) ∧ (term = .vpa → new = .vpa ∨ new = .berr)
  | .wait new => (new = .none ∨ new = .vpa) ∧ (term = .vpa → new = .vpa)

theorem decideStretch_suits (kind : Kind) (d b v : Bool) (p : Fin 10) :
    (decideStretch d b v p).suits kind .vpa := by
  unfold decideStretch Decision.suits
  split <;> grind

theorem decideFirst_suits {kind : Kind} {term : Term} (ht : term ≠ .vpa) (d b v : Bool) {a : Bool}
    (ha : a = true → kind = .iack) : (decideFirst d b v a).suits kind term := by
  unfold decideFirst Decision.suits
  split <;> grind

theorem sampleAndDecide_suits {s t : State} {c : Cycle} (h : s.sampleAndDecide c = .next t) :
    ∃ d : Decision, d.suits c.kind s.term ∧ (s.sampleLines c false).follow c d = .next t := by
  unfold State.sampleAndDecide at h
  simp only at h
  split at h
  · next ht =>
    have ht : s.term = .vpa := ht
    exact ⟨_, ht ▸ decideStretch_suits .., h⟩
  · next ht =>
    refine ⟨_, decideFirst_suits ht _ _ _ fun ha => ?_, h⟩
    simp only [State.avecCounts, Bool.and_eq_true, decide_eq_true_eq] at ha
    exact ha.1.2

theorem St.samples_iff {st : St} : st.samples ↔ st = .S4 ∨ st = .S16 ∨ st = .SwHigh := by
  cases st <;> simp [St.samples]

section
variable {c : Cycle} {term : Term} (hs : c.st.samples) (hl : c.legal term = true)
include hs hl

theorem Cycle.samples_legal : (c.second = true → c.kind = .rmw) ∧ (term = .none ∨ term = .vpa) := by
  unfold Cycle.legal at hl
  rcases St.samples_iff.1 hs with hc | hc | hc <;> grind

/-- A wait pair prolongs the state whose end is sampled (R20). -/
theorem Cycle.samples_pos : c.pos = if c.second then 16 else 4 := by
  unfold Cycle.legal at hl
  unfold Cycle.pos
  rcases St.samples_iff.1 hs with hc | hc | hc <;> grind

/-- The strobes are asserted where terminations are sampled. -/
theorem Cycle.samples_strobe : (c.kind.columns c.pos).strobe = true := by
  rw [Cycle.samples_pos hs hl]
  cases hsec : c.second with
  | true => rw [(Cycle.samples_legal hs hl).1 hsec]; rfl
  | false => cases c.kind <;> rfl

theorem Cycle.waiting_legal {new : Term} (hnew : new = .none ∨ new = .vpa) : c.waiting.legal new = true := by
  have := (Cycle.samples_legal hs hl).1
  simp only [Cycle.legal, Cycle.waiting]
  grind

/-- The state after a recognised termination is the next one of the portion. -/
theorem Cycle.recognised_moves : ({ c with st := recognisedSt c } : Cycle).pos = c.pos + 1 ∧
    c.kind.passes (recognisedSt c) := by
  rw [Cycle.samples_pos hs hl, recognisedSt]
  cases hsec : c.second with
  | true => exact ⟨rfl, (Cycle.samples_legal hs hl).1 hsec⟩
  | false => exact ⟨rfl, trivial⟩

theorem Cycle.recognised_fits {new : Term} (hnew : new ≠ .none) (ha : new = .avec → c.kind = .iack)
    (din : Half) : (c.entered (recognisedSt c) din).fits new := by
  rw [recognisedSt]
  cases hsec : c.second with
  | true =>
    have hk := (Cycle.samples_legal hs hl).1 hsec
    simp [Cycle.fits, Cycle.entered, nextSt, Cycle.legal, hsec, hk, hnew]
    grind
  | false =>
    simp [Cycle.fits, Cycle.entered, nextSt, Cycle.legal, hsec, hnew]
    grind

end

/-- What a sampling edge writes first: the input lines. -/
theorem State.On.sampleLines {s : State} {c : Cycle} {k : Columns} (h : s.On c k) (late : Bool) :
    (s.sampleLines c late).On c k :=
  h.of_pins ⟨s.pins.bg, rfl⟩ rfl rfl fun _ => id

/-- A wait pair of the stretch may assert VMA (R236). -/
theorem State.On.stretch {s : State} {c : Cycle} {k : Columns} (h : s.On c k) (hk : k.strobe = true) :
    ({ s.stretchVma with term := .vpa } : State).On c k := by
  unfold State.stretchVma
  split
  · exact ⟨h.fc, h.addr, h.as, h.uds, h.lds, h.ds, h.rw, h.data, .inr ⟨rfl, hk, .inl rfl⟩, h.held⟩
  · exact h.of_pins ⟨s.pins.bg, rfl⟩ rfl rfl fun _ _ => .inl rfl

theorem stretchVma_closing (s : State) : s.stretchVma.closing = s.closing := by
  unfold State.stretchVma
  split <;> rfl

section
variable {s t : State} {c : Cycle} (hs : c.st.samples) (hz : s.closing = none) (hl : c.legal s.term = true)
  (hon : s.On c (c.kind.columns c.pos))
include hs hz hl hon

theorem follow_arrives {d : Decision} (hd : d.suits c.kind s.term) (h : s.follow c d = .next t) :
    ∃ e, e.st.clkHigh = false ∧ (t.Going e ∨ t.Over e) := by
  have waits {u : State} {new : Term} (hnew : new = .none ∨ new = .vpa)
      (hu : u.On c (c.kind.columns c.pos)) (ht : u.term = new) (hr : u.run = some c.waiting)
      (huz : u.closing = none) : ∃ e, e.st.clkHigh = false ∧ (u.Going e ∨ u.Over e) := by
    refine ⟨c.waiting, rfl, .inl ⟨hr, huz, nofun, ht ▸ Cycle.waiting_legal hs hl hnew, ?_⟩⟩
    have hpos : c.waiting.pos = c.pos := (Cycle.samples_pos hs hl).symm
    rw [hpos]
    exact hu.of_cycle rfl rfl rfl fun _ => rfl
  unfold State.follow at h
  split at h
  · cases h
  · next new =>
    obtain ⟨hnew, ha, hv⟩ := hd
    have hterm : s.term = .vpa ∨ s.term = .berr → new = .vpa ∨ new = .berr := fun hor =>
      hv (hor.resolve_right fun hb => by rcases (Cycle.samples_legal hs hl).2 with h | h <;> simp [h] at hb)
    obtain ⟨hpos, hpass⟩ := Cycle.recognised_moves hs hl
    have hin : termIn (recognisedSt c) new = new := by unfold recognisedSt; split <;> rfl
    obtain ⟨e, he, harrived⟩ := goTo_arrives (s := { s with term := new }) (c := { c with edge := c.edge + 1 })
      (st := recognisedSt c) hz hpos hpass
      ((hon.of_pins (t := { s with term := new }) ⟨s.pins.bg, rfl⟩ rfl rfl fun _ => hterm).of_cycle rfl rfl rfl fun _ => rfl)
      (fun din => hin.symm ▸ Cycle.recognised_fits (c := { c with edge := c.edge + 1 }) hs hl hnew ha din) h
    exact ⟨e, by rw [he]; unfold recognisedSt; split <;> rfl, harrived⟩
  · cases h
    exact waits (.inr rfl) ((hon.stretch (Cycle.samples_strobe hs hl)).of_pins ⟨_, rfl⟩ rfl rfl fun _ => id)
      rfl rfl (stretchVma_closing s ▸ hz)
  · next new hne =>
    cases h
    obtain ⟨hnew, hv⟩ := hd
    refine waits hnew (hon.of_pins ⟨s.pins.bg, rfl⟩ rfl rfl fun _ hor => ?_) rfl rfl hz
    rcases hor with hor | hor
    · exact absurd (hv hor) hne
    · rcases (Cycle.samples_legal hs hl).2 with h | h <;> simp [h] at hor

theorem sampleAndDecide_arrives (h : s.sampleAndDecide c = .next t) :
    ∃ e, e.st.clkHigh = false ∧ (t.Going e ∨ t.Over e) := by
  obtain ⟨d, hd, hf⟩ := sampleAndDecide_suits h
  exact follow_arrives (s := s.sampleLines c false) hs hz hl (hon.sampleLines false) hd hf

end

/-! ## end(S6) -/

/-- The late check turns a termination into one of the same kind of cycle (R42, R144). -/
theorem decideLate_suits {term new : Term} {d b v : Bool} (h : decideLate term d b v = some new)
    (ht : term ≠ .none) : new ≠ .none ∧ (new = .avec → term = .avec) ∧
      (term = .vpa ∨ term = .berr → new = .vpa ∨ new = .berr) := by
  unfold decideLate at h
  cases term <;> grind

/-- `endS6_cases` with what it has decided. -/
theorem endS6_decides {s t : State} {c : Cycle} (h : s.endS6 c = .next t) : ∃ term d b v,
    decideLate s.term d b v = some term ∧
    ((c.kind = .rmw ∧ term.isBerr = true ∧ t =
        ({ atEndS6 s c term with run := some { c with st := .faulted } } : State).raiseBusError .rmwRead c) ∨
      (¬(c.kind = .rmw ∧ term.isBerr = true) ∧ (atEndS6 s c term).goTo c .S7 = .next t)) := by
  unfold State.endS6 at h
  simp only at h
  have hterm : ((s.sampleLines c true).latchFor c).term = s.term := by
    unfold State.latchFor
    split <;> rfl
  split at h
  · cases h
  · next term hd =>
    refine ⟨term, _, _, _, hterm ▸ hd, ?_⟩
    split at h
    · next hb =>
      simp only [Bool.and_eq_true, decide_eq_true_eq] at hb
      cases h; exact .inl ⟨hb.1, hb.2, rfl⟩
    · next hb =>
      simp only [Bool.and_eq_true, decide_eq_true_eq] at hb
      exact .inr ⟨hb, h⟩

theorem State.On.atEndS6 {s : State} {c : Cycle} {k : Columns} {term : Term} (h : s.On c k)
    (ht : s.term = .vpa ∨ s.term = .berr → term = .vpa ∨ term = .berr) : (atEndS6 s c term).On c k :=
  h.of_pins ⟨s.pins.bg, atEndS6_pins s c term⟩ (by unfold Machine.atEndS6 State.latchFor; split <;> rfl)
    (sameDevices_atEndS6 s c term).params fun _ => ht

theorem atEndS6_closing (s : State) (c : Cycle) (term : Term) : (atEndS6 s c term).closing = s.closing := by
  unfold atEndS6 State.latchFor
  split <;> rfl

theorem endS6_arrives {s t : State} {c : Cycle} (hst : c.st = .S6) (hz : s.closing = none)
    (hl : c.legal s.term = true) (hon : s.On c (c.kind.columns c.pos)) (h : s.endS6 c = .next t) :
    ∃ e, e.st.clkHigh = false ∧ (t.Going e ∨ t.Over e) := by
  obtain ⟨term, d, b, v, hlate, hnext⟩ := endS6_decides h
  have hl6 : (c.second = false ∧ s.term ≠ .none) ∧ (s.term ≠ .avec ∨ c.kind = .iack) := by
    simpa [Cycle.legal, hst] using hl
  obtain ⟨⟨hsecond, hne⟩, havec⟩ := hl6
  obtain ⟨hnew, hnewavec, hvma⟩ := decideLate_suits hlate hne
  have hpos : c.pos = 6 := by simp only [Cycle.pos, hst]
  have hon := hon.atEndS6 (term := term) hvma
  have hclosing := (atEndS6_closing s c term).trans hz
  rcases hnext with ⟨hk, hb, rfl⟩ | ⟨hgo, hnext⟩
  · refine ⟨{ c with st := .faulted }, rfl, .inl ⟨rfl, hclosing, nofun, ?_, ?_⟩⟩
    · simp only [Cycle.legal, hsecond, hk]
      exact hb
    · rw [hpos] at hon
      exact State.On.of_pins (hon.of_cycle (d := { c with st := .faulted }) rfl rfl rfl fun _ => rfl)
        ⟨_, rfl⟩ rfl rfl fun _ => id
  · have hfits (din : Half) : (c.entered .S7 din).fits term := by
      simp only [Cycle.fits, Cycle.entered, nextSt, Cycle.atLast, Cycle.legal]
      cases term <;> grind [Term.isBerr]
    obtain ⟨e, he, harrived⟩ := goTo_arrives hclosing (st := .S7) (hpos ▸ rfl) trivial hon hfits hnext
    exact ⟨e, he ▸ rfl, harrived⟩

/-! ## Every edge -/

theorem controllerEdge_start {s t : State} {c : Cycle} (hr : s.run = some c) (hst : c.st = .start)
    (hz : s.closing = none) (hl : c.legal s.term = true) (ha : s.pins.addr = none)
    (hv : s.pins.vma = .negated) (hh : s.held = DataLines.z ∨ s.pins.data = s.held)
    (h : s.controllerEdge = .next t) : ∃ e, e.st.clkHigh = true ∧ (t.Going e ∨ t.Over e) := by
  rw [controllerEdge_movesOn hr (st := .S0) (by rw [hst]; rfl) (by rw [hst]; rfl)] at h
  have hsecond : c.second = false := by simpa [Cycle.legal, hst] using hl
  have hon (u : State) (hu : enterState c .S0 s = .next u) :
      u.On c (columnsIn c.kind u.term .S0 ({ c with st := .S0 } : Cycle).pos) := by
    have hu' : u = s.placeCodes c.fc := by
      cases hk : c.kind <;> simp only [enterState, hk] at hu <;> cases hu <;> rfl
    rw [hu']
    cases c.kind <;> exact on_placeCodes ha hv hh
  obtain ⟨e, he, harrived⟩ := goTo_arrives_of_on hz (st := .S0) trivial
    (fun din => by simp [Cycle.fits, Cycle.entered, nextSt, Cycle.legal, hsecond, termIn]) hon h
  exact ⟨e, he ▸ rfl, harrived⟩

/-- An edge of the bus controller takes a cycle to a state of the other half of CLK, with the lines of that
state. -/
theorem controllerEdge_arrives {s t : State} {c : Cycle} (hg : s.Going c) (h : s.controllerEdge = .next t) :
    ∃ e, (e.st.clkHigh = !c.st.clkHigh) ∧ (t.Going e ∨ t.Over e) := by
  by_cases hm : c.st.movesOn = true
  · obtain ⟨st, hn⟩ := Option.ne_none_iff_exists'.1 (Cycle.legal_nextSt hg.legal hm)
    obtain ⟨hpos, hclk⟩ := Cycle.moves_pos hm hg.started hn
    rw [controllerEdge_movesOn hg.run hm hn] at h
    obtain ⟨e, he, harrived⟩ := goTo_arrives hg.closing hpos (Cycle.moves_passes hm hg.started hn hg.legal)
      hg.on (Cycle.moves_fits hm hg.started hn hg.legal) h
    exact ⟨e, he ▸ hclk, harrived⟩
  · have sampled (hs : c.st.samples) : ∃ e, (e.st.clkHigh = !c.st.clkHigh) ∧ (t.Going e ∨ t.Over e) := by
      rw [controllerEdge_samples hg.run hs] at h
      rw [St.samples_clkHigh hs]
      exact sampleAndDecide_arrives hs hg.closing hg.legal hg.on h
    cases hst : c.st <;> simp only [hst, St.movesOn, not_true_eq_false] at hm
    case S4 => exact hst ▸ sampled (by rw [hst]; trivial)
    case S16 => exact hst ▸ sampled (by rw [hst]; trivial)
    case SwHigh => exact hst ▸ sampled (by rw [hst]; trivial)
    case SwLow => 
      simp only [State.controllerEdge, hg.run, hst] at h
      cases h
      refine ⟨{ c with st := .SwHigh }, rfl, .inl ⟨rfl, hg.closing, nofun, ?_, ?_⟩⟩
      · simpa only [Cycle.legal, hst] using hg.legal
      · have hpos : c.pos = ({ c with st := .SwHigh } : Cycle).pos := by simp only [Cycle.pos, hst]
        exact State.On.of_pins ((hpos ▸ hg.on).of_cycle (d := { c with st := .SwHigh }) rfl rfl rfl fun _ => rfl)
          ⟨s.pins.bg, rfl⟩ rfl rfl fun _ => id
    case S6 =>
      simp only [State.controllerEdge, hg.run, hst] at h
      exact endS6_arrives hst hg.closing hg.legal hg.on h
    case faulted =>
      simp only [State.controllerEdge, hg.run, hst] at h
      cases h

end Sys2Proof.Machine
end

section
/-! SUPPORT. The arbiter at a falling edge (45_bus_arbitration.md R250 to R265): what it may do, that it keeps
its own invariant, and that inside a cycle it takes no line from the cycle but BG. -/

namespace Sys2Proof.Machine

/-- What the arbiter may do, with what holds where it does it (R254 to R260, R264). -/
inductive ArbiterMove (s : State) : State → Prop
  | stays : ArbiterMove s s
  | request (ha : s.arb = .noRequest) : ArbiterMove s s.request
  | requested (ha : s.arb = .requested) : ArbiterMove s s.requestedEdge
  | withdrawn (ha : s.arb = .granted) (ho : s.params.arbWires = .two → s.owner = .processor) :
      ArbiterMove s ({ s with arb := .noRequest } : State).negateBg
  | startTenure (ha : s.arb = .granted) (hw : s.params.arbWires = .three)
      (hr : s.owner = .processor → s.run = none) : ArbiterMove s s.startTenure
  | handOver (ha : s.arb = .granted) (hw : s.params.arbWires = .two) (hr : s.run = none) :
      ArbiterMove s s.handOver
  | returns (hr : s.run = none) : ArbiterMove s (s.takeBack .noRequest .negated)
  | tenure (ha : s.arb = .acknowledged) : ArbiterMove s s.tenureEdge
  | returnBus (hr : s.run = none) : ArbiterMove s s.returnBus

theorem grantedThree_moves {s t : State} (ha : s.arb = .granted) (hw : s.params.arbWires = .three)
    (herr : s.acknowledgeError = none) (h : s.grantedThree = .next t) : ArbiterMove s t := by
  unfold State.grantedThree at h
  split at h
  · next hbg =>
    cases h
    refine .startTenure ha hw fun ho => ?_
    by_contra hr
    simp [State.acknowledgeError, hw, hbg, ho, hr] at herr
  · split at h <;> cases h
    · exact .stays
    · exact .withdrawn ha fun h => by rw [hw] at h; cases h

theorem grantedTwo_moves {s t : State} (ha : s.arb = .granted) (hw : s.params.arbWires = .two)
    (h : s.grantedTwo = .next t) : ArbiterMove s t := by
  unfold State.grantedTwo at h
  split at h
  · next ho =>
    split at h
    · split at h <;> cases h
      · next hr => exact .handOver ha hw hr
      · exact .stays
    · cases h; exact .withdrawn ha fun _ => ho
  · split at h
    · cases h; exact .stays
    · split at h <;> cases h
      next hr => exact .returns hr

theorem acknowledgedEdge_moves {s t : State} (ha : s.arb = .acknowledged) (h : s.acknowledgedEdge = .next t) :
    ArbiterMove s t := by
  unfold State.acknowledgedEdge at h
  split at h
  · cases h; exact .tenure ha
  · split at h <;> cases h
    next hr => exact .returnBus hr

theorem arbiter_moves {s t : State} (h : s.arbiter = .next t) : ArbiterMove s t := by
  unfold State.arbiter at h
  split at h
  · cases h
  · next herr =>
    split at h
    · next ha =>
      cases h
      split
      · exact .request ha
      · exact .stays
    · next ha => cases h; exact .requested ha
    · next ha =>
      split at h
      · next hw => exact grantedThree_moves ha hw herr h
      · next hw => exact grantedTwo_moves ha hw h
    · next ha => exact acknowledgedEdge_moves ha h

/-! ## Its invariant -/

/-- What the arbiter has and the owner of the bus. -/
theorem State.ArbInv.of_same {s t : State} (h : s.ArbInv) (hbg : t.pins.bg = s.pins.bg) (ha : t.arb = s.arb)
    (hb : t.tenureBg = s.tenureBg) (hp : t.params = s.params) (ho : t.owner = s.owner) : t.ArbInv := by
  constructor <;> simp only [hbg, ha, hb, hp, ho]
  exacts [h.line, h.granted, h.bg, h.tenure, h.three, h.two]

theorem State.ArbInv.kept {s t : State} (h : s.ArbInv) (k : Kept s t) : t.ArbInv :=
  h.of_same k.bg k.arb k.tenureBg k.params k.owner

theorem State.ArbInv.owner_of_not {s : State} (h : s.ArbInv) (hg : s.arb ≠ .granted)
    (ha : s.arb ≠ .acknowledged) : s.owner = .processor ∧ s.pins.bg = .negated := by
  refine ⟨?_, h.line.resolve_left fun hbg => (h.bg hbg).elim hg ha⟩
  cases ho : s.owner with
  | processor => rfl
  | alternate =>
    cases hw : s.params.arbWires with
    | three => exact absurd ((h.three hw).1 ho) ha
    | two => exact absurd ((h.two hw).2 ho) hg

/-- With the processor owning the bus and BG out exactly in `Granted`, the arbiter is outside a tenure. -/
theorem arbInv_of_processor {s : State} (ho : s.owner = .processor) (ha : s.arb ≠ .acknowledged)
    (hl : s.pins.bg = .asserted ∨ s.pins.bg = .negated) (hbg : s.pins.bg = .asserted ↔ s.arb = .granted) :
    s.ArbInv where
  line := hl
  granted := hbg.2
  bg h := .inl (hbg.1 h)
  tenure h := absurd h ha
  three _ := by simp [ho, ha]
  two _ := ⟨ha, by simp [ho]⟩

theorem arbInv_grant {s : State} (ho : s.owner = .processor) : s.grant.ArbInv :=
  arbInv_of_processor (by simpa using ho) (by simp) (by simp) (by simp)

theorem arbInv_request {s : State} (ho : s.owner = .processor) (hbg : s.pins.bg = .negated) :
    s.request.ArbInv := by
  rcases request_cases s with ⟨-, h⟩ | ⟨n, -, h⟩ <;> rw [h]
  · exact arbInv_grant ho
  · exact arbInv_of_processor ho (by simp) (.inr hbg) (by simp [hbg])

theorem arbInv_requestedEdge {s : State} (ho : s.owner = .processor) (hbg : s.pins.bg = .negated)
    (ha : s.arb = .requested) : s.requestedEdge.ArbInv := by
  unfold State.requestedEdge
  split
  · split
    · exact arbInv_grant ho
    · exact arbInv_of_processor ho (by simp [ha]) (.inr hbg) (by simp [ha, hbg])
  · exact arbInv_of_processor ho (by simp) (.inr hbg) (by simp [hbg])

theorem arbInv_returnBus (s : State) : s.returnBus.ArbInv := by
  unfold State.returnBus
  split
  · split
    · exact arbInv_of_processor rfl (by simp) (by simp) (by simp)
    · exact arbInv_request rfl rfl
  · exact arbInv_of_processor rfl (by simp) (by simp) (by simp)

theorem arbInv_tenureEdge {s : State} (h : s.ArbInv) (ha : s.arb = .acknowledged) : s.tenureEdge.ArbInv := by
  have tenure {u : State} (hu : u.params = s.params ∧ u.owner = s.owner ∧ u.arb = s.arb)
      (hl : u.pins.bg = .asserted ∨ u.pins.bg = .negated)
      (hout : u.pins.bg = .asserted ↔ u.tenureBg.out = true) : u.ArbInv := by
    obtain ⟨hp, ho, har⟩ := hu
    refine ⟨hl, by simp [har, ha], fun _ => .inr (har.trans ha), fun _ => hout, ?_, ?_⟩
    · rw [hp, ho, har]; exact h.three
    · rw [hp, ho, har]; exact h.two
  have hout := h.tenure ha
  unfold State.tenureEdge
  split
  · exact tenure ⟨rfl, rfl, rfl⟩ (by simp) (by simp [TenureBg.out])
  · next hb => exact tenure ⟨rfl, rfl, rfl⟩ h.line (by rw [hout, hb]; rfl)
  · exact h
  · next hb =>
    split
    · exact tenure ⟨rfl, rfl, rfl⟩ (by simp) (by simp [TenureBg.out])
    · exact h
  · next hb =>
    split
    · exact tenure ⟨rfl, rfl, rfl⟩ h.line (by rw [hout, hb]; rfl)
    · exact h
  · split
    · exact h
    · exact tenure ⟨rfl, rfl, rfl⟩ (by simp) (by simp [TenureBg.out])

theorem arbInv_startTenure {s : State} (h : s.ArbInv) (ha : s.arb = .granted)
    (hw : s.params.arbWires = .three) : s.startTenure.ArbInv where
  line := by simpa using h.line
  granted := by simp
  bg _ := .inr rfl
  tenure _ := by simp [h.granted ha, State.startTenure, TenureBg.out]
  three _ := by simp
  two h2 := by rw [show s.startTenure.params = s.params from rfl, hw] at h2; cases h2

theorem arbInv_handOver {s : State} (h : s.ArbInv) (ha : s.arb = .granted)
    (hw : s.params.arbWires = .two) : s.handOver.ArbInv where
  line := by simpa using h.line
  granted _ := by simpa using h.granted ha
  bg _ := .inl ha
  tenure h := by rw [show s.handOver.arb = s.arb from rfl, ha] at h; cases h
  three h3 := by rw [show s.handOver.params = s.params from rfl, hw] at h3; cases h3
  two _ := ⟨by simp [ha], fun _ => ha⟩

/-- The arbiter keeps BG and the owner in step with `arb` (R54, R256, R258, R260). -/
theorem arbiter_arbInv {s t : State} (hs : s.ArbInv) (h : s.arbiter = .next t) : t.ArbInv := by
  cases arbiter_moves h with
  | stays => exact hs
  | request ha =>
    obtain ⟨ho, hbg⟩ := hs.owner_of_not (by simp [ha]) (by simp [ha])
    exact arbInv_request ho hbg
  | requested ha =>
    obtain ⟨ho, hbg⟩ := hs.owner_of_not (by simp [ha]) (by simp [ha])
    exact arbInv_requestedEdge ho hbg ha
  | withdrawn ha ho =>
    have ho : s.owner = .processor := by
      cases hw : s.params.arbWires with
      | two => exact ho hw
      | three =>
        cases ho : s.owner with
        | processor => rfl
        | alternate => have := (hs.three hw).1 ho; rw [ha] at this; cases this
    exact arbInv_of_processor (by simpa using ho) (by simp) (by simp) (by simp)
  | startTenure ha hw _ => exact arbInv_startTenure hs ha hw
  | handOver ha hw _ => exact arbInv_handOver hs ha hw
  | returns _ => exact arbInv_of_processor rfl (by simp) (by simp) (by simp)
  | tenure ha => exact arbInv_tenureEdge hs ha
  | returnBus _ => exact arbInv_returnBus s

/-! ## The lines at a falling edge -/

theorem tenureEdge_pins (s : State) : ∃ bg, s.tenureEdge.pins = { s.pins with bg := bg } :=
  ⟨s.tenureEdge.pins.bg, by rw [tenureEdge_graft]; rfl⟩

/-- Inside a cycle the arbiter writes BG alone. -/
theorem arbiter_running_pins {s t : State} (hs : s.ArbInv) (hr : s.run ≠ none) (h : s.arbiter = .next t) :
    ∃ bg, t.pins = { s.pins with bg := bg } := by
  cases arbiter_moves h with
  | stays => exact ⟨s.pins.bg, rfl⟩
  | request _ => exact ⟨_, request_pins s⟩
  | requested _ =>
    unfold State.requestedEdge
    split
    · split
      · exact ⟨_, rfl⟩
      · exact ⟨s.pins.bg, rfl⟩
    · exact ⟨s.pins.bg, rfl⟩
  | withdrawn _ _ => exact ⟨_, rfl⟩
  | startTenure ha hw hidle =>
    refine absurd (hidle ?_) hr
    cases ho : s.owner with
    | processor => rfl
    | alternate => have := (hs.three hw).1 ho; rw [ha] at this; cases this
  | handOver _ _ hidle => exact absurd hidle hr
  | returns hidle => exact absurd hidle hr
  | tenure _ => exact tenureEdge_pins s
  | returnBus hidle => exact absurd hidle hr

/-- The lines of an idle bus, and at most one device left on the data bus. -/
structure State.Released (s : State) : Prop extends s.LinesIdle where
  held : s.held = DataLines.z ∨ s.pins.data = s.held

theorem State.Released.of_pins {s t : State} (h : s.Released) (hp : ∃ bg, t.pins = { s.pins with bg := bg })
    (hh : t.held = s.held) (ho : t.owner = .processor → s.owner = .processor) : t.Released := by
  obtain ⟨bg, hp⟩ := hp
  constructor
  · constructor <;> simp only [hp]
    exacts [h.addr, h.as, h.uds, h.lds, h.ds, h.rw, h.vma, fun h' => h.own (ho h')]
  · simpa only [hp, hh] using h.held

theorem released_handOver {s : State} (h : s.Released) : s.handOver.Released where
  addr := rfl
  as := by simp
  uds := by simp
  lds := by simp
  ds := by simp
  rw := by simp
  vma := h.vma
  own ho := by cases ho
  held := .inr rfl

/-- The lines the processor leaves between cycles (R60). -/
theorem released_of_negated {s : State} (ha : s.pins.addr = none) (has : s.pins.strobeAS = .negated)
    (hu : s.pins.uds = .negated) (hl : s.pins.lds = .negated) (hd : s.pins.ds = .negated)
    (hrw : s.pins.rw = .high) (hv : s.pins.vma = .negated)
    (hh : s.held = DataLines.z ∨ s.pins.data = s.held) : s.Released where
  addr := ha
  as := by simp [has]
  uds := by simp [hu]
  lds := by simp [hl]
  ds := by simp [hd]
  rw := by simp [hrw]
  vma := hv
  own _ := ⟨has, hu, hl, hd, hrw⟩
  held := hh

theorem released_takeBack {s : State} (h : s.Released) (arb : Arb) (bg : Line) :
    (s.takeBack arb bg).Released :=
  released_of_negated rfl rfl rfl rfl rfl rfl h.vma h.held

theorem released_request {s : State} (h : s.Released) : s.request.Released :=
  h.of_pins ⟨_, request_pins s⟩ (by simp) (by simp)

/-- Between cycles the arbiter keeps the lines idle, whoever owns the bus after it. -/
theorem arbiter_released {s t : State} (hs : s.Released) (h : s.arbiter = .next t) : t.Released := by
  cases arbiter_moves h with
  | stays => exact hs
  | request _ => exact released_request hs
  | requested _ =>
    unfold State.requestedEdge
    split
    · split
      · exact hs.of_pins ⟨_, rfl⟩ rfl id
      · exact hs.of_pins ⟨s.pins.bg, rfl⟩ rfl id
    · exact hs.of_pins ⟨s.pins.bg, rfl⟩ rfl id
  | withdrawn _ _ => exact hs.of_pins ⟨_, rfl⟩ rfl id
  | startTenure _ _ _ => exact (released_handOver hs).of_pins ⟨_, rfl⟩ rfl id
  | handOver _ _ _ => exact released_handOver hs
  | returns _ => exact released_takeBack hs _ _
  | tenure _ =>
    exact hs.of_pins (tenureEdge_pins s) (by rw [tenureEdge_graft]; rfl)
      (by rw [tenureEdge_owner]; exact id)
  | returnBus _ =>
    unfold State.returnBus
    split
    · split
      · exact released_takeBack hs _ _
      · exact released_request (released_takeBack hs _ _)
    · exact released_takeBack hs _ _

end Sys2Proof.Machine
end

section
/-! SUPPORT. Every half clock keeps the invariant of the bus, of the arbiter and of the clock phase
(30_encoding.md R100 to R102, 10_state.md R20, R54), and every step the whole invariant. -/

namespace Sys2Proof.Machine

/-! ## The invariant in terms of where the bus is -/

theorem Cycle.atLast_st {c : Cycle} {term : Term} (h : c.atLast term = true) :
    1 ≤ c.pos ∧ c.st ≠ .start ∧ c.st.clkHigh = false := by
  have hst : c.st = .S7 ∨ c.st = .S9 ∨ c.st = .S19 ∨ c.st = .S21 := by
    unfold Cycle.atLast at h
    cases hk : c.kind <;> grind
  rcases hst with hst | hst | hst | hst <;> simp [Cycle.pos, hst, St.clkHigh]

theorem State.Going.busInv {s : State} {c : Cycle} (h : s.Going c) : s.BusInv := by
  obtain ⟨hshows, hheld⟩ := on_iff_shows.1 h.on
  have only {d : Cycle} (hd : s.run = some d) : c = d := Option.some.inj (h.run.symm.trans hd)
  have noClosing {d : Cycle} (hd : s.closing = some d) : False := by rw [h.closing] at hd; cases hd
  have noIdle (hd : s.run = none) : False := by rw [h.run] at hd; cases hd
  exact {
    held := hheld.imp_right fun ⟨hd, hdrive⟩ =>
      ⟨hd, fun d hd => hd.elim (fun hd => only hd ▸ hdrive) fun hd => (noClosing hd).elim⟩
    idle := fun hr _ => (noIdle hr).elim
    ends := fun d hd => (noClosing hd).elim
    legal := fun d hd => only hd ▸ h.legal
    start := fun d hd hst _ => absurd (only hd ▸ hst) h.started
    shows := fun d hd _ => only hd ▸ hshows }

theorem State.Over.busInv {s : State} {c : Cycle} (h : s.Over c) (hc : s.clk = .low) : s.BusInv := by
  obtain ⟨hcloses, hheld⟩ := (closes_iff_on (Cycle.atLast_st h.last).1 hc).2 ⟨h.on, h.last⟩
  have only {d : Cycle} (hd : s.closing = some d) : c = d := Option.some.inj (h.closing.symm.trans hd)
  have noRun {d : Cycle} (hd : s.run = some d) : False := by rw [h.run] at hd; cases hd
  exact {
    held := hheld.imp_right fun ⟨hd, hdrive⟩ =>
      ⟨hd, fun d hd => hd.elim (fun hd => (noRun hd).elim) fun hd => only hd ▸ hdrive⟩
    idle := fun _ hz => by rw [h.closing] at hz; cases hz
    ends := fun d hd => ⟨only hd ▸ hcloses, fun e he => (noRun he).elim⟩
    legal := fun d hd => (noRun hd).elim
    start := fun d hd => (noRun hd).elim
    shows := fun d hd => (noRun hd).elim }

theorem State.Released.busInv {s : State} (h : s.Released) (hr : s.run = none) (hz : s.closing = none) :
    s.BusInv := by
  have noRun {d : Cycle} (hd : s.run = some d) : False := by rw [hr] at hd; cases hd
  have noClosing {d : Cycle} (hd : s.closing = some d) : False := by rw [hz] at hd; cases hd
  exact {
    held := h.held.imp_right fun hd => ⟨hd, fun d hd => (hd.elim noRun noClosing).elim⟩
    idle := fun _ _ => h.toLinesIdle
    ends := fun d hd => (noClosing hd).elim
    legal := fun d hd => (noRun hd).elim
    start := fun d hd => (noRun hd).elim
    shows := fun d hd => (noRun hd).elim }

section
variable {s : State} (h : s.BusInv)
include h

/-- A cycle past its start is the only one on the bus. -/
theorem State.BusInv.going {c : Cycle} (hr : s.run = some c) (hst : c.st ≠ .start) : s.Going c where
  run := hr
  closing := by
    by_contra hz
    obtain ⟨d, hd⟩ := Option.ne_none_iff_exists'.1 hz
    exact hst ((h.ends d hd).2 c hr)
  started := hst
  legal := h.legal c hr
  on := on_iff_shows.2 ⟨h.shows c hr hst, h.held.imp_right fun ⟨hd, hdrive⟩ => ⟨hd, hdrive c (.inl hr)⟩⟩

/-- A last state is one with CLK low. -/
theorem State.BusInv.closing_high (hc : s.clk = .high) : s.closing = none := by
  by_contra hz
  obtain ⟨d, hd⟩ := Option.ne_none_iff_exists'.1 hz
  have := (h.ends d hd).1.clk
  rw [hc] at this; cases this

theorem State.BusInv.heldData : s.held = DataLines.z ∨ s.pins.data = s.held := h.held.imp_right (·.1)

/-- Where no cycle is past its start, the edge that ends the last state of a cycle, if there is one, leaves the
bus released (R139, R168, R197). -/
theorem State.BusInv.released (hno : ∀ c, s.run = some c → c.st = .start) : s.releaseClosing.Released := by
  cases hz : s.closing with
  | none =>
    rw [releaseClosing_none hz]
    refine ⟨?_, h.heldData⟩
    cases hr : s.run with
    | none => exact h.idle hr hz
    | some c => exact h.start c hr (hno c hr) hz
  | some c =>
    have hc := (h.ends c hz).1
    simp only [State.releaseClosing, hz]
    cases hk : c.kind with
    | read | iack =>
      have hrw : s.pins.rw = .high := by simpa [Cycle.writing, hk] using hc.rw
      exact released_of_negated rfl hc.as hc.uds hc.lds hc.ds hrw hc.vma h.heldData
    | write | rmw => exact released_of_negated rfl hc.as hc.uds hc.lds hc.ds rfl hc.vma (.inr rfl)

end

/-! ## A rising edge -/

theorem releaseClosing_clk (s : State) (k : Clk) :
    ({ s with clk := k } : State).releaseClosing = { s.releaseClosing with clk := k } := by
  cases h : s.closing with
  | none => simp [h]
  | some c => simp only [State.releaseClosing, h]; cases c.kind <;> rfl

theorem State.Going.of_clk {s : State} {c : Cycle} (h : s.Going c) (k : Clk) :
    ({ s with clk := k } : State).Going c :=
  ⟨h.run, h.closing, h.started, h.legal, h.on.of_pins ⟨s.pins.bg, rfl⟩ rfl rfl fun _ => id⟩

/-- The bus and the clock phase. -/
def InStep (t : State) : Prop := t.BusInv ∧ t.inPhase

theorem State.Going.inStep {t : State} {e : Cycle} (h : t.Going e) (hp : e.st.clkHigh = true ↔ t.clk = .high) :
    InStep t :=
  ⟨h.busInv, fun d hd => by rw [← Option.some.inj (h.run.symm.trans hd)]; exact hp⟩

theorem State.Over.inStep {t : State} {e : Cycle} (h : t.Over e) (hc : t.clk = .low) : InStep t :=
  ⟨h.busInv hc, fun d hd => by rw [h.run] at hd; cases hd⟩

theorem State.Released.inStep {t : State} (h : t.Released) (hr : t.run = none) (hz : t.closing = none) :
    InStep t :=
  ⟨h.busInv hr hz, fun d hd => by rw [hr] at hd; cases hd⟩

/-- A rising edge starts a cycle or takes it on, and ends none. -/
theorem rising_going {s t : State} {c : Cycle} (h : s.BusInv) (hp : s.inPhase) (hc : s.clk = .low)
    (hr : s.run = some c) (ht : s.halfClock = .next t) : ∃ e, t.Going e ∧ e.st.clkHigh = true := by
  rw [halfClock_rising hc, releaseClosing_clk] at ht
  suffices ∃ e, e.st.clkHigh = true ∧ (t.Going e ∨ t.Over e) by
    obtain ⟨e, he, hg | ho⟩ := this
    · exact ⟨e, hg, he⟩
    · rw [(Cycle.atLast_st ho.last).2.2] at he; cases he
  by_cases hst : c.st = .start
  · have hrel := h.released fun d hd => Option.some.inj (hr.symm.trans hd) ▸ hst
    have hterm : s.releaseClosing.term = s.term := by rw [releaseClosing_eq]
    exact controllerEdge_start (s := { s.releaseClosing with clk := .high }) (by simpa using hr) hst
      (by rw [releaseClosing_eq]) (hterm ▸ h.legal c hr) hrel.addr hrel.vma hrel.held ht
  · have hg := h.going hr hst
    rw [releaseClosing_none hg.closing] at ht
    have hlow : c.st.clkHigh = false := by
      have := hp c hr
      rw [hc] at this
      simpa using this
    obtain ⟨e, he, hor⟩ := controllerEdge_arrives (hg.of_clk .high) ht
    exact ⟨e, by rw [he, hlow]; rfl, hor⟩

theorem rising_inStep {s t : State} (h : s.BusInv) (hp : s.inPhase) (hc : s.clk = .low)
    (ht : s.halfClock = .next t) : InStep t := by
  cases hr : s.run with
  | none =>
    rw [halfClock_rising hc, releaseClosing_clk, controllerEdge_idle (by simpa using hr)] at ht
    cases ht
    have hrel := h.released fun c hc => by rw [hr] at hc; cases hc
    exact State.Released.inStep (hrel.of_pins ⟨s.releaseClosing.pins.bg, rfl⟩ rfl id) (by simpa using hr)
      (by rw [releaseClosing_eq])
  | some c =>
    obtain ⟨e, hg, he⟩ := rising_going h hp hc hr ht
    rw [halfClock_rising hc] at ht
    have hclk : t.clk = .high := ((kept_releaseClosing _).trans (kept_controllerEdge ht)).clk
    exact hg.inStep (by simp [he, hclk])

/-! ## A falling edge -/

theorem beforeArbiter_same (s : State) : (beforeArbiter s).pins = s.pins ∧
    (beforeArbiter s).arb = s.arb ∧ (beforeArbiter s).tenureBg = s.tenureBg := by
  unfold beforeArbiter State.pitResetEdge
  split <;> exact ⟨rfl, rfl, rfl⟩

theorem State.ArbInv.beforeArbiter {s : State} (h : s.ArbInv) : (beforeArbiter s).ArbInv := by
  obtain ⟨hp, ha, ht⟩ := beforeArbiter_same s
  exact h.of_same (by rw [hp]) ha ht (aside_beforeArbiter s).params (beforeArbiter_owner s)

theorem fallingEdge_arbInv {s t : State} (h : s.ArbInv) (ht : s.fallingEdge = .next t) : t.ArbInv :=
  arbiter_arbInv h.beforeArbiter ht

theorem fallingEdge_released {s t : State} (h : s.Released) (ht : s.fallingEdge = .next t) : t.Released := by
  refine arbiter_released (s := beforeArbiter s) ?_ ht
  exact h.of_pins ⟨s.pins.bg, (beforeArbiter_same s).1⟩ (aside_beforeArbiter s).held
    (by rw [beforeArbiter_owner]; exact id)

/-- A falling edge takes nothing from a cycle in progress. -/
theorem fallingEdge_going {s t : State} {c : Cycle} (h : s.Going c) (ha : s.ArbInv)
    (ht : s.fallingEdge = .next t) : t.Going c := by
  have a := aside_fallingEdge ht
  have hrun : (Machine.beforeArbiter s).run ≠ none := by
    rw [(aside_beforeArbiter s).run, h.run]; simp
  obtain ⟨bg, hbg⟩ := arbiter_running_pins ha.beforeArbiter hrun ht
  rw [(beforeArbiter_same s).1] at hbg
  exact ⟨a.run.trans h.run, a.closing.trans h.closing, h.started, a.term ▸ h.legal,
    h.on.of_pins ⟨bg, hbg⟩ a.held a.params fun _ => a.term ▸ id⟩

/-- The master leaves the data bus alone while it reads. -/
theorem Cycle.reads_drive {c : Cycle} {term : Term} (hl : c.legal term = true) (hr : c.reads = true) :
    (c.kind.columns c.pos).drive = false := by
  cases hk : c.kind with
  | read | iack => rfl
  | write => simp [Cycle.reads, hk] at hr
  | rmw =>
    have hsecond : c.second = false := by simpa [Cycle.reads, hk] using hr
    unfold Cycle.legal at hl
    unfold Cycle.pos
    cases hst : c.st <;> simp_all [Kind.columns]

theorem deviceReleasesData_run (s : State) (a : Answer) : (s.deviceReleasesData a).run = s.run := by
  unfold State.deviceReleasesData
  split <;> rfl

/-- The peripheral touches the data bus only. -/
theorem peripheralEdge_going {s t : State} {c : Cycle} (h : s.Going c) (ht : s.peripheralEdge = .next t) :
    t.Going c := by
  have drives {x : Cycle} (hd : (c.kind.columns c.pos).drive = false) (ht : s.deviceDrives x = .next t) :
      t.Going c := by
    obtain ⟨y, hy⟩ := driveData_eq (s := s.drawn 2) ht
    exact ⟨hy ▸ h.run, hy ▸ h.closing, h.started, hy ▸ h.legal, (h.on.drawn 2).driveData hd ht⟩
  simp only [State.peripheralEdge, h.run] at ht
  split at ht
  · next hv =>
    simp only [Bool.and_eq_true] at hv
    have hd := Cycle.reads_drive h.legal hv.2
    split at ht
    · exact drives hd ht
    · split at ht <;> cases ht
      · exact ⟨(deviceReleasesData_run s _).trans h.run, (deviceReleasesData_closing s _).trans h.closing,
          h.started, by rw [deviceReleasesData_term]; exact h.legal, h.on.deviceReleasesData hd _⟩
      · exact h
  · cases ht; exact h

theorem falling_inStep {s t : State} (h : s.BusInv) (ha : s.ArbInv) (hp : s.inPhase) (hc : s.clk = .high)
    (ht : s.halfClock = .next t) : InStep t := by
  obtain ⟨u, v, hu, hv, ht⟩ := halfClock_falling hc ht
  have hclk : t.clk = .low := by
    rw [(kept_peripheralEdge ht).clk, (kept_controllerEdge hv).clk, (aside_fallingEdge hu).clk]
  have a := aside_fallingEdge hu
  cases hr : s.run with
  | none =>
    have hur : u.run = none := a.run.trans hr
    rw [controllerEdge_idle hur] at hv
    cases hv
    rw [peripheralEdge_noCycle hur] at ht
    cases ht
    have hz := h.closing_high hc
    have hrel : s.Released := ⟨h.idle hr hz, h.heldData⟩
    exact (fallingEdge_released (s := { s with clk := .low }) (hrel.of_pins ⟨s.pins.bg, rfl⟩ rfl id) hu).inStep
      hur (a.closing.trans hz)
  | some c =>
    have hhigh : c.st.clkHigh = true := (hp c hr).2 hc
    have hg := h.going hr fun hst => by rw [hst] at hhigh; cases hhigh
    obtain ⟨e, he, hor⟩ := controllerEdge_arrives
      (fallingEdge_going (hg.of_clk .low) (ha.of_same rfl rfl rfl rfl rfl) hu) hv
    rw [hhigh] at he
    rcases hor with hge | ho
    · exact (peripheralEdge_going hge ht).inStep (by simp [he, hclk])
    · rw [peripheralEdge_noCycle ho.run] at ht
      cases ht
      exact ho.inStep hclk

theorem halfClock_arbInv {s t : State} (h : s.ArbInv) (ht : s.halfClock = .next t) : t.ArbInv :=
  halfClock_induct (P := State.ArbInv) (fun _ _ h => h.of_same rfl rfl rfl rfl rfl)
    (fun s h => h.kept (kept_releaseClosing s)) (fun _ _ h ht => fallingEdge_arbInv h ht)
    (fun _ _ h ht => h.kept (kept_controllerEdge ht)) (fun _ _ h ht => h.kept (kept_peripheralEdge ht)) h ht

/-- Settles O50: a cycle moves on to a state whose lines it has written, and the arbiter takes none of them
from it. -/
theorem everyHalfClockKeepsTheBusInvariant : Obligations.EveryHalfClockKeepsTheBusInvariant := by
  unfold Obligations.EveryHalfClockKeepsTheBusInvariant
  intro s t hbus harb hphase ht
  have hstep : InStep t := by
    cases hc : s.clk with
    | low => exact rising_inStep hbus hphase hc ht
    | high => exact falling_inStep hbus harb hphase hc ht
  exact ⟨hstep.1, halfClock_arbInv harb ht, hstep.2⟩

/-! ## Memory and the PI/T -/

/-- Memory is in canonical form and the unused bits of the PI/T are 0 (R90, R301, R307). -/
def DevicesWf (s : State) : Prop := s.mem.wf = true ∧ s.pit.wf = true

theorem DevicesWf.of_same {s t : State} (h : DevicesWf s) (k : SameDevices s t) : DevicesWf t :=
  ⟨k.mem ▸ h.1, k.pit ▸ h.2⟩

theorem DevicesWf.storeByte {s : State} (h : DevicesWf s) (fc : Fc) (a : Addr) (v : Byte) :
    DevicesWf (s.storeByte fc a v) := by
  refine ⟨storeByte_wf s fc a v h.1, ?_⟩
  unfold State.storeByte
  split
  · exact Pit.wf_write _ _ _ h.2
  · exact h.2

theorem DevicesWf.storeLanes {s : State} (h : DevicesWf s) (c : Cycle) (v : Half) :
    DevicesWf (s.storeLanes c v) := by
  unfold State.storeLanes
  cases c.strobes.upperLane <;> cases c.strobes.lowerLane
  · exact h
  · exact h.storeByte ..
  · exact h.storeByte ..
  · exact (h.storeByte ..).storeByte ..

theorem DevicesWf.controllerEdge {s t : State} (h : DevicesWf s) (ht : s.controllerEdge = .next t) :
    DevicesWf t := by
  cases hr : s.run with
  | none => rw [controllerEdge_idle hr] at ht; cases ht; exact h
  | some c =>
    rcases devicesAfter_controllerEdge hr ht with same | ⟨-, v, stored⟩
    · exact h.of_same same
    · exact (h.storeLanes c v).of_same stored

theorem DevicesWf.fallingEdge {s t : State} (h : DevicesWf s) (ht : s.fallingEdge = .next t) : DevicesWf t := by
  obtain ⟨-, -, -, -, -, -, -, -, -, -, -, -, -, hpit, hmem, -⟩ := aside_arbiter (s := beforeArbiter s) ht
  refine ⟨hmem ▸ (aside_beforeArbiter s).mem ▸ h.1, hpit ▸ ?_⟩
  unfold beforeArbiter State.pitResetEdge
  split
  · exact Pit.wf_reset ..
  · exact h.2

theorem DevicesWf.halfClock {s t : State} (h : DevicesWf s) (ht : s.halfClock = .next t) : DevicesWf t :=
  halfClock_induct (P := DevicesWf) (fun _ _ h => h)
    (fun s h => h.of_same ⟨(kept_releaseClosing s).params, releaseClosing_mem s, releaseClosing_pit s⟩)
    (fun _ _ h => h.fallingEdge) (fun _ _ h => h.controllerEdge)
    (fun _ _ h ht => h.of_same (sameDevices_peripheralEdge ht)) h ht

/-! ## Every step -/

/-- The invariant without the level of CLK: what holds between the half clocks of a step. -/
structure Steady (s : State) : Prop where
  bus     : s.BusInv
  arb     : s.ArbInv
  devices : DevicesWf s
  phase   : s.inPhase

theorem State.Inv.steady {s : State} (h : s.Inv) : Steady s := ⟨h.bus, h.arb, ⟨h.mem, h.pit⟩, h.phase⟩

theorem Steady.inv {s : State} (h : Steady s) (hc : s.clk = .low) : s.Inv :=
  ⟨h.bus, h.arb, h.devices.1, h.devices.2, hc, h.phase⟩

theorem Steady.halfClock {s t : State} (h : Steady s) (ht : s.halfClock = .next t) : Steady t :=
  have ⟨hbus, harb, hphase⟩ := everyHalfClockKeepsTheBusInvariant s t h.bus h.arb h.phase ht
  ⟨hbus, harb, h.devices.halfClock ht, hphase⟩

theorem halfClock_clk {s t : State} (ht : s.halfClock = .next t) :
    (s.clk = .low → t.clk = .high) ∧ (s.clk = .high → t.clk = .low) := by
  refine ⟨fun hc => ?_, fun hc => ?_⟩
  · rw [halfClock_rising hc] at ht
    exact ((kept_releaseClosing _).trans (kept_controllerEdge ht)).clk
  · obtain ⟨u, v, hu, hv, ht⟩ := halfClock_falling hc ht
    exact ((kept_controllerEdge hv).trans (kept_peripheralEdge ht)).clk.trans (aside_fallingEdge hu).clk

/-- `t` has the lines, the arbiter and the devices of `s`, and the same cycle in its last state. -/
structure SameMachine (s t : State) : Prop where
  pins     : t.pins = s.pins
  held     : t.held = s.held
  closing  : t.closing = s.closing
  term     : t.term = s.term
  params   : t.params = s.params
  owner    : t.owner = s.owner
  arb      : t.arb = s.arb
  tenureBg : t.tenureBg = s.tenureBg
  clk      : t.clk = s.clk
  mem      : t.mem = s.mem
  pit      : t.pit = s.pit

section
variable {s t : State} (k : SameMachine s t)
include k

theorem SameMachine.outData (c : Cycle) : t.outData c = s.outData c := by
  simp only [State.outData, State.newByte, k.params]

theorem SameMachine.linesIdle (h : s.LinesIdle) : t.LinesIdle := by
  constructor <;> simp only [k.pins, k.owner]
  exacts [h.addr, h.as, h.uds, h.lds, h.ds, h.rw, h.vma, h.own]

theorem SameMachine.closes {c : Cycle} (h : s.Closes c) : t.Closes c := by
  constructor <;> simp only [k.pins, k.clk, k.term, k.outData]
  exacts [h.fc, h.addr, h.as, h.uds, h.lds, h.ds, h.rw, h.data, h.vma, h.clk, h.last]

theorem SameMachine.shows {c : Cycle} (h : s.Shows c) : t.Shows c := by
  constructor <;> simp only [k.pins, k.term, k.outData]
  exacts [h.fc, h.addr, h.as, h.uds, h.lds, h.ds, h.rw, h.data, h.vma]

theorem SameMachine.busInv (h : s.BusInv) (hr : t.run = s.run) : t.BusInv := by
  constructor <;> simp only [k.held, k.pins, k.closing, k.term, hr]
  exacts [h.held, fun hr hz => k.linesIdle (h.idle hr hz), fun c hz => (h.ends c hz).imp_left k.closes,
    h.legal, fun c hr hst hz => k.linesIdle (h.start c hr hst hz), fun c hr hst => k.shows (h.shows c hr hst)]

/-- A cycle may be launched where none is in progress. -/
theorem SameMachine.busInv_launch {c : Cycle} (h : s.BusInv) (hs : s.run = none) (hr : t.run = some c)
    (hst : c.st = .start) (hsecond : c.second = false) : t.BusInv := by
  have only {d : Cycle} (hd : t.run = some d) : c = d := Option.some.inj (hr.symm.trans hd)
  have hdrive : c.drivingData = false := by
    simp only [Cycle.drivingData, Cycle.pos, hst]
    cases c.kind <;> rfl
  exact {
    held := by
      rw [k.held, k.pins, k.closing]
      exact h.held.imp_right fun ⟨hd, hno⟩ =>
        ⟨hd, fun d hd => hd.elim (fun hd => only hd ▸ hdrive) fun hd => hno d (.inr hd)⟩
    idle := fun hd => by rw [hr] at hd; cases hd
    ends := fun d hz => ⟨k.closes (h.ends d (k.closing ▸ hz)).1, fun e he => only he ▸ hst⟩
    legal := fun d hd => by rw [← only hd]; simp [Cycle.legal, hst, hsecond]
    start := fun d _ _ hz => k.linesIdle (h.idle hs (k.closing ▸ hz))
    shows := fun d hd hne => absurd (only hd ▸ hst) hne }

theorem SameMachine.inv (h : s.Inv) (hbus : t.BusInv) (hphase : t.inPhase) : t.Inv :=
  ⟨hbus, h.arb.of_same (by rw [k.pins]) k.arb k.tenureBg k.params k.owner, k.mem ▸ h.mem, k.pit ▸ h.pit,
    k.clk.trans h.clk, hphase⟩

end

theorem State.Inv.withQueue {s : State} (h : s.Inv) (q : List Item) : (s.withQueue q).Inv := by
  unfold State.withQueue
  split
  all_goals
    refine SameMachine.inv (s := s) ?_ h (SameMachine.busInv (s := s) ?_ h.bus rfl) h.phase <;>
      (constructor <;> rfl)

@[simp] theorem cycleOf_start (bus : DataBus) (i : Instr) :
    (cycleOf bus i).st = .start ∧ (cycleOf bus i).second = false := by
  cases i <;> exact ⟨rfl, rfl⟩

theorem State.Inv.launched {s : State} (h : s.Inv) (bus : DataBus) (i : Instr) (hr : s.run = none) :
    (launched (cycleOf bus i) s).Inv := by
  have k : SameMachine s (Machine.launched (cycleOf bus i) s) := by constructor <;> rfl
  obtain ⟨hst, hsecond⟩ := cycleOf_start bus i
  refine k.inv h (k.busInv_launch h.bus hr rfl hst hsecond) fun c hc => ?_
  cases hc
  simp only [State.prepared, hst, Machine.launched, h.clk]
  decide

theorem clkCycle_inv {s t : State} (h : s.Inv) (ht : s.clkCycle = .next t) : t.Inv := by
  obtain ⟨u, hu, ht⟩ := andThen_eq_next.1 ht
  exact ((h.steady.halfClock hu).halfClock ht).inv ((halfClock_clk ht).2 ((halfClock_clk hu).1 h.clk))

/-- A cycle is over at a falling edge. -/
theorem Steady.high_not_over {s t : State} (h : Steady s) (ho : s.cycleOver = false)
    (ht : s.halfClock = .next t) (hc : s.clk = .low) : t.cycleOver = false := by
  obtain ⟨c, hr⟩ := Option.ne_none_iff_exists'.1 (run_of_not_over ho)
  obtain ⟨e, hg, he⟩ := rising_going h.bus h.phase hc hr ht
  exact notOver hg.run (by rintro hst; rw [hst] at he; cases he)

/-- A cycle runs in whole CLK cycles. -/
theorem runCycle_inv (n : Nat) {s t : State} (h : s.Inv) (ht : runCycle (2 * n) s = .next t) : t.Inv := by
  induction n generalizing s with
  | zero => cases ht; exact h
  | succ n ih =>
    cases ho : s.cycleOver with
    | true => rw [runCycle_over _ ho] at ht; cases ht; exact h
    | false =>
      rw [Nat.mul_succ, runCycle_succ _ ho] at ht
      obtain ⟨u, hu, ht⟩ := andThen_eq_next.1 ht
      have hsu := h.steady.halfClock hu
      have hcu := (halfClock_clk hu).1 h.clk
      rw [runCycle_succ _ (h.steady.high_not_over ho hu h.clk)] at ht
      obtain ⟨v, hv, ht⟩ := andThen_eq_next.1 ht
      exact ih ((hsu.halfClock hv).inv ((halfClock_clk hv).2 hcu)) ht

/-- Settles O49: a step takes an item and is then one CLK cycle or the run of a cycle, and every half clock of
either keeps the invariant. -/
theorem everyStepKeepsTheInvariant : Obligations.EveryStepKeepsTheInvariant := by
  unfold Obligations.EveryStepKeepsTheInvariant
  intro s t h hstep
  obtain ⟨q, rfl | hclk | ⟨i, hexec⟩⟩ := step_cases hstep
  · exact h.withQueue q
  · exact clkCycle_inv (h.withQueue q) hclk
  · obtain ⟨hr, -, hrun⟩ := exec_next hexec
    exact runCycle_inv _ ((h.withQueue q).launched _ i hr) hrun

end Sys2Proof.Machine
end

section
/-! SUPPORT. The first portion of a cycle of any kind, from its sampling edge to the last half clock that DTACK
gives it (40_read_cycle.md R137 to R145, 41_write_cycle.md R165 to R170, 42_rmw_cycle.md R184 to R188,
43_iack_cycle.md R214), half clock by half clock, on a bus nobody else drives. -/

namespace Sys2Proof.Machine

/-- A cycle of any kind in its first portion, asynchronous so far. -/
structure FirstPortion (s : State) (c : Cycle) : Prop where
  run     : s.run = some c
  first   : c.second = false
  closing : s.closing = none
  vma     : s.pins.vma = .negated

/-- The same at the end of S4 or of a wait pair, before anything is recognised. -/
structure AtFirstEdge (s : State) (c : Cycle) : Prop extends FirstPortion s c where
  st     : c.st.samples
  clk    : s.clk = .high
  term   : s.term = .none
  silent : s.inputs.silent

theorem enterState_S5 (c : Cycle) (s : State) : enterState c .S5 s = .next s := by
  unfold enterState
  cases c.kind <;> rfl

/-! ## The sampling edge -/

section
variable {s : State} {c : Cycle} (h : AtFirstEdge s c)
include h

/-- The low half of a wait pair (R136). -/
theorem AtFirstEdge.loneHalf_waits (hl : c.lines c.edge = (false, false, false, false)) :
    loneHalf s = .next (tick { s with clk := .low, run := some c.waiting }) := by
  rw [loneHalf_samples h.run h.st h.clk h.term h.silent hl]
  simp only [Bool.and_false, decideFirst, Bool.and_self, Bool.false_eq_true, if_false, State.follow,
    andThen_next, Inputs.withLines_silent h.silent]
  rw [peripheralEdge_idle (by show s.pins.vma ≠ .asserted; simp [h.vma]), ← h.term]
  rfl

/-- What the first edge recognises leads to S5. -/
theorem AtFirstEdge.loneHalf_recognises {d b v a : Bool} {term : Term} (hl : c.lines c.edge = (d, b, v, a))
    (hd : decideFirst d b v (s.params.hasAvec && c.kind = .iack && a) = .proceed term) :
    loneHalf s = .next (inS5 s c (s.inputs.withLines d b v a) term) := by
  have hrec : recognisedSt c = .S5 := by simp [recognisedSt, h.first]
  have hgo : (tick { s with clk := .low, inputs := s.inputs.withLines d b v a }).follow c (.proceed term) =
      .next (inS5 s c (s.inputs.withLines d b v a) term) := by
    simp only [State.follow, hrec]
    exact (goTo_between (st' := .S6) (enterState_S5 { c with edge := c.edge + 1 } _) rfl).trans rfl
  rw [loneHalf_samples h.run h.st h.clk h.term h.silent hl, hd, hgo, andThen_next]
  exact peripheralEdge_idle (by show s.pins.vma ≠ .asserted; simp [h.vma])

theorem AtFirstEdge.loneHalf_dtack (hl : c.lines c.edge = (true, false, false, false)) :
    loneHalf s = .next (inS5 s c (s.inputs.withLines true false false false) .dtack) :=
  h.loneHalf_recognises hl (by simp [decideFirst])

theorem AtFirstEdge.inS5 (i : Inputs) (term : Term) :
    FirstPortion (inS5 s c i term) { c with st := .S5, edge := c.edge + 1 } :=
  ⟨rfl, h.first, h.closing, h.vma⟩

end

/-- The high half of a wait pair. -/
theorem loneHalf_SwLow {s : State} {c : Cycle} (hr : s.run = some c) (hs : c.st = .SwLow) (hc : s.clk = .low)
    (hz : s.closing = none) :
    loneHalf s = .next { s with clk := .high, run := some { c with st := .SwHigh } } := by
  simp only [loneHalf, hc]
  rw [releaseClosing_none (s := { s with clk := .high }) hz]
  simp only [State.controllerEdge, hr, hs]

/-! ## S5 and S6 -/

/-- The state in S6: a device that is read drives the data bus (R138), a write drives what it did (R166). -/
def firstS6 (s : State) (c : Cycle) : State := if c.kind = .write then writeInS6 s c else inS6 s c

theorem enterState_S6 {c : Cycle} (hk : c.kind ≠ .write) (s : State) :
    enterState c .S6 s = s.dataPhase c := by
  unfold enterState
  cases h : c.kind
  case write => exact absurd h hk
  all_goals rfl

section
variable {s : State} {c : Cycle} (h : FirstPortion s c)
include h

theorem FirstPortion.loneHalf_S5 (hs : c.st = .S5) (hc : s.clk = .low)
    (hd : c.kind ≠ .write → s.pins.data = DataLines.z) : loneHalf s = .next (firstS6 s c) := by
  rw [loneHalf_rising (st := .S6) hc h.closing h.run (by rw [hs]; rfl) (by rw [hs]; rfl)]
  by_cases hk : c.kind = .write
  · rw [firstS6, if_pos hk]
    exact goTo_between (st := .S6) (st' := .S7) (enterState_write hk _ _) rfl
  · rw [firstS6, if_neg hk]
    refine goTo_between (u := { inS6 s c with run := s.run }) (st := .S6) (st' := .S7) ?_ rfl
    rw [enterState_S6 hk]
    simp only [State.dataPhase, h.vma, reduceCtorEq, if_false]
    exact driveData_free (s := ({ s with clk := .high } : State).drawn 2) (hd hk)

/-- end(S6) goes on to S7 with what it has decided, but for a read-modify-write cycle that BERR has ended
(R144, R198). -/
theorem FirstPortion.controllerEdge_S6 {term : Term} (hs : c.st = .S6)
    (hd : c.lateDecision s.inputs s.term = some term) (hb : term.isBerr = false) :
    (tick { s with clk := .low }).controllerEdge = (atEndS6 (tick { s with clk := .low }) c term).goTo c .S7 := by
  have hr : (tick { s with clk := .low }).run = some c := h.run
  have hlate : decideLate (((tick { s with clk := .low }).sampleLines c true).latchFor c).term
      (((tick { s with clk := .low }).sampleLines c true).latchFor c).inputs.dtack
      (((tick { s with clk := .low }).sampleLines c true).latchFor c).inputs.berr
      (((tick { s with clk := .low }).sampleLines c true).latchFor c).inputs.vpa = some term := by
    unfold State.latchFor
    split <;> exact hd
  simp only [State.controllerEdge, hr, hs]
  simp [State.endS6, hlate, hb, atEndS6]

end

@[simp] theorem firstS6_run (s : State) (c : Cycle) : (firstS6 s c).run = some { c with st := .S6 } := by
  unfold firstS6; split <;> rfl

@[simp] theorem firstS6_clk (s : State) (c : Cycle) : (firstS6 s c).clk = .high := by
  unfold firstS6; split <;> rfl

@[simp] theorem firstS6_term (s : State) (c : Cycle) : (firstS6 s c).term = s.term := by
  unfold firstS6; split <;> rfl

@[simp] theorem firstS6_inputs (s : State) (c : Cycle) : (firstS6 s c).inputs = s.inputs := by
  unfold firstS6; split <;> rfl

/-- Only the data lines change at S6. -/
theorem firstS6_pins (s : State) (c : Cycle) : ∃ d, (firstS6 s c).pins = { s.pins with data := d } := by
  unfold firstS6
  split
  · exact ⟨s.pins.data, rfl⟩
  · exact ⟨s.deviceData c, rfl⟩

theorem FirstPortion.firstS6 {s : State} {c : Cycle} (h : FirstPortion s c) :
    FirstPortion (firstS6 s c) { c with st := .S6 } := by
  obtain ⟨d, hp⟩ := firstS6_pins s c
  refine ⟨firstS6_run s c, h.first, ?_, by rw [hp]; exact h.vma⟩
  unfold Machine.firstS6
  split <;> exact h.closing

/-! ## S7 after DTACK -/

/-- A cycle that ends without BERR reports its result (R145, R170, R201, R215). -/
theorem finish_ok {s : State} {c : Cycle} (hb : s.term.isBerr = false) :
    ∃ r, s.finish c = .next (({ s with run := none, closing := some c } : State).report r) := by
  unfold State.finish State.finishResult
  simp only [hb, Bool.false_eq_true, if_false]
  split
  case h_4 => split <;> exact ⟨_, rfl⟩
  all_goals exact ⟨_, rfl⟩

/-- The strobes are negated in S7, and AS with them unless a write portion follows (R139, R168, R188). -/
structure StrobesOff (s t : State) (c : Cycle) : Prop where
  strobed : t.pins.strobed = false
  as      : t.pins.strobeAS = if c.kind = .rmw then s.pins.strobeAS else .negated
  vma     : t.pins.vma = .negated

theorem StrobesOff.of_lines {s t : State} {c : Cycle} (h : ∃ d, t.pins = { s.pins with
      uds := .negated, lds := .negated, ds := .negated, vma := .negated, data := d
      strobeAS := if c.kind = .rmw then s.pins.strobeAS else .negated }) : StrobesOff s t c := by
  obtain ⟨d, hd⟩ := h
  exact ⟨by simp [Pins.strobed, hd], by rw [hd], by rw [hd]⟩

theorem deviceReleasesData_pins (s : State) (a : Answer) :
    ∃ d, (s.deviceReleasesData a).pins = { s.pins with data := d } := by
  unfold State.deviceReleasesData
  split <;> exact ⟨_, rfl⟩

theorem negateAll_pins (s : State) (a : Answer) :
    (s.negateAll a).pins = { s.pins with
      strobeAS := .negated, uds := .negated, lds := .negated, ds := .negated, vma := .negated } :=
  deviceNegates_pins _ a

theorem enterState_S7_dtack {s : State} (c : Cycle) (ht : s.term = .dtack) :
    ∃ u, enterState c .S7 s = .next u ∧ u.term = .dtack ∧ StrobesOff s u c := by
  have hcloses (hk : c.kind ≠ .rmw) : StrobesOff s ((s.negateAll c.answer).deviceReleasesData c.answer) c := by
    obtain ⟨d, hd⟩ := deviceReleasesData_pins (s.negateAll c.answer) c.answer
    exact .of_lines ⟨d, by rw [hd, negateAll_pins, if_neg hk]⟩
  unfold enterState
  cases hk : c.kind
  case read => exact ⟨_, rfl, by simp [ht], by simpa [ht] using hcloses (by simp [hk])⟩
  case iack => exact ⟨_, rfl, by simp [ht], by simpa [ht] using hcloses (by simp [hk])⟩
  case write =>
    refine ⟨_, rfl, by simp [ht], .of_lines ⟨s.pins.data, ?_⟩⟩
    simp [ht, hk, negateAll_pins]
  case rmw =>
    refine ⟨_, rfl, ?_, ?_⟩
    · simpa [State.negateStrobes] using ht
    · obtain ⟨d, hd⟩ := deviceReleasesData_pins (s.negateStrobes.deviceNegates c.answer) c.answer
      refine .of_lines ⟨d, ?_⟩
      rw [hd, deviceNegates_pins, if_pos hk]
      rfl

theorem goTo_S7_dtack {s : State} (c : Cycle) (ht : s.term = .dtack) :
    ∃ t, s.goTo c .S7 = .next t ∧ StrobesOff s t c := by
  obtain ⟨u, hu, hterm, hoff⟩ := enterState_S7_dtack c ht
  by_cases hk : c.kind = .rmw
  · exact ⟨_, goTo_between (st' := .S8) hu (by simp [nextSt, hk]), hoff.strobed, hoff.as, hoff.vma⟩
  · obtain ⟨r, hr⟩ := finish_ok (s := u) (c := c.entered .S7 u.din) (by simp [hterm, Term.isBerr])
    exact ⟨_, (goTo_last hu (by simp [nextSt, hk, hterm])).trans hr, hoff.strobed, hoff.as, hoff.vma⟩

/-- The half clock that enters S7. -/
theorem FirstPortion.loneHalf_S6_dtack {s : State} {c : Cycle} (h : FirstPortion s c) (hs : c.st = .S6)
    (hc : s.clk = .high) (hd : c.lateDecision s.inputs s.term = some .dtack) :
    ∃ t, loneHalf s = .next t ∧ StrobesOff s t c := by
  obtain ⟨t, ht, hoff⟩ := goTo_S7_dtack (s := atEndS6 (tick { s with clk := .low }) c .dtack) c rfl
  refine ⟨t, loneHalf_falling hc ((h.controllerEdge_S6 hs hd rfl).trans ht) hoff.vma, hoff.strobed, ?_,
    hoff.vma⟩
  rw [hoff.as, atEndS6_pins]
  rfl

end Sys2Proof.Machine
end

section
/-! SUPPORT. An acknowledge cycle that DTACK answers (43_iack_cycle.md R214, R215). -/

namespace Sys2Proof.Machine

/-! ## From the launch to the sampling edge -/

/-- On a free bus a launched cycle whose first portion reads comes to its sampling edges. -/
theorem sampledState_atFirstEdge {s : State} {c : Cycle} (h : s.BusFree) (hsecond : c.second = false)
    (w : Nat) : AtFirstEdge (sampledState w c s) (sampledCycle w c s) where
  run := rfl
  first := hsecond
  closing := rfl
  vma := (releaseClosing_vma (launched c s)).trans h.vma
  st := by
    unfold sampledCycle
    split <;> trivial
  clk := rfl
  term := rfl
  silent := ⟨h.dtack, h.berr, h.vpa, h.avec⟩

theorem loneRun_toFirstEdge {s : State} {c : Cycle} (h : s.BusFree) (hk : c.kind ≠ .write) (hs : c.st = .start)
    (w n : Nat) (hl : ∀ k < w, (s.prepared c).lines (c.edge + k) = (false, false, false, false)) :
    loneRun (n + 2 * w + 5) (launched c s) = loneRun n (sampledState w c s) := by
  have hv : (launched c s).releaseClosing.pins.vma = .negated :=
    (releaseClosing_vma (launched c s)).trans h.vma
  rw [loneRun_toS4_read (n + 2 * w) (launched c s) (s.prepared c) hk hs rfl h.clk h.vma]
  exact loneRun_waits w n rfl trivial rfl rfl rfl hv ⟨h.dtack, h.berr, h.vpa, h.avec⟩ hl

/-! ## From the sampling edge to the end -/

/-- An acknowledge cycle that DTACK has ended, in its last state, with the vector on D7-D0. -/
def acknowledged (s : State) (c : Cycle) : State := 
  (closed s c).report (.vector (vectorOf (closed s c).din))

theorem closed_eq {s : State} {c : Cycle} (hp : c.answer.polite) : closed s c = { s with
    pins := { s.pins with
      strobeAS := .negated, uds := .negated, lds := .negated, ds := .negated, vma := .negated
      data := s.held }
    inputs := s.inputs.withLines false false false false
    run := none, closing := some c } := by
  obtain ⟨hstale, hholds⟩ := hp
  simp only [closed, State.negateAll, State.deviceNegates, hstale, State.deviceReleasesData, hholds,
    Bool.false_eq_true, if_false]
  rfl

theorem acknowledged_completed {s : State} {c : Cycle} (hk : c.kind = .iack) (hp : c.answer.polite)
    (hh : s.held = DataLines.z) (hc : s.clk = .low) :
    Completed s (acknowledged s c) (.vector (vectorOf s.din)) 0 := by
  rw [acknowledged, closed_eq hp]
  exact {
    run := rfl, clk := hc, data := by simpa [State.releaseClosing, hk] using hh, held := hh, vma := rfl
    dtack := rfl, berr := rfl, vpa := rfl, avec := rfl
    results := rfl, length := rfl, owner := rfl }

theorem finish_iack_dtack {s : State} {c : Cycle} (hk : c.kind = .iack) (ht : s.term = .dtack) :
    s.finish c =
      .next (({ s with run := none, closing := some c } : State).report (.vector (vectorOf s.din))) := by
  simp only [State.finish, State.finishResult, hk, ht]
  rfl

theorem goTo_S7_iack {s : State} {c : Cycle} (hk : c.kind = .iack) (ht : s.term = .dtack) :
    s.goTo c .S7 = .next (acknowledged s { c with st := .S7 }) := by
  have hu : enterState c .S7 s = .next ((s.negateAll c.answer).deviceReleasesData c.answer) := by
    simp only [enterState, hk, formatR, ht, reduceCtorEq, if_false]
  have hc (din : Half) : c.entered .S7 din = { c with st := .S7 } := by simp [Cycle.entered, hk]
  rw [goTo_last hu (by simp [nextSt, hk, ht]), hc, finish_iack_dtack (c := { c with st := .S7 }) hk (by simp [ht])]
  rfl

theorem FirstPortion.acknowledges {s : State} {c : Cycle} (h : FirstPortion s c) (hk : c.kind = .iack)
    (hs : c.st = .S6) (hc : s.clk = .high) (hd : c.lateDecision s.inputs s.term = some .dtack) :
    loneHalf s =
      .next (acknowledged (atEndS6 (tick { s with clk := .low }) c .dtack) { c with st := .S7 }) := by
  refine loneHalf_falling hc ((h.controllerEdge_S6 hs hd rfl).trans (goTo_S7_iack hk rfl)) ?_
  simp [acknowledged, closed]

/-- The vector is latched from D7-D0 (R114). -/
theorem vectorOf_atEndS6 {s : State} {c : Cycle} {term : Term} {v : Byte} (hk : c.kind = .iack)
    (h : s.pins.data.lo = some v) : vectorOf (atEndS6 s c term).din = v := by
  simp only [atEndS6, State.latchFor, hk]
  exact loByte_latch h

/-- On either width of bus a scripted word gives its low byte on D7-D0 (R12). -/
theorem deviceData_lo {s : State} {c : Cycle} {w : Nat} {v : Half}
    (ha : c.answer = Answer.of (.dtack w (some v))) : (s.deviceData c).lo = some (loByte v) := by
  rw [deviceData_scripted (v := v) (by rw [ha]; rfl), wordLines]
  split <;> rfl

/-- From its sampling edge, a cycle that DTACK answers comes to S7 in three half clocks. -/
theorem AtFirstEdge.loneRun_acknowledges {s : State} {c : Cycle} {w : Nat} {v : Half} (h : AtFirstEdge s c)
    (hk : c.kind = .iack) (hdata : s.pins.data = DataLines.z) (hheld : s.held = DataLines.z)
    (ha : c.answer = Answer.of (.dtack w (some v))) (hedge : w ≤ c.edge) :
    ∃ t, loneRun 3 s = .next t ∧ Completed s t (.vector (loByte v)) 2 := by
  let s5 := Machine.inS5 s c (s.inputs.withLines true false false false) .dtack
  let c5 : Cycle := { c with st := .S5, edge := c.edge + 1 }
  have h5 : FirstPortion s5 c5 := h.inS5 _ _
  have h6 : FirstPortion (firstS6 s5 c5) c.recognised := h5.firstS6
  have hS6 : firstS6 s5 c5 = inS6 s5 c5 := if_neg (by simp [c5, hk])
  have hend := h6.acknowledges hk rfl (firstS6_clk ..) (by
    rw [firstS6_inputs, firstS6_term]
    exact Cycle.lateDecision_dtack (c := c.recognised) ha _)
  have hdone := acknowledged_completed (s := atEndS6 (tick { inS6 s5 c5 with clk := .low }) c.recognised .dtack)
    (c := { c.recognised with st := .S7 }) hk (Cycle.polite_dtack (c := c.recognised) ha)
    (by simp only [atEndS6, State.latchFor, Cycle.recognised, hk]; exact hheld)
    (by simp only [atEndS6, State.latchFor, Cycle.recognised, hk]; rfl)
  rw [vectorOf_atEndS6 (c := c.recognised) hk (deviceData_lo (s := s5) (c := c5) ha)] at hdone
  refine ⟨_, ?_, hdone.since (m := 2) ?_ ?_ ?_⟩
  · rw [loneRun_succ 2 h.run (St.samples_not_faulted h.st), h.loneHalf_dtack (Cycle.lines_dtack ha hedge),
      andThen_next, loneRun_succ 1 h5.run nofun, h5.loneHalf_S5 rfl rfl fun _ => hdata, andThen_next,
      loneRun_succ 0 h6.run nofun, hend, hS6]
    rfl
  all_goals
    simp only [atEndS6, State.latchFor, Cycle.recognised, hk]
    rfl

/-- Settles O23: DTACK leads from its edge to S7 in two CLK cycles, and D7-D0 are latched at end(S6). -/
theorem acknowledgeReturnsTheVectorOnTheBus : Obligations.AcknowledgeReturnsTheVectorOnTheBus := by
  unfold Obligations.AcknowledgeReturnsTheVectorOnTheBus
  intro s level w v rest h hlevel ha
  let c := cycleOf s.params.dataBus (.iack level)
  have hans : (s.prepared c).answer = Answer.of (.dtack w (some v)) := prepared_answer ha nofun c
  have hwf : (Instr.iack level).wf s.params.dataBus = true := by
    simpa [Instr.wf, Instr.illegal] using hlevel
  obtain ⟨⟨x, hx⟩, hcalm⟩ := exec_lone keepsOut_calm hwf h.run h.owner (calm_launched h.toCalm _)
  have hedge : w ≤ (sampledCycle w c s).edge := Nat.le_add_left _ _
  obtain ⟨t, ht, hdone⟩ := (sampledState_atFirstEdge (c := c) h.toBusFree rfl w).loneRun_acknowledges rfl
    ((launched_releaseClosing_data c s).trans h.data) h.held hans hedge
  have hrun := loneRun_toFirstEdge (c := c) h.toBusFree nofun rfl w 3
    fun k hk => Cycle.lines_before_dtack hans (by simpa [c, cycleOf, newCycle] using hk)
  have hbudget : 3 + 2 * w + 5 ≤ cycleBudget (s.prepared c) := by
    simp only [cycleBudget, hans, Answer.of, Shape.patience]
    omega
  have hover : settled (loneRun (3 + 2 * w + 5) (launched c s)) := by
    rw [hrun, ht]
    exact settled_next (by simp [State.cycleOver, hdone.run])
  have hexec : exec (.iack level) s = .next (graft t x) := by
    rw [hx, loneRun_settled hbudget hover, hrun, ht]
    rfl
  have honly := exec_onlyRead (i := .iack level) (.inr rfl) hexec
  have hlength : (sampledState w c s).clkCount = s.clkCount + (2 + w) := by
    show s.clkCount + 1 + 1 + w = _
    omega
  have hcompleted := ((hdone.since (s := s) rfl rfl hlength).graft x)
  rw [show 2 + w + 2 = 4 + w by omega] at hcompleted
  refine ⟨_, hexec, hcompleted, hcalm _ hexec, ?_, honly.mem, ?_⟩
  · rw [(exec_scripts hexec).answers]
    simp [launched, ha, cycleOf, newCycle, answersTaken]
  · exact (honly.pit (PitAlone.refl h.pitReset h.events)).2

end Sys2Proof.Machine
end

section
/-! SUPPORT. The pins an observer sees after each half clock of a cycle that runs alone (30_encoding.md R110). BG
is the arbiter's and no part of the identification word, so the trace is that of the cycle. -/

namespace Sys2Proof.Machine

/-! ## What the word is read from -/

theorem observeCiw_of_unstrobed {p : Pins} (h : p.strobed = false) (trace : List Pins) :
    observeCiw (p :: trace) = observeCiw trace := by
  simp only [observeCiw, fromFirstStrobe, h, Bool.false_eq_true, if_false]

theorem observeCiw_of_strobed {p : Pins} {fc : Fc} (h : p.strobed = true) (hfc : p.fc = some fc)
    (trace : List Pins) : observeCiw (p :: trace) =
      some (ciwOf (asWhenNegated trace) fc (p.rw = .high) p.seenU p.seenL) := by
  simp only [observeCiw, fromFirstStrobe, h, if_true, hfc]

theorem asWhenNegated_of_strobed {p : Pins} (h : p.strobed = true) (trace : List Pins) :
    asWhenNegated (p :: trace) = asWhenNegated trace := by
  simp only [asWhenNegated, h, if_true]

theorem asWhenNegated_of_unstrobed {p : Pins} (h : p.strobed = false) (trace : List Pins) :
    asWhenNegated (p :: trace) = decide (p.strobeAS = .asserted) := by
  simp only [asWhenNegated, h, Bool.false_eq_true, if_false]

/-- The pins without the arbiter's. -/
def Pins.ungranted (p : Pins) : Pins := { p with bg := .negated }

theorem fromFirstStrobe_ungranted (trace : List Pins) :
    fromFirstStrobe (trace.map Pins.ungranted) = (fromFirstStrobe trace).map Pins.ungranted := by
  induction trace with
  | nil => rfl
  | cons p rest ih =>
    have hp : p.ungranted.strobed = p.strobed := rfl
    simp only [List.map_cons, fromFirstStrobe, hp, ih]
    split <;> rfl

theorem asWhenNegated_ungranted (trace : List Pins) :
    asWhenNegated (trace.map Pins.ungranted) = asWhenNegated trace := by
  induction trace with
  | nil => rfl
  | cons p rest ih =>
    have hp : p.ungranted.strobed = p.strobed := rfl
    simp only [List.map_cons, asWhenNegated, hp, ih]
    rfl

theorem observeCiw_ungranted (trace : List Pins) :
    observeCiw (trace.map Pins.ungranted) = observeCiw trace := by
  unfold observeCiw
  rw [fromFirstStrobe_ungranted]
  cases fromFirstStrobe trace with
  | nil => rfl
  | cons p rest => simp only [List.map_cons, asWhenNegated_ungranted]; rfl

/-! ## The lines of a cycle alone -/

/-- The pins after each half clock of a cycle that runs alone, at most `n`. -/
def loneLines : Nat → State → List Pins
  | 0, _ => []
  | n + 1, s =>
    if s.cycleOver then []
    else
      match loneHalf s with
      | .next t    => t.pins :: loneLines n t
      | .fault _   => []
      | .refused _ => []

theorem loneLines_next {s t : State} (n : Nat) (ho : s.cycleOver = false) (h : loneHalf s = .next t) :
    loneLines (n + 1) s = t.pins :: loneLines n t := by
  simp only [loneLines, ho, h, Bool.false_eq_true, if_false]

/-- A half clock that leaves the strobes asserted. -/
theorem asWhenNegated_loneLines {s t : State} (n : Nat) (ho : s.cycleOver = false)
    (h : loneHalf s = .next t) (hs : t.pins.strobed = true) :
    asWhenNegated (loneLines (n + 1) s) = asWhenNegated (loneLines n t) := by
  rw [loneLines_next n ho h, asWhenNegated_of_strobed hs]

theorem loneLines_graft (n : Nat) (s x : State) :
    (loneLines n (graft s x)).map Pins.ungranted = (loneLines n s).map Pins.ungranted := by
  induction n generalizing s with
  | zero => rfl
  | succ n ih =>
    have ho : (graft s x).cycleOver = s.cycleOver := rfl
    simp only [loneLines, ho, loneHalf_graft]
    split
    · rfl
    · cases loneHalf s with
      | next t => exact congrArg (t.pins.ungranted :: ·) (ih t)
      | fault f => rfl
      | refused r => rfl

/-- While the other agents keep out, the trace of a cycle is that of the cycle alone, but for BG. -/
theorem halfTrace_lone {P : State → Prop} (hP : KeepsOut P) (n : Nat) {s : State} (h : P s) :
    ((halfTrace n s).map (·.pins)).map Pins.ungranted = (loneLines n s).map Pins.ungranted := by
  induction n generalizing s with
  | zero => rfl
  | succ n ih =>
    by_cases ho : s.cycleOver = true
    · simp only [halfTrace, loneLines, ho, if_true, List.map_nil]
    · simp only [Bool.not_eq_true] at ho
      obtain ⟨⟨x, hx⟩, hkeeps⟩ := halfClock_lone hP h (run_of_not_over ho)
      simp only [halfTrace, loneLines, ho, Bool.false_eq_true, if_false, hx]
      cases hl : loneHalf s with
      | next t =>
        have ht : P (graft t x) := hkeeps _ (by rw [hx, hl]; rfl)
        exact congrArg (t.pins.ungranted :: ·) ((ih ht).trans (loneLines_graft n t x))
      | fault f => rfl
      | refused r => rfl

/-- What the observer of a transaction reads. -/
theorem observeCiw_observedPins {i : Instr} {s : State} (h : s.Calm) :
    observeCiw (observedPins i s) = observeCiw (loneLines
      (cycleBudget (s.prepared (cycleOf s.params.dataBus i))) (launched (cycleOf s.params.dataBus i) s)) := by
  rw [observedPins, ← observeCiw_ungranted, halfTrace_lone keepsOut_calm _ (calm_launched h _),
    observeCiw_ungranted]

/-! ## From the first edge to the negation of the strobes -/

/-- A cycle that comes to a sampling edge of its first portion with AS and its strobes asserted. -/
structure StrobedEdge (s : State) (c : Cycle) : Prop extends AtFirstEdge s c where
  strobed : s.pins.strobed = true
  as      : s.pins.strobeAS = .asserted
  data    : c.kind ≠ .write → s.pins.data = DataLines.z

/-- The state after a wait pair. -/
def afterPair (s : State) (c : Cycle) : State := tick { s with run := some { c.waiting with st := .SwHigh } }

theorem StrobedEdge.afterPair {s : State} {c : Cycle} (h : StrobedEdge s c) :
    StrobedEdge (afterPair s c) { c.waiting with st := .SwHigh } where
  run := rfl
  first := h.first
  closing := h.closing
  vma := h.vma
  st := trivial
  clk := h.clk
  term := h.term
  silent := h.silent
  strobed := h.strobed
  as := h.as
  data := h.data

section
variable {s : State} {c : Cycle} (h : StrobedEdge s c)
include h

/-- A wait pair leaves the lines as they are (R41). -/
theorem StrobedEdge.asWhenNegated_waits (hl : c.lines c.edge = (false, false, false, false)) (n : Nat) :
    asWhenNegated (loneLines (n + 2) s) = asWhenNegated (loneLines n (Machine.afterPair s c)) := by
  have hhigh := loneHalf_SwLow (s := tick { s with clk := .low, run := some c.waiting }) (c := c.waiting)
    rfl rfl rfl h.closing
  have hpair : ({ tick { s with clk := .low, run := some c.waiting } with
      clk := .high, run := some { c.waiting with st := .SwHigh } } : State) = Machine.afterPair s c := by
    simp only [Machine.afterPair, ← h.clk]
    rfl
  rw [hpair] at hhigh
  rw [asWhenNegated_loneLines (n + 1) (notOver h.run (St.samples_not_faulted h.st)) (h.loneHalf_waits hl)
      h.strobed,
    asWhenNegated_loneLines n (notOver (c := c.waiting) rfl nofun) hhigh h.strobed]

/-- DTACK at this edge: the strobes are asserted to the end of S6, and AS tells the rows apart (R110). -/
theorem StrobedEdge.asWhenNegated_dtack {w : Nat} {d : Option Half} (ha : c.answer = Answer.of (.dtack w d))
    (hedge : w ≤ c.edge) (n : Nat) : asWhenNegated (loneLines (n + 3) s) = decide (c.kind = .rmw) := by
  let s5 := Machine.inS5 s c (s.inputs.withLines true false false false) .dtack
  let c5 : Cycle := { c with st := .S5, edge := c.edge + 1 }
  have h5 : FirstPortion s5 c5 := h.inS5 _ _
  have h6 : FirstPortion (firstS6 s5 c5) c.recognised := h5.firstS6
  obtain ⟨d6, hpins⟩ := firstS6_pins s5 c5
  have hstrobed6 : (firstS6 s5 c5).pins.strobed = true := by rw [hpins]; exact h.strobed
  obtain ⟨t, ht, hoff⟩ := h6.loneHalf_S6_dtack rfl (firstS6_clk ..) (by
    rw [firstS6_inputs, firstS6_term]
    exact Cycle.lateDecision_dtack (c := c.recognised) ha _)
  rw [asWhenNegated_loneLines (n + 2) (notOver h.run (St.samples_not_faulted h.st))
      (h.loneHalf_dtack (Cycle.lines_dtack ha hedge)) h.strobed,
    asWhenNegated_loneLines (n + 1) (notOver h5.run nofun) (h5.loneHalf_S5 rfl rfl h.data) hstrobed6,
    loneLines_next n (notOver h6.run nofun) ht, asWhenNegated_of_unstrobed hoff.strobed, hoff.as, hpins]
  have has : s5.pins.strobeAS = .asserted := h.as
  by_cases hk : c.kind = .rmw <;> simp [Cycle.recognised, hk, has]

end

/-- DTACK `k` wait pairs later. -/
theorem StrobedEdge.asWhenNegated_eq {w : Nat} {d : Option Half} (k n : Nat) {s : State} {c : Cycle}
    (h : StrobedEdge s c) (ha : c.answer = Answer.of (.dtack w d)) (hk : w = c.edge + k) :
    asWhenNegated (loneLines (n + 3 + 2 * k) s) = decide (c.kind = .rmw) := by
  induction k generalizing s c with
  | zero => exact h.asWhenNegated_dtack ha (Nat.le_of_eq hk) n
  | succ k ih =>
    rw [show n + 3 + 2 * (k + 1) = n + 3 + 2 * k + 2 by omega,
      h.asWhenNegated_waits (Cycle.lines_before_dtack ha (by omega))]
    exact ih (c := { c.waiting with st := .SwHigh }) h.afterPair ha
      (show w = c.edge + 1 + k by omega)

end Sys2Proof.Machine
end

section
/-! SUPPORT. The identification word of each row, read off a whole cycle (30_encoding.md R110, R111). -/

namespace Sys2Proof.Machine

/-! ## From the launch to S4 -/

theorem loneHalf_releaseClosing {s : State} (hc : s.clk = .low) : loneHalf s.releaseClosing = loneHalf s := by
  have hcomm : ({ s.releaseClosing with clk := .high } : State).releaseClosing =
      ({ s with clk := .high } : State).releaseClosing := by
    cases h : s.closing with
    | none => simp [h]
    | some c => simp only [State.releaseClosing, h]; cases c.kind <;> rfl
  have hclk : s.releaseClosing.clk = .low := by rw [releaseClosing_eq]; exact hc
  simp only [loneHalf, hclk, hc, hcomm]

theorem loneLines_releaseClosing (n : Nat) {s : State} (hc : s.clk = .low) :
    loneLines n s.releaseClosing = loneLines n s := by
  have ho : s.releaseClosing.cycleOver = s.cycleOver := by rw [releaseClosing_eq]; rfl
  cases n with
  | zero => rfl
  | succ n => simp only [loneLines, ho, loneHalf_releaseClosing hc]

theorem loneLines_toS4_read_idle (n : Nat) (s : State) (c : Cycle) (hk : c.kind ≠ .write)
    (hs : c.st = .start) (hr : s.run = some c) (hc : s.clk = .low) (hz : s.closing = none)
    (hv : s.pins.vma = .negated) :
    loneLines (n + 5) s = (s.placeCodes c.fc).pins :: ((s.placeCodes c.fc).driveAddr c.addr).pins ::
      pinsS4Read s.pins c :: pinsS4Read s.pins c :: pinsS4Read s.pins c :: loneLines n (atS4Read c s) := by
  obtain ⟨kind, fc, addr, strobes, wdata, level, st, second, pairs, edge, old, answer, answer2⟩ := c
  obtain ⟨params, ⟨pfc, paddr, as, uds, lds, ds, rw, data, vma, bg⟩, held, inputs, clk, clkCount, run,
    closing, term, din, owner, arb, bgWait, tenureBg, iplSeen, iplHistory, ephase, pit, mem, program,
    altProgram, answers, events, grantDelays, tenures, draws, results⟩ := s
  simp only at hs hr hc hk hz hv
  subst hs hr hc hz hv
  cases kind
  · rfl
  · exact absurd rfl hk
  · cases second <;> rfl
  · rfl

theorem loneLines_toS4_write_idle (n : Nat) (s : State) (c : Cycle) (hk : c.kind = .write)
    (hs : c.st = .start) (hr : s.run = some c) (hc : s.clk = .low) (hz : s.closing = none)
    (hd : s.pins.data = DataLines.z) (hv : s.pins.vma = .negated) :
    loneLines (n + 5) s = (s.placeCodes c.fc).pins :: ((s.placeCodes c.fc).driveAddr c.addr).pins ::
      ((s.placeCodes c.fc).driveAddr c.addr).assertAS.driveRwLow.pins ::
      { ((s.placeCodes c.fc).driveAddr c.addr).assertAS.driveRwLow.pins with
          data := place c.strobes c.wdata s.freeByte } ::
      pinsS4Write s.pins c s.freeByte :: loneLines n (atS4Write c s) := by
  obtain ⟨kind, fc, addr, strobes, wdata, level, st, second, pairs, edge, old, answer, answer2⟩ := c
  obtain ⟨params, ⟨pfc, paddr, as, uds, lds, ds, rw, data, vma, bg⟩, held, inputs, clk, clkCount, run,
    closing, term, din, owner, arb, bgWait, tenureBg, iplSeen, iplHistory, ephase, pit, mem, program,
    altProgram, answers, events, grantDelays, tenures, draws, results⟩ := s
  simp only at hs hr hc hk hd hz hv
  subst hs hr hc hk hd hz hv
  cases strobes <;> rfl

/-! ## The word of a cycle -/

/-- The identification word that the fields of a cycle stand for (R110; both strobe bits with DS, R111). -/
def Cycle.ciw (c : Cycle) : Ciw :=
  ciwOf (c.kind = .rmw) c.fc (c.kind ≠ .write) (c.strobes.selectsUpper || c.strobes.selectsDs)
    (c.strobes.selectsLower || c.strobes.selectsDs)

/-- The transaction's cycle stands for the word of its row (R111). -/
theorem ciw_cycleOf (bus : DataBus) (i : Instr) : (cycleOf bus i).ciw = i.row.ciw := by
  cases i with
  | iack level => cases bus <;> rfl
  | _ => rfl

theorem assertIf_asserted {selected : Bool} : assertIf selected .negated = .asserted ↔ selected = true := by
  cases selected <;> decide

theorem pinsS4Read_strobed (p : Pins) (c : Cycle) : (pinsS4Read p c).strobed = true := by
  simp only [Pins.strobed, pinsS4Read, assertIf_asserted, Bool.decide_eq_true]
  cases c.strobes <;> rfl

theorem pinsS4Read_seenU (p : Pins) (c : Cycle) :
    (pinsS4Read p c).seenU = (c.strobes.selectsUpper || c.strobes.selectsDs) := by
  simp only [Pins.seenU, pinsS4Read, assertIf_asserted, Bool.decide_eq_true]

theorem pinsS4Read_seenL (p : Pins) (c : Cycle) :
    (pinsS4Read p c).seenL = (c.strobes.selectsLower || c.strobes.selectsDs) := by
  simp only [Pins.seenL, pinsS4Read, assertIf_asserted, Bool.decide_eq_true]

/-- At S4 of a write the strobes are those of a read. -/
theorem pinsS4Write_seen (p : Pins) (c : Cycle) (fill : Byte) :
    (pinsS4Write p c fill).strobed = (pinsS4Read p c).strobed ∧
    (pinsS4Write p c fill).seenU = (pinsS4Read p c).seenU ∧
    (pinsS4Write p c fill).seenL = (pinsS4Read p c).seenL := ⟨rfl, rfl, rfl⟩

/-- A cycle about to start on an idle bus with no device left on it, which its device acknowledges. -/
structure Startable (s : State) (c : Cycle) : Prop where
  run     : s.run = some c
  st      : c.st = .start
  first   : c.second = false
  edge    : c.edge = 0
  clk     : s.clk = .low
  closing : s.closing = none
  data    : s.pins.data = DataLines.z
  vma     : s.pins.vma = .negated
  silent  : s.inputs.silent

section
variable {s : State} {c : Cycle} {w : Nat} {d : Option Half} (h : Startable s c)
  (ha : c.answer = Answer.of (.dtack w d))
include h ha

theorem Startable.observeCiw_read (hk : c.kind ≠ .write) (n : Nat) :
    observeCiw (loneLines (n + 3 + 2 * w + 5) s) = some c.ciw := by
  have hrel : s.releaseClosing = s := releaseClosing_none h.closing
  have hedge : StrobedEdge (atS4Read c s) { c with st := .S4 } :=
    { run := rfl, first := h.first, closing := rfl, vma := (congrArg (·.pins.vma) hrel).trans h.vma
      st := trivial, clk := rfl, term := rfl, silent := h.silent, strobed := pinsS4Read_strobed s.releaseClosing.pins c, as := rfl
      data := fun _ => (congrArg (·.pins.data) hrel).trans h.data }
  have hp := pinsS4Read_strobed s.pins c
  rw [loneLines_toS4_read_idle _ s c hk h.st h.run h.clk h.closing h.vma, observeCiw_of_unstrobed rfl,
    observeCiw_of_unstrobed rfl, observeCiw_of_strobed hp rfl, asWhenNegated_of_strobed hp,
    asWhenNegated_of_strobed hp, hedge.asWhenNegated_eq w n ha (by simp [h.edge]),
    pinsS4Read_seenU, pinsS4Read_seenL]
  simp [Cycle.ciw, hk, pinsS4Read]

theorem Startable.observeCiw_write (hk : c.kind = .write) (n : Nat) :
    observeCiw (loneLines (n + 3 + 2 * w + 5) s) = some c.ciw := by
  have hrel : s.releaseClosing = s := releaseClosing_none h.closing
  have hedge : StrobedEdge (atS4Write c s) { c with st := .S4 } :=
    { run := rfl, first := h.first, closing := rfl, vma := (congrArg (·.pins.vma) hrel).trans h.vma
      st := trivial, clk := rfl, term := rfl, silent := h.silent, strobed := pinsS4Read_strobed s.releaseClosing.pins c, as := rfl
      data := fun hn => absurd hk hn }
  obtain ⟨hp, hu, hl⟩ := pinsS4Write_seen s.pins c s.freeByte
  rw [loneLines_toS4_write_idle _ s c hk h.st h.run h.clk h.closing h.data h.vma, observeCiw_of_unstrobed rfl,
    observeCiw_of_unstrobed rfl, observeCiw_of_unstrobed rfl, observeCiw_of_unstrobed rfl,
    observeCiw_of_strobed (hp.trans (pinsS4Read_strobed s.pins c)) rfl,
    hedge.asWhenNegated_eq w n ha (by simp [h.edge]), hu, hl, pinsS4Read_seenU, pinsS4Read_seenL]
  simp [Cycle.ciw, hk, pinsS4Write]

theorem Startable.observeCiw_eq (n : Nat) : observeCiw (loneLines (n + 3 + 2 * w + 5) s) = some c.ciw := by
  by_cases hk : c.kind = .write
  · exact h.observeCiw_write ha hk n
  · exact h.observeCiw_read ha hk n

end

/-- A launched cycle on a free bus, once the cycle before has let go of the lines. -/
theorem startable_launched {s : State} (h : s.BusFree) {c : Cycle} (hs : c.st = .start)
    (hf : c.second = false) (he : c.edge = 0) : Startable (launched c s).releaseClosing (s.prepared c) := by
  have hvma := (releaseClosing_vma (launched c s)).trans h.vma
  have hdata := (launched_releaseClosing_data c s).trans h.data
  rw [releaseClosing_eq] at hvma hdata ⊢
  exact ⟨rfl, hs, hf, he, h.clk, rfl, hdata, hvma, h.dtack, h.berr, h.vpa, h.avec⟩

/-- Settles O6: the strobes of the first portion, R/W and FC with them, and AS where they are negated. -/
theorem observedWordIsTheWordOfTheRow : Obligations.ObservedWordIsTheWordOfTheRow := by
  unfold Obligations.ObservedWordIsTheWordOfTheRow
  intro s i w1 w2 d1 d2 rest h _ ha
  let c := cycleOf s.params.dataBus i
  have hans : (s.prepared c).answer = Answer.of (.dtack w1 d1) := prepared_answer ha nofun c
  obtain ⟨hstart, hfirst, hedge⟩ : c.st = .start ∧ c.second = false ∧ c.edge = 0 := by
    cases i <;> exact ⟨rfl, rfl, rfl⟩
  have hbudget : 3 + 2 * w1 + 5 ≤ cycleBudget (s.prepared c) := by
    simp only [cycleBudget, hans, Answer.of, Shape.patience]
    omega
  obtain ⟨n, hn⟩ := Nat.exists_eq_add_of_le' hbudget
  have hclk : (launched c s).clk = .low := h.clk
  calc observeCiw (observedPins i s)
      = observeCiw (loneLines (cycleBudget (s.prepared c)) (launched c s)) := observeCiw_observedPins h.toCalm
    _ = observeCiw (loneLines (n + 3 + 2 * w1 + 5) (launched c s).releaseClosing) := by
      rw [loneLines_releaseClosing _ hclk, hn, show n + (3 + 2 * w1 + 5) = n + 3 + 2 * w1 + 5 by omega]
    _ = some c.ciw := (startable_launched h.toBusFree hstart hfirst hedge).observeCiw_eq hans n
    _ = some i.row.ciw := congrArg some (ciw_cycleOf s.params.dataBus i)

end Sys2Proof.Machine
end

section
/-! SUPPORT. The reads whose device names how it ends them (40_read_cycle.md R145 to R147): after some wait pairs
DTACK, BERR or both, and at end(S6) BERR still or for the first time. -/

namespace Sys2Proof.Machine

/-- What a device drives on the four termination lines. -/
def Drive.lines (x : Drive) : Bool × Bool × Bool × Bool := (x.dtack, x.berr, x.vpa, x.avec)

/-- The shape asks for `w` wait pairs, ends them with DTACK as `d` and BERR as `b` say, and has BERR as `late`
says at end(S6); VPA and AVEC stay out of it. -/
structure Shape.Terminates (x : Shape) (w : Nat) (d b late : Bool) : Prop where
  scripted : x ≠ .resident
  patience : w ≤ x.patience
  before   : ∀ k < w, (x.driveAt k false).lines = (false, false, false, false)
  first    : (x.driveAt w false).lines = (d, b, false, false)
  last     : (x.driveAt (w + 1) true).lines = (d, late, false, false)
  stays    : b = true → late = true

theorem Shape.terminates_dtack (w : Nat) (v : Option Half) : (Shape.dtack w v).Terminates w true false false := by
  constructor <;> simp +contextual [Shape.driveAt, Shape.patience, Drive.lines, Drive.quiet]

theorem Shape.terminates_berr (w : Nat) : (Shape.berr w).Terminates w false true true := by
  constructor <;> simp +contextual [Shape.driveAt, Shape.patience, Drive.lines, Drive.quiet]

theorem Shape.terminates_berrDtack (w : Nat) (v : Option Half) :
    (Shape.berrDtack w v).Terminates w true true true := by
  constructor <;> simp +contextual [Shape.driveAt, Shape.patience, Drive.lines, Drive.quiet]

theorem Shape.terminates_lateBerr (w : Nat) (v : Option Half) :
    (Shape.lateBerr w v).Terminates w true false true := by
  constructor <;> simp +contextual [Shape.driveAt, Shape.patience, Drive.lines, Drive.quiet]

/-- The lines of end(S6) after those of the first edge: the device's, since none of its own goes away between. -/
theorem Shape.Terminates.lateDecision {x : Shape} {w : Nat} {d b late : Bool} (h : x.Terminates w d b late)
    {c : Cycle} (ha : c.answer = Answer.of x) (he : c.edge = w + 1) (i : Inputs) (term : Term) :
    c.lateDecision (i.withLines d b false false) term = decideLate term d late false := by
  have hlast := h.last
  simp only [Drive.lines, Prod.mk.injEq] at hlast
  obtain ⟨hd, hb, hv, -⟩ := hlast
  have hstays : ((x.addsTo (w + 1) && b) || late) = late := by
    cases hb : b
    · simp
    · simp [h.stays hb]
  have hkeeps : ((x.addsTo (w + 1) && d) || d) = d := by cases d <;> simp
  simp only [Cycle.lateDecision, Cycle.lateInputs, Inputs.withLines, ha, he, Answer.of, hd, hb, hv, hstays,
    hkeeps, Bool.and_false, Bool.or_false]

/-- A read of the processor comes to the first edge at which its polite device drives anything. -/
theorem comesToSample_of_silent {i : Instr} {s : State} {fc : Fc} {a : Addr} {strobes : Strobes} {w : Nat}
    (h : s.Ready) (hw : i.wf s.params.dataBus = true)
    (hc : cycleOf s.params.dataBus i = newCycle .read fc a strobes 0 0)
    (hp : (s.prepared (newCycle .read fc a strobes 0 0)).answer.polite)
    (hpatience : w ≤ (s.prepared (newCycle .read fc a strobes 0 0)).answer.shape.patience)
    (hsilent : ∀ k < w, (s.prepared (newCycle .read fc a strobes 0 0)).lines k = (false, false, false, false)) :
    ComesToSample i s (sampledState w (newCycle .read fc a strobes 0 0) s)
      (sampledCycle w (newCycle .read fc a strobes 0 0) s) w := by
  obtain ⟨⟨x, hx⟩, hcalm⟩ := exec_lone keepsOut_calm hw h.run h.owner (calm_launched h.toCalm _)
  rw [hc] at hx
  have hrun (n : Nat) := loneRun_sampled (c := newCycle .read fc a strobes 0 0) h.toBusFree rfl rfl w n
    fun k hk => by simpa [newCycle] using hsilent k hk
  exact {
    sampling := sampledState_sampling h.toBusFree rfl rfl hp w
    results := rfl
    owner := rfl
    count := by
      show s.clkCount + 1 + 1 + w = _
      omega
    mem := rfl
    pit := rfl
    edge := Nat.zero_add w
    runs := fun k hk hs => by
      have hb : k + 2 * w + 5 ≤ cycleBudget (s.prepared (newCycle .read fc a strobes 0 0)) := by
        unfold cycleBudget
        omega
      refine ⟨x, ?_⟩
      rw [hx, loneRun_settled hb (by rw [hrun]; exact hs), hrun]
    calm := hcalm }

/-- A read comes to the edge at which its device answers. -/
theorem Shape.Terminates.comesToSample {i : Instr} {s : State} {fc : Fc} {a : Addr} {strobes : Strobes}
    {x : Shape} {rest : List Answer} {w : Nat} {d b late : Bool} (hx : x.Terminates w d b late) (h : s.Ready)
    (hw : i.wf s.params.dataBus = true) (hc : cycleOf s.params.dataBus i = newCycle .read fc a strobes 0 0)
    (ha : s.answers = Answer.of x :: rest) :
    ∃ u c, ComesToSample i s u c w ∧ c.fc = fc ∧ c.addr = a ∧ c.strobes = strobes ∧
      c.answer = Answer.of x ∧ c.lines c.edge = (d, b, false, false) ∧
      ∀ j term, c.recognised.lateDecision (Inputs.withLines j d b false false) term =
        decideLate term d late false := by
  have hans := prepared_answer ha hx.scripted (newCycle .read fc a strobes 0 0)
  have hcomes := comesToSample_of_silent (w := w) h hw hc (hans ▸ ⟨rfl, rfl⟩) (hans ▸ hx.patience)
    fun k hk => by
      unfold Cycle.lines
      rw [hans]
      exact hx.before k hk
  generalize hcyc : sampledCycle w (newCycle .read fc a strobes 0 0) s = c at hcomes
  have hcans : c.answer = Answer.of x := hcyc ▸ hans
  refine ⟨_, c, hcomes, hcyc ▸ rfl, hcyc ▸ rfl, hcyc ▸ rfl, hcans, ?_, fun j term => ?_⟩
  · rw [hcomes.edge, Cycle.lines, hcans]
    exact hx.first
  · exact hx.lateDecision (c := c.recognised) hcans (congrArg (· + 1) hcomes.edge) j term

/-- A read takes one answer. -/
theorem exec_read_answers {i : Instr} {s t : State} {fc : Fc} {a : Addr} {strobes : Strobes} {ans : Answer}
    {rest : List Answer} (hc : cycleOf s.params.dataBus i = newCycle .read fc a strobes 0 0)
    (ha : s.answers = ans :: rest) (h : exec i s = .next t) : t.answers = rest := by
  rw [(exec_scripts h).answers, hc]
  simp [launched, ha, newCycle, answersTaken]

/-- Each of the four reads is a cycle that reads. -/
theorem read_as_cycle {bus : DataBus} {fc : Fc} {a : Addr} {i : Instr}
    (h : i ∈ [Instr.rdW fc a, .rdBU fc a, .rdBL fc a, .rdB8 fc a]) :
    ∃ strobes, cycleOf bus i = newCycle .read fc a strobes 0 0 := by
  simp only [List.mem_cons, List.not_mem_nil, or_false] at h
  rcases h with rfl | rfl | rfl | rfl <;> exact ⟨_, rfl⟩

/-- What each of them returns of a word on the data bus (R145). -/
theorem read_returns {bus : DataBus} {fc : Fc} {a : Addr} {v : Half} {p : Instr × Result}
    (h : p ∈ [(Instr.rdW fc a, Result.okWord v), (.rdBU fc a, .okByte (v.extractLsb' 8 8)),
      (.rdBL fc a, .okByte (v.extractLsb' 0 8)), (.rdB8 fc a, .okByte (v.extractLsb' 0 8))]) :
    ∃ strobes, cycleOf bus p.1 = newCycle .read fc a strobes 0 0 ∧ readResult strobes v = p.2 := by
  simp only [List.mem_cons, List.not_mem_nil, or_false] at h
  rcases h with rfl | rfl | rfl | rfl <;> exact ⟨_, rfl, rfl⟩

/-- Settles O18: DTACK is recognised at its edge and confirmed at end(S6), where the scripted word is latched. -/
theorem readEndsByDtack : Obligations.ReadEndsByDtack := by
  unfold Obligations.ReadEndsByDtack
  intro s fc a w v rest hready hans p hp hw
  obtain ⟨strobes, hc, hresult⟩ := read_returns (bus := s.params.dataBus) hp
  obtain ⟨u, c, h, rfl, rfl, rfl, hcans, hlines, hlate⟩ :=
    (Shape.terminates_dtack w (some v)).comesToSample hready hw hc hans
  obtain ⟨t, ht, hcalm, hdone⟩ := h.completes (k := 3) (m := 4 + w) (by decide)
    (h.sampling.loneRun_endsAtS7 hlines rfl (late := .dtack) (by rw [hlate]; rfl) nofun) (by omega)
  have hread : readResult c.strobes t.din = p.2 := (hdone.scripted v (by rw [hcans]; rfl)).trans hresult
  exact ⟨t, ht, hread ▸ hdone.ok rfl, hcalm, hdone.term, exec_read_answers hc hans ht, hdone.mem, hdone.pit⟩

/-- Settles O31: BERR alone is recognised at its edge, stands at end(S6), and adds S8 and S9. -/
theorem readEndedByBerr : Obligations.ReadEndedByBerr := by
  unfold Obligations.ReadEndedByBerr
  intro s fc a w rest hready hans i hi hw
  obtain ⟨strobes, hc⟩ := read_as_cycle (bus := s.params.dataBus) hi
  obtain ⟨u, c, h, rfl, rfl, rfl, -, hlines, hlate⟩ :=
    (Shape.terminates_berr w).comesToSample hready hw hc hans
  obtain ⟨t, ht, hcalm, hdone⟩ := h.completes (k := 5) (m := 5 + w) (by decide)
    (h.sampling.loneRun_endsAtS9 hlines rfl (by rw [hlate]; rfl)) (by omega)
  exact ⟨t, ht, hdone.busError rfl, hcalm, hdone.term, hdone.mem, hdone.pit⟩

/-- Settles O32: with DTACK recognised, BERR at end(S6) makes `term` BerrDtack, whether it came with DTACK or
only then. -/
theorem readEndedByBerrWithDtack : Obligations.ReadEndedByBerrWithDtack := by
  unfold Obligations.ReadEndedByBerrWithDtack
  intro s fc a w d rest hready hans i hi hw
  obtain ⟨x, b, hx, hxans⟩ : ∃ x b, Shape.Terminates x w true b true ∧ s.answers = Answer.of x :: rest :=
    hans.elim (fun h => ⟨_, true, Shape.terminates_berrDtack w d, h⟩)
      fun h => ⟨_, false, Shape.terminates_lateBerr w d, h⟩
  obtain ⟨strobes, hc⟩ := read_as_cycle (bus := s.params.dataBus) hi
  obtain ⟨u, c, h, rfl, rfl, rfl, -, hlines, hlate⟩ := hx.comesToSample hready hw hc hxans
  obtain ⟨t, ht, hcalm, hdone⟩ := h.completes (k := 3) (m := 4 + w) (by decide)
    (h.sampling.loneRun_endsAtS7 hlines (decideFirst_proceeds rfl rfl false) (late := .berrDtack)
      (by rw [hlate, decideLate_dtack rfl rfl, Bool.or_true, if_pos rfl]) nofun) (by omega)
  exact ⟨t, ht, hdone.busError rfl, hcalm, hdone.term, hdone.mem, hdone.pit⟩

end Sys2Proof.Machine
end

section
/-! SUPPORT. A cycle whose device never answers (40_read_cycle.md R150, 41_write_cycle.md R173, 42_rmw_cycle.md
R204, 43_iack_cycle.md R223): wait pair after wait pair, in the cycle of every row. -/

namespace Sys2Proof.Machine

/-! ## One wait pair -/

/-- The cycle `c` is in the low half of a wait pair of its first portion, AS is asserted, nothing has been
recognised, and its device is one that never answers. -/
structure Unanswered (s : State) (c : Cycle) : Prop extends FirstPortion s c where
  st     : c.st = .SwLow
  clk    : s.clk = .low
  term   : s.term = .none
  silent : s.inputs.silent
  never  : c.answer.shape = .never
  as     : s.pins.strobeAS = .asserted

/-- One CLK cycle of a cycle in progress, while the other agents keep out. -/
theorem clkCycle_lone {P : State → Prop} (hP : KeepsOut P) {s u t : State} (h : P s) (hs : s.run ≠ none)
    (hu : loneHalf s = .next u) (hrun : u.run ≠ none) (ht : loneHalf u = .next t) :
    ∃ x, s.clkCycle = .next (graft t x) ∧ P (graft t x) := by
  obtain ⟨⟨x, hx⟩, hPx⟩ := halfClock_lone hP h hs
  rw [hu] at hx
  obtain ⟨⟨y, hy⟩, hPy⟩ := halfClock_lone hP (hPx _ hx) (s := graft u x) hrun
  rw [loneHalf_graft, ht] at hy
  exact ⟨y, by rw [State.clkCycle, hx]; exact hy, hPy _ hy⟩

/-- From a sampling edge at which nothing is recognised. -/
theorem AtFirstEdge.unanswered {s : State} {c : Cycle} (h : AtFirstEdge s c) (hn : c.answer.shape = .never)
    (has : s.pins.strobeAS = .asserted) :
    loneHalf s = .next (tick { s with clk := .low, run := some c.waiting }) ∧
      Unanswered (tick { s with clk := .low, run := some c.waiting }) c.waiting := by
  refine ⟨h.loneHalf_waits (by rw [Cycle.lines, hn]; rfl), ?_⟩
  exact { run := rfl, first := h.first, closing := h.closing, vma := h.vma, st := rfl, clk := rfl
          term := h.term, silent := h.silent, never := hn, as := has }

theorem Unanswered.graft {s : State} {c : Cycle} (h : Unanswered s c) (x : State) : Unanswered (graft s x) c :=
  { run := h.run, first := h.first, closing := h.closing, vma := h.vma, st := h.st, clk := h.clk
    term := h.term, silent := h.silent, never := h.never, as := h.as }

/-- `t` comes `n` CLK cycles after `s`, with no result and nothing stored in memory between. -/
structure Idles (s t : State) (n : Nat) : Prop where
  results  : t.results = s.results
  mem      : t.mem = s.mem
  clkCount : t.clkCount = s.clkCount + n

theorem Idles.trans {s t u : State} {m n : Nat} (h : Idles s t m) (k : Idles t u n) : Idles s u (m + n) :=
  ⟨k.results.trans h.results, k.mem.trans h.mem, by rw [k.clkCount, h.clkCount, Nat.add_assoc]⟩

/-- A step is one CLK cycle, and comes to the next wait pair. -/
theorem Unanswered.step {s : State} {c : Cycle} (h : Unanswered s c) (hcalm : s.Calm) :
    ∃ t, step s = .next t ∧ t.Calm ∧ Idles s t 1 ∧ Unanswered t c.waiting := by
  let u : State := { s with clk := .high, run := some { c with st := .SwHigh } }
  have hedge : AtFirstEdge u { c with st := .SwHigh } :=
    { run := rfl, first := h.first, closing := h.closing, vma := h.vma, st := trivial, clk := rfl
      term := h.term, silent := h.silent }
  obtain ⟨ht, hnext⟩ := hedge.unanswered h.never h.as
  obtain ⟨x, hx, hcalm'⟩ := clkCycle_lone keepsOut_calm hcalm (by simp [h.run])
    (loneHalf_SwLow h.run h.st h.clk h.closing) nofun ht
  refine ⟨_, ?_, hcalm', ⟨rfl, rfl, rfl⟩, hnext.graft x⟩
  simp only [Machine.step, stepOnce, h.run, hx]

/-! ## For ever -/

theorem runsTo_zero (s : State) : s.runsTo 0 s := rfl

theorem runsTo_succ {s t u : State} {n : Nat} (ht : step s = .next t) (hu : t.runsTo n u) :
    s.runsTo (n + 1) u := by
  have hcore : Sys2Proof.core.step s = .next t := ht
  simpa only [State.runsTo, Host.Core.run, hcore] using hu

theorem Unanswered.runsTo (n : Nat) {s : State} {c : Cycle} (h : Unanswered s c) (hcalm : s.Calm) :
    ∃ u d, s.runsTo n u ∧ u.Calm ∧ Idles s u n ∧ Unanswered u d := by
  induction n generalizing s c with
  | zero => exact ⟨s, c, runsTo_zero s, hcalm, ⟨rfl, rfl, rfl⟩, h⟩
  | succ n ih =>
    obtain ⟨t, ht, hcalm, hidle, hnext⟩ := h.step hcalm
    obtain ⟨u, d, hu, hucalm, huidle, hlast⟩ := ih hnext hcalm
    exact ⟨u, d, runsTo_succ ht hu, hucalm, Nat.add_comm 1 n ▸ hidle.trans huidle, hlast⟩

/-! ## From the launch -/

/-- On a free bus a launched cycle of any kind, whose device is silent for `w` edges, comes to the next one with
AS asserted. -/
theorem loneRun_toAnyFirstEdge {s : State} {c : Cycle} (h : s.BusFree) (hs : c.st = .start)
    (hsecond : c.second = false) (w : Nat)
    (hl : ∀ k < w, (s.prepared c).lines (c.edge + k) = (false, false, false, false)) :
    ∃ u, (∀ n, loneRun (n + 2 * w + 5) (launched c s) = loneRun n u) ∧ AtFirstEdge u (sampledCycle w c s) ∧
      u.pins.strobeAS = .asserted ∧ Idles s u (2 + w) := by
  have hcount : s.clkCount + 1 + 1 + w = s.clkCount + (2 + w) := by omega
  by_cases hk : c.kind = .write
  · have hsample : AtFirstEdge (sampledWrite w c s) (sampledCycle w c s) :=
      { run := rfl, first := hsecond, closing := rfl, clk := rfl, term := rfl
        vma := (releaseClosing_vma (launched c s)).trans h.vma
        st := (sampledState_atFirstEdge h hsecond w).st, silent := ⟨h.dtack, h.berr, h.vpa, h.avec⟩ }
    exact ⟨_, fun n => loneRun_sampledWrite h hk hs w n hl, hsample, rfl, rfl, rfl, hcount⟩
  · exact ⟨_, fun n => loneRun_toFirstEdge h hk hs w n hl, sampledState_atFirstEdge h hsecond w, rfl, rfl, rfl,
      hcount⟩

/-- Settles O37: the budget of the cycle ends in a wait pair, and so does every step after it. -/
theorem unansweredCycleWaitsForEver : Obligations.UnansweredCycleWaitsForEver := by
  unfold Obligations.UnansweredCycleWaitsForEver
  intro s i rest h hw ha
  let c := cycleOf s.params.dataBus i
  have hans : (s.prepared c).answer = Answer.of .never := prepared_answer ha nofun c
  obtain ⟨hstart, hsecond⟩ := cycleOf_start s.params.dataBus i
  obtain ⟨w, hbudget⟩ : ∃ w, cycleBudget (s.prepared c) = 1 + 2 * w + 5 :=
    ⟨61 + (s.prepared c).answer2.shape.patience, by
      simp only [cycleBudget, hans, Answer.of, Shape.patience]
      omega⟩
  obtain ⟨u, hrun, hedge, has, hidle⟩ := loneRun_toAnyFirstEdge (c := c) h.toBusFree hstart hsecond w
    fun k _ => by rw [Cycle.lines, hans]; rfl
  obtain ⟨hlast, hwaits⟩ := hedge.unanswered (congrArg Answer.shape hans) has
  obtain ⟨⟨x, hx⟩, hcalm⟩ := exec_lone keepsOut_calm hw h.run h.owner (calm_launched h.toCalm c)
  have hexec : exec i s =
      .next (graft (tick { u with clk := .low, run := some (sampledCycle w c s).waiting }) x) := by
    rw [hx, hbudget, hrun, loneRun_succ 0 hedge.run (St.samples_not_faulted hedge.st), hlast]
    rfl
  refine ⟨_, hexec, fun n => ?_⟩
  obtain ⟨v, d, hv, hvcalm, hvidle, hvwaits⟩ := (hwaits.graft x).runsTo n (hcalm _ hexec)
  exact ⟨v, hv, by simp [hvwaits.run], hvwaits.as, hvcalm.owner, hvidle.results.trans hidle.results,
    hvidle.mem.trans hidle.mem, hvidle.clkCount⟩

end Sys2Proof.Machine
end

section
/-! SUPPORT. States S0 to S4 of format R, line by line (40_read_cycle.md R131 to R135). -/

namespace Sys2Proof.Machine

/-! ## A move of the bus controller inside a calm environment -/

/-- What the bus controller sees at a falling edge of a cycle alone. -/
def atFall (s : State) : State := tick { s with clk := .low }

section
variable {s u : State} {c : Cycle} {st st' : St} (hg : s.Going c) (hm : c.st.movesOn = true)
  (hn : nextSt c.kind s.term c.st = some st)
include hg hm hn

theorem State.Going.halfClock_rising (hc : s.clk = .low)
    (hu : enterState c st { s with clk := .high } = .next u) (hn' : nextSt c.kind u.term st = some st') :
    s.halfClock = .next { u with run := some (c.entered st u.din) } := by
  rw [Machine.halfClock_rising hc, releaseClosing_none (s := { s with clk := .high }) hg.closing,
    controllerEdge_movesOn (s := { s with clk := .high }) hg.run hm hn]
  exact goTo_between hu hn'

theorem State.Going.halfClock_falling (hcalm : s.Calm) (hc : s.clk = .high)
    (hu : enterState c st (atFall s) = .next u) (hn' : nextSt c.kind u.term st = some st')
    (hv : u.pins.vma = .negated) :
    ∃ x, s.halfClock = .next (graft { u with run := some (c.entered st u.din) } x) := by
  obtain ⟨⟨x, hx⟩, -⟩ := halfClock_lone keepsOut_calm hcalm (by simp [hg.run])
  have hedge : (atFall s).controllerEdge = .next { u with run := some (c.entered st u.din) } :=
    (controllerEdge_movesOn (s := atFall s) hg.run hm hn).trans (goTo_between hu hn')
  exact ⟨x, by rw [hx, loneHalf_falling hc hedge hv]; rfl⟩

end

/-- VMA is out only while `term` is Vpa, or Berr after it (R53). -/
theorem State.Going.vma_negated {s : State} {c : Cycle} (h : s.Going c) (hv : s.term ≠ .vpa)
    (hb : s.term ≠ .berr) : s.pins.vma = .negated :=
  h.on.vma.resolve_right fun ⟨_, _, ht⟩ => ht.elim hv hb

/-! ## Format R -/

theorem enterState_readsOnly {c : Cycle} (hc : c.readsOnly) (st : St) (s : State) :
    enterState c st s = formatR c st s := by
  unfold enterState
  rcases hc with h | h <;> rw [h]

theorem assertStrobes_pins (s : State) (x : Strobes) :
    (s.assertAS.assertStrobes x).pins = { s.pins with
      strobeAS := .asserted
      uds := assertIf x.selectsUpper s.pins.uds
      lds := assertIf x.selectsLower s.pins.lds
      ds := assertIf x.selectsDs s.pins.ds } := rfl

/-- In S1 of format R the strobes are still negated (R100). -/
theorem State.Going.strobes_S1 {s : State} {c : Cycle} (h : s.Going c) (hc : c.readsOnly) (hst : c.st = .S1) :
    s.pins.uds = .negated ∧ s.pins.lds = .negated ∧ s.pins.ds = .negated := by
  have hstrobe : (c.kind.columns c.pos).strobe = false := by
    simp only [Cycle.pos, hst]
    rcases hc with hk | hk <;> rw [hk] <;> rfl
  exact ⟨by rw [h.on.uds, hstrobe]; rfl, by rw [h.on.lds, hstrobe]; rfl, by rw [h.on.ds, hstrobe]; rfl⟩

section
variable {s : State} {c : Cycle} (hk : c.readsOnly)
include hk

/-- S0, from the lines between cycles (R131). -/
theorem readStart_S0 (hbus : s.BusInv) (hr : s.run = some c) (hst : c.st = .start) (hc : s.clk = .low) :
    ∃ t, s.halfClock = .next t ∧ t.run = some { c with st := .S0 } ∧
      t.pins = { s.releaseClosing.pins with
        fc := some c.fc, addr := none, rw := .high, strobeAS := .negated,
        uds := .negated, lds := .negated, ds := .negated } := by
  have haddr : s.releaseClosing.pins.addr = none :=
    (hbus.released fun d hd => Option.some.inj (hr.symm.trans hd) ▸ hst).addr
  have hrun : ({ s.releaseClosing with clk := .high } : State).run = some c := by simpa using hr
  rw [halfClock_rising hc, releaseClosing_clk,
    controllerEdge_movesOn hrun (st := .S0) (by rw [hst]; rfl) (by rw [hst]; rfl),
    goTo_between (st' := .S1) (enterState_readsOnly hk .S0 _) rfl]
  refine ⟨_, rfl, rfl, ?_⟩
  rw [← haddr]
  rfl

variable (hg : s.Going c)
include hg

/-- S2 asserts AS and the selected strobes (R133). -/
theorem read_S1_S2 (hst : c.st = .S1) (hc : s.clk = .low) :
    ∃ t, s.halfClock = .next t ∧ t.run = some { c with st := .S2 } ∧
      t.pins = { s.pins with
        strobeAS := .asserted,
        uds := if c.strobes.selectsUpper then .asserted else .negated,
        lds := if c.strobes.selectsLower then .asserted else .negated,
        ds := if c.strobes.selectsDs then .asserted else .negated } := by
  obtain ⟨huds, hlds, hds⟩ := hg.strobes_S1 hk hst
  refine ⟨_, hg.halfClock_rising (st := .S2) (st' := .S3) (by rw [hst]; rfl) (by rw [hst]; rfl) hc
    (enterState_readsOnly hk .S2 _) rfl, rfl, (assertStrobes_pins s c.strobes).trans ?_⟩
  rw [huds, hlds, hds]
  rfl

/-- S4 alters nothing (R135). -/
theorem read_S3_S4 (hst : c.st = .S3) (hc : s.clk = .low) :
    ∃ t, s.halfClock = .next t ∧ t.run = some { c with st := .S4 } ∧ t.pins = s.pins :=
  ⟨_, hg.halfClock_rising (st := .S4) (st' := .S5) (by rw [hst]; rfl) (by rw [hst]; rfl) hc
    (enterState_readsOnly hk .S4 _) rfl, rfl, rfl⟩

variable (hcalm : s.Calm) (ht : s.term = .none)
include hcalm ht

/-- S1 drives the address (R132). -/
theorem read_S0_S1 (hst : c.st = .S0) (hc : s.clk = .high) :
    ∃ t, s.halfClock = .next t ∧ t.run = some { c with st := .S1 } ∧
      t.pins = { s.pins with addr := some (linesOf c.addr), bg := t.pins.bg } := by
  have hv : s.pins.vma = .negated := hg.vma_negated (by simp [ht]) (by simp [ht])
  obtain ⟨x, hx⟩ := hg.halfClock_falling (st := .S1) (st' := .S2) (by rw [hst]; rfl) (by rw [hst]; rfl)
    hcalm hc (enterState_readsOnly hk .S1 _) rfl hv
  exact ⟨_, hx, rfl, rfl⟩

/-- S3 alters no line of the cycle (R134). -/
theorem read_S2_S3 (hst : c.st = .S2) (hc : s.clk = .high) :
    ∃ t, s.halfClock = .next t ∧ t.run = some { c with st := .S3 } ∧
      t.pins = { s.pins with bg := t.pins.bg } := by
  have hv : s.pins.vma = .negated := hg.vma_negated (by simp [ht]) (by simp [ht])
  obtain ⟨x, hx⟩ := hg.halfClock_falling (st := .S3) (st' := .S4) (by rw [hst]; rfl) (by rw [hst]; rfl)
    hcalm hc (enterState_readsOnly hk .S3 _) rfl hv
  exact ⟨_, hx, rfl, rfl⟩

end

/-- In S0 to S4 nothing has been recognised (R42). -/
theorem Cycle.legal_early {c : Cycle} {term : Term} (h : c.legal term = true)
    (hst : c.st = .S0 ∨ c.st = .S2) : term = .none := by
  rcases hst with hst | hst
  all_goals
    have : c.second = false ∧ term = .none := by simpa [Cycle.legal, hst] using h
    exact this.2

/-- Settles O12: each state by its writes in format R, from the lines the invariant gives for the state before. -/
theorem readStatesS0ToS4 : Obligations.ReadStatesS0ToS4 := by
  unfold Obligations.ReadStatesS0ToS4
  intro s c hcalm hbus hr hk
  have hgoing {st : St} (hst : c.st = st) (hne : st ≠ .start) : s.Going c := hbus.going hr (hst ▸ hne)
  have hlegal := hbus.legal c hr
  exact ⟨readStart_S0 hk hbus hr,
    fun hst => read_S0_S1 hk (hgoing hst nofun) hcalm (Cycle.legal_early hlegal (.inl hst)) hst,
    fun hst => read_S1_S2 hk (hgoing hst nofun) hst,
    fun hst => read_S2_S3 hk (hgoing hst nofun) hcalm (Cycle.legal_early hlegal (.inr hst)) hst,
    fun hst => read_S3_S4 hk (hgoing hst nofun) hst⟩

end Sys2Proof.Machine
end

section
/-! SUPPORT. What a sampling edge decides (40_read_cycle.md R144, 42_rmw_cycle.md R195, 43_iack_cycle.md R217,
R218, 44_sync_cycle.md R244): the bus controller at the edge, in a cycle of any kind, and then the half clock
around it. -/

namespace Sys2Proof.Machine

/-! ## A falling edge around the bus controller -/

theorem eRises_of_vmaWindow : ∀ {p : Fin 10}, vmaWindow p = true → eRises p = false := by decide

/-- Unless E rises, the peripheral at most lets go of the data bus (R237). -/
theorem peripheralEdge_next {s : State} (h : s.pins.vma = .asserted → eRises s.ephase = false) :
    ∃ t, s.peripheralEdge = .next t ∧ t.din = s.din := by
  unfold State.peripheralEdge
  split
  · exact ⟨s, rfl, rfl⟩
  · split
    · next c _ hv =>
      simp only [Bool.and_eq_true, decide_eq_true_eq] at hv
      rw [h hv.1, if_neg nofun]
      split
      · exact ⟨_, rfl, deviceReleasesData_din s c.answer⟩
      · exact ⟨s, rfl, rfl⟩
    · exact ⟨s, rfl, rfl⟩

section
variable {s : State} {c : Cycle} (hcalm : s.Calm) (hr : s.run = some c) (hc : s.clk = .high)
include hcalm hr hc

/-- What the bus controller leaves at a falling edge of a cycle, the half clock leaves, unless the peripheral
starts to drive. -/
theorem falling_next {u : State} (hu : (atFall s).controllerEdge = .next u)
    (hv : u.pins.vma = .asserted → eRises (s.ephase + 1) = false) :
    ∃ t, s.halfClock = .next t ∧ t.run = u.run ∧ t.term = u.term ∧ t.din = u.din := by
  obtain ⟨⟨x, hx⟩, -⟩ := halfClock_lone keepsOut_calm hcalm (by simp [hr])
  have hphase : u.ephase = s.ephase + 1 := (kept_controllerEdge hu).ephase
  obtain ⟨t, ht, hdin⟩ := peripheralEdge_next (s := u) (hphase ▸ hv)
  obtain ⟨-, hrun, hterm⟩ := peripheralEdge_cycle ht
  have hlone : loneHalf s = .next t := by
    simp only [loneHalf, hc]
    exact andThen_eq_next.2 ⟨u, hu, ht⟩
  exact ⟨graft t x, by rw [hx, hlone]; rfl, hrun, hterm, hdin⟩

theorem falling_violates (hu : (atFall s).controllerEdge = violation .dtackAndVpa) :
    s.halfClock = .fault (.protocolViolation .dtackAndVpa) := by
  obtain ⟨⟨x, hx⟩, -⟩ := halfClock_lone keepsOut_calm hcalm (by simp [hr])
  have hlone : loneHalf s = violation .dtackAndVpa := by
    simp only [loneHalf, hc]
    exact congrArg (andThen · State.peripheralEdge) hu
  rw [hx, hlone]
  rfl

end

/-! ## end(S4), end(S16) and the end of a wait pair -/

theorem enterState_S17 (c : Cycle) (s : State) : enterState c .S17 s = .next s := by
  unfold enterState
  cases c.kind <;> rfl

/-- A recognised termination leads to S5, or to S17 in the write portion, in which nothing is written. -/
theorem follow_proceed (s : State) (c : Cycle) (term : Term) : s.follow c (.proceed term) =
    .next { s with
      term := term, run := some { c with st := if c.second then .S17 else .S5, edge := c.edge + 1 } } := by
  by_cases hsecond : c.second = true
  · simp only [State.follow, recognisedSt, if_pos hsecond]
    exact goTo_between (st' := .S18) (enterState_S17 { c with edge := c.edge + 1 } { s with term := term }) rfl
  · simp only [State.follow, recognisedSt, if_neg hsecond]
    exact goTo_between (st' := .S6) (enterState_S5 { c with edge := c.edge + 1 } { s with term := term }) rfl

/-- A wait pair is inserted, and VMA is asserted in it only after VPA and where E leaves the time (R236). -/
theorem follow_waits (s : State) (c : Cycle) {term : Term} (h : term = .vpa ∨ term = .none) :
    ∃ t, s.follow c (.wait term) = .next t ∧ t.term = term ∧ t.run = some c.waiting ∧
      (s.pins.vma = .negated → t.pins.vma = .asserted → vmaWindow s.ephase = true) := by
  rcases h with rfl | rfl
  · refine ⟨_, rfl, rfl, rfl, fun hn hv => ?_⟩
    by_contra hw
    rw [State.stretchVma, if_neg hw] at hv
    exact absurd (hn.symm.trans hv) nofun
  · exact ⟨_, rfl, rfl, rfl, fun hn hv => absurd (hn.symm.trans hv) nofun⟩

/-- `c` is at a falling edge that decides in its portion, with nothing recognised before it; `d`, `b` and `v` are
DTACK, BERR and VPA sampled there, and AVEC is not asserted. -/
structure DecidesFirst (s : State) (c : Cycle) (d b v : Bool) : Prop where
  calm  : s.Calm
  going : s.Going c
  clk   : s.clk = .high
  st    : c.st.samples
  term  : s.term = .none
  dtack : (s.sampleLines c false).inputs.dtack = d
  berr  : (s.sampleLines c false).inputs.berr = b
  vpa   : (s.sampleLines c false).inputs.vpa = v
  avec  : (s.sampleLines c false).inputs.avec = false

section
variable {s : State} {c : Cycle} {d b v : Bool} (h : DecidesFirst s c d b v)
include h

theorem DecidesFirst.controllerEdge_eq : (atFall s).controllerEdge =
    ((atFall s).sampleLines c false).follow c (decideFirst d b v false) := by
  obtain ⟨-, hg, -, hs, ht, hd, hb, hv, ha⟩ := h
  have ht' : ((atFall s).sampleLines c false).term = .none := ht
  have hin : ((atFall s).sampleLines c false).inputs = (s.sampleLines c false).inputs := rfl
  rw [controllerEdge_samples (s := atFall s) hg.run hs]
  simp only [State.sampleAndDecide, ht', State.avecCounts, hin, hd, hb, hv, ha, Bool.and_false]

theorem DecidesFirst.vma : s.pins.vma = .negated :=
  h.going.vma_negated (by simp [h.term]) (by simp [h.term])

theorem DecidesFirst.violates (hd : decideFirst d b v false = .violation) :
    s.halfClock = .fault (.protocolViolation .dtackAndVpa) :=
  falling_violates h.calm h.going.run h.clk (by rw [h.controllerEdge_eq, hd]; rfl)

theorem DecidesFirst.proceeds {term : Term} (hd : decideFirst d b v false = .proceed term) :
    ∃ t, s.halfClock = .next t ∧ t.term = term ∧
      t.run = some { c with st := if c.second then .S17 else .S5, edge := c.edge + 1 } := by
  have hu := h.controllerEdge_eq.trans (hd ▸ follow_proceed ((atFall s).sampleLines c false) c term)
  obtain ⟨t, ht, hrun, hterm, -⟩ := falling_next h.calm h.going.run h.clk hu
    fun hv => absurd (h.vma.symm.trans hv) nofun
  exact ⟨t, ht, hterm, hrun⟩

theorem DecidesFirst.waits {term : Term} (hd : decideFirst d b v false = .wait term)
    (hterm : term = .vpa ∨ term = .none) :
    ∃ t, s.halfClock = .next t ∧ t.term = term ∧
      t.run = some { c with st := .SwLow, pairs := c.pairs + 1, edge := c.edge + 1 } := by
  obtain ⟨u, hu, huterm, hurun, hwindow⟩ := follow_waits ((atFall s).sampleLines c false) c hterm
  obtain ⟨t, ht, hrun, htterm, -⟩ := falling_next h.calm h.going.run h.clk
    (h.controllerEdge_eq.trans (hd ▸ hu)) fun hv => eRises_of_vmaWindow (hwindow h.vma hv)
  exact ⟨t, ht, htterm.trans huterm, hrun.trans hurun⟩

end

/-! ## end(S6) -/

@[simp] theorem deviceTakes_din (s : State) (c : Cycle) (v : Half) : (s.deviceTakes c v).din = s.din := by
  rw [deviceTakes_eq]

@[simp] theorem deviceNegates_din (s : State) (a : Answer) : (s.deviceNegates a).din = s.din := by
  unfold State.deviceNegates
  split <;> rfl

/-- S7 writes neither `term` nor `din`, in any format. -/
theorem enterState_S7 (c : Cycle) (s : State) :
    ∃ u, enterState c .S7 s = .next u ∧ u.term = s.term ∧ u.din = s.din := by
  have hR : ∃ u, formatR c .S7 s = .next u ∧ u.term = s.term ∧ u.din = s.din := by
    refine ⟨_, rfl, ?_, ?_⟩ <;> split <;> simp
  have hW : ∃ u, formatW c .S7 s = .next u ∧ u.term = s.term ∧ u.din = s.din := by
    refine ⟨_, rfl, ?_, ?_⟩ <;> split <;> simp
  have hM : ∃ u, formatM c .S7 s = .next u ∧ u.term = s.term ∧ u.din = s.din := by
    refine ⟨_, rfl, ?_, ?_⟩ <;> simp
  unfold enterState
  cases c.kind
  · exact hR
  · exact hW
  · exact hM
  · exact hR

/-- A cycle reports a result unless it is an acknowledge cycle that BERR ends on a machine for which that is a
fault (R222). -/
theorem finish_next {s : State} {c : Cycle}
    (h : c.kind = .iack → s.term.isBerr = true → s.params.iackBerr ≠ none) :
    ∃ r, s.finish c = .next (({ s with run := none, closing := some c } : State).report r) := by
  unfold State.finish State.finishResult
  cases hk : c.kind
  case iack =>
    simp only
    split
    · next hb =>
      obtain ⟨n, hn⟩ := Option.ne_none_iff_exists'.1 (h hk hb)
      simp only [hn]
      exact ⟨_, rfl⟩
    · split <;> exact ⟨_, rfl⟩
  all_goals
    simp only
    split <;> exact ⟨_, rfl⟩

theorem Term.isBerr_iff {term : Term} : term.isBerr = true ↔ term = .berr ∨ term = .berrDtack := by
  cases term <;> decide

theorem goTo_S7_next {s : State} {c : Cycle}
    (h : c.kind = .iack → s.term = .berrDtack → s.params.iackBerr ≠ none) :
    ∃ t, s.goTo c .S7 = .next t ∧ t.term = s.term ∧ t.din = s.din := by
  obtain ⟨u, hu, hterm, hdin⟩ := enterState_S7 c s
  cases hn : nextSt c.kind u.term .S7 with
  | some st => exact ⟨_, goTo_between hu hn, hterm, hdin⟩
  | none =>
    have hberr : u.term ≠ .berr := fun hb => by simp [nextSt, hb] at hn
    obtain ⟨r, hfin⟩ := finish_next (s := u) (c := c.entered .S7 u.din) fun hk hb => by
      rw [(kept_enterState hu).params]
      rw [Cycle.entered_kind] at hk
      exact h hk (hterm ▸ (Term.isBerr_iff.1 hb).resolve_left hberr)
    exact ⟨_, (goTo_last hu hn).trans hfin, hterm, hdin⟩

section
variable {s : State} {c : Cycle}

/-- The late check as end(S6) makes it, after the data are latched. -/
theorem lateDecision_atEndS6 : decideLate ((s.sampleLines c true).latchFor c).term
    ((s.sampleLines c true).latchFor c).inputs.dtack ((s.sampleLines c true).latchFor c).inputs.berr
    ((s.sampleLines c true).latchFor c).inputs.vpa = c.lateDecision s.inputs s.term := by
  unfold State.latchFor
  split <;> rfl

theorem endS6_violates (h : c.lateDecision s.inputs s.term = none) : s.endS6 c = violation .dtackAndVpa := by
  simp only [State.endS6, lateDecision_atEndS6, h]

/-- end(S6) goes on with what it has decided and latched. -/
theorem endS6_next {term : Term} (hd : c.lateDecision s.inputs s.term = some term)
    (h : c.kind = .iack → term = .berrDtack → s.params.iackBerr ≠ none) :
    ∃ t, s.endS6 c = .next t ∧ t.term = term ∧ t.din = (atEndS6 s c term).din := by
  have hparams : (atEndS6 s c term).params = s.params := (sameDevices_atEndS6 s c term).params
  simp only [State.endS6, lateDecision_atEndS6, hd]
  split
  · exact ⟨_, rfl, rfl, rfl⟩
  · exact goTo_S7_next (s := atEndS6 s c term) (hparams ▸ h)

/-- A cycle that reads has in `din` of `t` what each lane of the data bus carried in `s` (R138). -/
structure LatchesBus (s : State) (c : Cycle) (t : State) : Prop where
  lo : c.kind ≠ .write → ∀ x, s.pins.data.lo = some x → loByte t.din = x
  hi : c.kind ≠ .write → c.strobes ≠ .ds → ∀ x, s.pins.data.hi = some x → hiByte t.din = x

theorem latch_hi {x : Strobes} {v : Byte} (hx : x ≠ .ds) (h : s.pins.data.hi = some v) :
    hiByte (s.latch x).din = v := by
  cases x
  case ds => exact absurd rfl hx
  all_goals simp [State.latch, State.drawn, h]

theorem latchesBus_atEndS6 (s : State) (c : Cycle) (term : Term) : LatchesBus s c (atEndS6 s c term) := by
  have hlatch (hk : c.kind ≠ .write) :
      (atEndS6 s c term).din = ((s.sampleLines c true).latch c.strobes).din := by
    unfold atEndS6 State.latchFor
    split
    · next h => exact absurd h hk
    all_goals rfl
  exact ⟨fun hk x hx => by rw [hlatch hk]; exact loByte_latch hx,
    fun hk hds x hx => by rw [hlatch hk]; exact latch_hi hds hx⟩

end

/-- `c` is at end(S6), and `d`, `b` and `v` are DTACK, BERR and VPA sampled there. -/
structure DecidesLate (s : State) (c : Cycle) (d b v : Bool) : Prop where
  calm     : s.Calm
  going    : s.Going c
  clk      : s.clk = .high
  st       : c.st = .S6
  decision : c.lateDecision s.inputs s.term = decideLate s.term d b v

section
variable {s : State} {c : Cycle} {d b v : Bool} (h : DecidesLate s c d b v)
include h

theorem DecidesLate.controllerEdge_eq : (atFall s).controllerEdge = (atFall s).endS6 c := by
  have hr : (atFall s).run = some c := h.going.run
  simp only [State.controllerEdge, hr, h.st]

theorem DecidesLate.violates (hd : decideLate s.term d b v = none) :
    s.halfClock = .fault (.protocolViolation .dtackAndVpa) :=
  falling_violates h.calm h.going.run h.clk
    (h.controllerEdge_eq.trans (endS6_violates (s := atFall s) (h.decision.trans hd)))

/-- What end(S6) decides stands after the half clock, with the data latched, unless the peripheral starts to
drive there. -/
theorem DecidesLate.goesOn {term : Term} (hd : decideLate s.term d b v = some term)
    (hfault : c.kind = .iack → term = .berrDtack → s.params.iackBerr ≠ none)
    (hv : s.pins.vma = .asserted → eRises (s.ephase + 1) = false) :
    ∃ t, s.halfClock = .next t ∧ t.term = term ∧ LatchesBus s c t := by
  obtain ⟨u, hu, huterm, hudin⟩ := endS6_next (s := atFall s) (h.decision.trans hd) hfault
  obtain ⟨t, ht, -, hterm, hdin⟩ := falling_next h.calm h.going.run h.clk (h.controllerEdge_eq.trans hu)
    fun hn => hv (endS6_addsNoVma (s := atFall s) hu hn)
  obtain ⟨hlo, hhi⟩ := latchesBus_atEndS6 (atFall s) c term
  rw [← hudin, ← hdin] at hlo hhi
  exact ⟨t, ht, hterm.trans huterm, hlo, hhi⟩

/-- BERR without DTACK goes on to S7, which writes nothing (R147). -/
theorem DecidesLate.entersS7 (hd : decideLate s.term d b v = some .berr) (hk : c.kind ≠ .rmw)
    (hv : s.pins.vma = .negated) :
    ∃ t, s.halfClock = .next t ∧ t.term = .berr ∧ t.run = some { c with st := .S7 } := by
  have hgo := endS6_of_lateDecision (s := atFall s) hk (h.decision.trans hd)
  have henter : enterState c .S7 (atEndS6 (atFall s) c .berr) = .next (atEndS6 (atFall s) c .berr) := by
    unfold enterState
    cases hkind : c.kind
    case rmw => exact absurd hkind hk
    all_goals rfl
  have hu := h.controllerEdge_eq.trans (hgo.trans (goTo_between (st' := .S8) henter (by simp [nextSt, atEndS6])))
  obtain ⟨t, ht, hrun, hterm, -⟩ := falling_next h.calm h.going.run h.clk hu fun hn => by
    have : s.pins.vma = .asserted := (congrArg Pins.vma (atEndS6_pins (atFall s) c .berr)).symm.trans hn
    rw [hv] at this; cases this
  exact ⟨t, ht, hterm, hrun.trans (by simp [Cycle.entered, hk])⟩

end

/-! ## The tables of R144, row by row -/

theorem decideFirst_waits (v : Bool) : decideFirst false false v false = .wait (if v then .vpa else .none) := by
  cases v <;> rfl

theorem decideLate_together (term : Term) (b : Bool) : decideLate term true b true = none := rfl

theorem decideLate_vpa_after_dtack {term : Term} (h : term = .dtack ∨ term = .berrDtack) (d b : Bool) :
    decideLate term d b true = none := by
  rcases h with rfl | rfl <;> cases d <;> rfl

theorem decideLate_after_dtack {term : Term} (h : term = .dtack ∨ term = .berrDtack) (d b : Bool) :
    decideLate term d b false = some (if b then .berrDtack else term) := by
  rcases h with rfl | rfl <;> cases d <;> cases b <;> rfl

theorem decideLate_dtack_after_vpa (v : Bool) : decideLate .vpa true false v = none := by
  cases v <;> rfl

theorem decideLate_after_vpa : ∀ {d b v : Bool}, b = true ∨ d = false → ¬(d = true ∧ v = true) →
    decideLate .vpa d b v = some (if b then .berr else .vpa) := by decide

theorem decideLate_after_avec : ∀ {d v : Bool}, ¬(d = true ∧ v = true) → ∀ b,
    decideLate .avec d b v = some (if b then .berrDtack else .avec) := by decide

theorem decideLate_after_berr : ∀ {d v : Bool}, ¬(d = true ∧ v = true) → ∀ b,
    decideLate .berr d b v = some .berr := by decide

/-- Settles O15: the first edge by `decideFirst`, end(S6) by `decideLate`, on the lines sampled there. -/
theorem samplingEdgeDecides : Obligations.SamplingEdgeDecides := by
  unfold Obligations.SamplingEdgeDecides
  intro s c drive adds d b v hcalm hbus hc hr hdrive hadds hd hb hv
  have hgoing (hst : c.st ≠ .start) : s.Going c := hbus.going hr hst
  have hfirst (hs : c.st.samples) (ht : s.term = .none) (ha : s.inputs.avec = false)
      (hda : drive.avec = false) : DecidesFirst s c d b v := by
    have hst {st : St} (hst : c.st = st) : st.samples := hst ▸ hs
    have hfalse : decide (c.st = .S6) = false := decide_eq_false hst
    rw [hfalse] at hdrive
    subst hd hb hv hadds hdrive
    exact ⟨hcalm, hgoing hst, hc, hs, ht, rfl, rfl, rfl, by simp [State.sampleLines, ha, hda]⟩
  have hlate (hst : c.st = .S6) : DecidesLate s c d b v := by
    have htrue : decide (c.st = .S6) = true := decide_eq_true hst
    rw [htrue] at hdrive
    subst hd hb hv hadds hdrive
    exact ⟨hcalm, hgoing (by simp [hst]), hc, hst, rfl⟩
  have hvma (hst : c.st = .S6) (hv : s.term ≠ .vpa) (hb : s.term ≠ .berr)
      (ha : s.pins.vma = .asserted) : eRises (s.ephase + 1) = false :=
    absurd (((hgoing (by simp [hst])).vma_negated hv hb).symm.trans ha) nofun
  refine ⟨fun hst ht ha hda => ?_, fun hst hd hv => ?_, fun hst ht => ⟨fun hv => ?_, fun hv hf => ?_⟩,
    fun hst ht hp => ⟨fun hb hd => ?_, fun hbd hdv => ?_⟩, fun hst ht hdv hf => ?_,
    fun hst ht hk hvma hdv => ?_⟩
  · have h := hfirst (St.samples_iff.2 hst) ht ha hda
    refine ⟨fun hd hv => h.violates (decideFirst_violation hd hv b false), fun hb hd hv => ?_, fun hb hd => ?_,
      fun hb hd hv => ?_, fun hb hd => ?_⟩
    · exact h.proceeds (by rw [hb, hd, hv]; rfl)
    · exact h.proceeds (by rw [hb, hd]; rfl)
    · exact h.proceeds (by rw [hb, hd, hv]; rfl)
    · exact h.waits (by rw [hb, hd, decideFirst_waits]) (by cases v <;> simp)
  · exact (hlate hst).violates (by rw [hd, hv, decideLate_together])
  · exact (hlate hst).violates (hv ▸ decideLate_vpa_after_dtack ht d b)
  · obtain ⟨t, hnext, hterm, hl⟩ := (hlate hst).goesOn (hv ▸ decideLate_after_dtack ht d b) (fun hk _ => hf hk)
      (hvma hst (by rcases ht with ht | ht <;> simp [ht]) (by rcases ht with ht | ht <;> simp [ht]))
    exact ⟨t, hnext, hterm, hl.lo, hl.hi⟩
  · exact (hlate hst).violates (by rw [ht, hb, hd, decideLate_dtack_after_vpa])
  · obtain ⟨t, hnext, hterm, hl⟩ := (hlate hst).goesOn (by rw [ht]; exact decideLate_after_vpa hbd hdv)
      (fun _ hberr => by split at hberr <;> cases hberr) fun _ => by rw [hp]; rfl
    exact ⟨t, hnext, hterm, hl.lo, hl.hi⟩
  · obtain ⟨t, hnext, hterm, -⟩ := (hlate hst).goesOn (by rw [ht]; exact decideLate_after_avec hdv b)
      (fun _ _ => hf)
      (hvma hst (by simp [ht]) (by simp [ht]))
    exact ⟨t, hnext, hterm⟩
  · exact (hlate hst).entersS7 (ht ▸ decideLate_after_berr hdv b) hk hvma

end Sys2Proof.Machine
end

section
/-! SUPPORT. States S0 to S4 of format W, line by line (41_write_cycle.md R161 to R165). -/

namespace Sys2Proof.Machine

/-- S0 is the same in every format (R131, R161, R181). -/
theorem enterState_S0 (c : Cycle) (s : State) : enterState c .S0 s = .next (s.placeCodes c.fc) := by
  unfold enterState
  cases c.kind <;> rfl

/-- S0 of a cycle of any kind, from the lines between cycles. -/
theorem start_S0 {s : State} {c : Cycle} (hbus : s.BusInv) (hr : s.run = some c) (hst : c.st = .start)
    (hc : s.clk = .low) :
    ∃ t, s.halfClock = .next t ∧ t.run = some { c with st := .S0 } ∧
      t.pins = { s.releaseClosing.pins with
        fc := some c.fc, addr := none, rw := .high, strobeAS := .negated,
        uds := .negated, lds := .negated, ds := .negated } := by
  have haddr : s.releaseClosing.pins.addr = none :=
    (hbus.released fun d hd => Option.some.inj (hr.symm.trans hd) ▸ hst).addr
  have hrun : ({ s.releaseClosing with clk := .high } : State).run = some c := by simpa using hr
  rw [halfClock_rising hc, releaseClosing_clk,
    controllerEdge_movesOn hrun (st := .S0) (by rw [hst]; rfl) (by rw [hst]; rfl),
    goTo_between (st' := .S1) (enterState_S0 ..) rfl]
  exact ⟨_, rfl, rfl, by rw [← haddr]; rfl⟩

theorem strobed_pins (s : State) (x : Strobes) : (s.assertStrobes x).pins = { s.pins with
    uds := assertIf x.selectsUpper s.pins.uds
    lds := assertIf x.selectsLower s.pins.lds
    ds := assertIf x.selectsDs s.pins.ds } := rfl

/-- Before S4 of format W the strobes are negated (R101). -/
theorem State.Going.strobes_S3 {s : State} {c : Cycle} (h : s.Going c) (hk : c.kind = .write)
    (hst : c.st = .S3) : s.pins.uds = .negated ∧ s.pins.lds = .negated ∧ s.pins.ds = .negated := by
  have hstrobe : (c.kind.columns c.pos).strobe = false := by
    simp only [Cycle.pos, hst, hk]
    rfl
  exact ⟨by rw [h.on.uds, hstrobe]; rfl, by rw [h.on.lds, hstrobe]; rfl, by rw [h.on.ds, hstrobe]; rfl⟩

section
variable {s : State} {c : Cycle} (hk : c.kind = .write) (hg : s.Going c)
include hk hg

/-- S2 asserts AS and drives R/W low (R163). -/
theorem write_S1_S2 (hst : c.st = .S1) (hc : s.clk = .low) :
    ∃ t, s.halfClock = .next t ∧ t.run = some { c with st := .S2 } ∧
      t.pins = { s.pins with strobeAS := .asserted, rw := .low } :=
  ⟨_, hg.halfClock_rising (st := .S2) (st' := .S3) (by rw [hst]; rfl) (by rw [hst]; rfl) hc
    (enterState_write hk .S2 _) rfl, rfl, rfl⟩

/-- S4 asserts the selected strobes (R165). -/
theorem write_S3_S4 (hst : c.st = .S3) (hc : s.clk = .low) :
    ∃ t, s.halfClock = .next t ∧ t.run = some { c with st := .S4 } ∧
      t.pins = { s.pins with
        uds := if c.strobes.selectsUpper then .asserted else .negated,
        lds := if c.strobes.selectsLower then .asserted else .negated,
        ds := if c.strobes.selectsDs then .asserted else .negated } := by
  obtain ⟨huds, hlds, hds⟩ := hg.strobes_S3 hk hst
  refine ⟨_, hg.halfClock_rising (st := .S4) (st' := .S5) (by rw [hst]; rfl) (by rw [hst]; rfl) hc
    (enterState_write hk .S4 _) rfl, rfl, (strobed_pins s c.strobes).trans ?_⟩
  rw [huds, hlds, hds]
  rfl

variable (hcalm : s.Calm) (ht : s.term = .none)
include hcalm ht

/-- S1 drives the address (R162). -/
theorem write_S0_S1 (hst : c.st = .S0) (hc : s.clk = .high) :
    ∃ t, s.halfClock = .next t ∧ t.run = some { c with st := .S1 } ∧
      t.pins = { s.pins with addr := some (linesOf c.addr), bg := t.pins.bg } := by
  have hv : s.pins.vma = .negated := hg.vma_negated (by simp [ht]) (by simp [ht])
  obtain ⟨x, hx⟩ := hg.halfClock_falling (st := .S1) (st' := .S2) (by rw [hst]; rfl) (by rw [hst]; rfl)
    hcalm hc (enterState_write hk .S1 _) rfl hv
  exact ⟨_, hx, rfl, rfl⟩

/-- S3 drives the data, with the next free byte on a lane that is not selected (R164, R77). -/
theorem write_S2_S3 (hst : c.st = .S2) (hc : s.clk = .high) (hz : s.pins.data = DataLines.z) :
    ∃ t fill, s.halfClock = .next t ∧ t.run = some { c with st := .S3 } ∧
      t.pins = { s.pins with data := place c.strobes c.wdata fill, bg := t.pins.bg } := by
  have hv : s.pins.vma = .negated := hg.vma_negated (by simp [ht]) (by simp [ht])
  have hdrive : enterState c .S3 (atFall s) = .next { (atFall s).drawn 1 with
      pins := { s.pins with data := place c.strobes c.wdata s.freeByte } } :=
    (enterState_write hk .S3 _).trans (driveData_free (s := (atFall s).drawn 1) hz)
  obtain ⟨x, hx⟩ := hg.halfClock_falling (st := .S3) (st' := .S4) (by rw [hst]; rfl) (by rw [hst]; rfl)
    hcalm hc hdrive rfl hv
  exact ⟨_, s.freeByte, hx, rfl, rfl⟩

end

/-- Settles O13: each state by its writes in format W, from the lines the invariant gives for the state before. -/
theorem writeStatesS0ToS4 : Obligations.WriteStatesS0ToS4 := by
  unfold Obligations.WriteStatesS0ToS4
  intro s c hcalm hbus hr hk
  have hgoing {st : St} (hst : c.st = st) (hne : st ≠ .start) : s.Going c := hbus.going hr (hst ▸ hne)
  have hlegal := hbus.legal c hr
  exact ⟨start_S0 hbus hr,
    fun hst => write_S0_S1 hk (hgoing hst nofun) hcalm (Cycle.legal_early hlegal (.inl hst)) hst,
    fun hst => write_S1_S2 hk (hgoing hst nofun) hst,
    fun hst => write_S2_S3 hk (hgoing hst nofun) hcalm (Cycle.legal_early hlegal (.inr hst)) hst,
    fun hst => write_S3_S4 hk (hgoing hst nofun) hst⟩

end Sys2Proof.Machine
end

section
/-! SUPPORT. The end of a write after each termination (41_write_cycle.md R166 to R171): S5, S6, end(S6) and the
last state, VMA asserted or not, for a device that keeps its obligations (R141). -/

namespace Sys2Proof.Machine

/-! ## One request in two states of its cycle -/

/-- The fields of a cycle that its run does not change. -/
structure SameRequest (c d : Cycle) : Prop where
  kind    : d.kind = c.kind
  fc      : d.fc = c.fc
  addr    : d.addr = c.addr
  strobes : d.strobes = c.strobes
  wdata   : d.wdata = c.wdata

theorem SameRequest.trans {c d e : Cycle} (h : SameRequest c d) (k : SameRequest d e) : SameRequest c e :=
  ⟨k.kind.trans h.kind, k.fc.trans h.fc, k.addr.trans h.addr, k.strobes.trans h.strobes,
    k.wdata.trans h.wdata⟩

theorem SameRequest.storeLanes {c d : Cycle} (h : SameRequest c d) (s : State) (v : Half) :
    s.storeLanes d v = s.storeLanes c v := by
  simp only [State.storeLanes, h.fc, h.addr, h.strobes]

/-! ## A write that has ended -/

/-- The result of a write that `term` has ended (R170, R171). -/
def writeOutcome (c : Cycle) (term : Term) : Result :=
  if term.isBerr then .busError { kind := .write, fc := c.fc, addr := c.addr } else .ok

/-- What the write `c` has left in `t`, ended by `term` and `n` CLK cycles after `s`: its result, and the devices
as they were or with all of its data, the latter wherever it has ended well. -/
structure WriteEnded (s : State) (c : Cycle) (t : State) (term : Term) (n : Nat) : Prop where
  completed : Completed s t (writeOutcome c term) n
  devices   : SameDevices s t ∨ SameDevices (s.storeLanes c c.wdata) t
  stored    : term.isBerr = false → SameDevices (s.storeLanes c c.wdata) t
  term      : t.term = term

theorem written_takes {s : State} {c : Cycle} (hp : c.answer.polite) :
    written s c = { s with
      pins := { s.pins with
        strobeAS := .negated, uds := .negated, lds := .negated, ds := .negated, vma := .negated }
      inputs := s.inputs.withLines false false false false
      run := none, closing := some c
      mem := (s.deviceTakes c c.wdata).mem, pit := (s.deviceTakes c c.wdata).pit
      draws := (s.deviceTakes c c.wdata).draws
      results := { master := s.owner, result := writeOutcome c s.term } :: s.results } := by
  simp only [written, State.negateAll, State.deviceNegates, hp.1, Bool.false_eq_true, if_false]
  rw [deviceTakes_eq]
  rfl

theorem sameDevices_written (s : State) (c : Cycle) : SameDevices (s.deviceTakes c c.wdata) (written s c) :=
  (sameDevices_negateAll (s.deviceTakes c c.wdata) c.answer).trans ⟨rfl, rfl, rfl⟩

/-- A write that has ended has completed, and the bus is free. -/
theorem written_ended {s : State} {c : Cycle} (hk : c.kind = .write) (hp : c.answer.polite)
    (hh : s.held = DataLines.z) (hc : s.clk = .low) : WriteEnded s c (written s c) s.term 0 where
  completed := by
    rw [written_takes hp]
    exact {
      run := rfl, clk := hc, data := by simpa [State.releaseClosing, hk] using hh, held := hh, vma := rfl
      dtack := rfl, berr := rfl, vpa := rfl, avec := rfl
      results := rfl, length := rfl, owner := rfl }
  term := by rw [written_takes hp]
  devices := (deviceTakes_cases s c c.wdata).imp (·.trans (sameDevices_written s c))
    (·.trans (sameDevices_written s c))
  stored hb := deviceTakes_stores (s := s) c c.wdata hb ▸ sameDevices_written s c

theorem WriteEnded.since {s u t : State} {c d : Cycle} {term : Term} {m n : Nat} (h : WriteEnded u c t term n)
    (hr : u.results = s.results) (ho : u.owner = s.owner) (hc : u.clkCount = s.clkCount + m)
    (hdev : SameDevices s u) (hcd : SameRequest c d) : WriteEnded s d t term (m + n) where
  completed := by
    have := h.completed.since hr ho hc
    rwa [writeOutcome, ← hcd.fc, ← hcd.addr] at this
  term := h.term
  devices := by
    rw [hcd.storeLanes, hcd.wdata]
    exact h.devices.imp hdev.trans (hdev.storeLanes c c.wdata).trans
  stored hb := by
    rw [hcd.storeLanes, hcd.wdata]
    exact (hdev.storeLanes c c.wdata).trans (h.stored hb)

theorem WriteEnded.graft {s t : State} {c : Cycle} {term : Term} {n : Nat} (h : WriteEnded s c t term n)
    (x : State) : WriteEnded s c (graft t x) term n :=
  ⟨h.completed.graft x, h.devices, h.stored, h.term⟩

/-! ## From S5 to the end -/

/-- A write in progress, with no device left on the bus and a polite device of its own; its device may have
answered VPA. -/
structure WriteGoing (s : State) (c : Cycle) : Prop where
  run     : s.run = some c
  kind    : c.kind = .write
  first   : c.second = false
  polite  : c.answer.polite
  closing : s.closing = none
  held    : s.held = DataLines.z

/-- The peripheral that VMA selects has no part in a write (R237). -/
theorem peripheralEdge_write {s : State} (h : ∀ c, s.run = some c → c.kind = .write) :
    s.peripheralEdge = .next s := by
  unfold State.peripheralEdge
  split
  · rfl
  · next c hr => simp [Cycle.reads, h c hr]

theorem loneHalf_write {s t : State} (hc : s.clk = .high) (h : (atFall s).controllerEdge = .next t)
    (hw : ∀ c, t.run = some c → c.kind = .write) : loneHalf s = .next t := by
  have h : (tick { s with clk := .low }).controllerEdge = .next t := h
  simp only [loneHalf, hc, h, andThen_next]
  exact peripheralEdge_write hw

theorem written_running {s : State} {c d : Cycle} (h : (written s c).run = some d) : d.kind = .write := by
  have hnone : (written s c).run = none := rfl
  rw [hnone] at h
  cases h

section
variable {s : State} {c : Cycle} (h : WriteGoing s c)
include h

theorem WriteGoing.fromS5 (hs : c.st = .S5) (hc : s.clk = .low) : loneHalf s = .next (writeInS6 s c) := by
  rw [loneHalf_rising (st := .S6) hc h.closing h.run (by rw [hs]; rfl) (by rw [hs]; rfl)]
  exact goTo_between (st := .S6) (st' := .S7) (enterState_write h.kind _ _) rfl

theorem WriteGoing.endS6_eq {term : Term} (hs : c.st = .S6)
    (hd : c.lateDecision s.inputs s.term = some term) :
    (atFall s).controllerEdge = (writeAfterS6 s c term).goTo c .S7 := by
  have hr : (atFall s).run = some c := h.run
  have hlatch : atEndS6 (atFall s) c term = writeAfterS6 s c term := by
    simp only [atEndS6, State.latchFor, h.kind]
    rfl
  simp only [State.controllerEdge, hr, hs]
  exact (endS6_of_lateDecision (s := atFall s) (by simp [h.kind]) hd).trans (by rw [hlatch])

/-- Without BERR alone the write ends at S7 (R170, R171). -/
theorem WriteGoing.endsAtS7 {term : Term} (hs : c.st = .S6) (hc : s.clk = .high)
    (hd : c.lateDecision s.inputs s.term = some term) (hb : term ≠ .berr) :
    loneHalf s = .next (written (writeAfterS6 s c term) { c with st := .S7 }) := by
  refine loneHalf_write hc ?_ fun _ => written_running
  have ht : (writeAfterS6 s c term).term = term := rfl
  have hu : enterState c .S7 (writeAfterS6 s c term) =
      .next (((writeAfterS6 s c term).deviceTakes c c.wdata).negateAll c.answer) := by
    simp only [enterState_write h.kind, formatW, ht, hb, if_false]
  rw [h.endS6_eq hs hd, goTo_last hu (by simp [nextSt, h.kind, ht, hb]), Cycle.entered_S7_write h.kind]
  exact finish_written (c := { c with st := .S7 }) h.kind _

/-- BERR without DTACK adds S8 and S9 (R171). -/
theorem WriteGoing.entersS7 (hs : c.st = .S6) (hc : s.clk = .high)
    (hd : c.lateDecision s.inputs s.term = some .berr) :
    loneHalf s = .next { writeAfterS6 s c .berr with run := some { c with st := .S7 } } := by
  refine loneHalf_write hc ?_ fun d hd => by cases hd; exact h.kind
  rw [h.endS6_eq hs hd, ← Cycle.entered_S7_write h.kind (writeAfterS6 s c .berr).din]
  exact goTo_between (by rw [enterState_write h.kind]; rfl) (st' := .S8) (by simp [nextSt, writeAfterS6])

theorem WriteGoing.fromS7 (hs : c.st = .S7) (hc : s.clk = .low) (ht : s.term = .berr) :
    loneHalf s = .next { s with clk := .high, run := some { c with st := .S8 } } := by
  rw [loneHalf_rising (st := .S8) hc h.closing h.run (by rw [hs]; rfl) (by simp [hs, nextSt, ht])]
  exact goTo_between (st := .S8) (st' := .S9) (enterState_write h.kind _ _) rfl

theorem WriteGoing.endsAtS9 (hs : c.st = .S8) (hc : s.clk = .high) :
    loneHalf s = .next (written (atFall s) { c with st := .S9 }) := by
  refine loneHalf_write hc ?_ fun _ => written_running
  refine (controllerEdge_movesOn (s := atFall s) (st := .S9) h.run (by rw [hs]; rfl) (by rw [hs]; rfl)).trans ?_
  exact (goTo_last (enterState_write h.kind .S9 _) (by simp [nextSt, h.kind])).trans
    (finish_written (c := { c with st := .S9 }) h.kind _)

theorem WriteGoing.loneRun_S7 {term : Term} (hs : c.st = .S5) (hc : s.clk = .low)
    (hd : c.lateDecision s.inputs s.term = some term) (hb : term ≠ .berr) :
    ∃ t, loneRun 2 s = .next t ∧ WriteEnded s c t term 1 := by
  have h6 : WriteGoing (writeInS6 s c) { c with st := .S6 } :=
    ⟨rfl, h.kind, h.first, h.polite, h.closing, h.held⟩
  have hrun : loneRun 2 s =
      .next (written (writeAfterS6 (writeInS6 s c) { c with st := .S6 } term) { c with st := .S7 }) := by
    rw [loneRun_succ 1 h.run (by simp [hs]), h.fromS5 hs hc, andThen_next, loneRun_succ 0 h6.run nofun,
      h6.endsAtS7 rfl rfl hd hb]
    rfl
  exact ⟨_, hrun, (written_ended (s := writeAfterS6 (writeInS6 s c) { c with st := .S6 } term)
    (c := { c with st := .S7 }) h.kind h.polite h.held rfl).since (m := 1) rfl rfl rfl ⟨rfl, rfl, rfl⟩
    ⟨rfl, rfl, rfl, rfl, rfl⟩⟩

theorem WriteGoing.loneRun_S9 (hs : c.st = .S5) (hc : s.clk = .low)
    (hd : c.lateDecision s.inputs s.term = some .berr) :
    ∃ t, loneRun 4 s = .next t ∧ WriteEnded s c t .berr 2 := by
  have going {u : State} (st : St) (hr : u.run = some { c with st := st }) (hz : u.closing = none)
      (hh : u.held = DataLines.z) : WriteGoing u { c with st := st } :=
    ⟨hr, h.kind, h.first, h.polite, hz, hh⟩
  let u := writeAfterS6 (writeInS6 s c) { c with st := .S6 } .berr
  have h6 : WriteGoing (writeInS6 s c) { c with st := .S6 } := going .S6 rfl h.closing h.held
  have h7 : WriteGoing { u with run := some { c with st := .S7 } } { c with st := .S7 } :=
    going .S7 rfl h.closing h.held
  have h8 : WriteGoing { u with clk := .high, run := some { c with st := .S8 } } { c with st := .S8 } :=
    going .S8 rfl h.closing h.held
  have hrun : loneRun 4 s =
      .next (written (atFall { u with run := some { c with st := .S8 } }) { c with st := .S9 }) := by
    rw [loneRun_succ 3 h.run (by simp [hs]), h.fromS5 hs hc, andThen_next, loneRun_succ 2 h6.run nofun,
      h6.entersS7 rfl rfl hd, andThen_next, loneRun_succ 1 h7.run nofun, h7.fromS7 rfl rfl rfl, andThen_next]
    refine (loneRun_succ 0 h8.run nofun).trans ?_
    rw [h8.endsAtS9 rfl rfl]
    rfl
  exact ⟨_, hrun, (written_ended (s := atFall { u with run := some { c with st := .S8 } })
    (c := { c with st := .S9 }) h.kind h.polite h.held rfl).since (m := 2) rfl rfl rfl ⟨rfl, rfl, rfl⟩
    ⟨rfl, rfl, rfl, rfl, rfl⟩⟩

end

end Sys2Proof.Machine
end

section
/-! SUPPORT. Whole writes (41_write_cycle.md R160 to R172): from the issue to the result, and what the device
holds after them. -/

namespace Sys2Proof.Machine

/-- A write of the processor whose polite device is silent at `w` edges ends as its run from the next one does. -/
theorem exec_write_ends {i : Instr} {s : State} {fc : Fc} {a : Addr} {x : Strobes} {v : Half} {w k n : Nat}
    {ans : Answer} {rest : List Answer} {term : Term} (h : s.Ready) (hw : i.wf s.params.dataBus = true)
    (hc : cycleOf s.params.dataBus i = newCycle .write fc a x v 0) (ha : s.answers = ans :: rest)
    (hres : ans.shape ≠ .resident) (hpatience : w ≤ ans.shape.patience)
    (hsilent : ∀ k < w, (ans.shape.driveAt k false).lines = (false, false, false, false)) (hk : k ≤ 100)
    (hend : ∃ t, loneRun k (sampledWrite w (newCycle .write fc a x v 0) s) = .next t ∧
      WriteEnded (sampledWrite w (newCycle .write fc a x v 0) s)
        (sampledCycle w (newCycle .write fc a x v 0) s) t term n) :
    ∃ t, exec i s = .next t ∧ t.Calm ∧ t.answers = rest ∧
      WriteEnded s (newCycle .write fc a x v 0) t term (2 + w + n) := by
  have hans := prepared_answer ha hres (newCycle .write fc a x v 0)
  obtain ⟨t, ht, hdone⟩ := hend
  obtain ⟨⟨y, hy⟩, hcalm⟩ := exec_lone keepsOut_calm hw h.run h.owner (calm_launched h.toCalm _)
  rw [hc] at hy
  have hrun := (loneRun_sampledWrite (c := newCycle .write fc a x v 0) h.toBusFree rfl rfl w k fun k hk => by
    have hz : (newCycle .write fc a x v 0).edge + k = k := Nat.zero_add k
    rw [hz, Cycle.lines, hans]
    exact hsilent k hk).trans ht
  have hbudget : k + 2 * w + 5 ≤ cycleBudget (s.prepared (newCycle .write fc a x v 0)) := by
    rw [cycleBudget, hans]
    omega
  have hover : t.cycleOver = true := by simp [State.cycleOver, hdone.completed.run]
  rw [loneRun_settled hbudget (hrun ▸ settled_next hover), hrun] at hy
  refine ⟨graft t y, hy, hcalm _ hy, ?_, (hdone.graft y).since rfl rfl ?_ ⟨rfl, rfl, rfl⟩
    ⟨rfl, rfl, rfl, rfl, rfl⟩⟩
  · rw [(exec_scripts hy).answers, hc]
    simp [launched, ha, newCycle, answersTaken]
  · show s.clkCount + 1 + 1 + w = _
    omega

/-- A write that its device ends after `w` wait pairs, by DTACK or BERR (R170, R171). -/
theorem Shape.Terminates.write_ends {i : Instr} {s : State} {fc : Fc} {a : Addr} {strobes : Strobes} {v : Half}
    {x : Shape} {rest : List Answer} {w : Nat} {d b late : Bool} {term : Term} (hx : x.Terminates w d b late)
    (h : s.Ready) (hw : i.wf s.params.dataBus = true)
    (hc : cycleOf s.params.dataBus i = newCycle .write fc a strobes v 0) (ha : s.answers = Answer.of x :: rest)
    (hdb : (d || b) = true) (hterm : decideLate (firstTerm d b) d late false = some term) :
    ∃ t, exec i s = .next t ∧ t.Calm ∧ t.answers = rest ∧
      WriteEnded s (newCycle .write fc a strobes v 0) t term (if term = .berr then 5 + w else 4 + w) := by
  have hans := prepared_answer ha hx.scripted (newCycle .write fc a strobes v 0)
  have hsample := sampledWrite_sampling (c := newCycle .write fc a strobes v 0) h.toBusFree rfl rfl
    (hans ▸ ⟨rfl, rfl⟩) w
  generalize hu : sampledWrite w (newCycle .write fc a strobes v 0) s = u at hsample
  generalize hcyc : sampledCycle w (newCycle .write fc a strobes v 0) s = c at hsample
  have hcans : c.answer = Answer.of x := hcyc ▸ hans
  have hedge : c.edge = w := hcyc ▸ Nat.zero_add w
  have hlines : c.lines c.edge = (d, b, false, false) := by
    rw [hedge, Cycle.lines, hcans]
    exact hx.first
  have h5 : WriteGoing (inS5 u c (u.inputs.withLines d b false false) (firstTerm d b))
      { c with st := .S5, edge := c.edge + 1 } :=
    ⟨rfl, hsample.kind, hsample.first, hsample.polite, hsample.closing, hsample.held⟩
  have hlate : Cycle.lateDecision { c with st := .S5, edge := c.edge + 1 } (u.inputs.withLines d b false false)
      (firstTerm d b) = some term := by
    rw [hx.lateDecision (c := { c with st := .S5, edge := c.edge + 1 }) hcans (congrArg (· + 1) hedge), hterm]
  have step (n : Nat) : loneRun (n + 1) u = loneRun n (inS5 u c (u.inputs.withLines d b false false)
      (firstTerm d b)) := by
    rw [loneRun_succ n hsample.run (St.samples_not_faulted hsample.st),
      hsample.recognises hlines (decideFirst_proceeds (Bool.and_false d) hdb false), andThen_next]
  have ends {k n : Nat} (hk : k ≤ 99) (hrun : ∃ t, loneRun k (inS5 u c (u.inputs.withLines d b false false)
      (firstTerm d b)) = .next t ∧ WriteEnded (inS5 u c (u.inputs.withLines d b false false) (firstTerm d b))
        { c with st := .S5, edge := c.edge + 1 } t term n) :
      ∃ t, exec i s = .next t ∧ t.Calm ∧ t.answers = rest ∧
        WriteEnded s (newCycle .write fc a strobes v 0) t term (2 + w + (1 + n)) := by
    refine exec_write_ends (k := k + 1) h hw hc ha hx.scripted hx.patience hx.before (by omega) ?_
    obtain ⟨t, ht, hdone⟩ := hrun
    rw [hu, hcyc]
    exact ⟨t, (step k).trans ht, hdone.since rfl rfl rfl ⟨rfl, rfl, rfl⟩ ⟨rfl, rfl, rfl, rfl, rfl⟩⟩
  by_cases hb : term = .berr
  · rw [if_pos hb, show 5 + w = 2 + w + (1 + 2) by omega]
    subst hb
    exact ends (by decide) (h5.loneRun_S9 rfl rfl hlate)
  · rw [if_neg hb, show 4 + w = 2 + w + (1 + 1) by omega]
    exact ends (by decide) (h5.loneRun_S7 rfl rfl hlate hb)

/-! ## What the device holds -/

theorem loByte_halfOfByte (v : Byte) : loByte (halfOfByte v) = v := by
  refine BitVec.eq_of_getLsbD_eq fun i hi => ?_
  simp [loByte, halfOfByte, hi]
  omega

/-- A word write stores its high byte at its address and its low byte at the next one (R76). -/
theorem wrW_holds {s t : State} {fc : Fc} {a : Addr} {v : Half}
    (hw : Instr.wf s.params.dataBus (.wrW fc a v) = true)
    (h : SameDevices (s.storeLanes (newCycle .write fc a .word v 0) v) t) :
    t.Holds fc a (v.extractLsb' 8 8) ∧ t.Holds fc (a + 1) (v.extractLsb' 0 8) := by
  have heven := even_of_wf_rdW (wf_rdW_of_wrW hw)
  have hupper : upperByteAddr a = a := upperByteAddr_of_even heven
  have hlower : lowerByteAddr .word a = a + 1 := or_one_of_even heven
  have hhi := h.holds (storeLanes_holds_upper s (newCycle .write fc a .word v 0) v rfl)
  have hlo := h.holds (storeLanes_holds_lower s (newCycle .write fc a .word v 0) v rfl)
  exact ⟨hupper ▸ hhi, hlower ▸ hlo⟩

/-- Each of the three byte writes is a cycle that stores its byte at its address (R75). -/
theorem byteWrite_as_cycle {bus : DataBus} {fc : Fc} {a : Addr} {v : Byte} {i : Instr}
    (h : i ∈ [Instr.wrBU fc a v, .wrBL fc a v, .wrB8 fc a v]) (hw : i.wf bus = true) :
    ∃ x, cycleOf bus i = newCycle .write fc a x (halfOfByte v) 0 ∧ ∀ {s t : State},
      SameDevices (s.storeLanes (newCycle .write fc a x (halfOfByte v) 0) (halfOfByte v)) t →
        t.Holds fc a v := by
  simp only [List.mem_cons, List.not_mem_nil, or_false] at h
  rcases h with rfl | rfl | rfl
  · have hupper : upperByteAddr a = a := upperByteAddr_of_even (even_of_wf_rdBU (fc := fc) hw)
    refine ⟨.upper, rfl, fun {s t} h => ?_⟩
    have : t.Holds fc (upperByteAddr a) (loByte (halfOfByte v)) :=
      h.holds (storeLanes_holds_upper s (newCycle .write fc a .upper (halfOfByte v) 0) _ rfl)
    rwa [loByte_halfOfByte, hupper] at this
  · have hlower : lowerByteAddr .lower a = a := or_one_of_odd (odd_of_wf_rdBL (fc := fc) hw)
    refine ⟨.lower, rfl, fun {s t} h => ?_⟩
    have : t.Holds fc (lowerByteAddr .lower a) (loByte (halfOfByte v)) :=
      h.holds (storeLanes_holds_lower s (newCycle .write fc a .lower (halfOfByte v) 0) _ rfl)
    rwa [loByte_halfOfByte, hlower] at this
  · refine ⟨.ds, rfl, fun {s t} h => ?_⟩
    have := h.holds (storeLanes_holds_lower s (newCycle .write fc a .ds (halfOfByte v) 0) _ rfl)
    rwa [loByte_halfOfByte] at this

/-- Settles O20: DTACK is recognised at its edge and confirmed at end(S6), and the data are stored in S7. -/
theorem writeEndsByDtack : Obligations.WriteEndsByDtack := by
  unfold Obligations.WriteEndsByDtack
  intro s fc a w d rest hready hans
  have ends {i : Instr} {x : Strobes} {v : Half} (hw : i.wf s.params.dataBus = true)
      (hc : cycleOf s.params.dataBus i = newCycle .write fc a x v 0) :=
    (Shape.terminates_dtack w d).write_ends hready hw hc hans rfl (term := .dtack) rfl
  refine ⟨fun v hw => ?_, fun v i hi hw => ?_⟩
  · obtain ⟨t, ht, hcalm, hrest, hdone⟩ := ends (x := .word) hw rfl
    obtain ⟨hhi, hlo⟩ := wrW_holds hw (hdone.stored rfl)
    exact ⟨t, ht, hdone.completed, hcalm, hdone.term, hrest, hhi, hlo⟩
  · obtain ⟨x, hc, hholds⟩ := byteWrite_as_cycle hi hw
    obtain ⟨t, ht, hcalm, hrest, hdone⟩ := ends hw hc
    exact ⟨t, ht, hdone.completed, hcalm, hdone.term, hrest, hholds (hdone.stored rfl)⟩

/-- Settles O33: BERR alone adds S8 and S9, and with DTACK, from the first edge or from end(S6) on, takes the time
of DTACK; the device takes all of the data or nothing. -/
theorem writeEndedByBerr : Obligations.WriteEndedByBerr := by
  unfold Obligations.WriteEndedByBerr
  intro s fc a w n d rest hready hans
  have ends {i : Instr} {x : Strobes} {v : Half} (hw : i.wf s.params.dataBus = true)
      (hc : cycleOf s.params.dataBus i = newCycle .write fc a x v 0) :
      ∃ t, exec i s = .next t ∧ t.Calm ∧
        Completed s t (.busError { kind := .write, fc := fc, addr := a }) n ∧
        ((t.mem = s.mem ∧ t.pit = s.pit) ∨
          SameDevices (s.storeLanes (newCycle .write fc a x v 0) v) t) := by
    rcases hans with ⟨hans, rfl⟩ | ⟨hans, rfl⟩ | ⟨hans, rfl⟩
    · obtain ⟨t, ht, hcalm, -, hdone⟩ := (Shape.terminates_berr w).write_ends hready hw hc hans rfl
        (term := .berr) rfl
      exact ⟨t, ht, hcalm, hdone.completed, hdone.devices.imp_left fun h => ⟨h.mem, h.pit⟩⟩
    · obtain ⟨t, ht, hcalm, -, hdone⟩ := (Shape.terminates_berrDtack w d).write_ends hready hw hc hans rfl
        (term := .berrDtack) rfl
      exact ⟨t, ht, hcalm, hdone.completed, hdone.devices.imp_left fun h => ⟨h.mem, h.pit⟩⟩
    · obtain ⟨t, ht, hcalm, -, hdone⟩ := (Shape.terminates_lateBerr w d).write_ends hready hw hc hans rfl
        (term := .berrDtack) rfl
      exact ⟨t, ht, hcalm, hdone.completed, hdone.devices.imp_left fun h => ⟨h.mem, h.pit⟩⟩
  refine ⟨fun v hw => ?_, fun v i hi hw => ?_⟩
  · obtain ⟨t, ht, hcalm, hdone, hdev⟩ := ends (x := .word) hw rfl
    exact ⟨t, ht, hcalm, hdone, hdev.imp_right (wrW_holds hw)⟩
  · obtain ⟨x, hc, hholds⟩ := byteWrite_as_cycle hi hw
    obtain ⟨t, ht, hcalm, hdone, hdev⟩ := ends hw hc
    exact ⟨t, ht, hcalm, hdone, hdev.imp_right hholds⟩

end Sys2Proof.Machine
end

section
/-! SUPPORT. The stretch of a synchronous cycle in a portion that writes (44_sync_cycle.md R235 to R238, R245): from
the edge at which VPA is recognised to S5 or S17, in every phase of E. -/

namespace Sys2Proof.Machine

/-! ## E on the way to its fall -/

/-- With E in phase `p` and VMA as `vma`, `k` wait pairs are left before the edge that ends the stretch: VMA is out
in this E period, or its window is over and it comes with the next one (R236, R238). -/
def EAhead (vma : Line) (p : Fin 10) (k : Nat) : Prop :=
  (vma = .asserted ∧ p.val + k = 8) ∨ (vma = .negated ∧ 5 ≤ p.val ∧ p.val + k = 18)

/-- VMA after a wait pair of the stretch that leaves E in phase `p`. -/
def stretchedVma (vma : Line) (p : Fin 10) : Line := if vmaWindow p then .asserted else vma

theorem eAhead_start (p : Fin 10) : EAhead (stretchedVma .negated p) p (syncPairs p.val - 1) := by
  unfold EAhead stretchedVma syncPairs
  by_cases hp : p.val ≤ 4
  · rw [if_pos ((vmaWindow_iff p).2 hp), if_pos hp]
    exact .inl ⟨rfl, by omega⟩
  · rw [if_neg (mt (vmaWindow_iff p).1 hp), if_neg hp]
    exact .inr ⟨rfl, by omega, by omega⟩

theorem fin_succ_val (p : Fin 10) : (p + 1).val = (p.val + 1) % 10 := Fin.val_add p 1

/-- The edge that ends the stretch is the one from which E is in its last high cycle, with VMA out. -/
theorem EAhead.last {vma : Line} {p : Fin 10} (h : EAhead vma p 0) : vma = .asserted ∧ p + 1 = 9 := by
  rcases h with ⟨hv, hp⟩ | ⟨-, -, hp⟩
  · refine ⟨hv, Fin.ext ?_⟩
    rw [fin_succ_val]
    omega
  · omega

/-- Before it every edge adds a wait pair. -/
theorem EAhead.pair {vma : Line} {p : Fin 10} {k : Nat} (h : EAhead vma p (k + 1)) :
    (decide (vma = .asserted) && eLast (p + 1)) = false ∧ EAhead (stretchedVma vma (p + 1)) (p + 1) k := by
  have hsucc := fin_succ_val p
  unfold stretchedVma
  rcases h with ⟨rfl, hp⟩ | ⟨rfl, h5, hp⟩
  · refine ⟨?_, .inl ⟨ite_self _, by omega⟩⟩
    have : ¬(p + 1).val + 1 = Config.eLow + Config.eHigh := by
      show ¬(p + 1).val + 1 = 10
      omega
    simp only [eLast, this, decide_false, Bool.and_false]
  · refine ⟨rfl, ?_⟩
    by_cases hw : vmaWindow (p + 1) = true
    · have := (vmaWindow_iff _).1 hw
      exact .inl ⟨if_pos hw, by omega⟩
    · have hlate : ¬(p + 1).val ≤ 4 := mt (vmaWindow_iff _).2 hw
      exact .inr ⟨if_neg hw, by omega, by omega⟩

/-! ## A wait pair of the stretch -/

/-- A device that has asserted VPA holds it and drives no other termination line. -/
structure HoldsVpa (i : Inputs) (c : Cycle) : Prop where
  dtack : i.dtack = false
  berr  : i.berr = false
  vpa   : i.vpa = true
  shape : ∃ w ≤ c.edge, c.answer.shape = .vpa w

theorem HoldsVpa.withLines {i : Inputs} {c : Cycle} (h : HoldsVpa i c) :
    i.withLines false false true i.avec = i := by
  obtain ⟨hd, hb, hv, -⟩ := h
  cases i
  simp_all [Inputs.withLines]

theorem HoldsVpa.sampleLines {s : State} {c : Cycle} (h : HoldsVpa s.inputs c) (late : Bool) :
    s.sampleLines c late = s := by
  obtain ⟨hd, hb, hv, w, hw, hshape⟩ := id h
  have hdrive : c.answer.shape.driveAt c.edge late = { Drive.quiet with vpa := true } := by
    simp [hshape, Shape.driveAt, hw]
  have hadds : c.answer.shape.addsTo c.edge = true := by rw [hshape]; rfl
  simp only [State.sampleLines, hdrive, hadds, hd, hb, hv, Drive.quiet, Bool.true_and, Bool.or_false,
    Bool.or_true]
  exact congrArg (fun i => { s with inputs := i }) h.withLines

theorem HoldsVpa.lateDecision {i : Inputs} {c : Cycle} (h : HoldsVpa i c) :
    c.lateDecision i .vpa = some .vpa := by
  obtain ⟨hd, hb, hv, w, hw, hshape⟩ := h
  simp [Cycle.lateDecision, Cycle.lateInputs, Inputs.withLines, hshape, Shape.driveAt, Shape.addsTo, hw, hd,
    hb, hv, Drive.quiet, decideLate]

/-- A portion that writes waits for E, at the end of a wait pair, with `k` more to come. -/
structure Stretching (s : State) (c : Cycle) (k : Nat) : Prop where
  run     : s.run = some c
  reads   : c.reads = false
  closing : s.closing = none
  st      : c.st = .SwHigh
  clk     : s.clk = .high
  term    : s.term = .vpa
  holds   : HoldsVpa s.inputs c
  ahead   : EAhead s.pins.vma s.ephase k

/-- The cycle a wait pair later. -/
def Cycle.paired (c : Cycle) : Cycle := { c.waiting with st := .SwHigh }

/-- The state a wait pair of the stretch later. -/
def stretchPair (s : State) (c : Cycle) : State :=
  { tick s with
    clk := .high, term := .vpa, run := some c.paired
    pins := { s.pins with vma := stretchedVma s.pins.vma (s.ephase + 1) } }

/-- The peripheral that VMA selects has no part in a portion that writes (R237). -/
theorem peripheralEdge_notReading {s : State} {c : Cycle} (hr : s.run = some c) (hc : c.reads = false) :
    s.peripheralEdge = .next s := by
  simp [State.peripheralEdge, hr, hc]

/-- From the edge that adds a wait pair to the end of it. -/
theorem loneRun_stretchPair (n : Nat) {s : State} {c : Cycle} (hr : s.run = some c) (hs : c.st.samples)
    (hz : s.closing = none) (hreads : c.reads = false) {i : Inputs}
    (hwait : loneHalf s = andThen ((atFall { s with inputs := i }).follow c (.wait .vpa)) State.peripheralEdge) :
    loneRun (n + 2) s = loneRun n (stretchPair { s with inputs := i } c) := by
  have hpins (u : State) : u.stretchVma = { u with
      pins := { u.pins with vma := stretchedVma u.pins.vma u.ephase } } := by
    unfold State.stretchVma stretchedVma
    split <;> rfl
  let u : State := { (atFall { s with inputs := i }).stretchVma with term := .vpa, run := some c.waiting }
  have hu : u.peripheralEdge = .next u := peripheralEdge_notReading (c := c.waiting) rfl hreads
  have hclosing : u.closing = none := (stretchVma_closing _).trans hz
  have hclk : u.clk = .low := (kept_stretchVma _).clk
  have hedge : loneHalf s = .next u := by rw [hwait]; exact hu
  rw [show n + 2 = n + 1 + 1 from rfl, loneRun_succ _ hr (St.samples_not_faulted hs), hedge, andThen_next,
    loneRun_succ (s := u) (c := c.waiting) n rfl nofun,
    loneHalf_SwLow (s := u) (c := c.waiting) rfl rfl hclk hclosing, andThen_next]
  congr 1
  simp only [u, hpins]
  rfl

section
variable {s : State} {c : Cycle}

theorem Stretching.decides {k : Nat} (h : Stretching s c k) :
    loneHalf s = andThen ((atFall s).follow c
      (if decide (s.pins.vma = .asserted) && eLast (s.ephase + 1) then .proceed .vpa else .wait .vpa))
      State.peripheralEdge := by
  have hsampled : (atFall s).sampleLines c false = atFall s := HoldsVpa.sampleLines (s := atFall s) h.holds _
  have hdecide : decideStretch (atFall s).inputs.dtack (atFall s).inputs.berr
      (decide ((atFall s).pins.vma = .asserted)) (atFall s).ephase =
      if decide (s.pins.vma = .asserted) && eLast (s.ephase + 1) then .proceed .vpa else .wait .vpa := by
    have hd : (atFall s).inputs.dtack = false := h.holds.dtack
    have hb : (atFall s).inputs.berr = false := h.holds.berr
    simp only [decideStretch, hd, hb, Bool.false_eq_true, if_false]
    rfl
  have hterm : (atFall s).term = .vpa := h.term
  have hedge : (atFall s).controllerEdge = (atFall s).sampleAndDecide c :=
    controllerEdge_samples (s := atFall s) h.run (by rw [h.st]; trivial)
  simp only [State.sampleAndDecide, hsampled, hterm, hdecide] at hedge
  simp only [loneHalf, h.clk]
  exact congrArg (andThen · State.peripheralEdge) hedge

theorem Stretching.pair {k : Nat} (h : Stretching s c (k + 1)) :
    (∀ n, loneRun (n + 2) s = loneRun n (stretchPair s c)) ∧ Stretching (stretchPair s c) c.paired k := by
  obtain ⟨hwaits, hahead⟩ := h.ahead.pair
  refine ⟨fun n => ?_, ?_⟩
  · refine loneRun_stretchPair (i := s.inputs) n h.run (by rw [h.st]; trivial) h.closing h.reads ?_
    have := h.decides
    rwa [hwaits] at this
  · obtain ⟨hd, hb, hv, w, hw, hshape⟩ := h.holds
    exact { run := rfl, reads := h.reads, closing := h.closing, st := rfl, clk := rfl, term := rfl
            holds := ⟨hd, hb, hv, w, Nat.le_succ_of_le hw, hshape⟩, ahead := hahead }

/-- The state after the stretch, `k` wait pairs and one edge on: E is in its last high cycle, VMA is out, and the
termination is Vpa. -/
def stretched (k : Nat) (s : State) (c : Cycle) : State :=
  { s with
    clk := .low, ephase := 9, clkCount := s.clkCount + (k + 1)
    pins := { s.pins with vma := .asserted }
    run := some { c with
      st := if c.second then .S17 else .S5, pairs := c.pairs + k, edge := c.edge + (k + 1) } }

/-- The stretch runs to its end, whatever phase of E it has begun in (R238). -/
theorem Stretching.loneRun (k : Nat) (n : Nat) {s : State} {c : Cycle} (h : Stretching s c k) :
    loneRun (n + 1 + 2 * k) s = loneRun n (stretched k s c) := by
  induction k generalizing s c with
  | zero =>
    obtain ⟨hv, hp⟩ := h.ahead.last
    have hreads : ({ c with st := if c.second then .S17 else .S5, edge := c.edge + 1 } : Cycle).reads = false :=
      h.reads
    have hlast : (decide (s.pins.vma = .asserted) && eLast (s.ephase + 1)) = true := by
      rw [hv, hp]; rfl
    have hedge := h.decides
    rw [hlast, if_pos rfl, follow_proceed, andThen_next, peripheralEdge_notReading rfl hreads] at hedge
    rw [Nat.mul_zero, Nat.add_zero, loneRun_succ n h.run (by simp [h.st]), hedge, andThen_next]
    congr 1
    simp only [stretched, atFall, tick, hp]
    rw [← hv, ← h.term]
    rfl
  | succ k ih =>
    obtain ⟨hrun, hnext⟩ := h.pair
    rw [show n + 1 + 2 * (k + 1) = (n + 1 + 2 * k) + 2 by omega, hrun, ih hnext]
    congr 1
    simp only [stretched, stretchPair, tick, Cycle.paired, Cycle.waiting, Nat.add_comm k 1, Nat.add_assoc]
    rw [← h.term]
    rfl

/-- From the sampling edge at which VPA is recognised, with E in phase `p` from there on. -/
theorem stretching_of_vpa {w : Nat} (hr : s.run = some c) (hs : c.st.samples) (hc : s.clk = .high)
    (hz : s.closing = none) (ht : s.term = .none) (hv : s.pins.vma = .negated) (hi : s.inputs.silent)
    (hreads : c.reads = false) (hshape : c.answer.shape = .vpa w) (hw : w ≤ c.edge) :
    (∀ n, loneRun (n + 2) s =
      loneRun n (stretchPair { s with inputs := s.inputs.withLines false false true false } c)) ∧
    Stretching (stretchPair { s with inputs := s.inputs.withLines false false true false } c) c.paired
      (syncPairs (s.ephase + 1).val - 1) := by
  have hl : c.lines c.edge = (false, false, true, false) := by
    simp [Cycle.lines, hshape, Shape.driveAt, hw, Drive.quiet]
  have hedge := loneHalf_samples hr hs hc ht hi hl
  have hwait : decideFirst false false true (s.params.hasAvec && decide (c.kind = .iack) && false) =
      .wait .vpa := rfl
  rw [hwait] at hedge
  refine ⟨fun n => loneRun_stretchPair n hr hs hz hreads hedge, ?_⟩
  exact {
    run := rfl, reads := hreads, closing := hz, st := rfl, clk := rfl, term := rfl
    holds := ⟨rfl, rfl, rfl, w, Nat.le_succ_of_le hw, hshape⟩
    ahead := by
      have : EAhead (stretchedVma s.pins.vma (s.ephase + 1)) (s.ephase + 1)
          (syncPairs (s.ephase + 1).val - 1) := hv.symm ▸ eAhead_start (s.ephase + 1)
      exact this }

end

end Sys2Proof.Machine
end

section
/-! SUPPORT. A write that VPA answers (41_write_cycle.md R172, 44_sync_cycle.md R237, R238, R241). -/

namespace Sys2Proof.Machine

theorem syncPairs_bounds {p : Nat} (h : p < 10) : 1 ≤ syncPairs p ∧ syncPairs p ≤ 14 := by
  unfold syncPairs
  split <;> omega

/-- From the sampling edge at which VPA is recognised to the end of the write. -/
theorem WriteSampling.loneRun_vpa {s : State} {c : Cycle} {w : Nat} (h : WriteSampling s c)
    (ha : c.answer = Answer.of (.vpa w)) (hw : w ≤ c.edge) :
    ∃ t, loneRun (3 + 2 * syncPairs (s.ephase + 1).val) s = .next t ∧
      WriteEnded s c t .vpa (2 + syncPairs (s.ephase + 1).val) := by
  obtain ⟨k, hk⟩ := Nat.exists_eq_add_of_le' (syncPairs_bounds (s.ephase + 1).isLt).1
  obtain ⟨hpair, hstretch⟩ := stretching_of_vpa h.run h.st h.clk h.closing h.term h.vma h.silent
    (by simp [Cycle.reads, h.kind]) (congrArg Answer.shape ha) hw
  rw [hk, Nat.add_sub_cancel] at hstretch
  let u := stretchPair { s with inputs := s.inputs.withLines false false true false } c
  let d : Cycle := { c.paired with
    st := if c.second then .S17 else .S5, pairs := c.pairs + 1 + k, edge := c.edge + 1 + (k + 1) }
  have hgoing : WriteGoing (stretched k u c.paired) d :=
    ⟨rfl, h.kind, h.first, h.polite, h.closing, h.held⟩
  have hholds : HoldsVpa (stretched k u c.paired).inputs d :=
    ⟨rfl, rfl, rfl, w, by show w ≤ c.edge + 1 + (k + 1); omega, congrArg Answer.shape ha⟩
  obtain ⟨t, ht, hdone⟩ := hgoing.loneRun_S7 (by show (if c.second then St.S17 else St.S5) = _; rw [h.first]; rfl)
    rfl hholds.lateDecision nofun
  refine ⟨t, ?_, ?_⟩
  · rw [hk, show 3 + 2 * (k + 1) = (2 + 1 + 2 * k) + 2 by omega, hpair, hstretch.loneRun]
    exact ht
  · rw [hk, show 2 + (k + 1) = (1 + (k + 1)) + 1 by omega]
    exact hdone.since rfl rfl (by show s.clkCount + 1 + (k + 1) = _; omega) ⟨rfl, rfl, rfl⟩
      ⟨rfl, rfl, rfl, rfl, rfl⟩

/-- The phase of E at the edge that ends S4 or its `w`-th wait pair (R238). -/
theorem phase_at_edge (p : Fin 10) (w : Nat) :
    (p + 1 + 1 + Fin.ofNat 10 w + 1).val = (p.val + 3 + w) % 10 := by
  simp only [Fin.val_add, Fin.val_ofNat]
  omega

theorem exec_write_vpa {i : Instr} {s : State} {fc : Fc} {a : Addr} {x : Strobes} {v : Half} {w : Nat}
    {rest : List Answer} (h : s.Ready) (hw : i.wf s.params.dataBus = true)
    (hc : cycleOf s.params.dataBus i = newCycle .write fc a x v 0)
    (ha : s.answers = Answer.of (.vpa w) :: rest) :
    ∃ t, exec i s = .next t ∧ Completed s t .ok (syncLength s.ephase.val w) ∧ t.Calm ∧
      SameDevices (s.storeLanes (newCycle .write fc a x v 0) v) t := by
  have hans := prepared_answer ha nofun (newCycle .write fc a x v 0)
  have hsample := sampledWrite_sampling (c := newCycle .write fc a x v 0) h.toBusFree rfl rfl
    (hans ▸ ⟨rfl, rfl⟩) w
  have hphase : ((sampledWrite w (newCycle .write fc a x v 0) s).ephase + 1).val =
    (s.ephase.val + 3 + w) % 10 := phase_at_edge s.ephase w
  have hend := hsample.loneRun_vpa hans (Nat.zero_add w).ge
  rw [hphase] at hend
  have hbound := syncPairs_bounds (Nat.mod_lt (s.ephase.val + 3 + w) (by decide : 0 < 10))
  obtain ⟨t, ht, hcalm, -, hdone⟩ := exec_write_ends h hw hc ha nofun (w := w) (Nat.le_refl w)
    (fun k hk => by simp [Answer.of, Shape.driveAt, Drive.lines, Drive.quiet, hk]) (by omega) hend
  refine ⟨t, ht, ?_, hcalm, hdone.stored rfl⟩
  rw [syncLength, show 4 + w + syncPairs ((s.ephase.val + 3 + w) % 10) =
    2 + w + (2 + syncPairs ((s.ephase.val + 3 + w) % 10)) by omega]
  exact hdone.completed

/-- Settles O28: VPA is recognised at its edge, the stretch ends with the E period that VMA is asserted for, and
the data are stored in S7. -/
theorem writeEndsByVpa : Obligations.WriteEndsByVpa := by
  unfold Obligations.WriteEndsByVpa
  intro s fc a w rest hready hans
  refine ⟨fun v hw => ?_, fun v i hi hw => ?_⟩
  · obtain ⟨t, ht, hdone, hcalm, hdev⟩ := exec_write_vpa (x := .word) hready hw rfl hans
    exact ⟨t, ht, hdone, hcalm, wrW_holds hw hdev⟩
  · obtain ⟨x, hc, hholds⟩ := byteWrite_as_cycle hi hw
    obtain ⟨t, ht, hdone, hcalm, hdev⟩ := exec_write_vpa hready hw hc hans
    exact ⟨t, ht, hdone, hcalm, hholds hdev⟩

end Sys2Proof.Machine
end

section
/-! SUPPORT. The frame of a cycle that writes (41_write_cycle.md R167, R176 (d), 20_memory.md R75, R77, R90): it goes
on with its request to its end, and stores on the lanes of that request only. -/

namespace Sys2Proof.Machine

/-! ## A cycle goes on with its request -/

/-- What a move of the bus controller keeps of the cycle `c`: its request, and `din` if it is a write (R167). -/
structure Advances (c : Cycle) (s t : State) : Prop where
  request : ∀ d, t.run = some d → SameRequest c d
  din     : c.kind = .write → t.din = s.din

theorem Advances.of_run {c d : Cycle} {s t : State} (hr : t.run = some d) (k : SameRequest c d)
    (hd : c.kind = .write → t.din = s.din) : Advances c s t :=
  ⟨fun e he => by rw [hr] at he; cases he; exact k, hd⟩

theorem Advances.of_end {c : Cycle} {s t : State} (hr : t.run = none) (hd : c.kind = .write → t.din = s.din) :
    Advances c s t :=
  ⟨fun _ he => (nomatch hr.symm.trans he), hd⟩

theorem Cycle.entered_request (c : Cycle) (st : St) (din : Half) : SameRequest c (c.entered st din) := by
  obtain ⟨hfc, haddr, hstrobes, hwdata⟩ := c.entered_same st din
  exact ⟨c.entered_kind st din, hfc, haddr, hstrobes, hwdata⟩

/-- No state of format W writes `din` (R167). -/
theorem formatW_din {c : Cycle} {st : St} {s u : State} (h : formatW c st s = .next u) : u.din = s.din := by
  unfold formatW at h
  split at h
  case h_4 =>
    obtain ⟨y, rfl⟩ := driveData_eq (s := s.drawn 1) h
    rfl
  all_goals cases h
  case h_6 => split <;> simp
  case h_7 => simp
  all_goals rfl

section
variable {s t : State} {c : Cycle}

theorem goTo_advances {st : St} (h : s.goTo c st = .next t) : Advances c s t := by
  obtain ⟨u, hu, ht⟩ := goTo_enters h
  have hdin (hk : c.kind = .write) : u.din = s.din := formatW_din ((enterState_write hk st s).symm.trans hu)
  rcases ht with ⟨-, rfl⟩ | ⟨-, r, rfl⟩
  · exact .of_run rfl (c.entered_request st u.din) hdin
  · exact .of_end rfl hdin

theorem follow_advances {d : Decision} (h : s.follow c d = .next t) : Advances c s t := by
  unfold State.follow at h
  split at h
  · cases h
  · next term =>
    obtain ⟨hrequest, hdin⟩ := goTo_advances (s := { s with term := term }) (c := { c with edge := c.edge + 1 }) h
    exact ⟨fun d hd =>
      SameRequest.trans (d := { c with edge := c.edge + 1 }) ⟨rfl, rfl, rfl, rfl, rfl⟩ (hrequest d hd), hdin⟩
  · cases h
    refine .of_run rfl ⟨rfl, rfl, rfl, rfl, rfl⟩ fun _ => ?_
    unfold State.stretchVma
    split <;> rfl
  · cases h
    exact .of_run rfl ⟨rfl, rfl, rfl, rfl, rfl⟩ fun _ => rfl

theorem sampleAndDecide_advances (h : s.sampleAndDecide c = .next t) : Advances c s t := by
  obtain ⟨d, -, hd⟩ := sampleAndDecide_suits h
  exact ⟨(follow_advances hd).request, (follow_advances hd).din⟩

/-- A write latches nothing at end(S6) (R167). -/
theorem atEndS6_din (hk : c.kind = .write) (term : Term) : (atEndS6 s c term).din = s.din := by
  simp only [atEndS6, State.latchFor, hk]
  rfl

theorem endS6_advances (h : s.endS6 c = .next t) : Advances c s t := by
  obtain ⟨term, ⟨hrmw, rfl⟩ | hgo⟩ := endS6_cases h
  · exact .of_run rfl ⟨rfl, rfl, rfl, rfl, rfl⟩ fun hk => by rw [hrmw] at hk; cases hk
  · obtain ⟨hrequest, hdin⟩ := goTo_advances hgo
    exact ⟨hrequest, fun hk => (hdin hk).trans (atEndS6_din hk term)⟩

theorem controllerEdge_advances (hr : s.run = some c) (h : s.controllerEdge = .next t) : Advances c s t := by
  simp only [State.controllerEdge, hr] at h
  split at h
  · exact sampleAndDecide_advances h
  · exact sampleAndDecide_advances h
  · exact sampleAndDecide_advances h
  · cases h; exact .of_run rfl ⟨rfl, rfl, rfl, rfl, rfl⟩ fun _ => rfl
  · exact endS6_advances h
  · cases h
  · split at h
    · exact goTo_advances h
    · obtain ⟨r, rfl⟩ := finish_reports h
      exact .of_end rfl fun _ => rfl

end

/-! ## The lanes of a request -/

/-- The byte addresses on the lanes whose strobes the cycle selects (R75, R76). -/
def Cycle.lanes (c : Cycle) : List Addr :=
  (if c.strobes.upperLane then [upperByteAddr c.addr] else []) ++
    if c.strobes.lowerLane then [lowerByteAddr c.strobes c.addr] else []

theorem SameRequest.lanes {c d : Cycle} (h : SameRequest c d) : d.lanes = c.lanes := by
  simp only [Cycle.lanes, h.addr, h.strobes]

/-- What holds of every state in which only bytes at the lanes of `c` have been stored holds after a store of its
lanes. -/
theorem storeLanes_induct {P : State → Prop} {c : Cycle}
    (hstep : ∀ u, P u → ∀ a ∈ c.lanes, ∀ x, P (u.storeByte c.fc a x)) {s : State} (hs : P s) (v : Half) :
    P (s.storeLanes c v) := by
  unfold State.storeLanes
  cases hu : c.strobes.upperLane <;> cases hl : c.strobes.lowerLane
  · exact hs
  · exact hstep s hs _ (by simp [Cycle.lanes, hl]) _
  · exact hstep s hs _ (by simp [Cycle.lanes, hu]) _
  · exact hstep _ (hstep s hs _ (by simp [Cycle.lanes, hu]) _) _ (by simp [Cycle.lanes, hl]) _

/-- A store changes no byte of memory and no register of the PI/T but those of its lanes. -/
theorem storeLanes_frame (s : State) (c : Cycle) (v : Half) :
    (∀ key ∉ c.lanes.map (cellKey s.params.fcMap c.fc), (s.storeLanes c v).mem.read key = s.mem.read key) ∧
    ∀ r, ¬pitTouches s.params.pit c.lanes r → ∀ portA portB,
      (s.storeLanes c v).pit.cell portA portB r = s.pit.cell portA portB r := by
  refine (storeLanes_induct (c := c) (P := fun u => u.params = s.params ∧
    (∀ key ∉ c.lanes.map (cellKey s.params.fcMap c.fc), u.mem.read key = s.mem.read key) ∧
    ∀ r, ¬pitTouches s.params.pit c.lanes r → ∀ portA portB,
      u.pit.cell portA portB r = s.pit.cell portA portB r) ?_ ⟨rfl, fun _ _ => rfl, fun _ _ _ _ => rfl⟩ v).2
  rintro u ⟨hparams, hmem, hpit⟩ a ha x
  refine ⟨(storeByte_params ..).trans hparams, fun key hkey => ?_, fun r hr portA portB => ?_⟩
  · have hne : key ≠ cellKey u.params.fcMap c.fc a := fun e =>
      hkey (List.mem_map.2 ⟨a, ha, by rw [e, hparams]⟩)
    exact (storeByte_mem u c.fc a x key hne).trans (hmem key hkey)
  · have htouch : ¬pitTouches u.params.pit [a] r := fun ⟨b, hb, hsel⟩ =>
      hr ⟨b, List.mem_singleton.1 hb ▸ ha, hparams ▸ hsel⟩
    exact (storeByte_cell htouch x portA portB).trans (hpit r hr portA portB)

/-! ## A cycle stores on its lanes only -/

/-- Between `s` and `t` nothing but the cycle `c` has run: memory differs at the keys of its lanes only, and so does
the PI/T where nothing outside the bus touches it; a write has left `din` alone. -/
structure OnlyStores (c : Cycle) (s t : State) : Prop where
  advances : Advances c s t
  params   : t.params = s.params
  mem      : ∀ key ∉ c.lanes.map (cellKey s.params.fcMap c.fc), t.mem.read key = s.mem.read key
  pit      : PitAlone s s → PitAlone s t ∧ ∀ r, ¬pitTouches s.params.pit c.lanes r → ∀ portA portB,
    t.pit.cell portA portB r = s.pit.cell portA portB r

section
variable {c : Cycle} {s t u : State} (h : OnlyStores c s t)
include h

theorem OnlyStores.kept (hr : ∀ d, u.run = some d → SameRequest c d) (hd : c.kind = .write → u.din = t.din)
    (k : Kept t u) (hm : u.mem = t.mem) (hp : u.pit = t.pit) : OnlyStores c s u where
  advances := ⟨hr, fun hk => (hd hk).trans (h.advances.din hk)⟩
  params := k.params.trans h.params
  mem := hm ▸ h.mem
  pit hs := by
    obtain ⟨halone, hcells⟩ := h.pit hs
    exact ⟨halone.kept k, hp ▸ hcells⟩

theorem OnlyStores.fallingEdge (hu : t.fallingEdge = .next u) : OnlyStores c s u := by
  have a := aside_fallingEdge hu
  refine ⟨⟨a.run ▸ h.advances.request, a.din ▸ h.advances.din⟩, a.params.trans h.params, a.mem ▸ h.mem,
    fun hs => ?_⟩
  obtain ⟨halone, hcells⟩ := h.pit hs
  obtain ⟨halone', hpit⟩ := halone.fallingEdge hu
  exact ⟨halone', hpit ▸ hcells⟩

theorem OnlyStores.controllerEdge (hu : t.controllerEdge = .next u) : OnlyStores c s u := by
  cases hr : t.run with
  | none =>
    rw [controllerEdge_idle hr] at hu
    cases hu; exact h
  | some d =>
    have hsame := h.advances.request d hr
    have hnext := controllerEdge_advances hr hu
    have hrun : ∀ e, u.run = some e → SameRequest c e := fun e he => hsame.trans (hnext.request e he)
    have hdin (hk : c.kind = .write) : u.din = t.din := hnext.din (hsame.kind.trans hk)
    rcases devicesAfter_controllerEdge hr hu with same | ⟨-, v, stored⟩
    · exact h.kept hrun hdin (kept_controllerEdge hu) same.mem same.pit
    · obtain ⟨hmem, hcells⟩ := storeLanes_frame t c v
      rw [hsame.storeLanes] at stored
      rw [h.params] at hmem hcells
      refine ⟨⟨hrun, fun hk => (hdin hk).trans (h.advances.din hk)⟩,
        (kept_controllerEdge hu).params.trans h.params, fun key hkey => ?_, fun hs => ?_⟩
      · rw [stored.mem, hmem key hkey, h.mem key hkey]
      · obtain ⟨halone, hold⟩ := h.pit hs
        refine ⟨halone.kept (kept_controllerEdge hu), fun r hr portA portB => ?_⟩
        rw [stored.pit, hcells r hr, hold r hr]

theorem OnlyStores.peripheralEdge (hu : t.peripheralEdge = .next u) : OnlyStores c s u := by
  have same := sameDevices_peripheralEdge hu
  refine h.kept ((peripheralEdge_cycle hu).2.1 ▸ h.advances.request) (fun hk => ?_) (kept_peripheralEdge hu)
    same.mem same.pit
  rw [peripheralEdge_write fun d hd => (h.advances.request d hd).kind.trans hk] at hu
  cases hu; rfl

theorem OnlyStores.halfClock (hu : t.halfClock = .next u) : OnlyStores c s u :=
  halfClock_induct (P := OnlyStores c s)
    (fun t k h => ⟨⟨h.advances.request, h.advances.din⟩, h.params, h.mem, fun hs =>
      have ⟨⟨hA, hB, hp, he⟩, hcells⟩ := h.pit hs
      ⟨⟨hA, hB, hp, he⟩, hcells⟩⟩)
    (fun t h => h.kept (by simpa using h.advances.request) (fun _ => by rw [releaseClosing_eq])
      (kept_releaseClosing t) (releaseClosing_mem t) (releaseClosing_pit t))
    (fun _ _ h => h.fallingEdge) (fun _ _ h => h.controllerEdge) (fun _ _ h => h.peripheralEdge) h hu

end

theorem exec_onlyStores {i : Instr} {s t : State} (h : exec i s = .next t) :
    OnlyStores (cycleOf s.params.dataBus i) s t := by
  refine exec_induct_running (P := OnlyStores (cycleOf s.params.dataBus i) s) ?_ (fun _ _ h _ => h.halfClock) h
  exact ⟨.of_run rfl ⟨rfl, rfl, rfl, rfl, rfl⟩ fun _ => rfl, rfl, fun _ _ => rfl,
    fun hs => ⟨hs.launched _, fun _ _ _ _ => rfl⟩⟩

/-- The keys and the addresses a writing cycle stores to are those of its lanes. -/
theorem writing_lanes {bus : DataBus} {fc : Fc} {a : Addr} {v16 : Half} {v8 : Byte} {i : Instr}
    (h : i ∈ [Instr.wrW fc a v16, .wrBU fc a v8, .wrBL fc a v8, .wrB8 fc a v8, .rmwBU fc a, .rmwBL fc a,
      .rmwB8 fc a]) :
    storedAddrs i = (cycleOf bus i).lanes ∧
      ∀ m, storedKeys m i = (cycleOf bus i).lanes.map (cellKey m (cycleOf bus i).fc) := by
  simp only [List.mem_cons, List.not_mem_nil, or_false] at h
  rcases h with rfl | rfl | rfl | rfl | rfl | rfl | rfl <;> exact ⟨rfl, fun _ => rfl⟩

theorem cycleOf_write {bus : DataBus} {fc : Fc} {a : Addr} {v16 : Half} {v8 : Byte} {i : Instr}
    (h : i ∈ [Instr.wrW fc a v16, .wrBU fc a v8, .wrBL fc a v8, .wrB8 fc a v8]) :
    (cycleOf bus i).kind = .write := by
  simp only [List.mem_cons, List.not_mem_nil, or_false] at h
  rcases h with rfl | rfl | rfl | rfl <;> rfl

/-- Settles O41: the cycle stores on the lanes of its request only, half clock by half clock. -/
theorem writingCyclesStoreOnlyTheirBytes : Obligations.WritingCyclesStoreOnlyTheirBytes := by
  unfold Obligations.WritingCyclesStoreOnlyTheirBytes
  intro s t fc a v16 v8 i hi h
  have hstores := exec_onlyStores h
  obtain ⟨haddrs, hkeys⟩ := writing_lanes (bus := s.params.dataBus) hi
  refine ⟨fun key hkey => hstores.mem key (hkeys _ ▸ hkey), fun hw => hstores.advances.din (cycleOf_write hw),
    fun hp he r hr => ?_⟩
  obtain ⟨halone, hcells⟩ := hstores.pit (PitAlone.refl hp he)
  rw [halone.portA, halone.portB]
  exact hcells r (haddrs ▸ hr) _ _

end Sys2Proof.Machine
end

section
/-! SUPPORT. States S8 to S16 of format M, line by line (42_rmw_cycle.md R189 to R195). -/

namespace Sys2Proof.Machine

theorem enterState_rmw {c : Cycle} (hk : c.kind = .rmw) (st : St) (s : State) :
    enterState c st s = formatM c st s := by
  simp only [enterState, hk]

/-- The states of format M in which no line is written (R102). -/
def St.idleInM : St → Bool
  | .S8 | .S9 | .S10 | .S11 | .S13 => true
  | _ => false

theorem St.idleInM_iff {st : St} :
    st.idleInM = true ↔ st = .S8 ∨ st = .S9 ∨ st = .S10 ∨ st = .S11 ∨ st = .S13 := by
  cases st <;> decide

theorem formatM_idle {st : St} (h : st.idleInM = true) (c : Cycle) (s : State) : formatM c st s = .next s := by
  rcases St.idleInM_iff.1 h with rfl | rfl | rfl | rfl | rfl <;> rfl

theorem Cycle.entered_idle {st : St} (h : st.idleInM = true) (c : Cycle) (din : Half) :
    c.entered st din = { c with st := st } := by
  rcases St.idleInM_iff.1 h with rfl | rfl | rfl | rfl | rfl <;> rfl

theorem nextSt_idle {st : St} (h : st.idleInM = true) (term : Term) :
    ∃ st', nextSt .rmw term st = some st' := by
  rcases St.idleInM_iff.1 h with rfl | rfl | rfl | rfl | rfl <;> exact ⟨_, rfl⟩

/-- What comes before them are states between the portions (R41). -/
theorem before_idle {c : Cycle} {term : Term} {st : St} (h : st.idleInM = true)
    (hn : nextSt .rmw term c.st = some st) : c.st.movesOn = true ∧ 7 ≤ c.pos ∧ c.pos ≤ 15 := by
  have hbefore : c.st = .S7 ∨ c.st = .S8 ∨ c.st = .S9 ∨ c.st = .S10 ∨ c.st = .S12 := by
    rcases St.idleInM_iff.1 h with rfl | rfl | rfl | rfl | rfl
    all_goals cases hst : c.st <;> simp_all [nextSt]
  rcases hbefore with hst | hst | hst | hst | hst <;> simp [Cycle.pos, hst, St.movesOn]

/-- Between the two portions of format M the strobes are negated, and VMA with them (R102, R188). -/
theorem State.Going.negated_between {s : State} {c : Cycle} (h : s.Going c) (hk : c.kind = .rmw)
    (hpos : 7 ≤ c.pos ∧ c.pos ≤ 15) : s.pins.uds = .negated ∧ s.pins.lds = .negated ∧
      s.pins.ds = .negated ∧ s.pins.vma = .negated := by
  have hstrobe : (c.kind.columns c.pos).strobe = false := by
    simp only [hk, Kind.columns]
    simp only [Bool.or_eq_false_iff, Bool.and_eq_false_iff, decide_eq_false_iff_not]
    omega
  refine ⟨?_, ?_, ?_, h.on.vma.resolve_right fun ⟨_, hs, _⟩ => ?_⟩
  · rw [h.on.uds, hstrobe]; rfl
  · rw [h.on.lds, hstrobe]; rfl
  · rw [h.on.ds, hstrobe]; rfl
  · rw [hstrobe] at hs; cases hs

section
variable {s : State} {c : Cycle} (hk : c.kind = .rmw) (hg : s.Going c)
include hk hg

/-- A rising edge at which no line changes (R189, R191). -/
theorem rmw_idle_rising {st : St} (hi : st.idleInM = true) (hn : nextSt .rmw s.term c.st = some st)
    (hc : s.clk = .low) :
    ∃ t, s.halfClock = .next t ∧ t.run = some { c with st := st } ∧ t.pins = s.pins := by
  obtain ⟨hm, -⟩ := before_idle hi hn
  obtain ⟨st', hn'⟩ := nextSt_idle hi s.term
  refine ⟨_, hg.halfClock_rising hm (hk ▸ hn) hc ((enterState_rmw hk st _).trans (formatM_idle hi ..))
    (hk ▸ hn'), ?_, rfl⟩
  rw [Cycle.entered_idle hi]

/-- S14 drives R/W low (R193). -/
theorem rmw_S13_S14 (hst : c.st = .S13) (hc : s.clk = .low) :
    ∃ t, s.halfClock = .next t ∧ t.run = some { c with st := .S14 } ∧
      t.pins = { s.pins with rw := .low } :=
  ⟨_, hg.halfClock_rising (st := .S14) (st' := .S15) (by rw [hst]; rfl) (by rw [hst]; rfl) hc
    (enterState_rmw hk .S14 _) rfl, rfl, rfl⟩

/-- S12 starts the write portion, with the answer to it and nothing recognised (R191, R195). -/
theorem rmw_S11_S12 (hst : c.st = .S11) (hc : s.clk = .low) :
    ∃ t, s.halfClock = .next t ∧ t.term = .none ∧
      t.run = some { c with st := .S12, second := true, pairs := 0, edge := 0, answer := c.answer2 } ∧
      t.pins = s.pins :=
  ⟨_, hg.halfClock_rising (st := .S12) (st' := .S13) (by rw [hst]; rfl) (by rw [hst]; rfl) hc
    (enterState_rmw hk .S12 _) rfl, rfl, rfl, rfl⟩

/-- S16 asserts the selected strobe (R195). -/
theorem rmw_S15_S16 (hst : c.st = .S15) (hc : s.clk = .low) :
    ∃ t, s.halfClock = .next t ∧ t.run = some { c with st := .S16 } ∧
      t.pins = { s.pins with
        uds := if c.strobes.selectsUpper then .asserted else .negated,
        lds := if c.strobes.selectsLower then .asserted else .negated,
        ds := if c.strobes.selectsDs then .asserted else .negated } := by
  obtain ⟨huds, hlds, hds, -⟩ := hg.negated_between hk (by simp [Cycle.pos, hst])
  refine ⟨_, hg.halfClock_rising (st := .S16) (st' := .S17) (by rw [hst]; rfl) (by rw [hst]; rfl) hc
    (enterState_rmw hk .S16 _) rfl, rfl, (strobed_pins s c.strobes).trans ?_⟩
  rw [huds, hlds, hds]
  rfl

variable (hcalm : s.Calm)
include hcalm

/-- A falling edge at which no line of the cycle changes (R189, R192). -/
theorem rmw_idle_falling {st : St} (hi : st.idleInM = true) (hn : nextSt .rmw s.term c.st = some st)
    (hc : s.clk = .high) :
    ∃ t, s.halfClock = .next t ∧ t.run = some { c with st := st } ∧
      t.pins = { s.pins with bg := t.pins.bg } := by
  obtain ⟨hm, hpos⟩ := before_idle hi hn
  obtain ⟨-, -, -, hv⟩ := hg.negated_between hk hpos
  obtain ⟨st', hn'⟩ := nextSt_idle hi s.term
  obtain ⟨x, hx⟩ := hg.halfClock_falling hm (hk ▸ hn) hcalm hc
    ((enterState_rmw hk st (atFall s)).trans (formatM_idle hi ..)) (hk ▸ hn') hv
  exact ⟨_, hx, congrArg some (Cycle.entered_idle hi ..), rfl⟩

/-- S15 drives `ALU_MODIFY` of the byte read, with the next free byte on a lane that is not selected (R190,
R194, R77). -/
theorem rmw_S14_S15 (hst : c.st = .S14) (hc : s.clk = .high) (hz : s.pins.data = DataLines.z) :
    ∃ t fill, s.halfClock = .next t ∧ t.run = some { c with st := .S15 } ∧
      t.pins = { s.pins with
        data := place c.strobes (halfOfByte (aluModify s.params.alu c.old)) fill,
        bg := t.pins.bg } := by
  obtain ⟨-, -, -, hv⟩ := hg.negated_between hk (by simp [Cycle.pos, hst])
  have hdrive : enterState c .S15 (atFall s) = .next { (atFall s).drawn 1 with
      pins := { s.pins with data := place c.strobes (halfOfByte (s.newByte c)) s.freeByte } } :=
    (enterState_rmw hk .S15 _).trans (driveData_free (s := (atFall s).drawn 1) hz)
  obtain ⟨x, hx⟩ := hg.halfClock_falling (st := .S15) (st' := .S16) (by rw [hst]; rfl) (by rw [hst]; rfl)
    hcalm hc hdrive rfl hv
  exact ⟨_, s.freeByte, hx, rfl, rfl⟩

end

/-- Settles O14: each state by its writes in format M, from the lines the invariant gives for the state before. -/
theorem rmwStatesS8ToS16 : Obligations.RmwStatesS8ToS16 := by
  unfold Obligations.RmwStatesS8ToS16
  intro s c hcalm hbus hr hk
  have hgoing {st : St} (hst : c.st = st) (hne : st ≠ .start) : s.Going c := hbus.going hr (hst ▸ hne)
  refine ⟨fun st st' hmem hst => ?_, fun st st' hmem hst => ?_, fun hst => rmw_S11_S12 hk (hgoing hst nofun) hst,
    fun hst => rmw_S13_S14 hk (hgoing hst nofun) hst,
    fun hst => rmw_S14_S15 hk (hgoing hst nofun) hcalm hst,
    fun hst => rmw_S15_S16 hk (hgoing hst nofun) hst⟩
  · simp only [List.mem_cons, List.not_mem_nil, or_false, Prod.mk.injEq] at hmem
    rcases hmem with ⟨rfl, rfl⟩ | ⟨rfl, rfl⟩
    all_goals exact rmw_idle_rising hk (hgoing hst nofun) rfl (by rw [hst]; rfl)
  · simp only [List.mem_cons, List.not_mem_nil, or_false, Prod.mk.injEq] at hmem
    rcases hmem with ⟨rfl, rfl⟩ | ⟨rfl, rfl⟩ | ⟨rfl, rfl⟩
    all_goals exact rmw_idle_falling hk (hgoing hst nofun) hcalm rfl (by rw [hst]; rfl)

end Sys2Proof.Machine
end

section
/-! SUPPORT. The byte that a read-modify-write cycle moves (42_rmw_cycle.md R180, R201, 20_memory.md R75): its lane,
its address, and what the device at it gives and takes. -/

namespace Sys2Proof.Machine

/-- The data lines carry `v` on the lane that a one-byte transfer selects (R75). -/
def DataLines.Carries (d : DataLines) (x : Strobes) (v : Byte) : Prop :=
  if x = .upper then d.hi = some v else d.lo = some v

/-- The byte latched from the lane is the one it carries (R138, R201). -/
theorem selectByte_latch {s : State} {x : Strobes} {v : Byte} (h : s.pins.data.Carries x v) :
    selectByte x (s.latch x).din = v := by
  cases x
  case upper => exact hiByte_latch rfl h
  all_goals exact loByte_latch h

theorem wordLines_carries (x : Strobes) (v : Half) : (wordLines x v).Carries x (selectByte x v) := by
  cases x <;> rfl

/-- Under these strobes the byte at `a`, and no other, is moved (R75). -/
def Strobes.MovesByteAt (x : Strobes) (a : Addr) : Prop :=
  (x = .upper ∧ upperByteAddr a = a) ∨ ((x = .lower ∨ x = .ds) ∧ lowerByteAddr x a = a)

theorem residentData_carries {s : State} {c : Cycle} {v : Byte} (hx : c.strobes.MovesByteAt c.addr)
    (h : s.byteAt c.fc c.addr = some v) : (s.residentData c).Carries c.strobes v := by
  rcases hx with ⟨hx, ha⟩ | ⟨hx | hx, ha⟩
  · rw [DataLines.Carries, if_pos hx]
    exact residentData_hi (by rw [hx]; rfl) (ha.symm ▸ h)
  all_goals
    rw [DataLines.Carries, if_neg (by simp [hx])]
    exact residentData_lo (by rw [hx]; rfl) (ha.symm ▸ h)

/-- Once the lanes are stored, the device holds the byte. -/
theorem storeLanes_holds {s t : State} {c : Cycle} {v : Byte} (hx : c.strobes.MovesByteAt c.addr)
    (h : SameDevices (s.storeLanes c (halfOfByte v)) t) : t.Holds c.fc c.addr v := by
  rcases hx with ⟨hx, ha⟩ | ⟨hx | hx, ha⟩
  · have := h.holds (storeLanes_holds_upper s c (halfOfByte v) (by rw [hx]; rfl))
    rw [ha, hx] at this
    exact loByte_halfOfByte v ▸ this
  all_goals
    have := h.holds (storeLanes_holds_lower s c (halfOfByte v) (by rw [hx]; rfl))
    rwa [ha, loByte_halfOfByte] at this

/-- The cycle of a read-modify-write instruction, before it starts (R180). -/
def rmwCycle (fc : Fc) (a : Addr) (x : Strobes) : Cycle := newCycle .rmw fc a x 0 0

/-- Each of the three read-modify-write instructions is a cycle that moves the byte at its address (R180). -/
theorem rmw_as_cycle {bus : DataBus} {fc : Fc} {a : Addr} {i : Instr}
    (h : i ∈ [Instr.rmwBU fc a, .rmwBL fc a, .rmwB8 fc a]) (hw : i.wf bus = true) :
    ∃ x, cycleOf bus i = rmwCycle fc a x ∧ x.MovesByteAt a := by
  simp only [List.mem_cons, List.not_mem_nil, or_false] at h
  rcases h with rfl | rfl | rfl
  · exact ⟨.upper, rfl, .inl ⟨rfl, upperByteAddr_of_even (even_of_wf_rdBU (fc := fc) hw)⟩⟩
  · exact ⟨.lower, rfl, .inr ⟨.inl rfl, or_one_of_odd (odd_of_wf_rdBL (fc := fc) hw)⟩⟩
  · exact ⟨.ds, rfl, .inr ⟨.inr rfl, rfl⟩⟩

/-- Asked at any edge of the cycle `c`, whatever free values have been drawn, its device gives `v` on the lane. -/
def State.Offers (s : State) (c : Cycle) (v : Byte) : Prop :=
  ∀ k m, (({ s with draws := m } : State).deviceData { c with edge := k }).Carries c.strobes v

/-- A read-modify-write cycle is given the data its answer scripts, else what the device at the address holds. -/
theorem deviceData_rmw {s : State} {c : Cycle} (hk : c.kind = .rmw) :
    s.deviceData c =
      (c.answer.shape.driveAt c.edge true).data.elim (s.residentData c) (wordLines c.strobes) := by
  cases h : (c.answer.shape.driveAt c.edge true).data with
  | some v => exact deviceData_scripted h
  | none => simp only [State.deviceData, h, hk, Option.elim_none]

theorem offers_scripted {s : State} {c : Cycle} {v : Half}
    (h : ∀ k, (c.answer.shape.driveAt k true).data = some v) : s.Offers c (selectByte c.strobes v) := by
  intro k m
  rw [deviceData_scripted (c := { c with edge := k }) (h k)]
  exact wordLines_carries c.strobes v

theorem offers_resident {s : State} {c : Cycle} {v : Byte} (hk : c.kind = .rmw)
    (h : ∀ k, (c.answer.shape.driveAt k true).data = none) (hx : c.strobes.MovesByteAt c.addr)
    (hv : s.byteAt c.fc c.addr = some v) : s.Offers c v := by
  intro k m
  rw [deviceData_rmw (c := { c with edge := k }) hk, h k]
  exact residentData_carries (s := { s with draws := m }) (c := { c with edge := k }) hx hv

/-- What a device offers depends on the request and on what it holds only. -/
theorem State.Offers.congr {s t : State} {c d : Cycle} {v : Byte} (h : s.Offers c v) (hk : c.kind = .rmw)
    (hs : SameDevices s t) (ha : t.inputs.portA = s.inputs.portA) (hb : t.inputs.portB = s.inputs.portB)
    (hd : SameRequest c d) (hans : d.answer = c.answer) : t.Offers d v := by
  intro k m
  have h := h k m
  rw [deviceData_rmw (c := { c with edge := k }) hk] at h
  rw [deviceData_rmw (c := { d with edge := k }) (hd.kind.trans hk)]
  have hbyte (x : Addr) : t.byteAt c.fc x = s.byteAt c.fc x := by
    simp only [State.byteAt, hs.params, hs.mem, hs.pit, ha, hb]
  have hresident : ({ t with draws := m } : State).residentData { d with edge := k } =
      ({ s with draws := m } : State).residentData { c with edge := k } := by
    simp only [State.residentData, hd.fc, hd.addr, hd.strobes]
    exact congrArg₂ (fun x y : Option Byte => ({
      hi := if c.strobes.upperLane then some (x.getD (Config.freeByte m)) else none
      lo := if c.strobes.lowerLane then some (y.getD (Config.freeByte (m + 1))) else none } : DataLines))
      (hbyte _) (hbyte _)
  rwa [hresident, hd.strobes, hans]

end Sys2Proof.Machine
end

section
/-! SUPPORT. The read portion of a read-modify-write cycle that DTACK or BERR ends (42_rmw_cycle.md R184 to R188,
R198): from its sampling edge to S7, or to the BusError. -/

namespace Sys2Proof.Machine

/-! ## The states of the read portion -/

/-- `t` comes `n` CLK cycles after `s` under the same owner, with no result and nothing stored between. -/
structure Passes (s t : State) (n : Nat) : Prop where
  devices : SameDevices s t
  results : t.results = s.results
  owner   : t.owner = s.owner
  count   : t.clkCount = s.clkCount + n

theorem Passes.trans {s t u : State} {m n : Nat} (h : Passes s t m) (k : Passes t u n) : Passes s u (m + n) :=
  ⟨h.devices.trans k.devices, k.results.trans h.results, k.owner.trans h.owner,
    by rw [k.count, h.count, Nat.add_assoc]⟩

/-- A read-modify-write cycle at the end of S4 or of a wait pair, before anything is recognised, with no device left
on the bus and a polite device of its own. -/
structure RmwSampling (s : State) (c : Cycle) : Prop extends AtFirstEdge s c where
  kind   : c.kind = .rmw
  polite : c.answer.polite
  held   : s.held = DataLines.z
  data   : s.pins.data = DataLines.z

/-- A read-modify-write cycle in S6, with `v` on the lane of the transfer. -/
structure RmwInS6 (s : State) (c : Cycle) (v : Byte) : Prop where
  run     : s.run = some c
  kind    : c.kind = .rmw
  first   : c.second = false
  st      : c.st = .S6
  clk     : s.clk = .high
  closing : s.closing = none
  polite  : c.answer.polite
  held    : s.held = DataLines.z
  data    : s.pins.data.Carries c.strobes v

/-- The state in S7: the byte is latched, the strobe negated, and the data bus is Z (R187, R188). -/
def rmwInS7 (s : State) (c : Cycle) (term : Term) : State :=
  { atFall s with
    din := ((atFall s).latch c.strobes).din, draws := s.draws + 2, term := term
    pins := { s.pins with uds := .negated, lds := .negated, ds := .negated, vma := .negated, data := s.held }
    inputs := s.inputs.withLines false false false false
    run := some { c with st := .S7, old := selectByte c.strobes ((atFall s).latch c.strobes).din } }

/-- The state after end(S6) of a read portion that BERR has ended (R198). -/
def rmwFaulted (s : State) (c : Cycle) (term : Term) : State :=
  ({ atEndS6 (atFall s) c term with run := some { c with st := .faulted } } : State).raiseBusError .rmwRead c

/-- The read portion of `c` has come to its end `n` CLK cycles after `s`: in `u` it is in S7 as `d`, with `v` read, the
devices as they were, and nothing left on the bus. -/
structure ReadPortionEnds (s : State) (c : Cycle) (u : State) (d : Cycle) (v : Byte) (n : Nat) : Prop where
  run     : u.run = some d
  st      : d.st = .S7
  kind    : d.kind = .rmw
  clk     : u.clk = .low
  closing : u.closing = none
  vma     : u.pins.vma = .negated
  data    : u.pins.data = DataLines.z
  held    : u.held = DataLines.z
  silent  : u.inputs.silent
  request : SameRequest c d
  answer2 : d.answer2 = c.answer2
  old     : d.old = v
  passes  : Passes s u n

/-- The same, and it takes `k` half clocks. -/
structure ReadPortionRuns (s : State) (c : Cycle) (u : State) (d : Cycle) (v : Byte) (k n : Nat) : Prop
    extends ReadPortionEnds s c u d v n where
  runs : ∀ m, loneRun (m + k) s = loneRun m u

theorem ReadPortionEnds.since {s t u : State} {b c d : Cycle} {v : Byte} {m n : Nat}
    (h : ReadPortionEnds s c u d v n) (hp : Passes t s m) (hb : SameRequest b c) (hans : c.answer2 = b.answer2) :
    ReadPortionEnds t b u d v (m + n) where
  __ := h
  request := hb.trans h.request
  answer2 := h.answer2.trans hans
  passes := hp.trans h.passes

/-! ## end(S6) -/

theorem endS6_of_not_berr {s : State} {c : Cycle} {term : Term} (hd : c.lateDecision s.inputs s.term = some term)
    (hb : term.isBerr = false) : s.endS6 c = (atEndS6 s c term).goTo c .S7 := by
  simp only [State.endS6, lateDecision_atEndS6, hd, hb, Bool.and_false, Bool.false_eq_true, if_false]
  rfl

/-- The byte read is at hand from S7 on (R201). -/
theorem Cycle.entered_S7_rmw {c : Cycle} (hk : c.kind = .rmw) (din : Half) :
    c.entered .S7 din = { c with st := .S7, old := selectByte c.strobes din } := by
  simp only [Cycle.entered, if_pos hk]

section
variable {s : State} {c : Cycle} {v : Byte} {term : Term} (h : RmwInS6 s c v)
include h

theorem RmwInS6.controllerEdge_eq : (atFall s).controllerEdge = (atFall s).endS6 c := by
  have hr : (atFall s).run = some c := h.run
  simp only [State.controllerEdge, hr, h.st]

/-- end(S6) without BERR leads to S7. -/
theorem RmwInS6.loneHalf_S7 (hd : c.lateDecision s.inputs s.term = some term) (hb : term.isBerr = false) :
    loneHalf s = .next (rmwInS7 s c term) := by
  have hlatch : atEndS6 (atFall s) c term =
      { ((atFall s).sampleLines c true).latch c.strobes with term := term } := by
    simp only [atEndS6, State.latchFor, h.kind]
  have hgo : (atEndS6 (atFall s) c term).goTo c .S7 = .next (rmwInS7 s c term) := by
    rw [goTo_between (enterState_rmw h.kind .S7 _) (st' := .S8) (by simp [nextSt, h.kind]),
      Cycle.entered_S7_rmw h.kind]
    simp only [hlatch, State.deviceNegates, State.deviceReleasesData, h.polite.1, h.polite.2,
      Bool.false_eq_true, if_false]
    rfl
  exact loneHalf_falling h.clk (h.controllerEdge_eq.trans ((endS6_of_not_berr (s := atFall s) hd hb).trans hgo)) rfl

theorem RmwInS6.readPortionEnds (term : Term) :
    ReadPortionEnds s c (rmwInS7 s c term)
      { c with st := .S7, old := selectByte c.strobes ((atFall s).latch c.strobes).din } v 1 where
  run := rfl
  st := rfl
  kind := h.kind
  clk := rfl
  closing := h.closing
  vma := rfl
  data := h.held
  held := h.held
  silent := ⟨rfl, rfl, rfl, rfl⟩
  request := ⟨rfl, rfl, rfl, rfl, rfl⟩
  answer2 := rfl
  old := selectByte_latch (s := atFall s) h.data
  passes := ⟨⟨rfl, rfl, rfl⟩, rfl, rfl, rfl⟩

end

/-! ## From the sampling edge on -/

/-- end(S6) with BERR returns the BusError, and there is no state after it (R198). -/
theorem loneHalf_S6_faulted {s : State} {c : Cycle} {term : Term} (hr : s.run = some c) (hk : c.kind = .rmw)
    (hs : c.st = .S6) (hc : s.clk = .high) (hv : s.pins.vma = .negated)
    (hd : c.lateDecision s.inputs s.term = some term) (hb : term.isBerr = true) :
    loneHalf s = .next (rmwFaulted s c term) := by
  have hr' : (atFall s).run = some c := hr
  have hd' : c.lateDecision (atFall s).inputs (atFall s).term = some term := hd
  refine loneHalf_falling hc ?_ ((congrArg Pins.vma (atEndS6_pins (atFall s) c term)).trans hv)
  show (atFall s).controllerEdge = _
  have hberr : (decide (c.kind = .rmw) && term.isBerr) = true := by rw [hk, hb]; rfl
  simp only [State.controllerEdge, hr', hs, State.endS6, lateDecision_atEndS6, hd', if_pos hberr]
  rfl

section
variable {s : State} {c : Cycle} {d b v a : Bool} {term : Term} (h : RmwSampling s c)
  (hl : c.lines c.edge = (d, b, v, a)) (hd : decideFirst d b v false = .proceed term)
include h hl hd

/-- What the sampling edge recognises leads to S6, in which the device drives its data (R186). -/
theorem RmwSampling.loneRun_toS6 (n : Nat) :
    loneRun (n + 2) s = loneRun n (sampledToS6 s c (s.inputs.withLines d b v a) term) := by
  have hedge := h.loneHalf_recognises hl (term := term) (by simpa [h.kind] using hd)
  have h5 := h.toAtFirstEdge.inS5 (s.inputs.withLines d b v a) term
  have hs5 := h5.loneHalf_S5 rfl rfl fun _ => h.data
  rw [firstS6, if_neg (by simp [h.kind])] at hs5
  rw [show n + 2 = n + 1 + 1 from rfl, loneRun_succ _ h.run (St.samples_not_faulted h.st), hedge, andThen_next,
    loneRun_succ _ h5.run nofun, hs5, andThen_next]
  rfl

/-- A read portion that DTACK ends. -/
theorem RmwSampling.loneRun_S7 {x : Byte} {late : Term} (hoff : s.Offers c x)
    (hlate : c.recognised.lateDecision (s.inputs.withLines d b v a) term = some late) (hb : late.isBerr = false) :
    ∃ u e, ReadPortionRuns s c u e x 3 2 := by
  have h6 : RmwInS6 (sampledToS6 s c (s.inputs.withLines d b v a) term) c.recognised x := {
    run := rfl, kind := h.kind, first := h.first, st := rfl, clk := rfl, closing := h.closing
    polite := h.polite, held := h.held
    data := hoff.congr (t := inS5 s c (s.inputs.withLines d b v a) term)
      (d := { c with st := .S5, edge := c.edge + 1 }) h.kind ⟨rfl, rfl, rfl⟩ rfl rfl
      ⟨rfl, rfl, rfl, rfl, rfl⟩ rfl (c.edge + 1) s.draws }
  refine ⟨_, _, (h6.readPortionEnds late).since (m := 1) ⟨⟨rfl, rfl, rfl⟩, rfl, rfl, rfl⟩
    ⟨rfl, rfl, rfl, rfl, rfl⟩ rfl, fun n => ?_⟩
  rw [show n + 3 = n + 1 + 2 from rfl, h.loneRun_toS6 hl hd, loneRun_succ _ h6.run nofun,
    h6.loneHalf_S7 hlate hb, andThen_next]

/-- A read portion that BERR ends, with or without DTACK (R198). -/
theorem RmwSampling.loneRun_faulted {late : Term}
    (hlate : c.recognised.lateDecision (s.inputs.withLines d b v a) term = some late) (hb : late.isBerr = true) :
    loneRun 3 s = .next (rmwFaulted (sampledToS6 s c (s.inputs.withLines d b v a) term) c.recognised late) := by
  have hend := loneHalf_S6_faulted (s := sampledToS6 s c (s.inputs.withLines d b v a) term) (c := c.recognised)
    rfl h.kind rfl rfl h.vma hlate hb
  rw [h.loneRun_toS6 hl hd 1, loneRun_succ (c := c.recognised) 0 rfl nofun, hend]
  rfl

end

/-! ## From the issue to the sampling edge -/

/-- The device drives no termination line at the first `w` edges of its portion. -/
structure Shape.SilentFor (x : Shape) (w : Nat) : Prop where
  patience : w ≤ x.patience
  before   : ∀ k < w, (x.driveAt k false).lines = (false, false, false, false)

theorem Shape.Terminates.silentFor {x : Shape} {w : Nat} {d b late : Bool} (h : x.Terminates w d b late) :
    x.SilentFor w := ⟨h.patience, h.before⟩

theorem Cycle.lines_of_answer {c : Cycle} {x : Shape} (h : c.answer = Answer.of x) (k : Nat) :
    c.lines k = (x.driveAt k false).lines := by
  rw [Cycle.lines, h]
  rfl

/-- A read-modify-write instruction whose cycle the processor may start, and the answers to its two portions. -/
structure RmwIssued (i : Instr) (s : State) (fc : Fc) (a : Addr) (x : Strobes) (ans ans2 : Answer) : Prop where
  ready   : s.Ready
  wf      : i.wf s.params.dataBus = true
  cycle   : cycleOf s.params.dataBus i = rmwCycle fc a x
  answer  : (s.prepared (rmwCycle fc a x)).answer = ans
  answer2 : (s.prepared (rmwCycle fc a x)).answer2 = ans2

section
variable {i : Instr} {s : State} {fc : Fc} {a : Addr} {x : Strobes} {ans ans2 : Answer}
  (h : RmwIssued i s fc a x ans ans2)
include h

/-- On a free bus the cycle comes to its sampling edges. -/
theorem RmwIssued.rmwSampling (hp : ans.polite) (w : Nat) :
    RmwSampling (sampledState w (rmwCycle fc a x) s) (sampledCycle w (rmwCycle fc a x) s) where
  toAtFirstEdge := sampledState_atFirstEdge h.ready.toBusFree rfl w
  kind := rfl
  polite := h.answer.symm ▸ hp
  held := h.ready.held
  data := (launched_releaseClosing_data (rmwCycle fc a x) s).trans h.ready.data

/-- Left unanswered for `w` edges the cycle runs as from the next one; its budget leaves more than the half clocks it
takes from there. -/
theorem RmwIssued.exec_lone {w k : Nat} {t : State} (hsilent : ans.shape.SilentFor w)
    (hk : k ≤ 123 + 2 * ans2.shape.patience) (hrun : loneRun k (sampledState w (rmwCycle fc a x) s) = .next t)
    (hover : t.cycleOver = true) : ∃ u, exec i s = .next (graft t u) ∧ (graft t u).Calm := by
  obtain ⟨⟨u, hu⟩, hcalm⟩ :=
    Machine.exec_lone keepsOut_calm h.wf h.ready.run h.ready.owner (calm_launched h.ready.toCalm _)
  have hl : ∀ k < w, (s.prepared (rmwCycle fc a x)).lines ((rmwCycle fc a x).edge + k) =
      (false, false, false, false) := fun k hk => by
    rw [← hsilent.before k hk, ← h.answer]
    exact congrArg (s.prepared (rmwCycle fc a x)).lines (Nat.zero_add k)
  have hlaunch := (loneRun_toFirstEdge (c := rmwCycle fc a x) h.ready.toBusFree nofun rfl w k hl).trans hrun
  have hbudget : k + 2 * w + 5 ≤ cycleBudget (s.prepared (rmwCycle fc a x)) := by
    have := hsilent.patience
    rw [cycleBudget, h.answer, h.answer2]
    omega
  rw [h.cycle, loneRun_settled hbudget (hlaunch ▸ settled_next hover), hlaunch] at hu
  exact ⟨u, hu, hcalm _ hu⟩

end

/-! ## A read portion that BERR ends -/

/-- After it the step faults (R198; log 15). -/
theorem step_of_faulted {s : State} {c : Cycle} (hr : s.run = some c) (hs : c.st = .faulted) (hc : s.clk = .low)
    (hz : s.closing = none) : step s = .fault .rmwReadContinuation := by
  have hhalf : s.halfClock = .fault .rmwReadContinuation := by
    rw [halfClock_rising hc, releaseClosing_none (s := { s with clk := .high }) hz]
    simp only [State.controllerEdge, hr, hs]
  simp only [step, stepOnce, hr, State.clkCycle, hhalf]
  rfl

/-- BERR in the read portion returns a BusError and leaves the devices alone. -/
theorem RmwIssued.faults {i : Instr} {s : State} {fc : Fc} {a : Addr} {x : Strobes} {y : Shape} {ans2 : Answer}
    {w : Nat} {d b late : Bool} {term : Term} (h : RmwIssued i s fc a x (Answer.of y) ans2)
    (hy : y.Terminates w d b late) (hdb : (d || b) = true)
    (hterm : decideLate (firstTerm d b) d late false = some term) (hb : term.isBerr = true) :
    ∃ t, exec i s = .next t ∧
      t.results = {
        master := .processor, result := .busError { kind := .rmwRead, fc := fc, addr := a } } :: s.results ∧
      t.mem = s.mem ∧ t.pit = s.pit ∧ step t = .fault .rmwReadContinuation := by
  have hedge : (sampledCycle w (rmwCycle fc a x) s).edge = w := Nat.zero_add w
  have hlines : (sampledCycle w (rmwCycle fc a x) s).lines (sampledCycle w (rmwCycle fc a x) s).edge =
      (d, b, false, false) := by
    rw [hedge]
    exact (Cycle.lines_of_answer h.answer w).trans hy.first
  have hlate := hy.lateDecision (c := Cycle.recognised (sampledCycle w (rmwCycle fc a x) s)) h.answer
    (congrArg (· + 1) hedge)
  have hrun := (h.rmwSampling ⟨rfl, rfl⟩ w).loneRun_faulted hlines
    (decideFirst_proceeds (Bool.and_false d) hdb false) ((hlate _ _).trans hterm) hb
  obtain ⟨u, hu, -⟩ := h.exec_lone hy.silentFor (by omega) hrun rfl
  refine ⟨_, hu, ?_, rfl, rfl, step_of_faulted rfl rfl rfl rfl⟩
  rw [← h.ready.owner]
  rfl

/-- Settles O34: BERR at the first edge or at end(S6) makes `term` Berr or BerrDtack there, and the cycle stands after
it with its BusError. -/
theorem rmwReadPortionEndedByBerr : Obligations.RmwReadPortionEndedByBerr := by
  unfold Obligations.RmwReadPortionEndedByBerr
  intro s fc a w d rest hready hans i hi hw
  obtain ⟨x, hc, -⟩ := rmw_as_cycle hi hw
  have issued {y : Shape} (hans : s.answers = Answer.of y :: rest) (hy : y ≠ .resident) :
      RmwIssued i s fc a x (Answer.of y) (s.prepared (rmwCycle fc a x)).answer2 :=
    ⟨hready, hw, hc, prepared_answer hans hy _, rfl⟩
  rcases hans with hans | hans | hans
  · exact (issued hans nofun).faults (Shape.terminates_berr w) rfl (term := .berr) rfl rfl
  · exact (issued hans nofun).faults (Shape.terminates_berrDtack w d) rfl (term := .berrDtack) rfl rfl
  · exact (issued hans nofun).faults (Shape.terminates_lateBerr w d) rfl (term := .berrDtack) rfl rfl

end Sys2Proof.Machine
end

section
/-! SUPPORT. The write portion of a read-modify-write cycle (42_rmw_cycle.md R189 to R198, R201): from S7 to its
sampling edge, and from there to the end after each termination, VMA asserted or not. -/

namespace Sys2Proof.Machine

/-! ## From S7 to S16 -/

/-- The state in S16: the byte is driven on its lane, and the strobe is asserted (R193 to R195). -/
def atS16 (c : Cycle) (s : State) : State :=
  { s with
    run := some { c with st := .S16, second := true, pairs := 0, edge := 0, answer := c.answer2 }
    clk := .high, term := .none, draws := s.draws + 1
    ephase := s.ephase + 1 + 1 + 1 + 1, clkCount := s.clkCount + 1 + 1 + 1 + 1
    pins := { s.pins with
      rw := .low, data := place c.strobes (halfOfByte (s.newByte c)) s.freeByte
      uds := assertIf c.strobes.selectsUpper s.pins.uds
      lds := assertIf c.strobes.selectsLower s.pins.lds
      ds := assertIf c.strobes.selectsDs s.pins.ds } }

/-- Nine half clocks lead from S7 to S16. -/
theorem loneRun_toS16 (n : Nat) (s : State) (c : Cycle) (hk : c.kind = .rmw) (hs : c.st = .S7)
    (hr : s.run = some c) (hc : s.clk = .low) (hz : s.closing = none) (hd : s.pins.data = DataLines.z)
    (hv : s.pins.vma = .negated) : loneRun (n + 9) s = loneRun n (atS16 c s) := by
  obtain ⟨kind, fc, addr, strobes, wdata, level, st, second, pairs, edge, old, answer, answer2⟩ := c
  obtain ⟨params, ⟨pfc, paddr, as, uds, lds, ds, rw, data, vma, bg⟩, held, inputs, clk, clkCount, run,
    closing, term, din, owner, arb, bgWait, tenureBg, iplSeen, iplHistory, ephase, pit, mem, program,
    altProgram, answers, events, grantDelays, tenures, draws, results⟩ := s
  simp only at hs hr hc hk hz hd hv
  subst hs hr hc hk hz hd hv
  cases strobes <;> cases second <;> rfl

/-! ## A read-modify-write cycle that has ended -/

/-- The result of a read-modify-write cycle whose write portion `term` has ended (R198, R201). -/
def rmwOutcome (c : Cycle) (term : Term) : Result :=
  if term.isBerr then .busError { kind := .rmwWrite, fc := c.fc, addr := c.addr } else .okByte c.old

/-- What the read-modify-write cycle `c` has left in `t`, its write portion ended by `term`, `n` CLK cycles after `s`:
its result, and the devices as they were or with the new byte, the latter wherever it has ended well. -/
structure RmwEnded (s : State) (c : Cycle) (t : State) (term : Term) (n : Nat) : Prop where
  completed : Completed s t (rmwOutcome c term) n
  devices   : SameDevices s t ∨ SameDevices (s.storeLanes c (halfOfByte (s.newByte c))) t
  stored    : term.isBerr = false → SameDevices (s.storeLanes c (halfOfByte (s.newByte c))) t
  term      : t.term = term

theorem RmwEnded.since {s u t : State} {c d : Cycle} {term : Term} {m n : Nat} (h : RmwEnded u c t term n)
    (hp : Passes s u m) (hcd : SameRequest c d) (hold : d.old = c.old) : RmwEnded s d t term (m + n) := by
  have hbyte : s.newByte d = u.newByte c := by simp only [State.newByte, hold, hp.devices.params]
  have hlanes := hp.devices.storeLanes c (halfOfByte (u.newByte c))
  exact {
    completed := by
      have := h.completed.since hp.results hp.owner hp.count
      rwa [rmwOutcome, ← hcd.fc, ← hcd.addr, ← hold] at this
    term := h.term
    devices := by
      rw [hcd.storeLanes, hbyte]
      exact h.devices.imp hp.devices.trans hlanes.trans
    stored := fun hb => by
      rw [hcd.storeLanes, hbyte]
      exact hlanes.trans (h.stored hb) }

theorem RmwEnded.graft {s t : State} {c : Cycle} {term : Term} {n : Nat} (h : RmwEnded s c t term n)
    (x : State) : RmwEnded s c (graft t x) term n :=
  ⟨h.completed.graft x, h.devices, h.stored, h.term⟩

/-- A read-modify-write cycle that has ended, in its last state, with its result (R197, R198, R201). -/
def rmwWritten (s : State) (c : Cycle) : State :=
  ({ (s.deviceTakes c (halfOfByte (s.newByte c))).negateAll c.answer with
    run := none, closing := some c } : State).report (rmwOutcome c s.term)

theorem finish_rmwWritten {c : Cycle} (hk : c.kind = .rmw) (s : State) :
    ((s.deviceTakes c (halfOfByte (s.newByte c))).negateAll c.answer).finish c = .next (rmwWritten s c) := by
  have hterm : ((s.deviceTakes c (halfOfByte (s.newByte c))).negateAll c.answer).term = s.term := by simp
  simp only [State.finish, State.finishResult, hk, hterm, State.raiseBusError, rmwWritten, rmwOutcome]
  split <;> rfl

theorem rmwWritten_takes {s : State} {c : Cycle} (hp : c.answer.polite) :
    rmwWritten s c = { s with
      pins := { s.pins with
        strobeAS := .negated, uds := .negated, lds := .negated, ds := .negated, vma := .negated }
      inputs := s.inputs.withLines false false false false
      run := none, closing := some c
      mem := (s.deviceTakes c (halfOfByte (s.newByte c))).mem
      pit := (s.deviceTakes c (halfOfByte (s.newByte c))).pit
      draws := (s.deviceTakes c (halfOfByte (s.newByte c))).draws
      results := { master := s.owner, result := rmwOutcome c s.term } :: s.results } := by
  simp only [rmwWritten, State.negateAll, State.deviceNegates, hp.1, Bool.false_eq_true, if_false]
  rw [deviceTakes_eq]
  rfl

/-- A read-modify-write cycle that has ended has completed, and the bus is free. -/
theorem rmwWritten_ended {s : State} {c : Cycle} (hk : c.kind = .rmw) (hp : c.answer.polite)
    (hh : s.held = DataLines.z) (hc : s.clk = .low) : RmwEnded s c (rmwWritten s c) s.term 0 := by
  have hsame : SameDevices (s.deviceTakes c (halfOfByte (s.newByte c))) (rmwWritten s c) :=
    (sameDevices_negateAll (s.deviceTakes c (halfOfByte (s.newByte c))) c.answer).trans ⟨rfl, rfl, rfl⟩
  exact {
    completed := by
      rw [rmwWritten_takes hp]
      exact {
        run := rfl, clk := hc, data := by simpa [State.releaseClosing, hk] using hh, held := hh, vma := rfl
        dtack := rfl, berr := rfl, vpa := rfl, avec := rfl
        results := rfl, length := rfl, owner := rfl }
    term := by rw [rmwWritten_takes hp]
    devices := (deviceTakes_cases s c _).imp (·.trans hsame) (·.trans hsame)
    stored := fun hb => deviceTakes_stores (s := s) c _ hb ▸ hsame }

/-! ## From S17 to the end -/

/-- The write portion of a read-modify-write cycle, with no device left on the bus and a polite device of its own; its
device may have answered VPA. -/
structure SecondPortion (s : State) (c : Cycle) : Prop where
  run     : s.run = some c
  kind    : c.kind = .rmw
  second  : c.second = true
  polite  : c.answer.polite
  closing : s.closing = none
  held    : s.held = DataLines.z

/-- The cycle in another state of its portion. -/
theorem SecondPortion.moved {s t : State} {c : Cycle} (h : SecondPortion s c) {st : St}
    (hr : t.run = some { c with st := st }) (hz : t.closing = s.closing) (hh : t.held = s.held) :
    SecondPortion t { c with st := st } :=
  ⟨hr, h.kind, h.second, h.polite, hz.trans h.closing, hh.trans h.held⟩

/-- The peripheral that VMA selects has no part in a write portion (R237). -/
theorem loneHalf_second {s t : State} (hc : s.clk = .high) (h : (atFall s).controllerEdge = .next t)
    (hw : ∀ c, t.run = some c → c.reads = false) : loneHalf s = .next t := by
  have h : (tick { s with clk := .low }).controllerEdge = .next t := h
  simp only [loneHalf, hc, h, andThen_next]
  cases hr : t.run with
  | none => simp [State.peripheralEdge, hr]
  | some c => exact peripheralEdge_notReading hr (hw c hr)

section
variable {s : State} {c : Cycle} (h : SecondPortion s c)
include h

/-- S18 and S20 write nothing. -/
theorem SecondPortion.rises {st st' : St} (hm : c.st.movesOn = true) (hn : nextSt .rmw s.term c.st = some st)
    (hn' : nextSt .rmw s.term st = some st') (hst : st = .S18 ∨ st = .S20) (hc : s.clk = .low) :
    loneHalf s = .next { s with clk := .high, run := some { c with st := st } } := by
  rw [loneHalf_rising hc h.closing h.run hm (h.kind ▸ hn)]
  have henter (u : State) : enterState c st u = .next u := by
    rcases hst with rfl | rfl <;> exact enterState_rmw h.kind _ u
  rw [goTo_between (henter _) (st' := st') (h.kind ▸ hn')]
  rcases hst with rfl | rfl <;> rfl

/-- The last state stores the byte and negates the lines (R196, R197). -/
theorem SecondPortion.ends {st : St} (hm : c.st.movesOn = true) (hn : nextSt .rmw s.term c.st = some st)
    (hlast : st = .S19 ∧ s.term ≠ .berr ∨ st = .S21) (hc : s.clk = .high) :
    loneHalf s = .next (rmwWritten (atFall s) { c with st := st }) := by
  have henter : enterState c st (atFall s) =
      .next (((atFall s).deviceTakes c (halfOfByte ((atFall s).newByte c))).negateAll c.answer) := by
    have ht : (atFall s).term = s.term := rfl
    rcases hlast with ⟨rfl, hb⟩ | rfl
    · simp only [enterState_rmw h.kind, formatM, ht, hb, if_false]
    · exact enterState_rmw h.kind _ _
  have hnone : nextSt c.kind (((atFall s).deviceTakes c (halfOfByte ((atFall s).newByte c))).negateAll
      c.answer).term st = none := by
    have ht : (((atFall s).deviceTakes c (halfOfByte ((atFall s).newByte c))).negateAll c.answer).term = s.term := by
      simp [atFall, tick]
    rcases hlast with ⟨rfl, hb⟩ | rfl
    · simp only [nextSt, ht, hb, if_false]
    · rfl
  have hentered (din : Half) : c.entered st din = { c with st := st } := by
    rcases hlast with ⟨rfl, -⟩ | rfl <;> rfl
  refine loneHalf_second hc ?_ fun _ hr => nomatch (show (none : Option Cycle) = _ from hr)
  rw [controllerEdge_movesOn (s := atFall s) h.run hm (h.kind ▸ hn), goTo_last henter hnone, hentered]
  exact finish_rmwWritten (c := { c with st := st }) h.kind _

/-- BERR without DTACK adds S20 and S21 (R198, R201). -/
theorem SecondPortion.entersS19 (hs : c.st = .S18) (hc : s.clk = .high) (ht : s.term = .berr) :
    loneHalf s = .next { atFall s with run := some { c with st := .S19 } } := by
  have henter : enterState c .S19 (atFall s) = .next (atFall s) := by
    have ht : (atFall s).term = .berr := ht
    simp only [enterState_rmw h.kind, formatM, ht, if_true]
  refine loneHalf_second hc ?_ fun d hd => by cases hd; simp [Cycle.reads, h.kind, h.second]
  rw [controllerEdge_movesOn (s := atFall s) (st := .S19) h.run (by rw [hs]; rfl) (by rw [hs]; rfl)]
  exact goTo_between henter (st' := .S20) (if_pos ht)

theorem SecondPortion.loneRun_S19 (hs : c.st = .S17) (hc : s.clk = .low) (hb : s.term ≠ .berr) :
    ∃ t, loneRun 2 s = .next t ∧ RmwEnded s c t s.term 1 := by
  have h18 : SecondPortion { s with clk := .high, run := some { c with st := .S18 } } { c with st := .S18 } :=
    h.moved rfl rfl rfl
  have hrun : loneRun 2 s = .next (rmwWritten (atFall { s with run := some { c with st := .S18 } })
      { c with st := .S19 }) := by
    rw [loneRun_succ 1 h.run (by simp [hs]), h.rises (by rw [hs]; rfl) (by rw [hs]; rfl) rfl (.inl rfl) hc,
      andThen_next]
    refine (loneRun_succ 0 h18.run nofun).trans ?_
    rw [h18.ends rfl rfl (.inl ⟨rfl, hb⟩) rfl]
    rfl
  exact ⟨_, hrun, (rmwWritten_ended (s := atFall { s with run := some { c with st := .S18 } })
    (c := { c with st := .S19 }) h.kind h.polite h.held rfl).since (m := 1)
    ⟨⟨rfl, rfl, rfl⟩, rfl, rfl, rfl⟩ ⟨rfl, rfl, rfl, rfl, rfl⟩ rfl⟩

theorem SecondPortion.loneRun_S21 (hs : c.st = .S17) (hc : s.clk = .low) (ht : s.term = .berr) :
    ∃ t, loneRun 4 s = .next t ∧ RmwEnded s c t .berr 2 := by
  let u := atFall { s with run := some { c with st := .S18 } }
  have h18 : SecondPortion { s with clk := .high, run := some { c with st := .S18 } } { c with st := .S18 } :=
    h.moved rfl rfl rfl
  have h19 : SecondPortion { u with run := some { c with st := .S19 } } { c with st := .S19 } :=
    h.moved rfl rfl rfl
  have h20 : SecondPortion { u with clk := .high, run := some { c with st := .S20 } } { c with st := .S20 } :=
    h.moved rfl rfl rfl
  have hrun : loneRun 4 s = .next (rmwWritten (atFall { u with run := some { c with st := .S20 } })
      { c with st := .S21 }) := by
    rw [loneRun_succ 3 h.run (by simp [hs]), h.rises (by rw [hs]; rfl) (by rw [hs]; rfl) rfl (.inl rfl) hc,
      andThen_next, loneRun_succ 2 h18.run nofun, h18.entersS19 rfl rfl ht, andThen_next]
    refine (loneRun_succ 1 h19.run nofun).trans ?_
    rw [h19.rises (st := .S20) rfl (if_pos ht) rfl (.inr rfl) rfl, andThen_next]
    refine (loneRun_succ 0 h20.run nofun).trans ?_
    rw [h20.ends rfl rfl (.inr rfl) rfl]
    rfl
  have hended := rmwWritten_ended (s := atFall { u with run := some { c with st := .S20 } })
    (c := { c with st := .S21 }) h.kind h.polite h.held rfl
  have hterm : (atFall { u with run := some { c with st := .S20 } }).term = .berr := ht
  rw [hterm] at hended
  exact ⟨_, hrun, hended.since (m := 2) ⟨⟨rfl, rfl, rfl⟩, rfl, rfl, rfl⟩ ⟨rfl, rfl, rfl, rfl, rfl⟩ rfl⟩

end

end Sys2Proof.Machine
end

section
/-! SUPPORT. Whole read-modify-write cycles (42_rmw_cycle.md R180 to R202): from the issue through both portions to
the result, where DTACK ends the read portion and DTACK or BERR the write portion. -/

namespace Sys2Proof.Machine

/-! ## From the read portion to the sampling edge of the write portion -/

/-- The write portion at the end of S16 or of a wait pair, before anything is recognised. -/
structure SecondEdge (s : State) (c : Cycle) : Prop extends SecondPortion s c where
  st     : c.st.samples
  clk    : s.clk = .high
  term   : s.term = .none
  vma    : s.pins.vma = .negated
  silent : s.inputs.silent

/-- The write portion `w` wait pairs after S16, for a cycle that is in S7. -/
def sampledSecond (w : Nat) (c : Cycle) (s : State) : State :=
  waited w { c with st := .S16, second := true, pairs := 0, edge := 0, answer := c.answer2 } (atS16 c s)

/-- Its cycle. -/
def secondCycle (w : Nat) (c : Cycle) : Cycle :=
  { c with
    st := if w = 0 then .S16 else .SwHigh, second := true, pairs := 0 + w, edge := 0 + w, answer := c.answer2 }

section
variable {s u : State} {c d : Cycle} {v : Byte} {n : Nat} (h : ReadPortionEnds s c u d v n)
include h

theorem ReadPortionEnds.secondEdge (hp : c.answer2.polite) (w : Nat) :
    SecondEdge (sampledSecond w d u) (secondCycle w d) where
  run := rfl
  kind := h.kind
  second := rfl
  polite := by
    show d.answer2.polite
    rwa [h.answer2]
  closing := h.closing
  held := h.held
  st := by
    unfold secondCycle
    split <;> trivial
  clk := rfl
  term := rfl
  vma := h.vma
  silent := h.silent

theorem ReadPortionEnds.loneRun_second {w : Nat} (hsilent : c.answer2.shape.SilentFor w) (k : Nat) :
    loneRun (k + 2 * w + 9) u = loneRun k (sampledSecond w d u) := by
  rw [loneRun_toS16 (k + 2 * w) u d h.kind h.st h.run h.clk h.closing h.data h.vma]
  refine loneRun_waits w k rfl trivial rfl h.closing rfl h.vma h.silent fun j hj => ?_
  rw [← hsilent.before j hj, ← h.answer2]
  exact congrArg (fun j => (d.answer2.shape.driveAt j false).lines) (Nat.zero_add j)

/-- What the write portion leaves from its sampling edge on, the cycle leaves from its read portion on. -/
theorem ReadPortionEnds.rmwEnded {t : State} {term : Term} {w m : Nat}
    (hend : RmwEnded (sampledSecond w d u) (secondCycle w d) t term m) :
    RmwEnded s { c with old := v } t term (n + (4 + w + m)) := by
  have hu : RmwEnded u d t term (4 + w + m) :=
    hend.since ⟨⟨rfl, rfl, rfl⟩, rfl, rfl, by show u.clkCount + 1 + 1 + 1 + 1 + w = _; omega⟩
      ⟨rfl, rfl, rfl, rfl, rfl⟩ rfl
  obtain ⟨hkind, hfc, haddr, hstrobes, hwdata⟩ := h.request
  exact hu.since h.passes
    ⟨hkind.symm, hfc.symm, haddr.symm, hstrobes.symm, hwdata.symm⟩ h.old.symm

end

/-- The edge that ends S16 or a wait pair of the write portion leads to S17 with what it recognises (R195). -/
theorem SecondEdge.recognises {s : State} {c : Cycle} {d b v a : Bool} {term : Term} (h : SecondEdge s c)
    (hl : c.lines c.edge = (d, b, v, a)) (hd : decideFirst d b v false = .proceed term) :
    loneHalf s = .next { atFall s with
      inputs := s.inputs.withLines d b v a, term := term, run := some { c with st := .S17, edge := c.edge + 1 } } := by
  have hiack : (s.params.hasAvec && decide (c.kind = .iack) && a) = false := by simp [h.kind]
  rw [loneHalf_samples h.run h.st h.clk h.term h.silent hl, hiack, hd, follow_proceed, andThen_next, if_pos h.second]
  exact peripheralEdge_idle (by show s.pins.vma ≠ .asserted; simp [h.vma])

/-- DTACK or BERR at the sampling edge of the write portion ends the cycle: nothing is sampled after it (R195, R198;
log 13). -/
theorem SecondEdge.loneRun_ends {s : State} {c : Cycle} {d b : Bool} (h : SecondEdge s c)
    (hl : c.lines c.edge = (d, b, false, false)) (hdb : (d || b) = true) :
    ∃ k ≤ 5, ∃ t, loneRun k s = .next t ∧
      RmwEnded s c t (firstTerm d b) (if firstTerm d b = .berr then 3 else 2) := by
  have hedge := h.recognises hl (decideFirst_proceeds (Bool.and_false d) hdb false)
  generalize hu : ({ atFall s with
    inputs := s.inputs.withLines d b false false, term := firstTerm d b
    run := some { c with st := .S17, edge := c.edge + 1 } } : State) = u at hedge
  have h17 : SecondPortion u { c with st := .S17, edge := c.edge + 1 } := by
    subst hu
    exact ⟨rfl, h.kind, h.second, h.polite, h.closing, h.held⟩
  have hclk : u.clk = .low := hu ▸ rfl
  have hterm : u.term = firstTerm d b := hu ▸ rfl
  have step (k : Nat) : loneRun (k + 1) s = loneRun k u := by
    rw [loneRun_succ k h.run (St.samples_not_faulted h.st), hedge, andThen_next]
  have since {t : State} {term : Term} {n : Nat}
      (hend : RmwEnded u { c with st := .S17, edge := c.edge + 1 } t term n) : RmwEnded s c t term (1 + n) := by
    subst hu
    exact hend.since ⟨⟨rfl, rfl, rfl⟩, rfl, rfl, rfl⟩ ⟨rfl, rfl, rfl, rfl, rfl⟩ rfl
  by_cases hb : firstTerm d b = .berr
  · obtain ⟨t, ht, hend⟩ := h17.loneRun_S21 rfl hclk (hterm.trans hb)
    rw [if_pos hb, hb]
    exact ⟨5, le_rfl, t, (step 4).trans ht, since hend⟩
  · obtain ⟨t, ht, hend⟩ := h17.loneRun_S19 rfl hclk (hterm ▸ hb)
    rw [if_neg hb]
    exact ⟨3, by decide, t, (step 2).trans ht, hterm ▸ since hend⟩

/-! ## Both portions -/

/-- The two answers of a script that names no resident device. -/
theorem RmwIssued.of_answers {i : Instr} {s : State} {fc : Fc} {a : Addr} {x : Strobes} {y z : Shape}
    {rest : List Answer} (h : s.Ready) (hw : i.wf s.params.dataBus = true)
    (hc : cycleOf s.params.dataBus i = rmwCycle fc a x) (hans : s.answers = Answer.of y :: Answer.of z :: rest)
    (hy : y ≠ .resident) (hz : z ≠ .resident) : RmwIssued i s fc a x (Answer.of y) (Answer.of z) := by
  refine ⟨h, hw, hc, prepared_answer hans hy _, ?_⟩
  have hz' : (Answer.of z).shape ≠ .resident := hz
  simp only [State.prepared, hans, List.drop_succ_cons, List.drop_zero, List.head?_cons, State.answerFor,
    Option.getD_some]

/-- Where nothing is scripted, the device at the address answers both portions by DTACK (R90; log 12). -/
theorem RmwIssued.unscripted {i : Instr} {s : State} {fc : Fc} {a : Addr} {x : Strobes} (h : s.Ready)
    (hw : i.wf s.params.dataBus = true) (hc : cycleOf s.params.dataBus i = rmwCycle fc a x) (hans : s.answers = []) :
    RmwIssued i s fc a x (Answer.of (.dtack s.params.memWaits none)) (Answer.of (.dtack s.params.memWaits none)) := by
  refine ⟨h, hw, hc, prepared_answer_unscripted hans nofun, ?_⟩
  simp [State.prepared, State.answerFor, hans, Answer.of, State.residentShape, rmwCycle, newCycle]

section
variable {i : Instr} {s u : State} {fc : Fc} {a : Addr} {x : Strobes} {v : Byte} {d : Cycle}

/-- A read-modify-write cycle of the processor is its read portion, S8 to S16, and its write portion. -/
theorem RmwIssued.ends {ans ans2 : Answer} {term : Term} {w1 w2 k1 k2 n1 n2 : Nat}
    (h : RmwIssued i s fc a x ans ans2) (hsilent : ans.shape.SilentFor w1)
    (hread : ReadPortionRuns (sampledState w1 (rmwCycle fc a x) s) (sampledCycle w1 (rmwCycle fc a x) s) u d v k1 n1)
    (hsilent2 : ans2.shape.SilentFor w2)
    (hwrite : ∃ t, loneRun k2 (sampledSecond w2 d u) = .next t ∧
      RmwEnded (sampledSecond w2 d u) (secondCycle w2 d) t term n2)
    (hk : k1 + k2 ≤ 114) :
    ∃ t, exec i s = .next t ∧ t.Calm ∧
      RmwEnded s { rmwCycle fc a x with old := v } t term (6 + w1 + n1 + w2 + n2) := by
  obtain ⟨t, ht, hend⟩ := hwrite
  have hsecond := hread.loneRun_second (w := w2) (by
    show (s.prepared (rmwCycle fc a x)).answer2.shape.SilentFor w2
    rwa [h.answer2]) k2
  have hrun := (hread.runs (k2 + 2 * w2 + 9)).trans (hsecond.trans ht)
  have hover : t.cycleOver = true := by simp [State.cycleOver, hend.completed.run]
  have hpatience := hsilent2.patience
  obtain ⟨y, hy, hcalm⟩ := h.exec_lone hsilent (by omega) hrun hover
  refine ⟨_, hy, hcalm, ?_⟩
  rw [show 6 + w1 + n1 + w2 + n2 = (2 + w1) + (n1 + (4 + w2 + n2)) by omega]
  exact ((hread.rmwEnded hend).graft y).since
    ⟨⟨rfl, rfl, rfl⟩, rfl, rfl, by show s.clkCount + 1 + 1 + w1 = _; omega⟩ ⟨rfl, rfl, rfl, rfl, rfl⟩ rfl

/-- Its write portion comes to its sampling edges as its read portion has. -/
theorem RmwIssued.secondEdge {ans ans2 : Answer} {w1 n1 : Nat} (h : RmwIssued i s fc a x ans ans2)
    (hp : ans2.polite)
    (hread : ReadPortionEnds (sampledState w1 (rmwCycle fc a x) s) (sampledCycle w1 (rmwCycle fc a x) s) u d v n1)
    (w2 : Nat) : SecondEdge (sampledSecond w2 d u) (secondCycle w2 d) ∧ (secondCycle w2 d).answer = ans2 := by
  have hans : (sampledCycle w1 (rmwCycle fc a x) s).answer2 = ans2 := h.answer2
  exact ⟨hread.secondEdge (hans.symm ▸ hp) w2, hread.answer2.trans hans⟩

/-- DTACK ends the read portion, and DTACK or BERR the write portion. -/
theorem RmwIssued.ends_dtack {y : Shape} {data : Option Half} {w1 w2 : Nat} {dtack berr late : Bool}
    (h : RmwIssued i s fc a x (Answer.of (.dtack w1 data)) (Answer.of y)) (hy : y.Terminates w2 dtack berr late)
    (hdb : (dtack || berr) = true) (hoff : s.Offers (s.prepared (rmwCycle fc a x)) v) :
    ∃ t, exec i s = .next t ∧ t.Calm ∧
      RmwEnded s { rmwCycle fc a x with old := v } t (firstTerm dtack berr)
        (if firstTerm dtack berr = .berr then 11 + w1 + w2 else 10 + w1 + w2) := by
  have hedge : w1 ≤ (sampledCycle w1 (rmwCycle fc a x) s).edge := Nat.le_add_left _ _
  have hlate := Cycle.lateDecision_dtack (c := Cycle.recognised (sampledCycle w1 (rmwCycle fc a x) s)) h.answer
  obtain ⟨u, d, hread⟩ := (h.rmwSampling ⟨rfl, rfl⟩ w1).loneRun_S7 (Cycle.lines_dtack h.answer hedge) rfl
    (hoff.congr rfl ⟨rfl, rfl, rfl⟩ rfl rfl ⟨rfl, rfl, rfl, rfl, rfl⟩ rfl) (hlate _) rfl
  obtain ⟨hsecond, hans⟩ := h.secondEdge ⟨rfl, rfl⟩ hread.toReadPortionEnds w2
  have hlines : (secondCycle w2 d).lines (secondCycle w2 d).edge = (dtack, berr, false, false) := by
    have hz : (secondCycle w2 d).edge = w2 := Nat.zero_add w2
    rw [hz]
    exact (Cycle.lines_of_answer hans w2).trans hy.first
  obtain ⟨k, hk, hwrite⟩ := hsecond.loneRun_ends hlines hdb
  obtain ⟨t, ht, hcalm, hdone⟩ := h.ends (Shape.terminates_dtack w1 data).silentFor hread hy.silentFor hwrite
    (by omega)
  have hlength : 6 + w1 + 2 + w2 + (if firstTerm dtack berr = .berr then 3 else 2) =
      if firstTerm dtack berr = .berr then 11 + w1 + w2 else 10 + w1 + w2 := by
    split <;> omega
  exact ⟨t, ht, hcalm, hlength ▸ hdone⟩

end

/-- A read-modify-write cycle takes two answers. -/
theorem exec_rmw_answers {i : Instr} {s t : State} {fc : Fc} {a : Addr} {x : Strobes} {ans ans2 : Answer}
    {rest : List Answer} (hc : cycleOf s.params.dataBus i = rmwCycle fc a x)
    (ha : s.answers = ans :: ans2 :: rest) (h : exec i s = .next t) : t.answers = rest := by
  rw [(exec_scripts h).answers, hc]
  simp [launched, ha, rmwCycle, newCycle, answersTaken]

/-- Where the cycle has ended well, the device holds `ALU_MODIFY` of the byte read (R190, R201). -/
theorem RmwEnded.holds {s t : State} {fc : Fc} {a : Addr} {x : Strobes} {v : Byte} {term : Term} {n : Nat}
    (h : RmwEnded s { rmwCycle fc a x with old := v } t term n) (hx : x.MovesByteAt a)
    (hb : term.isBerr = false) : t.Holds fc a (aluModify s.params.alu v) :=
  storeLanes_holds (c := { rmwCycle fc a x with old := v }) hx (h.stored hb)

/-- What each of the three reads of a word on the data bus (R201). -/
theorem rmw_reads {bus : DataBus} {fc : Fc} {a : Addr} {v : Half} {p : Instr × Byte}
    (h : p ∈ [(Instr.rmwBU fc a, v.extractLsb' 8 8), (.rmwBL fc a, v.extractLsb' 0 8),
      (.rmwB8 fc a, v.extractLsb' 0 8)]) (hw : p.1.wf bus = true) :
    ∃ x, cycleOf bus p.1 = rmwCycle fc a x ∧ x.MovesByteAt a ∧ selectByte x v = p.2 := by
  have hi : p.1 ∈ [Instr.rmwBU fc a, .rmwBL fc a, .rmwB8 fc a] := by
    simp only [List.mem_cons, List.not_mem_nil, or_false] at h ⊢
    rcases h with rfl | rfl | rfl <;> simp
  obtain ⟨x, hc, hx⟩ := rmw_as_cycle hi hw
  refine ⟨x, hc, hx, ?_⟩
  simp only [List.mem_cons, List.not_mem_nil, or_false] at h
  rcases h with rfl | rfl | rfl <;> cases hc <;> rfl

/-- Settles O21: DTACK ends both portions, and the byte of the scripted word comes back modified. -/
theorem rmwEndsByDtack : Obligations.RmwEndsByDtack := by
  unfold Obligations.RmwEndsByDtack
  intro s fc a w1 w2 v d rest hready hans p hp hw
  obtain ⟨x, hc, hx, hbyte⟩ := rmw_reads hp hw
  have hissued := RmwIssued.of_answers hready hw hc hans nofun nofun
  have hoff := offers_scripted (s := s) (c := s.prepared (rmwCycle fc a x)) (v := v)
    fun k => by rw [hissued.answer]; rfl
  obtain ⟨t, ht, hcalm, hdone⟩ := hissued.ends_dtack (Shape.terminates_dtack w2 d) rfl hoff
  rw [← hbyte]
  exact ⟨t, ht, hdone.completed, hcalm, hdone.term, exec_rmw_answers hc hans ht, hdone.holds hx rfl⟩

/-- A device that scripts no data gives the byte it holds. -/
theorem RmwIssued.offers {i : Instr} {s : State} {fc : Fc} {a : Addr} {x : Strobes} {ans ans2 : Answer} {v : Byte}
    (h : RmwIssued i s fc a x ans ans2) (hans : ∀ k, (ans.shape.driveAt k true).data = none)
    (hx : x.MovesByteAt a) (hv : s.byteAt fc a = some v) : s.Offers (s.prepared (rmwCycle fc a x)) v :=
  offers_resident rfl (fun k => h.answer.symm ▸ hans k) hx hv

/-- Settles O22: the device at the address answers both portions by DTACK, and gives and takes the byte it holds. -/
theorem rmwModifiesWhatTheDeviceHolds : Obligations.RmwModifiesWhatTheDeviceHolds := by
  unfold Obligations.RmwModifiesWhatTheDeviceHolds
  intro s fc a old hready hans hold i hi hw
  obtain ⟨x, hc, hx⟩ := rmw_as_cycle hi hw
  have hissued := RmwIssued.unscripted hready hw hc hans
  obtain ⟨t, ht, hcalm, hdone⟩ := hissued.ends_dtack (Shape.terminates_dtack s.params.memWaits none) rfl
    (hissued.offers (fun _ => rfl) hx hold)
  have hcompleted := hdone.completed
  rw [if_neg nofun, show 10 + s.params.memWaits + s.params.memWaits = 10 + 2 * s.params.memWaits by omega]
    at hcompleted
  exact ⟨t, ht, hcompleted, hcalm, hdone.holds hx rfl⟩

/-- Settles O35: BERR at the sampling edge of the write portion, alone or with DTACK, ends the cycle with a BusError,
and the device takes the new byte or nothing. -/
theorem rmwWritePortionEndedByBerr : Obligations.RmwWritePortionEndedByBerr := by
  unfold Obligations.RmwWritePortionEndedByBerr
  intro s fc a old w1 w2 n d rest hready hold hans i hi hw
  obtain ⟨x, hc, hx⟩ := rmw_as_cycle hi hw
  have ends {t : State} {term : Term} (hterm : term.isBerr = true)
      (hdone : RmwEnded s { rmwCycle fc a x with old := old } t term n) :
      Completed s t (.busError { kind := .rmwWrite, fc := fc, addr := a }) n ∧
        ((t.mem = s.mem ∧ t.pit = s.pit) ∨ t.Holds fc a (aluModify s.params.alu old)) := by
    refine ⟨?_, hdone.devices.imp (fun h => ⟨h.mem, h.pit⟩)
      (storeLanes_holds (c := { rmwCycle fc a x with old := old }) hx)⟩
    have := hdone.completed
    rwa [rmwOutcome, hterm, if_pos rfl] at this
  rcases hans with ⟨hans, rfl⟩ | ⟨hans, rfl⟩
  all_goals have hissued := RmwIssued.of_answers hready hw hc hans nofun nofun
  · obtain ⟨t, ht, hcalm, hdone⟩ := hissued.ends_dtack (Shape.terminates_berr w2) rfl
      (hissued.offers (fun _ => rfl) hx hold)
    exact ⟨t, ht, hcalm, ends rfl hdone⟩
  · obtain ⟨t, ht, hcalm, hdone⟩ := hissued.ends_dtack (Shape.terminates_berrDtack w2 d) rfl
      (hissued.offers (fun _ => rfl) hx hold)
    exact ⟨t, ht, hcalm, ends rfl hdone⟩

end Sys2Proof.Machine
end

section
/-! SUPPORT. The stretch of a synchronous cycle in the read portion of a read-modify-write cycle (42_rmw_cycle.md R199,
44_sync_cycle.md R235 to R239, R245): the peripheral drives its data while E is high, and end(S6) is the fall of E. -/

namespace Sys2Proof.Machine

/-! ## The data bus while E goes on -/

/-- The state with other data on the bus, after other draws. -/
def State.withData (s : State) (x : DataLines) (m : Nat) : State :=
  { s with draws := m, pins := { s.pins with data := x } }

/-- `v` is on the lane of the data bus if a device drives it, and else nobody drives. -/
def DataLines.Shows (d : DataLines) (x : Strobes) (v : Byte) (driven : Prop) : Prop :=
  (driven → d.Carries x v) ∧ (¬driven → d = DataLines.z)

theorem DataLines.Shows.congr {d : DataLines} {x : Strobes} {v : Byte} {p q : Prop} (h : d.Shows x v p)
    (hpq : q ↔ p) : d.Shows x v q :=
  ⟨fun hq => h.1 (hpq.1 hq), fun hq => h.2 (mt hpq.2 hq)⟩

theorem eRises_iff : ∀ p : Fin 10, eRises p = true ↔ p.val = 6 := by decide

theorem eFalls_iff : ∀ p : Fin 10, eFalls p = true ↔ p.val = 0 := by decide

/-- The read portion of a read-modify-write cycle with VPA recognised, no device left on the bus and a polite device of
its own, which gives `v`. -/
structure RmwWaitsForE (s : State) (c : Cycle) (v : Byte) : Prop where
  run     : s.run = some c
  kind    : c.kind = .rmw
  first   : c.second = false
  polite  : c.answer.polite
  held    : s.held = DataLines.z
  offers  : s.Offers c v

/-- The peripheral at an edge of the stretch: it starts to drive where E rises with VMA out, and leaves the data bus
as it is elsewhere (R237). -/
theorem RmwWaitsForE.peripheralEdge {s : State} {c : Cycle} {v : Byte} (h : RmwWaitsForE s c v)
    (hbus : s.pins.data.Shows c.strobes v (s.pins.vma = .asserted ∧ 7 ≤ s.ephase.val)) :
    ∃ x m, s.peripheralEdge = .next (s.withData x m) ∧
      x.Shows c.strobes v (s.pins.vma = .asserted ∧ 6 ≤ s.ephase.val) := by
  have hreads : c.reads = true := by simp [Cycle.reads, h.kind, h.first]
  have hstays : s.withData s.pins.data s.draws = s := rfl
  by_cases hv : s.pins.vma = .asserted
  · have hedge : s.peripheralEdge = if eRises s.ephase then s.deviceDrives { c with edge := c.edge + 3 }
        else if eFalls s.ephase then .next (s.deviceReleasesData c.answer) else .next s := by
      simp [State.peripheralEdge, h.run, hv, hreads]
    by_cases hrise : s.ephase.val = 6
    · have hfree := hbus.2 fun ⟨_, hlate⟩ => by omega
      refine ⟨_, s.draws + 2, ?_, fun _ => h.offers (c.edge + 3) s.draws, fun hn => absurd ⟨hv, hrise.ge⟩ hn⟩
      rw [hedge, if_pos ((eRises_iff _).2 hrise)]
      exact driveData_free (s := s.drawn 2) hfree
    rw [if_neg (mt (eRises_iff _).1 hrise)] at hedge
    by_cases hfall : s.ephase.val = 0
    · refine ⟨s.held, s.draws, ?_, fun ⟨_, hlate⟩ => by omega, fun _ => h.held⟩
      rw [hedge, if_pos ((eFalls_iff _).2 hfall)]
      simp only [State.deviceReleasesData, h.polite.2, Bool.false_eq_true, if_false]
      rfl
    · refine ⟨s.pins.data, s.draws, by rw [hedge, if_neg (mt (eFalls_iff _).1 hfall), hstays],
        hbus.congr (and_congr_right fun _ => ?_)⟩
      omega
  · exact ⟨s.pins.data, s.draws, by rw [peripheralEdge_idle hv, hstays],
      fun hn => absurd hn.1 hv, fun _ => hbus.2 fun hn => hv hn.1⟩

/-! ## A wait pair of the stretch -/

/-- The low half of a wait pair of the stretch, before the peripheral follows E. -/
def stretchEdge (s : State) (c : Cycle) : State :=
  { (atFall s) with
    term := .vpa, run := some c.waiting
    pins := { s.pins with vma := stretchedVma s.pins.vma (s.ephase + 1) } }

theorem follow_wait_vpa (s : State) (c : Cycle) : (atFall s).follow c (.wait .vpa) = .next (stretchEdge s c) := by
  simp only [State.follow, State.stretchVma, stretchEdge, stretchedVma]
  have hphase : (atFall s).ephase = s.ephase + 1 := rfl
  rw [hphase]
  split <;> rfl

/-- VMA never comes out while E is on its way to its fall (R236). -/
theorem stretchedVma_late (p : Fin 10) : ¬(stretchedVma .negated p = .asserted ∧ 7 ≤ p.val) := by
  rintro ⟨hv, hlate⟩
  rw [stretchedVma, if_neg (mt (vmaWindow_iff p).1 (by omega))] at hv
  cases hv

/-- From the edge that adds a wait pair to the end of it, whatever the peripheral does at the edge. -/
theorem loneRun_readPair {s : State} {c : Cycle} {x : DataLines} {m : Nat} (hr : s.run = some c)
    (hs : c.st.samples) (hz : s.closing = none) {i : Inputs}
    (hwait : loneHalf s = andThen ((atFall { s with inputs := i }).follow c (.wait .vpa)) State.peripheralEdge)
    (hp : (stretchEdge { s with inputs := i } c).peripheralEdge =
      .next ((stretchEdge { s with inputs := i } c).withData x m)) (n : Nat) :
    loneRun (n + 2) s = loneRun n ((stretchPair { s with inputs := i } c).withData x m) := by
  rw [follow_wait_vpa, andThen_next, hp] at hwait
  have hhigh := loneHalf_SwLow (s := (stretchEdge { s with inputs := i } c).withData x m) (c := c.waiting) rfl rfl
    rfl hz
  rw [show n + 2 = n + 1 + 1 from rfl, loneRun_succ _ hr (St.samples_not_faulted hs), hwait, andThen_next,
    loneRun_succ (c := c.waiting) n rfl nofun, hhigh, andThen_next]
  rfl

/-- The read portion waits for E, at the end of a wait pair, with `k` more to come. -/
structure ReadStretching (s : State) (c : Cycle) (v : Byte) (k : Nat) : Prop extends RmwWaitsForE s c v where
  closing : s.closing = none
  st      : c.st = .SwHigh
  clk     : s.clk = .high
  term    : s.term = .vpa
  holds   : HoldsVpa s.inputs c
  ahead   : EAhead s.pins.vma s.ephase k
  bus     : s.pins.data.Shows c.strobes v (s.pins.vma = .asserted ∧ 6 ≤ s.ephase.val)

section
variable {s : State} {c : Cycle} {v : Byte}

/-- What the edge decides: the stretch goes on until E is in its last high cycle with VMA out (R245). -/
theorem ReadStretching.decides {k : Nat} (h : ReadStretching s c v k) :
    loneHalf s = andThen ((atFall s).follow c
      (if decide (s.pins.vma = .asserted) && eLast (s.ephase + 1) then .proceed .vpa else .wait .vpa))
      State.peripheralEdge := by
  have hterm : (atFall s).term = .vpa := h.term
  have hd : (atFall s).inputs.dtack = false := h.holds.dtack
  have hb : (atFall s).inputs.berr = false := h.holds.berr
  have hedge : (atFall s).controllerEdge = (atFall s).sampleAndDecide c :=
    controllerEdge_samples (s := atFall s) h.run (by rw [h.st]; trivial)
  simp only [State.sampleAndDecide, HoldsVpa.sampleLines (s := atFall s) h.holds, hterm, decideStretch, hd, hb,
    Bool.false_eq_true, if_false] at hedge
  simp only [loneHalf, h.clk]
  exact congrArg (andThen · State.peripheralEdge) hedge

/-- The cycle, and what its device gives, are the same in the wait pair. -/
theorem RmwWaitsForE.stretchEdge (h : RmwWaitsForE s c v) (i : Inputs) (ha : i.portA = s.inputs.portA)
    (hb : i.portB = s.inputs.portB) : RmwWaitsForE (stretchEdge { s with inputs := i } c) c.waiting v where
  run := rfl
  kind := h.kind
  first := h.first
  polite := h.polite
  held := h.held
  offers := h.offers.congr h.kind ⟨rfl, rfl, rfl⟩ ha hb ⟨rfl, rfl, rfl, rfl, rfl⟩ rfl

/-- A wait pair, from the edge that adds it: the bus at its end is that of the phase E has come to. -/
theorem RmwWaitsForE.pair {i : Inputs} (h : RmwWaitsForE s c v) (hs : c.st.samples) (hz : s.closing = none)
    (ha : i.portA = s.inputs.portA) (hb : i.portB = s.inputs.portB)
    (hwait : loneHalf s = andThen ((atFall { s with inputs := i }).follow c (.wait .vpa)) State.peripheralEdge)
    (hbus : s.pins.data.Shows c.strobes v
      (stretchedVma s.pins.vma (s.ephase + 1) = .asserted ∧ 7 ≤ (s.ephase + 1).val)) :
    ∃ x m, (∀ n, loneRun (n + 2) s = loneRun n ((stretchPair { s with inputs := i } c).withData x m)) ∧
      RmwWaitsForE ((stretchPair { s with inputs := i } c).withData x m) c.paired v ∧
      x.Shows c.strobes v (stretchedVma s.pins.vma (s.ephase + 1) = .asserted ∧ 6 ≤ (s.ephase + 1).val) := by
  obtain ⟨x, m, hx, hnext⟩ := (h.stretchEdge i ha hb).peripheralEdge hbus
  refine ⟨x, m, loneRun_readPair h.run hs hz hwait hx, ⟨rfl, h.kind, h.first, h.polite, h.held, ?_⟩, hnext⟩
  exact h.offers.congr h.kind ⟨rfl, rfl, rfl⟩ ha hb ⟨rfl, rfl, rfl, rfl, rfl⟩ rfl

theorem ReadStretching.pair {k : Nat} (h : ReadStretching s c v (k + 1)) :
    ∃ x m, (∀ n, loneRun (n + 2) s = loneRun n ((stretchPair s c).withData x m)) ∧
      ReadStretching ((stretchPair s c).withData x m) c.paired v k := by
  obtain ⟨hwaits, hahead⟩ := h.ahead.pair
  have hedge := h.decides
  rw [hwaits, if_neg nofun] at hedge
  have hphase := fin_succ_val s.ephase
  have hbus : s.pins.data.Shows c.strobes v
      (stretchedVma s.pins.vma (s.ephase + 1) = .asserted ∧ 7 ≤ (s.ephase + 1).val) := by
    refine h.bus.congr ?_
    rcases h.ahead with ⟨hv, hp⟩ | ⟨hv, h5, hp⟩
    · rw [hv, stretchedVma, ite_self]
      exact and_congr_right fun _ => by omega
    · rw [hv]
      exact iff_of_false (stretchedVma_late _) nofun
  obtain ⟨x, m, hrun, hwaitsNext, hbusNext⟩ :=
    h.toRmwWaitsForE.pair (i := s.inputs) (by rw [h.st]; trivial) h.closing rfl rfl hedge hbus
  obtain ⟨hd, hb, hv, w, hw, hshape⟩ := h.holds
  exact ⟨x, m, hrun, { hwaitsNext with
    closing := h.closing, st := rfl, clk := rfl, term := rfl
    holds := ⟨hd, hb, hv, w, Nat.le_succ_of_le hw, hshape⟩, ahead := hahead, bus := hbusNext }⟩

end

/-- The stretch runs to its end, whatever phase of E it has begun in, and the peripheral's data are on the bus then
(R237, R238). -/
theorem ReadStretching.loneRun (k : Nat) {s : State} {c : Cycle} {v : Byte} (h : ReadStretching s c v k) :
    ∃ x m, (∀ n, loneRun (n + 1 + 2 * k) s = loneRun n ((stretched k s c).withData x m)) ∧
      x.Carries c.strobes v := by
  induction k generalizing s c with
  | zero =>
    obtain ⟨hv, hp⟩ := h.ahead.last
    have hlast : (decide (s.pins.vma = .asserted) && eLast (s.ephase + 1)) = true := by
      rw [hv, hp]; rfl
    have hedge := h.decides
    have hphase : s.ephase.val = 8 := by
      have := fin_succ_val s.ephase
      rw [hp] at this
      have : (9 : Fin 10).val = 9 := rfl
      omega
    refine ⟨s.pins.data, s.draws, fun n => ?_, h.bus.1 ⟨hv, by omega⟩⟩
    rw [hlast, if_pos rfl, follow_proceed, andThen_next, if_neg (by simp [h.first])] at hedge
    have hidle : State.peripheralEdge { atFall s with
        term := .vpa, run := some { c with st := .S5, edge := c.edge + 1 } } = .next { atFall s with
        term := .vpa, run := some { c with st := .S5, edge := c.edge + 1 } } := by
      have hp' : (atFall s).ephase = 9 := hp
      have hrise : eRises 9 = false := rfl
      have hfall : eFalls 9 = false := rfl
      simp only [State.peripheralEdge, hp', hrise, hfall, Bool.false_eq_true, if_false, ite_self]
    rw [hidle] at hedge
    rw [Nat.mul_zero, Nat.add_zero, loneRun_succ n h.run (by simp [h.st]), hedge, andThen_next]
    congr 1
    simp only [stretched, State.withData, atFall, tick, hp, h.first]
    rw [← hv, ← h.term]
    rfl
  | succ k ih =>
    obtain ⟨x, m, hrun, hnext⟩ := h.pair
    obtain ⟨x', m', hrun', hcarries⟩ := ih hnext
    refine ⟨x', m', fun n => ?_, hcarries⟩
    rw [show n + 1 + 2 * (k + 1) = (n + 1 + 2 * k) + 2 by omega, hrun, hrun']
    congr 1
    simp only [stretched, State.withData, stretchPair, tick, Cycle.paired, Cycle.waiting, Nat.add_comm k 1,
      Nat.add_assoc]
    rw [← h.term]
    rfl

end Sys2Proof.Machine
end

section
/-! SUPPORT. A read-modify-write cycle that VPA answers in both portions (42_rmw_cycle.md R199, 44_sync_cycle.md R238,
R242). -/

namespace Sys2Proof.Machine

/-- From the sampling edge at which VPA is recognised to the end of the first wait pair. -/
theorem RmwSampling.stretches {s : State} {c : Cycle} {w : Nat} {v : Byte} (h : RmwSampling s c)
    (ha : c.answer = Answer.of (.vpa w)) (hw : w ≤ c.edge) (hoff : s.Offers c v) :
    ∃ x m, (∀ n, loneRun (n + 2) s = loneRun n
      ((stretchPair { s with inputs := s.inputs.withLines false false true false } c).withData x m)) ∧
      ReadStretching ((stretchPair { s with inputs := s.inputs.withLines false false true false } c).withData x m)
        c.paired v (syncPairs (s.ephase + 1).val - 1) := by
  have hl : c.lines c.edge = (false, false, true, false) := by
    simp [Cycle.lines, ha, Answer.of, Shape.driveAt, hw, Drive.quiet]
  have hwait := loneHalf_samples h.run h.st h.clk h.term h.silent hl
  rw [show decideFirst false false true (s.params.hasAvec && decide (c.kind = .iack) && false) = .wait .vpa from rfl]
    at hwait
  have hvma : s.pins.vma = .negated := h.vma
  have hwaits : RmwWaitsForE s c v := ⟨h.run, h.kind, h.first, h.polite, h.held, hoff⟩
  obtain ⟨x, m, hrun, hnext, hbus⟩ :=
    hwaits.pair (i := s.inputs.withLines false false true false) h.st h.closing rfl rfl hwait
    ⟨fun hn => absurd (hvma ▸ hn) (stretchedVma_late _), fun _ => h.data⟩
  refine ⟨x, m, hrun, { hnext with
    closing := h.closing, st := rfl, clk := rfl, term := rfl
    holds := ⟨rfl, rfl, rfl, w, Nat.le_succ_of_le hw, congrArg Answer.shape ha⟩
    ahead := ?_, bus := hbus }⟩
  have hahead := eAhead_start (s.ephase + 1)
  rwa [← hvma] at hahead

/-- The read portion in S5 after the stretch: VMA is out, and `v` has been on the bus since E rose (R237). -/
structure RmwDriven (s : State) (c : Cycle) (v : Byte) : Prop where
  run     : s.run = some c
  kind    : c.kind = .rmw
  first   : c.second = false
  st      : c.st = .S5
  clk     : s.clk = .low
  closing : s.closing = none
  polite  : c.answer.polite
  held    : s.held = DataLines.z
  data    : s.pins.data.Carries c.strobes v
  vma     : s.pins.vma = .asserted
  term    : s.term = .vpa
  holds   : HoldsVpa s.inputs c

/-- S6 changes nothing, and end(S6) latches the byte. -/
theorem RmwDriven.loneRun_S7 {s : State} {c : Cycle} {v : Byte} (h : RmwDriven s c v) :
    ∃ u d, ReadPortionRuns s c u d v 2 1 ∧ u.ephase = s.ephase + 1 := by
  have henter : enterState c .S6 { s with clk := .high } = .next { s with clk := .high } :=
    (enterState_rmw h.kind .S6 _).trans (if_pos h.vma)
  have hedge : loneHalf s = .next { s with clk := .high, run := some { c with st := .S6 } } := by
    rw [loneHalf_rising (st := .S6) h.clk h.closing h.run (by rw [h.st]; rfl) (by rw [h.st]; rfl)]
    exact goTo_between henter (st' := .S7) rfl
  have h6 : RmwInS6 { s with clk := .high, run := some { c with st := .S6 } } { c with st := .S6 } v :=
    ⟨rfl, h.kind, h.first, rfl, rfl, h.closing, h.polite, h.held, h.data⟩
  have hlate : Cycle.lateDecision { c with st := .S6 } s.inputs s.term = some .vpa := by
    rw [h.term]
    obtain ⟨hd, hb, hv, hshape⟩ := h.holds
    exact HoldsVpa.lateDecision (c := { c with st := .S6 }) ⟨hd, hb, hv, hshape⟩
  refine ⟨_, _, ⟨(h6.readPortionEnds .vpa).since (m := 0) ⟨⟨rfl, rfl, rfl⟩, rfl, rfl, rfl⟩
    ⟨rfl, rfl, rfl, rfl, rfl⟩ rfl, fun n => ?_⟩, rfl⟩
  rw [show n + 2 = n + 1 + 1 from rfl, loneRun_succ _ h.run (by simp [h.st]), hedge, andThen_next,
    loneRun_succ _ h6.run nofun, h6.loneHalf_S7 hlate rfl, andThen_next]

/-- The end of the stretch is S5. -/
theorem ReadStretching.driven {s : State} {c : Cycle} {v : Byte} {k : Nat} (h : ReadStretching s c v k)
    {x : DataLines} (m : Nat) (hx : x.Carries c.strobes v) :
    RmwDriven ((stretched k s c).withData x m)
      { c with st := .S5, pairs := c.pairs + k, edge := c.edge + (k + 1) } v where
  run := by
    show some { c with st := if c.second then .S17 else .S5, pairs := c.pairs + k, edge := c.edge + (k + 1) } = _
    rw [if_neg (by simp [h.first])]
  kind := h.kind
  first := h.first
  st := rfl
  clk := rfl
  closing := h.closing
  polite := h.polite
  held := h.held
  data := hx
  vma := rfl
  term := h.term
  holds := by
    obtain ⟨hd, hb, hv, w, hw, hshape⟩ := h.holds
    exact ⟨hd, hb, hv, w, Nat.le_add_right_of_le hw, hshape⟩

theorem Passes.withData {s t : State} {n : Nat} (h : Passes s t n) (x : DataLines) (m : Nat) :
    Passes s (t.withData x m) n := ⟨h.devices, h.results, h.owner, h.count⟩

theorem passes_stretchPair (s : State) (i : Inputs) (c : Cycle) :
    Passes s (stretchPair { s with inputs := i } c) 1 := ⟨⟨rfl, rfl, rfl⟩, rfl, rfl, rfl⟩

theorem passes_stretched (k : Nat) (s : State) (c : Cycle) : Passes s (stretched k s c) (k + 1) :=
  ⟨⟨rfl, rfl, rfl⟩, rfl, rfl, rfl⟩

/-- From the sampling edge at which VPA is recognised to S7, which E enters low. -/
theorem RmwSampling.loneRun_vpa {s : State} {c : Cycle} {w : Nat} {v : Byte} (h : RmwSampling s c)
    (ha : c.answer = Answer.of (.vpa w)) (hw : w ≤ c.edge) (hoff : s.Offers c v) :
    ∃ u d, ReadPortionRuns s c u d v (3 + 2 * syncPairs (s.ephase + 1).val) (2 + syncPairs (s.ephase + 1).val) ∧
      u.ephase = 0 := by
  obtain ⟨k, hk⟩ := Nat.exists_eq_add_of_le' (syncPairs_bounds (s.ephase + 1).isLt).1
  obtain ⟨x, m, hpair, hstretch⟩ := h.stretches ha hw hoff
  rw [hk, Nat.add_sub_cancel] at hstretch
  obtain ⟨y, j, hrun, hdata⟩ := hstretch.loneRun
  obtain ⟨u, d, hlast, hphase⟩ := (hstretch.driven j hdata).loneRun_S7
  refine ⟨u, d, ⟨?_, fun n => ?_⟩, hphase.trans (show (9 + 1 : Fin 10) = 0 from rfl)⟩
  · rw [hk, show 2 + (k + 1) = (1 + (k + 1)) + 1 by omega]
    exact hlast.since (((passes_stretchPair ..).withData x m).trans ((passes_stretched ..).withData y j))
      ⟨rfl, rfl, rfl, rfl, rfl⟩ rfl
  · rw [hk, show n + (3 + 2 * (k + 1)) = (n + 2 + 1 + 2 * k) + 2 by omega, hpair, hrun, hlast.runs]

/-- From the sampling edge at which VPA is recognised to the end of the cycle. -/
theorem SecondEdge.loneRun_vpa {s : State} {c : Cycle} {w : Nat} (h : SecondEdge s c)
    (ha : c.answer = Answer.of (.vpa w)) (hw : w ≤ c.edge) :
    ∃ t, loneRun (3 + 2 * syncPairs (s.ephase + 1).val) s = .next t ∧
      RmwEnded s c t .vpa (2 + syncPairs (s.ephase + 1).val) := by
  obtain ⟨k, hk⟩ := Nat.exists_eq_add_of_le' (syncPairs_bounds (s.ephase + 1).isLt).1
  obtain ⟨hpair, hstretch⟩ := stretching_of_vpa h.run h.st h.clk h.closing h.term h.vma h.silent
    (by simp [Cycle.reads, h.kind, h.second]) (congrArg Answer.shape ha) hw
  rw [hk, Nat.add_sub_cancel] at hstretch
  let u := stretchPair { s with inputs := s.inputs.withLines false false true false } c
  let d : Cycle := { c.paired with
    st := if c.second then .S17 else .S5, pairs := c.pairs + 1 + k, edge := c.edge + 1 + (k + 1) }
  have h17 : SecondPortion (stretched k u c.paired) d :=
    ⟨rfl, h.kind, h.second, h.polite, h.closing, h.held⟩
  obtain ⟨t, ht, hend⟩ := h17.loneRun_S19 (if_pos h.second) rfl nofun
  refine ⟨t, ?_, ?_⟩
  · rw [hk, show 3 + 2 * (k + 1) = (2 + 1 + 2 * k) + 2 by omega, hpair, hstretch.loneRun]
    exact ht
  · rw [hk, show 2 + (k + 1) = (1 + (k + 1)) + 1 by omega]
    exact hend.since ((passes_stretchPair ..).trans (passes_stretched ..))
      ⟨rfl, rfl, rfl, rfl, rfl⟩ rfl

theorem Shape.silentFor_vpa (w : Nat) : (Shape.vpa w).SilentFor w :=
  ⟨Nat.le_refl w, fun k hk => by simp [Shape.driveAt, Drive.lines, Drive.quiet, hk]⟩

/-- VPA stretches both portions; the write portion meets E five CLK cycles after the fall that ends the read portion
(R242). -/
theorem RmwIssued.ends_vpa {i : Instr} {s : State} {fc : Fc} {a : Addr} {x : Strobes} {v : Byte} {w1 w2 : Nat}
    (h : RmwIssued i s fc a x (Answer.of (.vpa w1)) (Answer.of (.vpa w2)))
    (hoff : s.Offers (s.prepared (rmwCycle fc a x)) v) :
    ∃ t, exec i s = .next t ∧ t.Calm ∧
      RmwEnded s { rmwCycle fc a x with old := v } t .vpa
        (10 + w1 + w2 + syncPairs ((s.ephase.val + 3 + w1) % 10) + syncPairs ((5 + w2) % 10)) := by
  obtain ⟨u, d, hread, hphase⟩ := (h.rmwSampling ⟨rfl, rfl⟩ w1).loneRun_vpa h.answer (Nat.le_add_left _ _)
    (hoff.congr rfl ⟨rfl, rfl, rfl⟩ rfl rfl ⟨rfl, rfl, rfl, rfl, rfl⟩ rfl)
  obtain ⟨hsecond, hans⟩ := h.secondEdge ⟨rfl, rfl⟩ hread.toReadPortionEnds w2
  have hwrite := hsecond.loneRun_vpa hans (Nat.le_add_left _ _)
  have hphase1 : ((sampledState w1 (rmwCycle fc a x) s).ephase + 1).val = (s.ephase.val + 3 + w1) % 10 :=
    phase_at_edge s.ephase w1
  have hphase2 : ((sampledSecond w2 d u).ephase + 1).val = (5 + w2) % 10 := by
    show (u.ephase + 1 + 1 + 1 + 1 + Fin.ofNat 10 w2 + 1).val = _
    rw [hphase]
    exact phase_at_edge 2 w2
  rw [hphase1] at hread
  rw [hphase2] at hwrite
  have hbound := syncPairs_bounds (Nat.mod_lt (s.ephase.val + 3 + w1) (by decide : 0 < 10))
  have hbound2 := syncPairs_bounds (Nat.mod_lt (5 + w2) (by decide : 0 < 10))
  obtain ⟨t, ht, hcalm, hend⟩ := h.ends (Shape.silentFor_vpa w1) hread (Shape.silentFor_vpa w2) hwrite (by omega)
  refine ⟨t, ht, hcalm, ?_⟩
  rw [show 10 + w1 + w2 + syncPairs ((s.ephase.val + 3 + w1) % 10) + syncPairs ((5 + w2) % 10) =
    6 + w1 + (2 + syncPairs ((s.ephase.val + 3 + w1) % 10)) + w2 + (2 + syncPairs ((5 + w2) % 10)) by omega]
  exact hend

/-- Settles O29: VPA is recognised in each portion, the peripheral gives the byte while E is high in the first and takes
the new one at the fall of E in the second. -/
theorem rmwEndsByVpa : Obligations.RmwEndsByVpa := by
  unfold Obligations.RmwEndsByVpa
  intro s fc a old w1 w2 rest hready hans hold i hi hw
  obtain ⟨x, hc, hx⟩ := rmw_as_cycle hi hw
  have hissued := RmwIssued.of_answers hready hw hc hans nofun nofun
  obtain ⟨t, ht, hcalm, hdone⟩ := hissued.ends_vpa (hissued.offers (fun _ => rfl) hx hold)
  exact ⟨t, ht, hcalm, hdone.holds hx rfl, hdone.completed⟩

end Sys2Proof.Machine
end

section
/-! SUPPORT. The end of an acknowledge cycle after each termination (43_iack_cycle.md R215, R216, R218, R222): from S6
to the vector number, or to the fault of R222, with VMA asserted or not, for a device that keeps its obligations
(R141). -/

namespace Sys2Proof.Machine

/-! ## What an acknowledge cycle yields -/

/-- The vector number an acknowledge cycle yields after `term`; `none` where R222 makes the end a fault. -/
def ackVector (ps : Params) (term : Term) (din : Half) (level : Level) : Option Byte :=
  if term.isBerr then ps.iackBerr
  else if term = .dtack then some (vectorOf din)
  else some (autovector level)

/-- The outcome `r` ends the acknowledge cycle `c`, `n` CLK cycles after `s`, with this vector number, or where there
is none with the fault that names the cycle. -/
def Acknowledges (s : State) (c : Cycle) (r : Res) (n : Nat) : Option Byte → Prop
  | some v => ∃ t, r = .next t ∧ Completed s t (.vector v) n
  | none   => r = .fault (.iackBusError { kind := .iack, fc := c.fc, addr := c.addr })

section
variable {s u : State} {c d : Cycle} {r : Res} {n : Nat} {v : Option Byte}

theorem Acknowledges.since {m : Nat} (h : Acknowledges u d r n v) (hp : Passes s u m) (hc : SameRequest c d) :
    Acknowledges s c r (m + n) v := by
  cases v with
  | some x =>
    obtain ⟨t, ht, hdone⟩ := h
    exact ⟨t, ht, hdone.since hp.results hp.owner hp.count⟩
  | none =>
    have h : r = .fault (.iackBusError { kind := .iack, fc := d.fc, addr := d.addr }) := h
    rwa [hc.fc, hc.addr] at h

theorem Acknowledges.graft (h : Acknowledges s c r n v) (x : State) : Acknowledges s c (graftRes r x) n v := by
  cases v with
  | some y =>
    obtain ⟨t, rfl, hdone⟩ := h
    exact ⟨_, rfl, hdone.graft x⟩
  | none =>
    cases h
    rfl

/-- What does nothing to a bus without a cycle changes nothing of the end. -/
theorem Acknowledges.andThen (h : Acknowledges s c r n v) {k : State → Res}
    (hk : ∀ t, t.run = none → k t = .next t) : Acknowledges s c (andThen r k) n v := by
  cases v with
  | some x =>
    obtain ⟨t, rfl, hdone⟩ := h
    exact ⟨t, hk t hdone.run, hdone⟩
  | none =>
    cases h
    rfl

theorem Acknowledges.settled (h : Acknowledges s c r n v) : settled r := by
  cases v with
  | some x =>
    obtain ⟨t, rfl, hdone⟩ := h
    exact settled_next (by simp [State.cycleOver, hdone.run])
  | none =>
    cases h
    exact fun _ => nofun

end

theorem loneRun_none {s : State} (h : s.run = none) (n : Nat) : loneRun n s = .next s := by
  cases n
  · rfl
  · simp [loneRun, State.cycleOver, h]

/-! ## The last state -/

theorem closed_completed {s : State} {c : Cycle} (hk : c.kind = .iack) (hp : c.answer.polite)
    (hh : s.held = DataLines.z) (hc : s.clk = .low) (r : Result) : Completed s ((closed s c).report r) r 0 := by
  rw [closed_eq hp]
  exact {
    run := rfl, clk := hc, data := by simpa [State.releaseClosing, hk] using hh, held := hh, vma := rfl
    dtack := rfl, berr := rfl, vpa := rfl, avec := rfl
    results := rfl, length := rfl, owner := rfl }

/-- The end of the cycle in its last state, after the writes of that state. -/
theorem finish_acknowledges {s : State} {c : Cycle} (hk : c.kind = .iack) (hp : c.answer.polite)
    (hh : s.held = DataLines.z) (hc : s.clk = .low) :
    Acknowledges s c (((s.negateAll c.answer).deviceReleasesData c.answer).finish c) 0
      (ackVector s.params s.term s.din c.level) := by
  have hfinish : ((s.negateAll c.answer).deviceReleasesData c.answer).finish c = (closed s c).finishResult c := rfl
  have hparams : (closed s c).params = s.params := by rw [closed_eq hp]
  have hterm : (closed s c).term = s.term := by rw [closed_eq hp]
  have hdin : (closed s c).din = s.din := by rw [closed_eq hp]
  have completes (n : Byte) : Acknowledges s c (.next ((closed s c).report (.vector n))) 0 (some n) :=
    ⟨_, rfl, closed_completed hk hp hh hc _⟩
  simp only [hfinish, State.finishResult, hk, hparams, hterm, hdin, ackVector]
  split
  · cases s.params.iackBerr with
    | some n => exact completes n
    | none => rfl
  · split
    · exact completes _
    · exact completes _

/-- An acknowledge cycle in progress, with no device left on the bus and a polite device of its own. -/
structure AckGoing (s : State) (c : Cycle) : Prop where
  run     : s.run = some c
  kind    : c.kind = .iack
  polite  : c.answer.polite
  closing : s.closing = none
  held    : s.held = DataLines.z

theorem enterState_iack {c : Cycle} (hk : c.kind = .iack) (st : St) (s : State) :
    enterState c st s = formatR c st s := by
  simp only [enterState, hk]

theorem Cycle.entered_iack {c : Cycle} (hk : c.kind = .iack) {st : St} (hs : st ≠ .S12) (din : Half) :
    c.entered st din = { c with st := st } := by
  unfold Cycle.entered
  split
  · rw [if_neg (by simp [hk])]
  · exact absurd rfl hs
  · rfl

section
variable {s : State} {c : Cycle} (h : AckGoing s c)
include h

/-- A falling edge of the cycle is one of the bus controller, and nothing follows the one that ends it. -/
theorem AckGoing.falling_ends {r : Res} {m : Nat} {v : Option Byte} (hs : c.st ≠ .faulted) (hc : s.clk = .high)
    (hr : (atFall s).controllerEdge = r) (hend : Acknowledges s c r m v) (n : Nat) :
    Acknowledges s c (loneRun (n + 1) s) m v := by
  have hhalf : loneHalf s = andThen r State.peripheralEdge := by
    simp only [loneHalf, hc]
    exact congrArg (andThen · State.peripheralEdge) hr
  rw [loneRun_succ n h.run hs, hhalf]
  exact (hend.andThen fun _ => peripheralEdge_noCycle).andThen fun _ ht => loneRun_none ht n

theorem AckGoing.controllerEdge_S6 {term : Term} (hs : c.st = .S6)
    (hd : c.lateDecision s.inputs s.term = some term) :
    (atFall s).controllerEdge = (atEndS6 (atFall s) c term).goTo c .S7 := by
  have hr : (atFall s).run = some c := h.run
  simp only [State.controllerEdge, hr, hs]
  exact endS6_of_lateDecision (s := atFall s) (by simp [h.kind]) hd

theorem AckGoing.atEndS6_eq (term : Term) : atEndS6 (atFall s) c term =
    { ((atFall s).sampleLines c true).latch c.strobes with term := term } := by
  simp only [atEndS6, State.latchFor, h.kind]

/-- Without BERR alone the cycle ends at S7, with what end(S6) has latched (R215, R216, R222). -/
theorem AckGoing.endsAtS7 {term : Term} (hs : c.st = .S6) (hc : s.clk = .high)
    (hd : c.lateDecision s.inputs s.term = some term) (hb : term ≠ .berr) (n : Nat) :
    Acknowledges s c (loneRun (n + 1) s) 1 (ackVector s.params term (s.latch c.strobes).din c.level) := by
  have hedge := h.controllerEdge_S6 hs hd
  rw [h.atEndS6_eq] at hedge
  let u : State := { ((atFall s).sampleLines c true).latch c.strobes with term := term }
  have hu : enterState c .S7 u = .next ((u.negateAll c.answer).deviceReleasesData c.answer) := by
    rw [enterState_iack h.kind]
    exact congrArg Host.Outcome.next (if_neg hb)
  have hgo : u.goTo c .S7 =
      ((u.negateAll c.answer).deviceReleasesData c.answer).finish { c with st := .S7 } := by
    rw [goTo_last hu (by simp [nextSt, h.kind, u, hb]), Cycle.entered_iack h.kind (by decide)]
  have hend := finish_acknowledges (s := u) (c := { c with st := .S7 }) h.kind h.polite h.held rfl
  exact h.falling_ends (by simp [hs]) hc (hedge.trans hgo)
    (hend.since (m := 1) ⟨⟨rfl, rfl, rfl⟩, rfl, rfl, rfl⟩ ⟨rfl, rfl, rfl, rfl, rfl⟩) n

/-- From S6, BERR without DTACK leads through S7 and S8 (R147). -/
theorem AckGoing.loneRun_toS8 (hs : c.st = .S6) (hc : s.clk = .high) (hv : s.pins.vma = .negated)
    (hd : c.lateDecision s.inputs s.term = some .berr) (n : Nat) :
    loneRun (n + 2) s = loneRun n { atEndS6 (atFall s) c .berr with
      clk := .high, run := some { c with st := .S8 } } := by
  let u : State := { atEndS6 (atFall s) c .berr with run := some { c with st := .S7 } }
  have hclosing : u.closing = none := by
    simp only [u, h.atEndS6_eq]
    exact h.closing
  have hterm : u.term = .berr := rfl
  have hclk : u.clk = .low := by
    simp only [u, h.atEndS6_eq]
    rfl
  have hS7 : loneHalf s = .next u := by
    refine loneHalf_falling hc ?_ ((congrArg Pins.vma (atEndS6_pins (atFall s) c .berr)).trans hv)
    refine (h.controllerEdge_S6 hs hd).trans ?_
    rw [goTo_between (enterState_iack h.kind .S7 _) (st' := .S8) (by simp [nextSt, atEndS6]),
      Cycle.entered_iack h.kind (by decide)]
    rfl
  have hS8 : loneHalf u = .next { u with clk := .high, run := some { c with st := .S8 } } := by
    rw [loneHalf_rising (c := { c with st := .S7 }) (st := .S8) hclk hclosing rfl rfl (by simp [nextSt, hterm])]
    exact goTo_between (st' := .S9) (enterState_iack h.kind .S8 _) rfl
  rw [loneRun_succ (n + 1) h.run (by simp [hs]), hS7, andThen_next,
    loneRun_succ (s := u) (c := { c with st := .S7 }) n rfl nofun, hS8, andThen_next]

/-- BERR without DTACK ends the cycle at S9 (R147, R222). -/
theorem AckGoing.endsAtS9 (hs : c.st = .S6) (hc : s.clk = .high) (hv : s.pins.vma = .negated)
    (hd : c.lateDecision s.inputs s.term = some .berr) (n : Nat) :
    Acknowledges s c (loneRun (n + 3) s) 2 s.params.iackBerr := by
  rw [show n + 3 = n + 1 + 2 from rfl, h.loneRun_toS8 hs hc hv hd, h.atEndS6_eq]
  let u : State := { ((atFall s).sampleLines c true).latch c.strobes with
    term := .berr, clk := .high, run := some { c with st := .S8 } }
  have hgoing : AckGoing u { c with st := .S8 } := ⟨rfl, h.kind, h.polite, h.closing, h.held⟩
  have hedge : (atFall u).controllerEdge =
      (((atFall u).negateAll c.answer).deviceReleasesData c.answer).finish { c with st := .S9 } := by
    rw [controllerEdge_movesOn (s := atFall u) (c := { c with st := .S8 }) (st := .S9) rfl rfl rfl,
      goTo_last (enterState_iack (c := { c with st := .S8 }) h.kind .S9 (atFall u)) (by simp [nextSt, h.kind]),
      Cycle.entered_iack (c := { c with st := .S8 }) h.kind (by decide)]
  have hend := finish_acknowledges (s := atFall u) (c := { c with st := .S9 }) h.kind h.polite h.held rfl
  have hrun := hgoing.falling_ends nofun rfl hedge
    (hend.since (m := 1) ⟨⟨rfl, rfl, rfl⟩, rfl, rfl, rfl⟩ ⟨rfl, rfl, rfl, rfl, rfl⟩) n
  exact hrun.since (m := 1) ⟨⟨rfl, rfl, rfl⟩, rfl, rfl, rfl⟩ ⟨rfl, rfl, rfl, rfl, rfl⟩

end

end Sys2Proof.Machine
end

section
/-! SUPPORT. Whole acknowledge cycles without the stretch (43_iack_cycle.md R215, R218, R222): from the issue to the
sampling edge at which DTACK, BERR or AVEC is recognised, and from there to the end. -/

namespace Sys2Proof.Machine

/-! ## From the sampling edge to the end -/

/-- An acknowledge cycle at the end of S4 or of a wait pair, before anything is recognised, with no device left on the
bus and a polite device of its own. -/
structure AckSampling (s : State) (c : Cycle) : Prop extends AtFirstEdge s c where
  kind   : c.kind = .iack
  polite : c.answer.polite
  held   : s.held = DataLines.z
  data   : s.pins.data = DataLines.z

/-- What end(S6) latches after `term` has been recognised on these lines. -/
def latchedDin (s : State) (c : Cycle) (i : Inputs) (term : Term) : Half :=
  ((sampledToS6 s c i term).latch c.strobes).din

section
variable {s : State} {c : Cycle} {d b v a : Bool} {term late : Term} (h : AckSampling s c)
  (hl : c.lines c.edge = (d, b, v, a)) (hd : decideFirst d b v (s.params.hasAvec && a) = .proceed term)
include h hl hd

/-- What the sampling edge recognises leads to S6, in which the device drives its data (R214). -/
theorem AckSampling.loneRun_toS6 (n : Nat) :
    loneRun (n + 2) s = loneRun n (sampledToS6 s c (s.inputs.withLines d b v a) term) := by
  have hedge := h.loneHalf_recognises hl (term := term) (by simpa [h.kind] using hd)
  have h5 := h.toAtFirstEdge.inS5 (s.inputs.withLines d b v a) term
  have hS6 := h5.loneHalf_S5 rfl rfl fun _ => h.data
  rw [firstS6, if_neg (by simp [h.kind])] at hS6
  rw [loneRun_succ _ h.run (St.samples_not_faulted h.st), hedge, andThen_next, loneRun_succ _ h5.run nofun, hS6,
    andThen_next]
  rfl

/-- The end, two or three CLK cycles after the edge (R146, R147). -/
theorem AckSampling.acknowledges
    (hlate : c.recognised.lateDecision (s.inputs.withLines d b v a) term = some late) :
    Acknowledges s c (loneRun 5 s) (if late = .berr then 3 else 2)
      (ackVector s.params late (latchedDin s c (s.inputs.withLines d b v a) term) c.level) := by
  have h6 : AckGoing (sampledToS6 s c (s.inputs.withLines d b v a) term) c.recognised :=
    ⟨rfl, h.kind, h.polite, h.closing, h.held⟩
  rw [h.loneRun_toS6 hl hd 3]
  by_cases hb : late = .berr
  · subst hb
    exact (h6.endsAtS9 rfl rfl h.vma hlate 0).since (m := 1) ⟨⟨rfl, rfl, rfl⟩, rfl, rfl, rfl⟩
      ⟨rfl, rfl, rfl, rfl, rfl⟩
  · rw [if_neg hb]
    exact (h6.endsAtS7 rfl rfl hlate hb 2).since (m := 1) ⟨⟨rfl, rfl, rfl⟩, rfl, rfl, rfl⟩
      ⟨rfl, rfl, rfl, rfl, rfl⟩

end

/-! ## From the issue to the sampling edge -/

/-- The cycle of `IACK level` before it starts. -/
def ackCycle (s : State) (level : Level) : Cycle := cycleOf s.params.dataBus (.iack level)

/-- An acknowledge cycle that the processor may start, and the shape of the answer to it. -/
structure AckIssued (s : State) (level : Level) (x : Shape) : Prop where
  ready   : s.Ready
  nonzero : level ≠ 0
  answer  : (s.prepared (ackCycle s level)).answer = Answer.of x

/-- A scripted answer. -/
theorem AckIssued.scripted {s : State} {level : Level} {x : Shape} {rest : List Answer} (h : s.Ready)
    (hlevel : level ≠ 0) (ha : s.answers = Answer.of x :: rest) (hx : x ≠ .resident) : AckIssued s level x :=
  ⟨h, hlevel, prepared_answer ha hx _⟩

/-- Where nothing is scripted, the responder of the level answers (R219; log 12). -/
theorem AckIssued.unscripted {s : State} {level : Level} (h : s.Ready) (hlevel : level ≠ 0) (ha : s.answers = []) :
    AckIssued s level (responderShape (responderOf s.params level)) := by
  refine ⟨h, hlevel, ?_⟩
  simp only [State.prepared, ha, State.answerFor]
  rfl

theorem ackSampled_edge (s : State) (level : Level) (w : Nat) :
    (sampledCycle w (ackCycle s level) s).edge = w := Nat.zero_add w

section
variable {s : State} {level : Level} {x : Shape} (h : AckIssued s level x)
include h

theorem AckIssued.wf : (Instr.iack level).wf s.params.dataBus = true := by
  simpa [Instr.wf, Instr.illegal] using h.nonzero

/-- The meaning is the run of the cycle alone, in a calm environment. -/
theorem AckIssued.exec_lone :
    (∃ y, exec (.iack level) s = graftRes (loneRun (cycleBudget (s.prepared (ackCycle s level)))
      (launched (ackCycle s level) s)) y) ∧ ∀ t, exec (.iack level) s = .next t → t.Calm :=
  Machine.exec_lone keepsOut_calm h.wf h.ready.run h.ready.owner (calm_launched h.ready.toCalm _)

theorem AckIssued.sampling (w : Nat) : AckSampling (sampledState w (ackCycle s level) s)
    (sampledCycle w (ackCycle s level) s) where
  toAtFirstEdge := sampledState_atFirstEdge h.ready.toBusFree rfl w
  kind := rfl
  polite := h.answer.symm ▸ ⟨rfl, rfl⟩
  held := h.ready.held
  data := (launched_releaseClosing_data _ s).trans h.ready.data

theorem AckIssued.lines_at (w k : Nat) :
    (sampledCycle w (ackCycle s level) s).lines k = (x.driveAt k false).lines :=
  Cycle.lines_of_answer (c := sampledCycle w (ackCycle s level) s) h.answer k

theorem AckIssued.lines (w : Nat) : (sampledCycle w (ackCycle s level) s).lines
    (sampledCycle w (ackCycle s level) s).edge = (x.driveAt w false).lines := by
  rw [ackSampled_edge]
  exact h.lines_at w w

/-- Left unanswered for `w` edges the cycle ends as it does from the next one; its budget leaves more than the half
clocks it takes from there. -/
theorem AckIssued.acknowledges {w k n : Nat} {v : Option Byte} (hx : x.SilentFor w) (hk : k ≤ 123)
    (hend : Acknowledges (sampledState w (ackCycle s level) s)
      (sampledCycle w (ackCycle s level) s)
      (loneRun k (sampledState w (ackCycle s level) s)) n v) :
    Acknowledges s (ackCycle s level) (exec (.iack level) s) (2 + w + n) v := by
  obtain ⟨⟨y, hy⟩, -⟩ := h.exec_lone
  have hrun := loneRun_toFirstEdge (c := ackCycle s level) h.ready.toBusFree nofun rfl w k
    fun k hk => (Cycle.lines_of_answer h.answer _).trans (by simpa [ackCycle, cycleOf, newCycle] using hx.before k hk)
  have hbudget : k + 2 * w + 5 ≤ cycleBudget (s.prepared (ackCycle s level)) := by
    have hpatience : w ≤ (Answer.of x).shape.patience := hx.patience
    rw [cycleBudget, h.answer]
    omega
  rw [hy, loneRun_settled hbudget (hrun ▸ hend.settled), hrun]
  have hcount : s.clkCount + 1 + 1 + w = s.clkCount + (2 + w) := by omega
  have hpasses : Passes s (sampledState w (ackCycle s level) s) (2 + w) :=
    ⟨⟨rfl, rfl, rfl⟩, rfl, rfl, hcount⟩
  exact (hend.since hpasses (c := ackCycle s level) ⟨rfl, rfl, rfl, rfl, rfl⟩).graft y

end

/-- What an acknowledge cycle with a vector number leaves, and what it leaves alone. -/
structure AckCompleted (s t : State) (v : Byte) (n : Nat) : Prop where
  completed : Completed s t (.vector v) n
  calm      : t.Calm
  answers   : t.answers = s.answers.drop 1
  mem       : t.mem = s.mem
  pit       : t.pit = s.pit

section
variable {s : State} {level : Level} {x : Shape} {n : Nat} (h : AckIssued s level x)
include h

theorem AckIssued.completes {v : Byte} {m : Nat}
    (hend : Acknowledges s (ackCycle s level) (exec (.iack level) s) n (some v)) (hm : n = m) :
    ∃ t, exec (.iack level) s = .next t ∧ AckCompleted s t v m := by
  subst hm
  obtain ⟨t, ht, hdone⟩ := hend
  have honly := exec_onlyRead (i := .iack level) (.inr rfl) ht
  exact ⟨t, ht, hdone, h.exec_lone.2 t ht, (exec_scripts ht).answers, honly.mem,
    (honly.pit (PitAlone.refl h.ready.pitReset h.ready.events)).2⟩

/-- DTACK or BERR after `w` wait pairs (R215, R222). -/
theorem AckIssued.terminates {w : Nat} {d b late : Bool} {term : Term} (hx : x.Terminates w d b late)
    (hdb : (d || b) = true) (hterm : decideLate (firstTerm d b) d late false = some term) :
    Acknowledges s (ackCycle s level) (exec (.iack level) s) (2 + w + if term = .berr then 3 else 2)
      (ackVector s.params term (latchedDin (sampledState w (ackCycle s level) s) (sampledCycle w (ackCycle s level) s)
        (s.inputs.withLines d b false false) (firstTerm d b)) level) := by
  have hlate := hx.lateDecision (c := (sampledCycle w (ackCycle s level) s).recognised) h.answer
    (congrArg (· + 1) (ackSampled_edge s level w)) s.inputs (firstTerm d b)
  exact h.acknowledges hx.silentFor (by decide) ((h.sampling w).acknowledges ((h.lines w).trans hx.first)
    (decideFirst_proceeds (Bool.and_false d) hdb _) (hlate.trans hterm))

/-- BERR yields the parameter, or its fault (R222). -/
theorem AckIssued.terminates_berr {w : Nat} {d b late : Bool} {term : Term} (hx : x.Terminates w d b late)
    (hdb : (d || b) = true) (hterm : decideLate (firstTerm d b) d late false = some term) (hb : term.isBerr = true)
    (hn : 2 + w + (if term = .berr then 3 else 2) = n) :
    Acknowledges s (ackCycle s level) (exec (.iack level) s) n s.params.iackBerr := by
  have hend := h.terminates hx hdb hterm
  rwa [ackVector, if_pos hb, hn] at hend

end

/-- Settles O36: BERR is recognised at its edge or at end(S6), and the cycle ends as a read does, with the parameter
for its vector number. -/
theorem acknowledgeEndedByBerr : Obligations.AcknowledgeEndedByBerr := by
  unfold Obligations.AcknowledgeEndedByBerr
  intro s level w n d rest hready hlevel hans
  obtain ⟨x, hissued, hend⟩ : ∃ x, AckIssued s level x ∧
      Acknowledges s (ackCycle s level) (exec (.iack level) s) n s.params.iackBerr := by
    have issued {x : Shape} (ha : s.answers = Answer.of x :: rest) (hx : x ≠ .resident) : AckIssued s level x :=
      .scripted hready hlevel ha hx
    rcases hans with ⟨ha, rfl⟩ | ⟨ha, rfl⟩ | ⟨ha, rfl⟩
    · exact ⟨_, issued ha nofun, (issued ha nofun).terminates_berr (Shape.terminates_berr w) rfl
        (term := .berr) rfl rfl (by rw [if_pos rfl]; omega)⟩
    · exact ⟨_, issued ha nofun, (issued ha nofun).terminates_berr (Shape.terminates_berrDtack w d) rfl
        (term := .berrDtack) rfl rfl (by rw [if_neg nofun]; omega)⟩
    · exact ⟨_, issued ha nofun, (issued ha nofun).terminates_berr (Shape.terminates_lateBerr w d) rfl
        (term := .berrDtack) rfl rfl (by rw [if_neg nofun]; omega)⟩
  refine ⟨fun v hv => ?_, fun hv => ?_⟩
  · obtain ⟨t, ht, hdone⟩ := hissued.completes (hv ▸ hend) rfl
    exact ⟨t, ht, hdone.completed, hdone.calm, hdone.mem, hdone.pit⟩
  · rw [hv] at hend
    exact hend

/-! ## AVEC -/

/-- A device that asserts AVEC at the first edge and then nothing. -/
def avecOnce : Shape := .edges [{ Drive.quiet with avec := true }]

/-- AVEC is recognised at end(S4), and end(S6) leaves it (R218; log 14). -/
theorem AckIssued.completes_avec {s : State} {level : Level} (h : AckIssued s level avecOnce)
    (havec : s.params.hasAvec = true) :
    ∃ t, exec (.iack level) s = .next t ∧ AckCompleted s t (autovector level) 4 := by
  let c := (sampledCycle 0 (ackCycle s level) s).recognised
  have hlate (i : Inputs) : c.lateDecision i .avec = some .avec := by
    have ha : c.answer = Answer.of avecOnce := h.answer
    have he : c.edge = 1 := rfl
    rw [Cycle.lateDecision, Cycle.lateInputs, ha, he]
    rfl
  have hfirst : decideFirst false false false (s.params.hasAvec && true) = .proceed .avec := by
    rw [havec]
    rfl
  have hend := (h.sampling 0).acknowledges (h.lines 0) hfirst (hlate _)
  exact h.completes (h.acknowledges ⟨Nat.zero_le _, nofun⟩ (by decide) hend) rfl

/-- An acknowledge cycle of a machine without AVEC, in which no other line is sampled asserted at any edge: in S4 or in
a wait pair, with nothing recognised. -/
structure Unheard (s : State) (c : Cycle) : Prop extends FirstPortion s c where
  place  : (c.st.samples ∧ s.clk = .high) ∨ (c.st = .SwLow ∧ s.clk = .low)
  term   : s.term = .none
  noAvec : s.params.hasAvec = false
  dtack  : s.inputs.dtack = false
  berr   : s.inputs.berr = false
  vpa    : s.inputs.vpa = false
  quiet  : ∀ k, ∃ a, c.lines k = (false, false, false, a)

theorem Unheard.loneHalf {s : State} {c : Cycle} (h : Unheard s c) :
    ∃ t d, loneHalf s = .next t ∧ Unheard t d ∧ t.results = s.results := by
  rcases h.place with ⟨hs, hc⟩ | ⟨hs, hc⟩
  · obtain ⟨a, ha⟩ := h.quiet c.edge
    simp only [Cycle.lines, Prod.mk.injEq] at ha
    obtain ⟨hd, hb, hv, -⟩ := ha
    let i : Inputs := ((atFall s).sampleLines c false).inputs
    have hid : i.dtack = false := by simp [i, State.sampleLines, atFall, tick, h.dtack, hd]
    have hib : i.berr = false := by simp [i, State.sampleLines, atFall, tick, h.berr, hb]
    have hiv : i.vpa = false := by simp [i, State.sampleLines, atFall, tick, h.vpa, hv]
    have havec : ((atFall s).sampleLines c false).avecCounts c = false := by
      have : ((atFall s).sampleLines c false).params.hasAvec = false := h.noAvec
      simp only [State.avecCounts, this, Bool.false_and]
    have hdecides : decideFirst i.dtack i.berr i.vpa false = .wait .none := by
      rw [hid, hib, hiv]
      rfl
    have hterm : ((atFall s).sampleLines c false).term = .none := h.term
    have hedge : (atFall s).controllerEdge =
        .next { (atFall s).sampleLines c false with term := .none, run := some c.waiting } := by
      rw [controllerEdge_samples (s := atFall s) h.run hs]
      simp only [State.sampleAndDecide, hterm, havec]
      exact congrArg (((atFall s).sampleLines c false).follow c) hdecides
    refine ⟨_, c.waiting, loneHalf_falling hc hedge h.vma, ?_, rfl⟩
    exact { run := rfl, first := h.first, closing := h.closing, vma := h.vma, place := .inr ⟨rfl, rfl⟩, term := rfl
            noAvec := h.noAvec, dtack := hid, berr := hib, vpa := hiv, quiet := h.quiet }
  · refine ⟨_, { c with st := .SwHigh }, loneHalf_SwLow h.run hs hc h.closing, ?_, rfl⟩
    exact { h with run := rfl, place := .inl ⟨trivial, rfl⟩ }

theorem Unheard.loneRun (n : Nat) {s : State} {c : Cycle} (h : Unheard s c) :
    ∃ t, loneRun n s = .next t ∧ t.run ≠ none ∧ t.results = s.results := by
  induction n generalizing s c with
  | zero => exact ⟨s, rfl, by simp [h.run], rfl⟩
  | succ n ih =>
    obtain ⟨u, d, hu, hunheard, hresults⟩ := h.loneHalf
    obtain ⟨t, ht, hrun, hlast⟩ := ih hunheard
    have hst : c.st ≠ .faulted := by
      rcases h.place with ⟨hs, -⟩ | ⟨hs, -⟩
      · exact St.samples_not_faulted hs
      · simp [hs]
    exact ⟨t, by rw [loneRun_succ n h.run hst, hu, andThen_next, ht], hrun, hlast.trans hresults⟩

theorem avecOnce_lines (k : Nat) : ∃ a, (avecOnce.driveAt k false).lines = (false, false, false, a) := by
  cases k with
  | zero => exact ⟨true, rfl⟩
  | succ k => exact ⟨false, by simp [avecOnce, Shape.driveAt, Drive.lines, Drive.quiet]⟩

/-- Without AVEC the cycle waits, for as long as its budget lasts (R16, R150). -/
theorem AckIssued.waits_avec {s : State} {level : Level} (h : AckIssued s level avecOnce)
    (havec : s.params.hasAvec = false) :
    ∃ t, exec (.iack level) s = .next t ∧ t.run ≠ none ∧ t.results = s.results := by
  have hedge := h.sampling 0
  have hunheard : Unheard (sampledState 0 (ackCycle s level) s)
      (sampledCycle 0 (ackCycle s level) s) :=
    { hedge.toFirstPortion with
      place := .inl ⟨hedge.st, rfl⟩, term := rfl, noAvec := havec, dtack := h.ready.dtack, berr := h.ready.berr
      vpa := h.ready.vpa
      quiet := fun k => h.lines_at 0 k ▸ avecOnce_lines k }
  obtain ⟨n, hn⟩ : ∃ n, cycleBudget (s.prepared (ackCycle s level)) = n + 2 * 0 + 5 :=
    Nat.exists_eq_add_of_le' (by unfold cycleBudget; omega)
  obtain ⟨t, ht, hrun, hresults⟩ := hunheard.loneRun n
  obtain ⟨⟨y, hy⟩, -⟩ := h.exec_lone
  rw [hn, loneRun_toFirstEdge (c := ackCycle s level) h.ready.toBusFree nofun rfl 0 n nofun, ht] at hy
  exact ⟨_, hy, hrun, hresults⟩

/-- Settles O25: AVEC alone is recognised at end(S4) where the machine has it, and else nothing is, ever. -/
theorem acknowledgeByAvec : Obligations.AcknowledgeByAvec := by
  unfold Obligations.AcknowledgeByAvec
  intro s level rest hready hlevel ha
  have h : AckIssued s level avecOnce := .scripted hready hlevel ha nofun
  refine ⟨fun havec => ?_, h.waits_avec⟩
  obtain ⟨t, ht, hdone⟩ := h.completes_avec havec
  exact ⟨t, ht, hdone.completed, hdone.calm⟩

end Sys2Proof.Machine
end

section
/-! SUPPORT. The stretch of a synchronous first portion of any kind (44_sync_cycle.md R235 to R238, R245), and an
acknowledge cycle in it: no device drives the data bus (43_iack_cycle.md R216). -/

namespace Sys2Proof.Machine

/-! ## The stretch, whatever the peripheral drives -/

/-- The first portion of a cycle waits for E, at the end of a wait pair, with `k` more to come. -/
structure WaitsForE (s : State) (c : Cycle) (k : Nat) : Prop where
  run     : s.run = some c
  first   : c.second = false
  closing : s.closing = none
  st      : c.st = .SwHigh
  clk     : s.clk = .high
  term    : s.term = .vpa
  holds   : HoldsVpa s.inputs c
  ahead   : EAhead s.pins.vma s.ephase k

section
variable {s : State} {c : Cycle}

theorem WaitsForE.decides {k : Nat} (h : WaitsForE s c k) :
    loneHalf s = andThen ((atFall s).follow c
      (if decide (s.pins.vma = .asserted) && eLast (s.ephase + 1) then .proceed .vpa else .wait .vpa))
      State.peripheralEdge := by
  have hterm : (atFall s).term = .vpa := h.term
  have hd : (atFall s).inputs.dtack = false := h.holds.dtack
  have hb : (atFall s).inputs.berr = false := h.holds.berr
  have hedge : (atFall s).controllerEdge = (atFall s).sampleAndDecide c :=
    controllerEdge_samples (s := atFall s) h.run (by rw [h.st]; trivial)
  simp only [State.sampleAndDecide, HoldsVpa.sampleLines (s := atFall s) h.holds, hterm, decideStretch, hd, hb,
    Bool.false_eq_true, if_false] at hedge
  simp only [loneHalf, h.clk]
  exact congrArg (andThen · State.peripheralEdge) hedge

/-- The device goes on with VPA at the edges to come. -/
theorem HoldsVpa.later {i : Inputs} {d : Cycle} (h : HoldsVpa i c) (ha : d.answer = c.answer) (he : c.edge ≤ d.edge) :
    HoldsVpa i d := by
  obtain ⟨hd, hb, hv, w, hw, hshape⟩ := h
  exact ⟨hd, hb, hv, w, hw.trans he, ha ▸ hshape⟩

/-- A wait pair more, with what the peripheral makes of the data bus in it. -/
theorem WaitsForE.pair {k m : Nat} {x : DataLines} (h : WaitsForE s c (k + 1))
    (hx : (stretchEdge s c).peripheralEdge = .next ((stretchEdge s c).withData x m)) :
    (∀ n, loneRun (n + 2) s = loneRun n ((stretchPair s c).withData x m)) ∧
      WaitsForE ((stretchPair s c).withData x m) c.paired k := by
  obtain ⟨hwaits, hahead⟩ := h.ahead.pair
  have hedge := h.decides
  rw [hwaits, if_neg nofun] at hedge
  exact ⟨loneRun_readPair (i := s.inputs) h.run (by rw [h.st]; trivial) h.closing hedge hx,
    { run := rfl, first := h.first, closing := h.closing, st := rfl, clk := rfl, term := rfl
      holds := h.holds.later rfl (Nat.le_succ _), ahead := hahead }⟩

/-- The last edge leads to S5, and the peripheral goes on as it did. -/
theorem WaitsForE.last (h : WaitsForE s c 0) (n : Nat) : loneRun (n + 1) s = loneRun n (stretched 0 s c) := by
  obtain ⟨hv, hp⟩ := h.ahead.last
  have hlast : (decide (s.pins.vma = .asserted) && eLast (s.ephase + 1)) = true := by
    rw [hv, hp]; rfl
  have hstays {u : State} (hu : u.ephase = 9) : u.peripheralEdge = .next u := by
    have hrise : eRises 9 = false := rfl
    have hfall : eFalls 9 = false := rfl
    unfold State.peripheralEdge
    split
    · rfl
    · simp only [hu, hrise, hfall, Bool.false_eq_true, if_false, ite_self]
  have hedge := h.decides
  rw [hlast, if_pos rfl, follow_proceed, andThen_next, hstays hp] at hedge
  rw [loneRun_succ n h.run (by simp [h.st]), hedge, andThen_next]
  congr 1
  simp only [stretched, atFall, tick, hp]
  rw [← hv, ← h.term]
  rfl

end

/-! ## The acknowledge cycle in the stretch -/

/-- Nothing is on the data bus, and the device of the acknowledge cycle is polite. -/
structure AckUndriven (s : State) (c : Cycle) : Prop where
  kind   : c.kind = .iack
  polite : c.answer.polite
  held   : s.held = DataLines.z
  data   : s.pins.data = DataLines.z

/-- Whom VPA answers gets no vector number from the data bus, so that the peripheral drives nothing (R216). -/
theorem AckUndriven.peripheralEdge {s : State} {c : Cycle} (h : AckUndriven s c) (hr : s.run = some c)
    (ht : s.term = .vpa) {w : Nat} (hshape : c.answer.shape = .vpa w) :
    ∃ m, s.peripheralEdge = .next (s.withData DataLines.z m) := by
  have hstays : s.withData DataLines.z s.draws = s := by
    rw [← h.data]; rfl
  have hdrives : s.deviceDrives { c with edge := c.edge + 3 } = .next (s.withData DataLines.z (s.draws + 2)) := by
    have hdata : s.deviceData { c with edge := c.edge + 3 } = DataLines.z := by
      simp [State.deviceData, hshape, Shape.driveAt, Drive.quiet, h.kind, ht]
    rw [State.deviceDrives, hdata]
    exact driveData_free (s := s.drawn 2) h.data
  have hreleases : s.deviceReleasesData c.answer = s.withData DataLines.z s.draws := by
    rw [State.deviceReleasesData, if_neg (by simp [h.polite.2]), ← h.held]
    rfl
  simp only [State.peripheralEdge, hr, hdrives, hreleases]
  split
  · split
    · exact ⟨_, rfl⟩
    · split
      · exact ⟨_, rfl⟩
      · exact ⟨_, by rw [hstays]⟩
  · exact ⟨_, by rw [hstays]⟩

section
variable {s : State} {c : Cycle}

theorem AckUndriven.pair (h : AckUndriven s c) {k : Nat} (hwaits : WaitsForE s c (k + 1)) :
    ∃ m, (∀ n, loneRun (n + 2) s = loneRun n ((stretchPair s c).withData DataLines.z m)) ∧
      WaitsForE ((stretchPair s c).withData DataLines.z m) c.paired k := by
  obtain ⟨-, -, -, w, -, hshape⟩ := hwaits.holds
  have hnext : AckUndriven (stretchEdge s c) c.waiting := ⟨h.kind, h.polite, h.held, h.data⟩
  obtain ⟨m, hm⟩ := hnext.peripheralEdge rfl rfl hshape
  exact ⟨m, hwaits.pair hm⟩

/-- The stretch runs to its end, whatever phase of E it has begun in, and nothing has been driven then (R238). -/
theorem WaitsForE.loneRun_undriven {k : Nat} (hwaits : WaitsForE s c k) (h : AckUndriven s c) :
    ∃ m, ∀ n, loneRun (n + 1 + 2 * k) s = loneRun n ((stretched k s c).withData DataLines.z m) := by
  induction k generalizing s c with
  | zero =>
    refine ⟨s.draws, fun n => ?_⟩
    rw [Nat.mul_zero, Nat.add_zero, hwaits.last, ← h.data]
    rfl
  | succ k ih =>
    obtain ⟨m, hrun, hnext⟩ := h.pair hwaits
    obtain ⟨m', hrun'⟩ := ih hnext ⟨h.kind, h.polite, h.held, rfl⟩
    refine ⟨m', fun n => ?_⟩
    rw [show n + 1 + 2 * (k + 1) = (n + 1 + 2 * k) + 2 by omega, hrun, hrun']
    congr 1
    simp only [stretched, State.withData, stretchPair, tick, Cycle.paired, Cycle.waiting, Nat.add_comm k 1,
      Nat.add_assoc]
    rw [← hwaits.term]
    rfl

/-- From the sampling edge at which VPA is recognised to the end of the first wait pair. -/
theorem AckSampling.stretches {w : Nat} (h : AckSampling s c) (ha : c.answer = Answer.of (.vpa w)) (hw : w ≤ c.edge) :
    ∃ m, (∀ n, loneRun (n + 2) s = loneRun n
        ((stretchPair { s with inputs := s.inputs.withLines false false true false } c).withData DataLines.z m)) ∧
      WaitsForE ((stretchPair { s with inputs := s.inputs.withLines false false true false } c).withData DataLines.z m)
        c.paired (syncPairs (s.ephase + 1).val - 1) := by
  have hl : c.lines c.edge = (false, false, true, false) := by
    simp [Cycle.lines, ha, Answer.of, Shape.driveAt, hw, Drive.quiet]
  have hshape : c.answer.shape = .vpa w := congrArg Answer.shape ha
  have hwait := loneHalf_samples h.run h.st h.clk h.term h.silent hl
  rw [show decideFirst false false true (s.params.hasAvec && decide (c.kind = .iack) && false) = .wait .vpa from rfl]
    at hwait
  have hedge : AckUndriven (stretchEdge { s with inputs := s.inputs.withLines false false true false } c) c.waiting :=
    ⟨h.kind, h.polite, h.held, h.data⟩
  obtain ⟨m, hm⟩ := hedge.peripheralEdge rfl rfl hshape
  refine ⟨m, loneRun_readPair (i := s.inputs.withLines false false true false) h.run h.st h.closing hwait hm, ?_⟩
  exact { run := rfl, first := h.first, closing := h.closing, st := rfl, clk := rfl, term := rfl
          holds := ⟨rfl, rfl, rfl, w, Nat.le_succ_of_le hw, hshape⟩
          ahead := by
            have hahead := eAhead_start (s.ephase + 1)
            rwa [← h.vma] at hahead }

/-- From S5 after the stretch the autovector is two half clocks away (R216). -/
theorem AckGoing.acknowledges_vpa (h : AckGoing s c) (hs : c.st = .S5) (hc : s.clk = .low)
    (hv : s.pins.vma = .asserted) (ht : s.term = .vpa) (hholds : HoldsVpa s.inputs c) :
    Acknowledges s c (loneRun 2 s) 1 (some (autovector c.level)) := by
  have henter : enterState c .S6 { s with clk := .high } = .next { s with clk := .high } :=
    (enterState_iack h.kind .S6 _).trans (if_pos hv)
  have hedge : loneHalf s = .next { s with clk := .high, run := some { c with st := .S6 } } := by
    rw [loneHalf_rising (st := .S6) hc h.closing h.run (by rw [hs]; rfl) (by rw [hs]; rfl)]
    exact goTo_between henter (st' := .S7) rfl
  have h6 : AckGoing { s with clk := .high, run := some { c with st := .S6 } } { c with st := .S6 } :=
    ⟨rfl, h.kind, h.polite, h.closing, h.held⟩
  have hlate : Cycle.lateDecision { c with st := .S6 } s.inputs s.term = some .vpa := by
    rw [ht]
    exact (hholds.later (d := { c with st := .S6 }) rfl (Nat.le_refl _)).lateDecision
  rw [loneRun_succ 1 h.run (by simp [hs]), hedge, andThen_next]
  exact (h6.endsAtS7 rfl rfl hlate nofun 0).since (m := 0) ⟨⟨rfl, rfl, rfl⟩, rfl, rfl, rfl⟩
    ⟨rfl, rfl, rfl, rfl, rfl⟩

/-- From a wait pair of the stretch to the end. -/
theorem WaitsForE.acknowledges_vpa {k : Nat} (hwaits : WaitsForE s c k) (h : AckUndriven s c) :
    Acknowledges s c (loneRun (2 + 1 + 2 * k) s) (k + 1 + 1) (some (autovector c.level)) := by
  obtain ⟨m, hrun⟩ := hwaits.loneRun_undriven h
  let d : Cycle := { c with
    st := if c.second then .S17 else .S5, pairs := c.pairs + k, edge := c.edge + (k + 1) }
  have hgoing : AckGoing ((stretched k s c).withData DataLines.z m) d :=
    ⟨rfl, h.kind, h.polite, hwaits.closing, h.held⟩
  rw [hrun]
  exact (hgoing.acknowledges_vpa (if_neg (by simp [hwaits.first])) rfl rfl hwaits.term
    (hwaits.holds.later rfl (Nat.le_add_right _ _))).since ((passes_stretched k s c).withData DataLines.z m)
    ⟨rfl, rfl, rfl, rfl, rfl⟩

/-- From the sampling edge at which VPA is recognised to the end. -/
theorem AckSampling.acknowledges_vpa {w : Nat} (h : AckSampling s c) (ha : c.answer = Answer.of (.vpa w))
    (hw : w ≤ c.edge) :
    Acknowledges s c (loneRun (3 + 2 * syncPairs (s.ephase + 1).val) s) (2 + syncPairs (s.ephase + 1).val)
      (some (autovector c.level)) := by
  obtain ⟨k, hk⟩ := Nat.exists_eq_add_of_le' (syncPairs_bounds (s.ephase + 1).isLt).1
  obtain ⟨m, hpair, hwaits⟩ := h.stretches ha hw
  rw [hk, Nat.add_sub_cancel] at hwaits
  have hend := hwaits.acknowledges_vpa ⟨h.kind, h.polite, h.held, rfl⟩
  rw [hk, show 3 + 2 * (k + 1) = (2 + 1 + 2 * k) + 2 by omega, hpair, show 2 + (k + 1) = 1 + (k + 1 + 1) by omega]
  exact hend.since ((passes_stretchPair ..).withData DataLines.z m) ⟨rfl, rfl, rfl, rfl, rfl⟩

end

end Sys2Proof.Machine
end

section
/-! SUPPORT. Acknowledge cycles that VPA or the responder of their level answers (43_iack_cycle.md R216, R219,
44_sync_cycle.md R238). -/

namespace Sys2Proof.Machine

section
variable {s : State} {level : Level}

/-- VPA after `w` wait pairs gives the autovector, in the length of R238. -/
theorem AckIssued.completes_vpa {w : Nat} (h : AckIssued s level (.vpa w)) :
    ∃ t, exec (.iack level) s = .next t ∧ AckCompleted s t (autovector level) (syncLength s.ephase.val w) := by
  have hend := (h.sampling w).acknowledges_vpa h.answer (ackSampled_edge s level w).ge
  have hphase : ((sampledState w (ackCycle s level) s).ephase + 1).val =
    (s.ephase.val + 3 + w) % 10 := phase_at_edge s.ephase w
  rw [hphase] at hend
  have hbound := syncPairs_bounds (Nat.mod_lt (s.ephase.val + 3 + w) (by decide : 0 < 10))
  exact h.completes (h.acknowledges (Shape.silentFor_vpa w) (by omega) hend) (by rw [syncLength]; omega)

/-- An acknowledged device without scripted data drives what the responder of the level does (R215, R219). -/
theorem deviceData_responder {c : Cycle} (hk : c.kind = .iack)
    (hdata : (c.answer.shape.driveAt c.edge true).data = none) (ht : s.term = .dtack) :
    s.deviceData c = s.responderData c.level := by
  simp [State.deviceData, hdata, hk, ht]

/-- A responder that answers DTACK gives the byte it drives on D7-D0 (R215). -/
theorem AckIssued.completes_responder {v : Byte} (h : AckIssued s level (.dtack 0 none))
    (hv : (s.responderData level).lo = some v) :
    ∃ t, exec (.iack level) s = .next t ∧ AckCompleted s t v 4 := by
  let c := sampledCycle 0 (ackCycle s level) s
  let u := sampledState 0 (ackCycle s level) s
  let i := s.inputs.withLines true false false false
  have hdata : (sampledToS6 u c i .dtack).pins.data.lo = some v := by
    have hnone : (c.answer.shape.driveAt (c.edge + 1) true).data = none := by
      rw [show c.answer = _ from h.answer]
      rfl
    have hdevice := deviceData_responder (s := inS5 u c i .dtack) (c := { c with st := .S5, edge := c.edge + 1 }) rfl
      hnone rfl
    exact (congrArg DataLines.lo hdevice).trans hv
  have hend := h.terminates (Shape.terminates_dtack 0 none) rfl (term := .dtack) rfl
  have hvector : ackVector s.params .dtack (latchedDin u c i .dtack) level = some v :=
    congrArg some (loByte_latch hdata)
  exact h.completes (hvector ▸ hend) rfl

end

/-- Settles O24: VPA is recognised at its edge, the stretch ends with the E period that VMA is asserted for, and the
vector number is made from the level. -/
theorem acknowledgeByVpaReturnsTheAutovector : Obligations.AcknowledgeByVpaReturnsTheAutovector := by
  unfold Obligations.AcknowledgeByVpaReturnsTheAutovector
  intro s level w rest hready hlevel ha
  obtain ⟨t, ht, hdone⟩ := (AckIssued.scripted hready hlevel ha nofun).completes_vpa
  exact ⟨t, ht, hdone.completed, hdone.calm, hdone.answers.trans (by rw [ha]; rfl), hdone.mem, hdone.pit⟩

/-- Settles O26: the shape of each responder is that of a named answer, DTACK with its register or vector on D7-D0, or
VPA. -/
theorem acknowledgeIsAnsweredByItsResponder : Obligations.AcknowledgeIsAnsweredByItsResponder := by
  unfold Obligations.AcknowledgeIsAnsweredByItsResponder
  intro s level hready hlevel ha
  have hissued := AckIssued.unscripted hready hlevel ha
  have gives {v : Byte} (hshape : responderShape (responderOf s.params level) = .dtack 0 none)
      (hv : (s.responderData level).lo = some v) :
      ∃ t, exec (.iack level) s = .next t ∧ Completed s t (.vector v) 4 ∧ t.Calm ∧ t.pit = s.pit := by
    rw [hshape] at hissued
    obtain ⟨t, ht, hdone⟩ := hissued.completes_responder hv
    exact ⟨t, ht, hdone.completed, hdone.calm, hdone.pit⟩
  refine ⟨fun hr => ?_, fun hr => ?_, fun n hr => ?_, fun hr => ?_⟩
  · exact gives (by rw [hr]; rfl) (by simp only [State.responderData, hr])
  · exact gives (by rw [hr]; rfl) (by simp only [State.responderData, hr])
  · exact gives (by rw [hr]; rfl) (by simp only [State.responderData, hr])
  · rw [hr] at hissued
    obtain ⟨t, ht, hdone⟩ := hissued.completes_vpa (w := 0)
    exact ⟨t, ht, hdone.completed, hdone.calm, hdone.pit⟩

end Sys2Proof.Machine
end

section
/-! SUPPORT. A falling edge of CLK in the stretch of a synchronous cycle, in a portion of any kind (44_sync_cycle.md
R235 to R239, R244, R245): what the bus controller decides there, and what the peripheral that follows E does after
it. -/

namespace Sys2Proof.Machine

/-! ## The peripheral that VMA selects -/

/-- The peripheral that VMA selects is to give the data of the portion in progress (R237). -/
structure State.Selects (s : State) (c : Cycle) : Prop where
  run   : s.run = some c
  reads : c.reads = true
  vma   : s.pins.vma = .asserted

section
variable {s : State} {c : Cycle} (h : s.Selects c)
include h

theorem State.Selects.peripheralEdge_eq : s.peripheralEdge =
    if eRises s.ephase then s.deviceDrives { c with edge := c.edge + 3 }
    else if eFalls s.ephase then .next (s.deviceReleasesData c.answer) else .next s := by
  simp [State.peripheralEdge, h.run, h.reads, h.vma]

/-- Where E rises the peripheral takes a free data bus. -/
theorem State.Selects.peripheralEdge_rises (hp : s.ephase = 6) (hd : s.pins.data = DataLines.z) :
    s.peripheralEdge = .next (s.withData (s.deviceData { c with edge := c.edge + 3 }) (s.draws + 2)) := by
  rw [h.peripheralEdge_eq, hp, if_pos (show eRises 6 = true from rfl)]
  exact driveData_free (s := s.drawn 2) hd

/-- Where E falls it stops. -/
theorem State.Selects.peripheralEdge_falls (hp : s.ephase = 0) :
    s.peripheralEdge = .next (s.deviceReleasesData c.answer) := by
  rw [h.peripheralEdge_eq, hp, if_neg nofun, if_pos (show eFalls 0 = true from rfl)]

end

theorem peripheralEdge_notSelecting {s : State} (h : ∀ c, ¬s.Selects c) : s.peripheralEdge = .next s := by
  unfold State.peripheralEdge
  split
  · rfl
  · next c hr =>
    rw [if_neg fun hv => ?_]
    simp only [Bool.and_eq_true, decide_eq_true_eq] at hv
    exact h c ⟨hr, hv.2, hv.1⟩

/-- Between the two edges of E it goes on as it did. -/
theorem peripheralEdge_between {s : State} (hrise : s.ephase ≠ 6) (hfall : s.ephase ≠ 0) :
    s.peripheralEdge = .next s := by
  by_cases h : ∃ c, s.Selects c
  · obtain ⟨c, h⟩ := h
    rw [h.peripheralEdge_eq, if_neg (mt (eRises_iff _).1 fun hp => hrise (Fin.ext hp)),
      if_neg (mt (eFalls_iff _).1 fun hp => hfall (Fin.ext hp))]
  · exact peripheralEdge_notSelecting (not_exists.1 h)

/-- Nothing stops the peripheral where it finds the data bus free as E rises. -/
theorem peripheralEdge_goesOn {s : State} (h : ∀ c, s.Selects c → s.ephase = 6 → s.pins.data = DataLines.z) :
    ∃ t, s.peripheralEdge = .next t := by
  by_cases hs : ∃ c, s.Selects c
  · obtain ⟨c, hs⟩ := hs
    by_cases hrise : s.ephase = 6
    · exact ⟨_, hs.peripheralEdge_rises hrise (h c hs hrise)⟩
    by_cases hfall : s.ephase = 0
    · exact ⟨_, hs.peripheralEdge_falls hfall⟩
    · exact ⟨_, peripheralEdge_between hrise hfall⟩
  · exact ⟨_, peripheralEdge_notSelecting (not_exists.1 hs)⟩

/-! ## The bus controller -/

/-- The state after the edge that ends the stretch by `term`, before the peripheral follows E. -/
def stretchEnd (s : State) (c : Cycle) (term : Term) : State :=
  { atFall s with
    term := term, run := some { c with st := if c.second then .S17 else .S5, edge := c.edge + 1 } }

/-- `c` is at a falling edge of its stretch; `d` and `b` are DTACK and BERR sampled there. -/
structure DecidesInStretch (s : State) (c : Cycle) (d b : Bool) : Prop where
  calm  : s.Calm
  run   : s.run = some c
  clk   : s.clk = .high
  st    : c.st = .SwHigh
  term  : s.term = .vpa
  dtack : (s.sampleLines c false).inputs.dtack = d
  berr  : (s.sampleLines c false).inputs.berr = b

/-- In a calm environment the half clock of a cycle is that of the cycle alone, but for what is the other agents'. -/
theorem halfClock_graft {s v : State} {c : Cycle} (hcalm : s.Calm) (hr : s.run = some c) (hv : loneHalf s = .next v) :
    ∃ x, s.halfClock = .next (graft v x) := by
  obtain ⟨⟨x, hx⟩, -⟩ := halfClock_lone keepsOut_calm hcalm (by simp [hr])
  exact ⟨x, by rw [hx, hv]; rfl⟩

/-- A falling edge is the bus controller's and then the peripheral's. -/
theorem falling_graft {s u v : State} {c : Cycle} (hcalm : s.Calm) (hr : s.run = some c) (hc : s.clk = .high)
    (hu : (atFall s).controllerEdge = .next u) (hv : u.peripheralEdge = .next v) :
    ∃ x, s.halfClock = .next (graft v x) := by
  refine halfClock_graft hcalm hr ?_
  simp only [loneHalf, hc]
  exact andThen_eq_next.2 ⟨u, hu, hv⟩

section
variable {s : State} {c : Cycle} {d b : Bool} (h : DecidesInStretch s c d b)
include h

theorem DecidesInStretch.controllerEdge_eq : (atFall s).controllerEdge =
    (atFall (s.sampleLines c false)).follow c (decideStretch d b (s.pins.vma = .asserted) (s.ephase + 1)) := by
  obtain ⟨-, hr, -, hs, ht, hd, hb⟩ := h
  have ht' : ((atFall s).sampleLines c false).term = .vpa := ht
  have hin : ((atFall s).sampleLines c false).inputs = (s.sampleLines c false).inputs := rfl
  rw [controllerEdge_samples (s := atFall s) hr (by rw [hs]; trivial)]
  simp only [State.sampleAndDecide, ht', hin, hd, hb]
  rfl

/-- An edge that recognises BERR, or the last one of the stretch. -/
theorem DecidesInStretch.controllerEdge_proceeds {term : Term}
    (hd : decideStretch d b (s.pins.vma = .asserted) (s.ephase + 1) = .proceed term) :
    (atFall s).controllerEdge = .next (stretchEnd (s.sampleLines c false) c term) := by
  rw [h.controllerEdge_eq, hd]
  exact follow_proceed _ c term

/-- An edge after which the cycle still waits for E. -/
theorem DecidesInStretch.controllerEdge_waits
    (hd : decideStretch d b (s.pins.vma = .asserted) (s.ephase + 1) = .wait .vpa) :
    (atFall s).controllerEdge = .next (stretchEdge (s.sampleLines c false) c) := by
  rw [h.controllerEdge_eq, hd]
  exact follow_wait_vpa _ c

theorem DecidesInStretch.violates
    (hd : decideStretch d b (s.pins.vma = .asserted) (s.ephase + 1) = .violation) :
    s.halfClock = .fault (.protocolViolation .dtackAndVpa) :=
  falling_violates h.calm h.run h.clk (by rw [h.controllerEdge_eq, hd]; rfl)

/-- What the bus controller leaves of the cycle and of VMA, the half clock leaves. -/
theorem DecidesInStretch.halfClock_next {u : State} (hu : (atFall s).controllerEdge = .next u)
    (hfree : ∀ e, u.Selects e → u.ephase = 6 → u.pins.data = DataLines.z) :
    ∃ t, s.halfClock = .next t ∧ t.run = u.run ∧ t.term = u.term ∧ t.pins.vma = u.pins.vma := by
  obtain ⟨v, hv⟩ := peripheralEdge_goesOn hfree
  obtain ⟨x, hx⟩ := falling_graft h.calm h.run h.clk hu hv
  obtain ⟨hvma, hrun, hterm⟩ := peripheralEdge_cycle hv
  exact ⟨graft v x, hx, hrun, hterm, hvma⟩

variable (hfree : s.ephase + 1 = 6 → c.reads = true → s.pins.vma = .asserted → s.pins.data = DataLines.z)
include hfree

theorem DecidesInStretch.proceeds {term : Term}
    (hd : decideStretch d b (s.pins.vma = .asserted) (s.ephase + 1) = .proceed term) :
    ∃ t, s.halfClock = .next t ∧ t.term = term ∧
      t.run = some { c with st := if c.second then .S17 else .S5, edge := c.edge + 1 } := by
  obtain ⟨t, ht, hrun, hterm, -⟩ := h.halfClock_next (h.controllerEdge_proceeds hd) fun e he hp => by
    cases he.run
    exact hfree hp he.reads he.vma
  exact ⟨t, ht, hterm, hrun⟩

theorem DecidesInStretch.waits
    (hd : decideStretch d b (s.pins.vma = .asserted) (s.ephase + 1) = .wait .vpa) :
    ∃ t, s.halfClock = .next t ∧ t.term = .vpa ∧
      t.run = some { c with st := .SwLow, pairs := c.pairs + 1, edge := c.edge + 1 } ∧
      t.pins.vma = stretchedVma s.pins.vma (s.ephase + 1) := by
  obtain ⟨t, ht, hrun, hterm, hvma⟩ := h.halfClock_next (h.controllerEdge_waits hd) fun e he hp => by
    cases he.run
    have hphase : s.ephase + 1 = 6 := hp
    have hout : stretchedVma s.pins.vma (s.ephase + 1) = .asserted := he.vma
    rw [hphase] at hout
    exact hfree hp he.reads hout
  exact ⟨t, ht, hterm, hrun, hvma⟩

end

theorem stretchedVma_eq (vma : Line) (p : Fin 10) :
    stretchedVma vma p = if p.val ≤ 4 then .asserted else vma := by
  simp only [stretchedVma, vmaWindow_iff]

/-- Neither BERR nor DTACK: only the last high cycle of E ends the stretch, and only with VMA out (R245). -/
theorem decideStretch_waits {v : Bool} {p : Fin 10} (h : ¬(v = true ∧ p = 9)) :
    decideStretch false false v p = .wait .vpa := by
  have hlast : ¬(v && eLast p) = true := by
    simp only [Bool.and_eq_true, eLast, decide_eq_true_eq]
    exact fun ⟨hv, hp⟩ => h ⟨hv, Fin.ext (Nat.succ_injective hp)⟩
  simp only [decideStretch, Bool.false_eq_true, if_false, if_neg hlast]

/-- Settles O16: the decision by `decideStretch`, and then the peripheral, which finds the data bus free. -/
theorem synchronousStretchFollowsE : Obligations.SynchronousStretchFollowsE := by
  unfold Obligations.SynchronousStretchFollowsE
  rintro s c adds d b p hcalm - hc hr hst hterm rfl hadds hd hb hfree
  have h : DecidesInStretch s c d b := by
    subst hd hb hadds
    exact ⟨hcalm, hr, hc, hst, hterm, rfl, rfl⟩
  refine ⟨fun hb => ?_, fun hb hd => ?_, fun hb hd hv hp => ?_, fun hb hd hwait => ?_⟩
  · exact h.proceeds hfree (by rw [hb]; rfl)
  · exact h.violates (by rw [hb, hd]; rfl)
  · exact h.proceeds hfree (by rw [hb, hd, hv, hp]; rfl)
  · obtain ⟨t, ht, htterm, hrun, hvma⟩ := h.waits hfree (by
      rw [hb, hd]
      exact decideStretch_waits (by simpa using hwait))
    exact ⟨t, ht, htterm, hrun, hvma.trans (stretchedVma_eq _ _)⟩

end Sys2Proof.Machine
end

section
/-! SUPPORT. The data bus in a synchronous read or read portion (44_sync_cycle.md R237 to R239; log 31): the peripheral
drives it from the rise of E, through the wait pairs, S5 and S6, to the fall of E at end(S6). -/

namespace Sys2Proof.Machine

/-! ## What the peripheral drives -/

/-- Each selected lane carries the byte of its address, where a device with this content holds one. -/
structure DataLines.CarriesHeld (d : DataLines) (x : Strobes) (a : Addr) (content : Addr → Option Byte) : Prop where
  hi : x.upperLane = true → ∀ v, content (upperByteAddr a) = some v → d.hi = some v
  lo : x.lowerLane = true → ∀ v, content (lowerByteAddr x a) = some v → d.lo = some v

theorem residentData_carriesHeld (s : State) (c : Cycle) :
    (s.residentData c).CarriesHeld c.strobes c.addr (s.byteAt c.fc) :=
  ⟨fun hl _ => residentData_hi hl, fun hl _ => residentData_lo hl⟩

/-- A device that answers VPA scripts no data, so that the resident one gives them. -/
theorem deviceData_vpa {s : State} {c : Cycle} {w : Nat} (hk : c.kind = .read ∨ c.kind = .rmw)
    (ha : c.answer.shape = .vpa w) : s.deviceData c = s.residentData c := by
  have hnone : (c.answer.shape.driveAt c.edge true).data = none := by rw [ha]; rfl
  rcases hk with hk | hk
  · exact deviceData_unscripted hk hnone
  · rw [deviceData_rmw hk, hnone, Option.elim_none]

theorem deviceData_vpa_carriesHeld {s : State} {c : Cycle} {w : Nat} (hk : c.kind = .read ∨ c.kind = .rmw)
    (ha : c.answer.shape = .vpa w) : (s.deviceData c).CarriesHeld c.strobes c.addr (s.byteAt c.fc) :=
  deviceData_vpa hk ha ▸ residentData_carriesHeld s c

/-! ## S6 and S7 of a synchronous read -/

/-- S6 alters nothing while the peripheral drives (R237). -/
theorem loneHalf_S5_vma {s : State} {c : Cycle} (hr : s.run = some c) (hs : c.st = .S5) (hc : s.clk = .low)
    (hz : s.closing = none) (hk : c.kind ≠ .write) (hv : s.pins.vma = .asserted) :
    loneHalf s = .next { s with clk := .high, run := some { c with st := .S6 } } := by
  rw [loneHalf_rising (st := .S6) hc hz hr (by rw [hs]; rfl) (by rw [hs]; rfl)]
  exact goTo_between (s := { s with clk := .high }) (st' := .S7) ((enterState_S6 hk _).trans (if_pos hv)) rfl

/-- A device that lets go leaves the data bus to who still holds it. -/
theorem deviceReleasesData_lets_go {s : State} {a : Answer} (h : a.holdsData = false) :
    s.deviceReleasesData a = s.releaseData := by
  rw [State.deviceReleasesData, h, if_neg nofun]

/-- Entering S7 after VPA ends the data of a read, and VMA with them (R239, R241). -/
theorem enterState_S7_vpa {s : State} {c : Cycle} (hk : c.kind = .read ∨ c.kind = .rmw) (ht : s.term = .vpa)
    (ha : c.answer.holdsData = false) :
    ∃ u, enterState c .S7 s = .next u ∧ u.term = .vpa ∧ u.din = s.din ∧ u.pins.vma = .negated ∧
      u.pins.data = s.held := by
  have hheld : (s.negateAll c.answer).held = s.held ∧
      (s.negateStrobes.deviceNegates c.answer).held = s.held := by
    unfold State.negateAll State.deviceNegates
    split <;> exact ⟨rfl, rfl⟩
  rcases hk with hk | hk
  · refine ⟨_, (enterState_read hk .S7 s).trans rfl, ?_⟩
    simp [ht, deviceReleasesData_lets_go ha, hheld.1]
  · refine ⟨_, enterState_rmw hk .S7 s, ?_⟩
    simp [ht, deviceReleasesData_lets_go ha, hheld.2]

theorem goTo_S7_vpa {s : State} {c : Cycle} (hk : c.kind = .read ∨ c.kind = .rmw) (ht : s.term = .vpa)
    (ha : c.answer.holdsData = false) :
    ∃ t, s.goTo c .S7 = .next t ∧ t.din = s.din ∧ t.pins.vma = .negated ∧ t.pins.data = s.held := by
  obtain ⟨u, hu, hterm, hkept⟩ := enterState_S7_vpa hk ht ha
  cases hn : nextSt c.kind u.term .S7 with
  | some st => exact ⟨_, goTo_between hu hn, hkept⟩
  | none =>
    obtain ⟨r, hr⟩ := finish_ok (s := u) (c := c.entered .S7 u.din) (by rw [hterm]; rfl)
    exact ⟨_, (goTo_last hu hn).trans hr, hkept⟩

/-! ## Half clock by half clock -/

/-- A synchronous read, or read portion, that has VMA out and no other answer than VPA. -/
structure SyncRead (s : State) (c : Cycle) : Prop where
  calm   : s.Calm
  going  : s.Going c
  reads  : c.kind = .read ∨ (c.kind = .rmw ∧ c.second = false)
  term   : s.term = .vpa
  vma    : s.pins.vma = .asserted
  answer : ∃ w, c.answer = Answer.of (.vpa w)
  dtack  : s.inputs.dtack = false
  berr   : s.inputs.berr = false

section
variable {s : State} {c : Cycle} (h : SyncRead s c)
include h

theorem SyncRead.kind : c.kind = .read ∨ c.kind = .rmw := h.reads.imp_right And.left

theorem SyncRead.reads_portion : c.reads = true := by
  rcases h.reads with hk | ⟨hk, hsecond⟩
  · simp [Cycle.reads, hk]
  · simp [Cycle.reads, hk, hsecond]

/-- Neither DTACK nor BERR is sampled at any edge. -/
theorem SyncRead.sampled (late : Bool) :
    (s.sampleLines c late).inputs.dtack = false ∧ (s.sampleLines c late).inputs.berr = false := by
  obtain ⟨w, ha⟩ := h.answer
  simp [State.sampleLines, ha, Answer.of, Shape.driveAt, Drive.quiet, h.dtack, h.berr]

theorem SyncRead.decidesInStretch (hs : c.st = .SwHigh) (hc : s.clk = .high) : DecidesInStretch s c false false where
  calm := h.calm
  run := h.going.run
  clk := hc
  st := hs
  term := h.term
  dtack := (h.sampled false).1
  berr := (h.sampled false).2

/-- The edge at which E rises puts on the bus what the device holds. -/
theorem SyncRead.rises (hs : c.st = .SwHigh) (hc : s.clk = .high) (hp : s.ephase = 5)
    (hd : s.pins.data = DataLines.z) :
    ∃ t, s.halfClock = .next t ∧ t.eHigh = true ∧
      t.pins.data.CarriesHeld c.strobes c.addr (s.byteAt c.fc) := by
  have hphase : s.ephase + 1 = 6 := by rw [hp]; rfl
  have hu := (h.decidesInStretch hs hc).controllerEdge_waits
    (decideStretch_waits fun ⟨_, h9⟩ => by rw [hphase] at h9; cases h9)
  have hsel : (stretchEdge (s.sampleLines c false) c).Selects c.waiting :=
    ⟨rfl, h.reads_portion, show stretchedVma s.pins.vma (s.ephase + 1) = _ by rw [hphase, h.vma]; rfl⟩
  obtain ⟨x, hx⟩ := falling_graft h.calm h.going.run hc hu (hsel.peripheralEdge_rises hphase hd)
  obtain ⟨w, ha⟩ := h.answer
  exact ⟨_, hx, show eHigh (s.ephase + 1) = true by rw [hphase]; rfl,
    deviceData_vpa_carriesHeld (c := { c.waiting with edge := c.waiting.edge + 3 }) h.kind (congrArg Answer.shape ha)⟩

/-- The edges at which E stays high leave the data bus as it is. -/
theorem SyncRead.holds (hs : c.st = .SwHigh) (hc : s.clk = .high) (hp : s.ephase ∈ [(6 : Fin 10), 7, 8]) :
    ∃ t, s.halfClock = .next t ∧ t.eHigh = true ∧ t.pins.data = s.pins.data := by
  have hdec := h.decidesInStretch hs hc
  obtain ⟨u, hu, hphase, hdata⟩ : ∃ u, (atFall s).controllerEdge = .next u ∧ u.ephase = s.ephase + 1 ∧
      u.pins.data = s.pins.data := by
    by_cases h9 : s.ephase + 1 = 9
    · exact ⟨_, hdec.controllerEdge_proceeds (term := .vpa) (by rw [h.vma, h9]; rfl), rfl, rfl⟩
    · exact ⟨_, hdec.controllerEdge_waits (decideStretch_waits fun hn => h9 hn.2), rfl, rfl⟩
  have hhigh : ∀ p ∈ [(6 : Fin 10), 7, 8], eHigh (p + 1) = true ∧ p + 1 ≠ 6 ∧ p + 1 ≠ 0 := by decide
  obtain ⟨he, hrise, hfall⟩ := hhigh _ hp
  rw [← hphase] at he hrise hfall
  obtain ⟨x, hx⟩ := falling_graft h.calm h.going.run hc hu (peripheralEdge_between hrise hfall)
  exact ⟨_, hx, he, hdata⟩

/-- So do the rising edges up to S6. -/
theorem SyncRead.holds_rising (hs : c.st = .SwLow ∨ c.st = .S5) (hc : s.clk = .low) :
    ∃ t, s.halfClock = .next t ∧ t.pins.data = s.pins.data := by
  rcases hs with hs | hs
  · obtain ⟨x, hx⟩ := halfClock_graft h.calm h.going.run (loneHalf_SwLow h.going.run hs hc h.going.closing)
    exact ⟨_, hx, rfl⟩
  · have hk : c.kind ≠ .write := by rcases h.kind with hk | hk <;> simp [hk]
    obtain ⟨x, hx⟩ := halfClock_graft h.calm h.going.run
      (loneHalf_S5_vma h.going.run hs hc h.going.closing hk h.vma)
    exact ⟨_, hx, rfl⟩

/-- end(S6) latches the data bus, and the peripheral lets go of it. -/
theorem SyncRead.falls (hs : c.st = .S6) (hc : s.clk = .high) (hp : s.ephase = 9) :
    ∃ t, s.halfClock = .next t ∧ t.eHigh = false ∧ t.pins.data = s.held ∧ LatchesBus s c t := by
  obtain ⟨w, ha⟩ := h.answer
  have hlate : c.lateDecision (atFall s).inputs (atFall s).term = some .vpa := by
    have hd : (c.lateInputs s.inputs).dtack = false := (h.sampled true).1
    have hb : (c.lateInputs s.inputs).berr = false := (h.sampled true).2
    show c.lateDecision s.inputs s.term = _
    simp only [Cycle.lateDecision, h.term, hd, hb]
    rfl
  have hheld : (atEndS6 (atFall s) c .vpa).held = s.held := by
    unfold atEndS6 State.latchFor
    split <;> rfl
  obtain ⟨t, ht, hdin, hvma, hdata⟩ := goTo_S7_vpa (s := atEndS6 (atFall s) c .vpa) h.kind rfl (by rw [ha]; rfl)
  have hu : (atFall s).controllerEdge = .next t := by
    have hr : (atFall s).run = some c := h.going.run
    simp only [State.controllerEdge, hr, hs]
    exact (endS6_of_not_berr (s := atFall s) hlate rfl).trans ht
  obtain ⟨x, hx⟩ := falling_graft h.calm h.going.run hc hu (peripheralEdge_idle (by simp [hvma]))
  have hphase : t.ephase = s.ephase + 1 := (kept_controllerEdge hu).ephase
  obtain ⟨hlo, hhi⟩ := latchesBus_atEndS6 (atFall s) c .vpa
  rw [← hdin] at hlo hhi
  exact ⟨graft t x, hx, show eHigh t.ephase = false by rw [hphase, hp]; rfl, hdata.trans hheld, hlo, hhi⟩

end

/-- Settles O56: each half clock by what the bus controller and the peripheral make of it. -/
theorem peripheralDrivesWhileEIsHigh : Obligations.PeripheralDrivesWhileEIsHigh := by
  unfold Obligations.PeripheralDrivesWhileEIsHigh
  intro s c w hcalm hbus hr hk hterm hvma ha hd hb
  have sync {st : St} (hs : c.st = st) (hne : st ≠ .start) : SyncRead s c :=
    ⟨hcalm, hbus.going hr (hs ▸ hne), hk, hterm, hvma, ⟨w, ha⟩, hd, hb⟩
  refine ⟨fun hs hc hp hdata => ?_, fun hs hc hp => (sync hs nofun).holds hs hc hp,
    fun hs hc => ?_, fun hs hc hp => ?_⟩
  · obtain ⟨t, ht, he, hheld⟩ := (sync hs nofun).rises hs hc hp hdata
    exact ⟨t, ht, he, hheld.hi, hheld.lo⟩
  · have h : SyncRead s c := hs.elim (sync · nofun) (sync · nofun)
    exact h.holds_rising hs hc
  · have h := sync hs nofun
    obtain ⟨t, ht, he, hdata, hlatch⟩ := h.falls hs hc hp
    have hnw : c.kind ≠ .write := by rcases h.kind with hk | hk <;> simp [hk]
    exact ⟨t, ht, he, hdata, hlatch.lo hnw, hlatch.hi hnw⟩

end Sys2Proof.Machine
end

section
/-! SUPPORT. A read that VPA answers (40_read_cycle.md R145, 44_sync_cycle.md R230, R235 to R239, R243, R245): from its
issue through the stretch, in whatever phase of E it begins, to the bytes the device holds. -/

namespace Sys2Proof.Machine

/-! ## A wait pair of the stretch -/

/-- On a bus that nobody drives the peripheral changes nothing, unless E rises with VMA out. -/
theorem peripheralEdge_undriven {s : State} {c : Cycle} (hr : s.run = some c) (ha : c.answer.holdsData = false)
    (hheld : s.held = DataLines.z) (hd : s.pins.data = DataLines.z)
    (hrise : s.pins.vma = .asserted → s.ephase ≠ 6) : s.peripheralEdge = .next s := by
  by_cases hs : s.Selects c
  · by_cases hfall : s.ephase = 0
    · have hpins : ({ s.pins with data := s.held } : Pins) = s.pins := by rw [hheld, ← hd]
      have hstays : s.releaseData = s := congrArg (fun p => { s with pins := p }) hpins
      rw [hs.peripheralEdge_falls hfall, deviceReleasesData_lets_go ha, hstays]
    · exact peripheralEdge_between (hrise hs.vma) hfall
  · refine peripheralEdge_notSelecting fun e he => hs ?_
    rwa [Option.some.inj (hr.symm.trans he.run)]

/-- A read waits for E, with `k` wait pairs to come: its device, and no other, drives the data bus from the rise of E
on, which is when two are left (R237, R238). -/
structure ReadInStretch (s : State) (c : Cycle) (k : Nat) : Prop extends WaitsForE s c k where
  kind   : c.kind = .read
  polite : c.answer.polite
  held   : s.held = DataLines.z
  bus    : if k ≤ 2 then s.pins.data.CarriesHeld c.strobes c.addr (s.byteAt c.fc) else s.pins.data = DataLines.z

section
variable {s : State} {c : Cycle} {k : Nat}

/-- What the peripheral makes of the data bus in the low half of a wait pair. -/
theorem ReadInStretch.peripheralEdge (h : ReadInStretch s c (k + 1)) :
    ∃ x m, (stretchEdge s c).peripheralEdge = .next ((stretchEdge s c).withData x m) ∧
      if k ≤ 2 then x.CarriesHeld c.strobes c.addr (s.byteAt c.fc) else x = DataLines.z := by
  have hahead : EAhead (stretchEdge s c).pins.vma (stretchEdge s c).ephase k := h.ahead.pair.2
  have hbus := h.bus
  rcases Nat.lt_trichotomy k 2 with hk | rfl | hk
  · obtain ⟨-, hp⟩ : (stretchEdge s c).pins.vma = .asserted ∧ (stretchEdge s c).ephase.val + k = 8 :=
      hahead.resolve_right fun ⟨_, _, hp⟩ => by omega
    refine ⟨s.pins.data, s.draws, peripheralEdge_between (Fin.ne_of_val_ne ?_) (Fin.ne_of_val_ne ?_), ?_⟩
    · show _ ≠ 6
      omega
    · show _ ≠ 0
      omega
    · rw [if_pos (by omega)] at hbus ⊢
      exact hbus
  · obtain ⟨hv, hp⟩ : (stretchEdge s c).pins.vma = .asserted ∧ (stretchEdge s c).ephase.val + 2 = 8 :=
      hahead.resolve_right fun ⟨_, _, hp⟩ => by omega
    have hsel : (stretchEdge s c).Selects c.waiting := ⟨rfl, by simp [Cycle.reads, Cycle.waiting, h.kind], hv⟩
    obtain ⟨-, -, -, w, -, hshape⟩ := h.holds
    refine ⟨_, _, hsel.peripheralEdge_rises (Fin.ext (Nat.add_right_cancel hp)) hbus, ?_⟩
    exact deviceData_vpa_carriesHeld (c := { c.waiting with edge := c.waiting.edge + 3 }) (.inl h.kind) hshape
  · rw [if_neg (by omega)] at hbus
    refine ⟨s.pins.data, s.draws,
      peripheralEdge_undriven (s := stretchEdge s c) (c := c.waiting) rfl h.polite.2 h.held hbus
        fun hv => Fin.ne_of_val_ne ?_, ?_⟩
    · obtain ⟨-, hp⟩ := hahead.resolve_right fun ⟨hn, _⟩ => by rw [hv] at hn; cases hn
      show _ ≠ 6
      omega
    · rwa [if_neg (by omega)]

theorem ReadInStretch.pair (h : ReadInStretch s c (k + 1)) :
    ∃ x m, (∀ n, loneRun (n + 2) s = loneRun n ((stretchPair s c).withData x m)) ∧
      ReadInStretch ((stretchPair s c).withData x m) c.paired k := by
  obtain ⟨x, m, hx, hbus⟩ := h.peripheralEdge
  obtain ⟨hrun, hnext⟩ := h.toWaitsForE.pair hx
  exact ⟨x, m, hrun, { hnext with kind := h.kind, polite := h.polite, held := h.held, bus := hbus }⟩

end

/-- A wait pair first and then the stretch is the stretch of one pair more. -/
theorem stretched_stretchPair {s : State} {c : Cycle} (ht : s.term = .vpa) (k : Nat) (x y : DataLines) (m n : Nat) :
    (stretched k ((stretchPair s c).withData x m) c.paired).withData y n = (stretched (k + 1) s c).withData y n := by
  simp only [stretched, State.withData, stretchPair, tick, Cycle.paired, Cycle.waiting, Nat.add_comm k 1,
    Nat.add_assoc]
  rw [← ht]
  rfl

/-- The stretch runs to its end, and what the device holds is on the bus then. -/
theorem ReadInStretch.loneRun_S5 {s : State} {c : Cycle} {k : Nat} (h : ReadInStretch s c k) :
    ∃ x m, (∀ n, loneRun (n + 1 + 2 * k) s = loneRun n ((stretched k s c).withData x m)) ∧
      x.CarriesHeld c.strobes c.addr (s.byteAt c.fc) := by
  induction k generalizing s c with
  | zero => exact ⟨s.pins.data, s.draws, h.toWaitsForE.last, h.bus⟩
  | succ k ih =>
    obtain ⟨x, m, hrun, hnext⟩ := h.pair
    obtain ⟨y, j, hrun', hcarries⟩ := ih hnext
    refine ⟨y, j, fun n => ?_, hcarries⟩
    rw [show n + 1 + 2 * (k + 1) = (n + 1 + 2 * k) + 2 by omega, hrun, hrun', stretched_stretchPair h.term]

/-! ## S5 to S7 -/

/-- end(S6) of a read, with VMA out or not, where VPA stands. -/
theorem loneHalf_S6_vpa {s : State} {c : Cycle} (hr : s.run = some c) (hk : c.kind = .read) (hs : c.st = .S6)
    (hc : s.clk = .high) (hlate : c.lateDecision s.inputs s.term = some .vpa) :
    loneHalf s = .next (ended (afterS6 s c .vpa) { c with st := .S7 }) := by
  have hedge : (atFall s).controllerEdge = (atFall s).endS6 c := by
    have hr' : (atFall s).run = some c := hr
    simp only [State.controllerEdge, hr', hs]
  have hlatched : atEndS6 (atFall s) c .vpa = afterS6 s c .vpa := by
    simp only [atEndS6, State.latchFor, hk]
    rfl
  refine loneHalf_falling hc (hedge.trans ?_) (ended_vma ..)
  rw [endS6_of_not_berr (s := atFall s) hlate rfl, hlatched,
    goTo_last (enterState_read hk .S7 _) (by simp [nextSt, hk, afterS6]), Cycle.entered_read (st := .S7) hk nofun]
  exact finish_closing (c := { c with st := .S7 }) hk _

/-- end(S6) latches what a device with the content of `s` has put on the data bus. -/
theorem afterS6_latchesCarried {s u : State} {c : Cycle} (term : Term)
    (h : u.pins.data.CarriesHeld c.strobes c.addr (s.byteAt c.fc)) :
    LatchesHeld s c.fc c.addr c.strobes (afterS6 u c term) :=
  ⟨fun hl v hv => hiByte_latch hl (h.hi hl v hv), fun hl v hv => loByte_latch (h.lo hl v hv)⟩

/-- The end of a read whose device answers VPA, and so scripts no data, is that of any cycle with its request. -/
theorem ReadDone.of_vpa {s t : State} {c d : Cycle} {term : Term} {n w : Nat} (h : ReadDone s d t term n)
    (hd : SameRequest c d) (ha : c.answer.shape = .vpa w) : ReadDone s c t term n where
  completed := by
    have := h.completed
    rwa [readOutcome, hd.fc, hd.addr, hd.strobes] at this
  term := h.term
  mem := h.mem
  pit := h.pit
  scripted v hv := by rw [ha] at hv; cases hv

/-- From a wait pair of the stretch to the end of the read. -/
theorem ReadInStretch.loneRun_ends {s : State} {c : Cycle} {k : Nat} (h : ReadInStretch s c k) :
    ∃ t, loneRun (2 + 1 + 2 * k) s = .next t ∧ ReadDone s c t .vpa (k + 2) ∧
      LatchesHeld s c.fc c.addr c.strobes t := by
  obtain ⟨x, m, hrun, hcarries⟩ := h.loneRun_S5
  let u := (stretched k s c).withData x m
  let d : Cycle := { c with st := .S5, pairs := c.pairs + k, edge := c.edge + (k + 1) }
  have hur : u.run = some d := by
    show some { c with st := if c.second then .S17 else .S5, pairs := c.pairs + k, edge := c.edge + (k + 1) } = _
    rw [if_neg (by simp [h.first])]
  have h5 := loneHalf_S5_vma hur rfl rfl h.closing (by simp [d, h.kind]) rfl
  have hlate : Cycle.lateDecision { d with st := .S6 } u.inputs u.term = some .vpa := by
    rw [show u.term = .vpa from h.term]
    exact (h.holds.later (d := { d with st := .S6 }) rfl (Nat.le_add_right _ _)).lateDecision
  let u6 : State := { u with clk := .high, run := some { d with st := .S6 } }
  have h6 := loneHalf_S6_vpa (s := u6) rfl h.kind rfl rfl hlate
  obtain ⟨hhi, hlo⟩ := afterS6_latchesCarried (s := s) (u := u6) (c := { d with st := .S6 }) .vpa hcarries
  obtain ⟨-, -, -, w, -, hshape⟩ := h.holds
  have hdone : ReadDone s d (ended (afterS6 u6 { d with st := .S6 } .vpa) { d with st := .S7 }) .vpa (k + 2) :=
    readDone_of_ended (x := afterS6 u6 { d with st := .S6 } .vpa) (edge := d.edge) h.kind h.polite h.held rfl rfl rfl
      rfl rfl rfl fun v hv => by rw [show d.answer.shape = _ from hshape] at hv; cases hv
  refine ⟨_, ?_, hdone.of_vpa ⟨rfl, rfl, rfl, rfl, rfl⟩ hshape, by simpa using hhi, by simpa using hlo⟩
  rw [hrun, loneRun_succ 1 hur nofun, h5, andThen_next, loneRun_succ (s := u6) 0 rfl nofun, h6]
  rfl

/-! ## From the sampling edge -/

/-- At least five wait pairs follow the edge that recognises VPA (R238). -/
theorem five_le_syncPairs {p : Nat} (h : p < 10) : 5 ≤ syncPairs p := by
  unfold syncPairs
  split <;> omega

/-- From the edge at which VPA is recognised to the end of the first wait pair. -/
theorem Sampling.stretches {s : State} {c : Cycle} {w : Nat} (h : Sampling s c) (ha : c.answer = Answer.of (.vpa w))
    (hw : w ≤ c.edge) :
    (∀ n, loneRun (n + 2) s =
      loneRun n (stretchPair { s with inputs := s.inputs.withLines false false true false } c)) ∧
    ReadInStretch (stretchPair { s with inputs := s.inputs.withLines false false true false } c) c.paired
      (syncPairs (s.ephase + 1).val - 1) := by
  have hl : c.lines c.edge = (false, false, true, false) := by
    simp [Cycle.lines, ha, Answer.of, Shape.driveAt, hw, Drive.quiet]
  have hahead := eAhead_start (s.ephase + 1)
  rw [← h.vma] at hahead
  let u := stretchEdge { s with inputs := s.inputs.withLines false false true false } c
  have hstays : u.peripheralEdge = .next (u.withData s.pins.data s.draws) := by
    refine peripheralEdge_undriven (s := u) (c := c.waiting) rfl h.polite.2 h.held h.data fun hv h6 => ?_
    have hphase : s.ephase + 1 = 6 := h6
    have hout : stretchedVma s.pins.vma (s.ephase + 1) = .asserted := hv
    rw [hphase, h.vma] at hout
    cases hout
  have hmany := five_le_syncPairs (s.ephase + 1).isLt
  refine ⟨loneRun_readPair (i := s.inputs.withLines false false true false) h.run h.st h.closing (h.loneHalf hl)
    hstays, ?_⟩
  exact { run := rfl, first := h.first, closing := h.closing, st := rfl, clk := rfl, term := rfl
          holds := ⟨rfl, rfl, rfl, w, Nat.le_succ_of_le hw, congrArg Answer.shape ha⟩
          ahead := hahead, kind := h.kind, polite := h.polite, held := h.held
          bus := by rw [if_neg (by omega)]; exact h.data }

/-- From the edge at which VPA is recognised to the end of the read. -/
theorem Sampling.loneRun_vpa {s : State} {c : Cycle} {w : Nat} (h : Sampling s c)
    (ha : c.answer = Answer.of (.vpa w)) (hw : w ≤ c.edge) :
    ∃ t, loneRun (3 + 2 * syncPairs (s.ephase + 1).val) s = .next t ∧
      ReadDone s c t .vpa (2 + syncPairs (s.ephase + 1).val) ∧ LatchesHeld s c.fc c.addr c.strobes t := by
  obtain ⟨k, hk⟩ := Nat.exists_eq_add_of_le' (syncPairs_bounds (s.ephase + 1).isLt).1
  obtain ⟨hpair, hstretch⟩ := h.stretches ha hw
  rw [hk, Nat.add_sub_cancel] at hstretch
  obtain ⟨t, ht, hdone, hheld⟩ := hstretch.loneRun_ends
  refine ⟨t, ?_, ?_, hheld.hi, hheld.lo⟩
  · rw [hk, show 3 + 2 * (k + 1) = (2 + 1 + 2 * k) + 2 by omega, hpair, ht]
  · rw [hk, show 2 + (k + 1) = 1 + (k + 2) by omega]
    exact (hdone.since (s := s) (m := 1) rfl rfl rfl rfl rfl).of_vpa ⟨rfl, rfl, rfl, rfl, rfl⟩
      (congrArg Answer.shape ha)

/-! ## Whole reads -/

/-- `comesToSample_sampledState` for whatever answer leaves the first `w` edges alone. -/
theorem comesToSample_silentFor {i : Instr} {s : State} {fc : Fc} {a : Addr} {x : Strobes} {w : Nat} {ans : Answer}
    (h : s.Ready) (hw : i.wf s.params.dataBus = true)
    (hc : cycleOf s.params.dataBus i = newCycle .read fc a x 0 0)
    (ha : (s.prepared (newCycle .read fc a x 0 0)).answer = ans) (hp : ans.polite) (hsilent : ans.shape.SilentFor w) :
    ComesToSample i s (sampledState w (newCycle .read fc a x 0 0) s) (sampledCycle w (newCycle .read fc a x 0 0) s)
      w := by
  obtain ⟨⟨y, hy⟩, hcalm⟩ := exec_lone keepsOut_calm hw h.run h.owner (calm_launched h.toCalm _)
  rw [hc] at hy
  have hrun (n : Nat) := loneRun_sampled (c := newCycle .read fc a x 0 0) h.toBusFree rfl rfl w n fun k hk => by
    rw [show (newCycle .read fc a x 0 0).edge + k = k from Nat.zero_add k, ← hsilent.before k hk, ← ha]
    rfl
  exact {
    sampling := sampledState_sampling h.toBusFree rfl rfl (ha ▸ hp) w
    results := rfl
    owner := rfl
    count := by
      show s.clkCount + 1 + 1 + w = _
      omega
    mem := rfl
    pit := rfl
    edge := Nat.zero_add w
    runs := fun k hk hs => by
      have hb : k + 2 * w + 5 ≤ cycleBudget (s.prepared (newCycle .read fc a x 0 0)) := by
        have := hsilent.patience
        rw [cycleBudget, ha]
        omega
      exact ⟨y, by rw [hy, loneRun_settled hb (by rw [hrun]; exact hs), hrun]⟩
    calm := hcalm }

/-- A read that VPA answers, from its issue to its result. -/
theorem exec_read_vpa {i : Instr} {s : State} {fc : Fc} {a : Addr} {x : Strobes} {w : Nat} {rest : List Answer}
    (h : s.Ready) (hans : s.answers = Answer.of (.vpa w) :: rest) (hw : i.wf s.params.dataBus = true)
    (hc : cycleOf s.params.dataBus i = newCycle .read fc a x 0 0) :
    ∃ t, exec i s = .next t ∧ Completed s t (readResult x t.din) (syncLength s.ephase.val w) ∧ t.Calm ∧
      LatchesHeld s fc a x t := by
  have ha := prepared_answer hans nofun (newCycle .read fc a x 0 0)
  have hsample := comesToSample_silentFor h hw hc ha ⟨rfl, rfl⟩ (Shape.silentFor_vpa w)
  have hphase : ((sampledState w (newCycle .read fc a x 0 0) s).ephase + 1).val = (s.ephase.val + 3 + w) % 10 :=
    phase_at_edge s.ephase w
  have hend := hsample.sampling.loneRun_vpa ha hsample.edge.ge
  rw [hphase] at hend
  have hbound := syncPairs_bounds (Nat.mod_lt (s.ephase.val + 3 + w) (by decide : 0 < 10))
  obtain ⟨t, ht, hdone, hheld⟩ := hend
  obtain ⟨y, hy, hcalm, hdone'⟩ := hsample.completes_in (m := syncLength s.ephase.val w) (by omega) ht hdone
    (by rw [syncLength]; omega)
  exact ⟨graft t y, hy, hdone'.ok rfl, hcalm, hheld.hi, hheld.lo⟩

/-- What RD.W makes of the bytes latched (R76). -/
theorem LatchesHeld.rdW {s t : State} {fc : Fc} {a : Addr} (h : LatchesHeld s fc a .word t)
    (hw : Instr.wf s.params.dataBus (.rdW fc a) = true) :
    readResult .word t.din = .okWord (halfOf (hiByte t.din) (loByte t.din)) ∧
      (∀ x, s.byteAt fc a = some x → hiByte t.din = x) ∧
      (∀ x, s.byteAt fc (a + 1) = some x → loByte t.din = x) := by
  have heven := even_of_wf_rdW hw
  have hupper : upperByteAddr a = a := upperByteAddr_of_even heven
  have hlower : lowerByteAddr .word a = a + 1 := or_one_of_even heven
  exact ⟨by rw [halfOf_bytes]; rfl, hupper ▸ h.hi rfl, hlower ▸ h.lo rfl⟩

/-- What a read of the byte at its address makes of the bytes latched (R145). -/
theorem LatchesHeld.byte {s t : State} {fc : Fc} {a : Addr} {x : Strobes} (h : LatchesHeld s fc a x t)
    (hx : x.MovesByteAt a) :
    ∃ v, readResult x t.din = .okByte v ∧ ∀ y, s.byteAt fc a = some y → v = y := by
  rcases hx with ⟨rfl, ha⟩ | ⟨rfl | rfl, ha⟩
  · exact ⟨_, rfl, ha ▸ h.hi rfl⟩
  · exact ⟨_, rfl, ha ▸ h.lo rfl⟩
  · exact ⟨_, rfl, h.lo rfl⟩

/-- Each of the three byte reads is a cycle that moves the byte at its address (R75). -/
theorem byteRead_as_cycle {bus : DataBus} {fc : Fc} {a : Addr} {i : Instr}
    (h : i ∈ [Instr.rdBU fc a, .rdBL fc a, .rdB8 fc a]) (hw : i.wf bus = true) :
    ∃ x, cycleOf bus i = newCycle .read fc a x 0 0 ∧ x.MovesByteAt a := by
  simp only [List.mem_cons, List.not_mem_nil, or_false] at h
  rcases h with rfl | rfl | rfl
  · exact ⟨.upper, rfl, .inl ⟨rfl, upperByteAddr_of_even (even_of_wf_rdBU hw)⟩⟩
  · exact ⟨.lower, rfl, .inr ⟨.inl rfl, or_one_of_odd (odd_of_wf_rdBL hw)⟩⟩
  · exact ⟨.ds, rfl, .inr ⟨.inr rfl, rfl⟩⟩

/-- Settles O27: VPA is recognised at its edge, the stretch ends with the E period that VMA is asserted for, and what
the device drives while E is high is latched as it falls. -/
theorem readEndsByVpa : Obligations.ReadEndsByVpa := by
  unfold Obligations.ReadEndsByVpa
  intro s fc a w rest hready hans
  refine ⟨fun hw => ?_, fun i hi hw => ?_⟩
  · obtain ⟨t, ht, hdone, hcalm, hheld⟩ := exec_read_vpa (x := .word) hready hans hw rfl
    obtain ⟨hresult, hhi, hlo⟩ := hheld.rdW hw
    exact ⟨t, _, _, ht, hresult ▸ hdone, hcalm, hhi, hlo⟩
  · obtain ⟨x, hc, hx⟩ := byteRead_as_cycle hi hw
    obtain ⟨t, ht, hdone, hcalm, hheld⟩ := exec_read_vpa hready hans hw hc
    obtain ⟨v, hresult, hv⟩ := hheld.byte hx
    exact ⟨t, v, ht, hresult ▸ hdone, hcalm, hv⟩

end Sys2Proof.Machine
end

section
/-! SUPPORT. The arbiter in a half clock (45_bus_arbitration.md R250 to R265): what it finds at the falling edge,
and what it makes of it in each state of `arb`, whatever the bus controller does after it. -/

namespace Sys2Proof.Machine

/-! ## What the arbiter finds, and what it leaves -/

/-- In the half clock from `s` to `t` the arbiter finds `b`, with the lines BR and BGACK of `t`, and leaves `u`. -/
structure ArbiterTurn (s b u t : State) : Prop where
  params      : b.params = s.params
  pins        : b.pins = s.pins
  held        : b.held = s.held
  run         : b.run = s.run
  closing     : b.closing = s.closing
  owner       : b.owner = s.owner
  arb         : b.arb = s.arb
  bgWait      : b.bgWait = s.bgWait
  tenureBg    : b.tenureBg = s.tenureBg
  grantDelays : b.grantDelays = s.grantDelays
  tenures     : b.tenures = s.tenures
  br          : b.inputs.br = t.inputs.br
  bgack       : b.inputs.bgack = t.inputs.bgack
  acts        : b.arbiter = .next u
  kept        : Kept u t
  idle        : s.run = none → t = u

theorem beforeArbiter_grants (s : State) : (beforeArbiter s).bgWait = s.bgWait ∧
    (beforeArbiter s).grantDelays = s.grantDelays ∧ (beforeArbiter s).tenures = s.tenures := by
  unfold beforeArbiter State.pitResetEdge
  split <;> exact ⟨rfl, rfl, rfl⟩

theorem halfClock_arbiterTurn {s t : State} (hc : s.clk = .high) (h : s.halfClock = .next t) :
    ∃ b u, ArbiterTurn s b u t := by
  obtain ⟨u, v, hu, hv, ht⟩ := halfClock_falling hc h
  let b := beforeArbiter { s with clk := .low }
  have hacts : b.arbiter = .next u := hu
  have ha : Aside { s with clk := .low } b := aside_beforeArbiter _
  obtain ⟨hpins, harb, htenure⟩ := beforeArbiter_same { s with clk := .low }
  obtain ⟨hwait, hdelays, htenures⟩ := beforeArbiter_grants { s with clk := .low }
  obtain ⟨-, -, -, hin, -, -, hrun, -⟩ := aside_arbiter hacts
  have hk : Kept u t := (kept_controllerEdge hv).trans (kept_peripheralEdge ht)
  refine ⟨b, u, ⟨ha.params, hpins, ha.held, ha.run, ha.closing, beforeArbiter_owner _, harb, hwait, htenure, hdelays,
    htenures, ?_, ?_, hacts, hk, fun hr => ?_⟩⟩
  · rw [hk.br, hin]
  · rw [hk.bgack, hin]
  · have hur : u.run = none := hrun.trans (ha.run.trans hr)
    rw [controllerEdge_idle hur] at hv
    cases hv
    rw [peripheralEdge_noCycle hur] at ht
    cases ht; rfl

/-! ## The arbiter, state by state (R264) -/

section
variable {s t : State} (h : s.arbiter = .next t)
include h

theorem acknowledgeError_of_next : s.acknowledgeError = none := by
  cases he : s.acknowledgeError with
  | none => rfl
  | some v => simp [State.arbiter, he, violation] at h

/-- BGACK is seen while the processor owns the bus only with a grant out and no cycle in progress (R264, R348). -/
theorem run_of_acknowledged (hw : s.params.arbWires = .three) (hb : s.inputs.bgack = true)
    (ho : s.owner = .processor) : s.run = none := by
  by_contra hr
  have he := acknowledgeError_of_next h
  simp [State.acknowledgeError, hw, hb, ho, hr] at he

theorem arbiter_noRequest (ha : s.arb = .noRequest) : t = if s.inputs.br then s.request else s := by
  simpa only [State.arbiter, acknowledgeError_of_next h, ha, Host.Outcome.next.injEq, eq_comm] using h

theorem arbiter_requested (ha : s.arb = .requested) : t = s.requestedEdge := by
  simpa only [State.arbiter, acknowledgeError_of_next h, ha, Host.Outcome.next.injEq, eq_comm] using h

theorem arbiter_grantedThree (ha : s.arb = .granted) (hw : s.params.arbWires = .three) :
    t = if s.inputs.bgack then s.startTenure
      else if s.inputs.br then s else ({ s with arb := .noRequest } : State).negateBg := by
  simp only [State.arbiter, acknowledgeError_of_next h, ha, hw, State.grantedThree] at h
  split at h
  · next hb => cases h; rw [if_pos hb]
  · next hb =>
    rw [if_neg hb]
    split at h <;> cases h
    · next hr => rw [if_pos hr]
    · next hr => rw [if_neg hr]

theorem arbiter_grantedTwo_processor (ha : s.arb = .granted) (hw : s.params.arbWires = .two)
    (ho : s.owner = .processor) :
    t = if s.inputs.br then (if s.run = none then s.handOver else s)
      else ({ s with arb := .noRequest } : State).negateBg := by
  simp only [State.arbiter, acknowledgeError_of_next h, ha, hw, State.grantedTwo] at h
  split at h
  · split at h
    · next hb =>
      rw [if_pos hb]
      split at h <;> cases h
      · next hr => rw [if_pos hr]
      · next hr => rw [if_neg hr]
    · next hb => cases h; rw [if_neg hb]
  · next hne => rw [ho] at hne; cases hne

theorem arbiter_grantedTwo_alternate (ha : s.arb = .granted) (hw : s.params.arbWires = .two)
    (ho : s.owner = .alternate) : t = if s.inputs.br then s else s.takeBack .noRequest .negated := by
  simp only [State.arbiter, acknowledgeError_of_next h, ha, hw, State.grantedTwo, ho] at h
  split at h
  · next hb => cases h; rw [if_pos hb]
  · next hb =>
    split at h <;> cases h
    rw [if_neg hb]

theorem arbiter_acknowledged (ha : s.arb = .acknowledged) :
    (s.inputs.bgack = true → t = s.tenureEdge) ∧
    (s.inputs.bgack = false → s.run = none ∧ t = s.returnBus) := by
  simp only [State.arbiter, acknowledgeError_of_next h, ha, State.acknowledgedEdge] at h
  split at h
  · next hb => cases h; exact ⟨fun _ => rfl, fun hn => by rw [hb] at hn; cases hn⟩
  · next hb =>
    split at h <;> cases h
    next hr => exact ⟨fun hn => absurd hn hb, fun _ => ⟨hr, rfl⟩⟩

end

/-! ## What it does with a request (R252 to R254, R265) -/

theorem headD_one_eq_zero {l : List Nat} : l.headD 1 = 0 ↔ l.head? = some 0 := by
  cases l <;> simp

theorem request_arb (s : State) :
    s.request.arb = if s.grantDelays.head? = some 0 then .granted else .requested := by
  rcases request_cases s with ⟨hd, h⟩ | ⟨n, hd, h⟩ <;> rw [h]
  · rw [if_pos (headD_one_eq_zero.1 hd)]; rfl
  · rw [if_neg fun hz => by rw [headD_one_eq_zero.2 hz] at hd; cases hd]

theorem request_bgWait {s : State} {n : Nat} (h : s.grantDelays.headD 1 = n + 1) : s.request.bgWait = n := by
  simp only [State.request, h]

theorem requestedEdge_withdrawn {s : State} (h : s.inputs.br = false) :
    s.requestedEdge = { s with arb := .noRequest } := by
  simp [State.requestedEdge, h]

theorem requestedEdge_grants {s : State} (h : s.inputs.br = true) (hw : s.bgWait = 0) :
    s.requestedEdge = s.grant := by
  simp [State.requestedEdge, h, hw]

theorem requestedEdge_waits {s : State} (h : s.inputs.br = true) (hw : s.bgWait ≠ 0) :
    s.requestedEdge = { s with bgWait := s.bgWait - 1 } := by
  obtain ⟨n, hn⟩ := Nat.exists_eq_succ_of_ne_zero hw
  simp [State.requestedEdge, h, hn]

/-! ## What it does in a tenure and at its end (R258, R259) -/

/-- Where BG is in a tenure after a falling edge at which BR is recognised as `br` (R258). -/
def TenureBg.next (x : TenureBg) (br : Bool) : TenureBg :=
  match x with
  | .standing 0 l       => .off l
  | .standing (n + 1) l => .standing n l
  | .off []             => .off []
  | .off (0 :: l)       => if br then .again l else .off (0 :: l)
  | .off ((n + 1) :: l) => if br then .off (n :: l) else .off ((n + 1) :: l)
  | .again l            => if br then .again l else .off l

theorem tenureEdge_tenureBg (s : State) : s.tenureEdge.tenureBg = s.tenureBg.next s.inputs.br := by
  cases hb : s.tenureBg with
  | standing wait l => cases wait <;> simp [State.tenureEdge, TenureBg.next, hb]
  | off grants =>
    cases grants with
    | nil => simp [State.tenureEdge, TenureBg.next, hb]
    | cons n l => cases n <;> cases hbr : s.inputs.br <;> simp [State.tenureEdge, TenureBg.next, hb, hbr]
  | again l => cases hbr : s.inputs.br <;> simp [State.tenureEdge, TenureBg.next, hb, hbr]

theorem returnBus_fields (s : State) :
    s.returnBus.run = s.run ∧ s.returnBus.closing = s.closing ∧ s.returnBus.owner = .processor := by
  unfold State.returnBus
  split
  · split
    · exact ⟨rfl, rfl, rfl⟩
    · simp
  · exact ⟨rfl, rfl, rfl⟩

theorem returnBus_arb (s : State) : s.returnBus.arb = if s.inputs.br then
    (if s.tenureBg.isAgain || s.grantDelays.head? = some 0 then .granted else .requested) else .noRequest := by
  unfold State.returnBus
  split
  · split
    · next hagain => simp [hagain]
    · next hagain =>
      rw [request_arb]
      simp [hagain]
  · simp

/-! ## BG from its invariant (R54, R258) -/

section
variable {s : State} (h : s.ArbInv)
include h

theorem State.ArbInv.bg_noRequest (ha : s.arb = .noRequest) : s.pins.bg = .negated :=
  (h.owner_of_not (by simp [ha]) (by simp [ha])).2

theorem State.ArbInv.bg_requested (ha : s.arb = .requested) : s.pins.bg = .negated :=
  (h.owner_of_not (by simp [ha]) (by simp [ha])).2

theorem State.ArbInv.bg_tenure (ha : s.arb = .acknowledged) :
    s.pins.bg = if s.tenureBg.out then .asserted else .negated := by
  have hout := h.tenure ha
  split
  · next ho => exact hout.2 ho
  · next ho => exact h.line.resolve_left fun hbg => ho (hout.1 hbg)

/-- With three wires the bus is the processor's outside `Acknowledged`. -/
theorem State.ArbInv.owner_three (hw : s.params.arbWires = .three) (ha : s.arb ≠ .acknowledged) :
    s.owner = .processor := by
  cases ho : s.owner with
  | processor => rfl
  | alternate => exact absurd ((h.three hw).1 ho) ha

end

/-! ## The half clock of a falling edge -/

section
variable {s t : State} (hc : s.clk = .high) (h : s.halfClock = .next t)
include hc h

theorem halfClock_noRequest (ha : s.arb = .noRequest) : t.owner = s.owner ∧
    (t.inputs.br = false → t.arb = .noRequest) ∧
    (t.inputs.br = true →
      t.arb = (if s.grantDelays.head? = some 0 then .granted else .requested) ∧
      t.grantDelays = s.grantDelays.tail ∧ ∀ n, s.grantDelays.headD 1 = n + 1 → t.bgWait = n) := by
  obtain ⟨b, u, k⟩ := halfClock_arbiterTurn hc h
  have hu := arbiter_noRequest k.acts (k.arb.trans ha)
  rw [k.br] at hu
  rw [k.kept.owner, k.kept.arb, k.kept.bgWait, k.kept.grantDelays, ← k.owner, ← k.grantDelays]
  refine ⟨by rw [hu]; split <;> simp, fun hb => ?_, fun hb => ?_⟩
  · rw [hu, hb]; exact k.arb.trans ha
  · rw [hu, if_pos hb]
    exact ⟨request_arb b, by simp, fun n hn => request_bgWait hn⟩

theorem halfClock_requested (ha : s.arb = .requested) : t.owner = s.owner ∧
    (t.inputs.br = false → t.arb = .noRequest) ∧
    (t.inputs.br = true → s.bgWait = 0 → t.arb = .granted) ∧
    (t.inputs.br = true → s.bgWait ≠ 0 → t.arb = .requested ∧ t.bgWait = s.bgWait - 1) := by
  obtain ⟨b, u, k⟩ := halfClock_arbiterTurn hc h
  have hu := arbiter_requested k.acts (k.arb.trans ha)
  rw [← k.br, ← k.bgWait, k.kept.owner, k.kept.arb, k.kept.bgWait, ← k.owner, hu]
  refine ⟨requestedEdge_owner b, fun hb => ?_, fun hb hw => ?_, fun hb hw => ?_⟩
  · rw [requestedEdge_withdrawn hb]
  · rw [requestedEdge_grants hb hw]; simp
  · rw [requestedEdge_waits hb hw]; exact ⟨k.arb.trans ha, rfl⟩

/-- Three wires: BGACK with the grant out begins a tenure on an idle bus (R256, R258, R264). -/
theorem halfClock_startsTenure (hs : s.ArbInv) (hw : s.params.arbWires = .three) (ha : s.arb = .granted)
    (hb : t.inputs.bgack = true) : s.run = none ∧ ∃ b, ArbiterTurn s b b.startTenure t ∧ t = b.startTenure := by
  obtain ⟨b, u, k⟩ := halfClock_arbiterTurn hc h
  have hwb : b.params.arbWires = .three := k.params ▸ hw
  have hbb : b.inputs.bgack = true := k.bgack.trans hb
  have ho : b.owner = .processor := k.owner.trans (hs.owner_three hw (by simp [ha]))
  have hu := arbiter_grantedThree k.acts (k.arb.trans ha) hwb
  rw [if_pos hbb] at hu
  subst hu
  have hr : s.run = none := k.run ▸ run_of_acknowledged k.acts hwb hbb ho
  exact ⟨hr, b, k, k.idle hr⟩

/-- Three wires: without BGACK the grant stays out as long as the request (R265). -/
theorem halfClock_grantStands (hw : s.params.arbWires = .three) (ha : s.arb = .granted)
    (hb : t.inputs.bgack = false) :
    t.owner = s.owner ∧ t.arb = if t.inputs.br then .granted else .noRequest := by
  obtain ⟨b, u, k⟩ := halfClock_arbiterTurn hc h
  have hu := arbiter_grantedThree k.acts (k.arb.trans ha) (k.params ▸ hw)
  rw [k.bgack, hb, if_neg nofun, k.br] at hu
  rw [k.kept.owner, k.kept.arb, ← k.owner, hu]
  split
  · exact ⟨rfl, k.arb.trans ha⟩
  · exact ⟨rfl, rfl⟩

/-- The acknowledge gone, the bus comes back between cycles, with a grant for a second requester or for a request
whose delay is 0 (R258, R259). -/
theorem halfClock_returnsBus (ha : s.arb = .acknowledged) (hb : t.inputs.bgack = false) :
    s.run = none ∧ t.run = none ∧ t.closing = s.closing ∧ t.owner = .processor ∧
    t.arb = if t.inputs.br then
        (if s.tenureBg.isAgain || s.grantDelays.head? = some 0 then .granted else .requested)
      else .noRequest := by
  obtain ⟨b, u, k⟩ := halfClock_arbiterTurn hc h
  obtain ⟨hr, hu⟩ := (arbiter_acknowledged k.acts (k.arb.trans ha)).2 (k.bgack.trans hb)
  have hrs : s.run = none := k.run ▸ hr
  obtain ⟨hrun, hclosing, howner⟩ := returnBus_fields b
  refine ⟨hrs, ?_, ?_, k.kept.owner.trans (hu ▸ howner), ?_⟩
  · rw [k.idle hrs, hu, hrun, hr]
  · rw [k.idle hrs, hu, hclosing, k.closing]
  · rw [k.kept.arb, hu, returnBus_arb, k.br, k.tenureBg, k.grantDelays]

/-- The acknowledge still there, BG is where the script of the tenure has it (R258). -/
theorem halfClock_tenure (ha : s.arb = .acknowledged) (hb : t.inputs.bgack = true) :
    t.arb = .acknowledged ∧ t.owner = s.owner ∧ t.tenureBg = s.tenureBg.next t.inputs.br := by
  obtain ⟨b, u, k⟩ := halfClock_arbiterTurn hc h
  have hu := (arbiter_acknowledged k.acts (k.arb.trans ha)).1 (k.bgack.trans hb)
  rw [k.kept.arb, k.kept.owner, k.kept.tenureBg, hu, (tenureEdge_kept b).1, tenureEdge_owner, tenureEdge_tenureBg,
    k.br, k.tenureBg]
  exact ⟨k.arb.trans ha, k.owner, rfl⟩

end

end Sys2Proof.Machine
end

section
/-! SUPPORT. The arbiter with three wires, state by state, and BG inside a tenure (45_bus_arbitration.md R252 to R259,
R264, R265). -/

namespace Sys2Proof.Machine

section
variable {s t : State} (harb : s.ArbInv) (hc : s.clk = .high)
  (h : s.halfClock = .next t)
include harb hc h

/-- A request recognised at the edge has BG after its delay: at the edge itself, or `n` edges after the next one. -/
theorem recognised_request (ha : s.arb = .noRequest) (hb : t.inputs.br = true) :
    (∀ l, s.grantDelays = 0 :: l → t.arb = .granted ∧ t.pins.bg = .asserted ∧ t.grantDelays = l) ∧
    (s.grantDelays = [] → t.arb = .requested ∧ t.bgWait = 0 ∧ t.pins.bg = .negated) ∧
    ∀ n l, s.grantDelays = (n + 1) :: l →
      t.arb = .requested ∧ t.bgWait = n ∧ t.pins.bg = .negated ∧ t.grantDelays = l := by
  obtain ⟨-, -, hreq⟩ := halfClock_noRequest hc h ha
  obtain ⟨hta, htd, htw⟩ := hreq hb
  have htarb := halfClock_arbInv harb h
  refine ⟨fun l hl => ?_, fun hl => ?_, fun n l hl => ?_⟩ <;> rw [hl] at hta htd htw
  · exact ⟨hta, htarb.granted hta, htd⟩
  · exact ⟨hta, htw 0 rfl, htarb.bg_requested hta⟩
  · have hta : t.arb = .requested := by simpa using hta
    exact ⟨hta, htw n rfl, htarb.bg_requested hta, htd⟩

/-- A tenure begins: the bus is the alternate master's, and the processor has released its lines (R256, R264). -/
theorem tenure_begins (hw : s.params.arbWires = .three) (ha : s.arb = .granted)
    (hb : t.inputs.bgack = true) :
    s.run = none ∧ t.arb = .acknowledged ∧ t.owner = .alternate ∧ t.cyc = .released ∧ t.pins.fc = none ∧
    t.pins.addr = none ∧ t.pins.data = s.held ∧ t.pins.strobeAS = .z ∧ t.pins.uds = .z ∧ t.pins.lds = .z ∧
    t.pins.ds = .z ∧ t.pins.rw = .z := by
  obtain ⟨hr, b, k, rfl⟩ := halfClock_startsTenure hc h harb hw ha hb
  refine ⟨hr, ?_⟩
  simp [State.cyc, k.held]

end

/-- Settles O42: each state of `arb` by its own lemma; BG follows `arb` by the invariant of the arbiter. -/
theorem arbiterThreeWires : Obligations.ArbiterThreeWires := by
  unfold Obligations.ArbiterThreeWires
  intro s t hw harb hc hz h
  have htarb := halfClock_arbInv harb h
  refine ⟨fun ha => ⟨fun hb => ?_, fun hb => ?_⟩, fun ha => ?_, fun ha => ?_, fun ha => ⟨fun hb => ?_, fun hb => ?_⟩⟩
  · have hta := (halfClock_noRequest hc h ha).2.1 hb
    exact ⟨hta, htarb.bg_noRequest hta⟩
  · obtain ⟨hzero, hnil, hsucc⟩ := recognised_request harb hc h ha hb
    exact ⟨hnil, hzero, hsucc⟩
  · obtain ⟨-, hgone, hgrant, hwait⟩ := halfClock_requested hc h ha
    exact ⟨fun hb => ⟨hgone hb, htarb.bg_noRequest (hgone hb)⟩,
      fun hb hn => ⟨hgrant hb hn, htarb.granted (hgrant hb hn)⟩, hwait⟩
  · refine ⟨tenure_begins harb hc h hw ha, fun hb hbr => ?_, fun hb hbr => ?_⟩
    all_goals
      obtain ⟨ho, hta⟩ := halfClock_grantStands hc h hw ha hb
      rw [hbr] at hta
      have hown := ho.trans (harb.owner_three hw (by simp [ha]))
    · exact ⟨hta, hown⟩
    · exact ⟨hta, htarb.bg_noRequest hta, hown⟩
  · obtain ⟨hta, ho, -⟩ := halfClock_tenure hc h ha hb
    exact ⟨hta, ho.trans ((harb.three hw).2 ha)⟩
  · obtain ⟨hr, htr, htz, hto, hta⟩ := halfClock_returnsBus hc h ha hb
    refine ⟨hr, hto, ?_, ⟨fun hbg => (htarb.bg hbg).resolve_right ?_, htarb.granted⟩, hta⟩
    · simp [State.cyc, hto, State.current, htr, htz.trans hz]
    · rw [hta]
      split
      · split <;> nofun
      · nofun

/-- Settles O57: the place of BG in the tenure moves by `TenureBg.next`, and BG is out where that says so. -/
theorem bgInsideATenure : Obligations.BgInsideATenure := by
  unfold Obligations.BgInsideATenure
  intro s t hw harb hc h hb
  have htarb := halfClock_arbInv harb h
  refine ⟨fun ha => ?_, fun ha => ?_⟩
  · obtain ⟨-, b, k, rfl⟩ := halfClock_startsTenure hc h harb hw ha hb
    refine ⟨?_, fun hn => ?_, fun x rest hx => ?_⟩
    · have hbg : b.startTenure.pins.bg = b.pins.bg := by simp
      rw [hbg, k.pins]
      exact harb.granted ha
    · simp [State.startTenure, k.tenures, hn]
    · simp [State.startTenure, k.tenures, hx]
  · obtain ⟨hta, -, hnext⟩ := halfClock_tenure hc h ha hb
    have hbg := htarb.bg_tenure hta
    have moves {x y : TenureBg} {line : Line} (hx : s.tenureBg = x) (hy : x.next t.inputs.br = y)
        (hline : (if y.out then .asserted else .negated) = line) : t.pins.bg = line ∧ t.tenureBg = y := by
      have hty : t.tenureBg = y := hnext.trans (hx ▸ hy)
      exact ⟨by rw [hbg, hty, hline], hty⟩
    refine ⟨fun l hx => moves hx rfl rfl, fun n l hx => moves hx rfl rfl, fun hx => moves hx rfl rfl,
      fun n l hx => ⟨fun hbr => moves hx ?_ rfl, fun hbr hn => moves hx ?_ rfl, fun hbr hn => moves hx ?_ rfl⟩,
      fun l hx => ⟨fun hbr => moves hx ?_ rfl, fun hbr => moves hx ?_ rfl⟩⟩ <;> rw [hbr]
    · cases n <;> rfl
    · rw [hn]; rfl
    · obtain ⟨m, rfl⟩ := Nat.exists_eq_succ_of_ne_zero hn
      rfl
    · rfl
    · rfl

end Sys2Proof.Machine
end

section
/-! SUPPORT. The arbiter with two wires, and what breaks the protocol of either (45_bus_arbitration.md R259, R260,
R264, 70_reset_and_hazards.md R348). -/

namespace Sys2Proof.Machine

/-! ## Two wires -/

section
variable {s t : State} (hc : s.clk = .high) (h : s.halfClock = .next t) (hw : s.params.arbWires = .two)
  (ha : s.arb = .granted)
include hc h hw ha

/-- The requester owns the bus from the first falling edge at which no cycle is in progress (R260). -/
theorem halfClock_takesBus (ho : s.owner = .processor) (hb : t.inputs.br = true) :
    t.arb = .granted ∧ (t.owner = .alternate ↔ s.run = none) := by
  obtain ⟨b, u, k⟩ := halfClock_arbiterTurn hc h
  have hu := arbiter_grantedTwo_processor k.acts (k.arb.trans ha) (k.params ▸ hw) (k.owner.trans ho)
  rw [k.br, if_pos hb, k.run] at hu
  rw [k.kept.arb, k.kept.owner, hu]
  split
  · next hr => exact ⟨k.arb.trans ha, fun _ => hr, fun _ => rfl⟩
  · next hr =>
    have hown : b.owner ≠ .alternate := by simp [k.owner, ho]
    exact ⟨k.arb.trans ha, fun hn => absurd hn hown, fun hn => absurd hn hr⟩

/-- It keeps the bus while BR is asserted (R260). -/
theorem halfClock_keepsBus (ho : s.owner = .alternate) (hb : t.inputs.br = true) :
    t.arb = .granted ∧ t.owner = .alternate := by
  obtain ⟨b, u, k⟩ := halfClock_arbiterTurn hc h
  have hu := arbiter_grantedTwo_alternate k.acts (k.arb.trans ha) (k.params ▸ hw) (k.owner.trans ho)
  rw [k.br, if_pos hb] at hu
  rw [k.kept.arb, k.kept.owner, hu]
  exact ⟨k.arb.trans ha, k.owner.trans ho⟩

/-- BR negated ends the grant, and the tenure with it (R260, R265). -/
theorem halfClock_endsGrant (hb : t.inputs.br = false) :
    t.arb = .noRequest ∧ t.owner = .processor ∧ t.pins.bg = .negated := by
  obtain ⟨b, u, k⟩ := halfClock_arbiterTurn hc h
  rw [k.kept.arb, k.kept.owner, k.kept.bg]
  cases ho : b.owner with
  | processor =>
    have hu := arbiter_grantedTwo_processor k.acts (k.arb.trans ha) (k.params ▸ hw) ho
    rw [k.br, hb, if_neg nofun] at hu
    rw [hu]
    exact ⟨rfl, ho, rfl⟩
  | alternate =>
    have hu := arbiter_grantedTwo_alternate k.acts (k.arb.trans ha) (k.params ▸ hw) ho
    rw [k.br, hb, if_neg nofun] at hu
    rw [hu]
    exact ⟨rfl, rfl, rfl⟩

end

/-- Settles O43: each state of `arb` by its own lemma; outside `Granted` the bus is the processor's and BG is
negated, by the invariant of the arbiter. -/
theorem arbiterTwoWires : Obligations.ArbiterTwoWires := by
  unfold Obligations.ArbiterTwoWires
  intro s t hw harb hc h
  have htarb := halfClock_arbInv harb h
  refine ⟨fun ha => ?_, fun ha => ?_, fun ha ho hb => halfClock_takesBus hc h hw ha ho hb,
    fun ha ho hb => halfClock_keepsBus hc h hw ha ho hb, fun ha hb => halfClock_endsGrant hc h hw ha hb⟩
  all_goals have hown := (harb.owner_of_not (by simp [ha]) (by simp [ha])).1
  · obtain ⟨ho, hgone, hreq⟩ := halfClock_noRequest hc h ha
    refine ⟨ho.trans hown, ?_⟩
    split
    · next hb => exact (hreq hb).1
    · next hb => exact hgone (by simpa using hb)
  · obtain ⟨ho, hgone, hgrant, hwait⟩ := halfClock_requested hc h ha
    refine ⟨ho.trans hown, fun hb => ⟨hgone hb, htarb.bg_noRequest (hgone hb)⟩,
      fun hb hn => ⟨hgrant hb hn, htarb.granted (hgrant hb hn)⟩, fun hb hn => ?_⟩
    obtain ⟨hta, htw⟩ := hwait hb hn
    exact ⟨hta, htarb.bg_requested hta, htw⟩

/-! ## Violations -/

theorem beforeArbiter_inputs {s : State} (he : s.events = []) : (beforeArbiter s).inputs = s.inputs := by
  have hin : s.takeEvents.inputs = s.inputs := by simp [State.takeEvents, he, applyDue]
  unfold beforeArbiter State.pitResetEdge
  split <;> exact hin

/-- A violation that the arbiter finds is that of the half clock. -/
theorem halfClock_violates {s : State} {v : Violation} (hc : s.clk = .high)
    (h : (beforeArbiter { s with clk := .low }).arbiter = violation v) :
    s.halfClock = .fault (.protocolViolation v) := by
  have hfall : ({ s with clk := .low } : State).fallingEdge = violation v := h
  simp only [State.halfClock, hc, hfall]
  rfl

theorem arbiter_violates {s : State} {v : Violation} (h : s.acknowledgeError = some v) : s.arbiter = violation v := by
  simp only [State.arbiter, h]

/-- While another master owns the bus, BGACK breaks no rule. -/
theorem acknowledgeError_alternate {s : State} (h : s.owner = .alternate) : s.acknowledgeError = none := by
  simp [State.acknowledgeError, h]

/-- The bus is given back only between cycles (R259, R260; log 16). -/
theorem arbiter_returnInsideCycle {s : State} (ho : s.owner = .alternate) (hr : s.run ≠ none)
    (h : (s.arb = .acknowledged ∧ s.inputs.bgack = false) ∨
      (s.params.arbWires = .two ∧ s.arb = .granted ∧ s.inputs.br = false)) :
    s.arbiter = violation .returnInsideCycle := by
  simp only [State.arbiter, acknowledgeError_alternate ho]
  rcases h with ⟨ha, hb⟩ | ⟨hw, ha, hb⟩
  · simp [ha, State.acknowledgedEdge, hb, hr]
  · simp [ha, hw, State.grantedTwo, ho, hb, hr]

/-- Settles O44: without events the arbiter finds the lines as they were, and each case breaks its rule. -/
theorem brokenArbitrationIsAViolation : Obligations.BrokenArbitrationIsAViolation := by
  unfold Obligations.BrokenArbitrationIsAViolation
  intro s hc he
  let b := beforeArbiter { s with clk := .low }
  have a : Aside { s with clk := .low } b := aside_beforeArbiter _
  have hin : b.inputs = s.inputs := beforeArbiter_inputs he
  have ho : b.owner = s.owner := beforeArbiter_owner _
  have ha : b.arb = s.arb := (beforeArbiter_same { s with clk := .low }).2.1
  have hp : b.params = s.params := a.params
  have hr : b.run = s.run := a.run
  refine ⟨fun hw hown hb => ⟨fun hrun => ?_, fun hrun harb => ?_⟩, fun hown hrun hgone => ?_⟩ <;>
    refine halfClock_violates hc ?_
  · exact arbiter_violates (s := b) (by simp [State.acknowledgeError, hp, hin, ho, hr, hw, hown, hb, hrun])
  · exact arbiter_violates (s := b) (by simp [State.acknowledgeError, hp, hin, ho, ha, hr, hw, hown, hb, hrun, harb])
  · refine arbiter_returnInsideCycle (s := b) (ho.trans hown) (hr ▸ hrun) ?_
    rw [hin, ha, hp]
    exact hgone.imp_left fun h => h.2

end Sys2Proof.Machine
end

section
/-! SUPPORT. What a request and a grant do to the processor's next step (45_bus_arbitration.md R253, R254,
70_reset_and_hazards.md R343). -/

namespace Sys2Proof.Machine

/-- While the bus is granted away or acknowledged, the processor's step on an idle bus is one CLK cycle (R254). -/
theorem step_granted {s : State} (ho : s.owner = .processor) (hr : s.run = none)
    (ha : s.arb = .granted ∨ s.arb = .acknowledged) : step s = s.clkCycle := by
  have hbusy : s.busAvailable = false := by rcases ha with ha | ha <;> simp [State.busAvailable, ho, ha]
  simp only [step, stepOnce, hr, hbusy, Bool.false_eq_true, if_false]

theorem busAvailable_requested {s : State} (ho : s.owner = .processor) (ha : s.arb = .requested) :
    s.busAvailable = true := by
  simp [State.busAvailable, ho, ha]

/-- The clock counts at the falling edge. -/
theorem halfClock_clkCount {s t : State} (h : s.halfClock = .next t) :
    t.clkCount = s.clkCount + if s.clk = .high then 1 else 0 := by
  cases hc : s.clk with
  | low =>
    rw [halfClock_rising hc] at h
    exact ((kept_releaseClosing _).trans (kept_controllerEdge h)).clkCount
  | high =>
    obtain ⟨u, v, hu, hv, ht⟩ := halfClock_falling hc h
    exact ((kept_controllerEdge hv).trans (kept_peripheralEdge ht)).clkCount.trans (aside_fallingEdge hu).clkCount

/-- One CLK cycle is one falling edge, whichever half it begins in. -/
theorem clkCycle_clkCount {s t : State} (h : s.clkCycle = .next t) : t.clkCount = s.clkCount + 1 := by
  obtain ⟨u, hu, ht⟩ := andThen_eq_next.1 h
  obtain ⟨hlow, hhigh⟩ := halfClock_clk hu
  rw [halfClock_clkCount ht, halfClock_clkCount hu]
  cases hc : s.clk with
  | low => simp [hlow hc]
  | high => simp [hhigh hc]

/-- A CLK cycle between cycles starts none, and reports, stores and takes nothing. -/
theorem clkCycle_noCycle {s t : State} (hr : s.run = none) (h : s.clkCycle = .next t) :
    t.run = none ∧ t.program = s.program ∧ t.results = s.results ∧ t.mem = s.mem := by
  have hscripts : SameScripts s t :=
    clkCycle_induct (P := SameScripts s) (fun _ _ h ht => h.halfClock ht) (.refl s) h
  obtain ⟨u, hu, ht⟩ := andThen_eq_next.1 h
  obtain ⟨hur, hures, humem⟩ := halfClock_noCycle hr hu
  obtain ⟨htr, htres, htmem⟩ := halfClock_noCycle hur ht
  exact ⟨htr, hscripts.program, htres.trans hures, htmem.trans humem⟩

/-- Settles O10: the step is one CLK cycle of the idle bus. -/
theorem grantedBusStartsNoCycle : Obligations.GrantedBusStartsNoCycle := by
  unfold Obligations.GrantedBusStartsNoCycle
  intro s t ho hr ha h
  rw [step_granted ho hr ha] at h
  obtain ⟨htr, hprogram, hresults, hmem⟩ := clkCycle_noCycle hr h
  exact ⟨htr, hprogram, hresults, hmem, clkCycle_clkCount h⟩

/-- Settles O60: the delay of the request says whether BG is out at the edge of its recognition, and `arb` whether the
next step may issue. -/
theorem requestActsAtTheEndOfThisCycleOrOfTheNext : Obligations.RequestActsAtTheEndOfThisCycleOrOfTheNext := by
  unfold Obligations.RequestActsAtTheEndOfThisCycleOrOfTheNext
  intro s t c ho ha harb hc hr h hb
  have hto : t.owner = .processor := (halfClock_noRequest hc h ha).1.trans ho
  obtain ⟨hzero, hnil, hsucc⟩ := recognised_request harb hc h ha hb
  refine ⟨fun l hl => ?_, fun hl => ?_⟩
  · obtain ⟨hta, hbg, -⟩ := hzero l hl
    exact ⟨hta, hbg, fun htr => step_granted hto htr (.inl hta)⟩
  · have hreq : t.arb = .requested ∧ t.pins.bg = .negated := by
      rcases hl with hl | ⟨n, l, hl⟩
      · exact ⟨(hnil hl).1, (hnil hl).2.2⟩
      · obtain ⟨hta, -, hbg, -⟩ := hsucc n l hl
        exact ⟨hta, hbg⟩
    exact ⟨hreq.1, hreq.2, fun htr => step_idle htr (busAvailable_requested hto hreq.1)⟩

end Sys2Proof.Machine
end

section
/-! SUPPORT. The cycles of an alternate master in its tenure (45_bus_arbitration.md R256, R257; log 18): a cycle that
DTACK answers runs on a free bus whoever owns it, and during the tenure nobody else takes part in it. -/

namespace Sys2Proof.Machine

/-! ## Cycles that DTACK answers, on a free bus -/

/-- The run of the cycle `c`, launched in `s`, is over within its budget, in `t`. -/
def EndsIn (s : State) (c : Cycle) (t : State) : Prop :=
  ∃ k ≤ cycleBudget (s.prepared c), loneRun k (launched c s) = .next t

/-- The budget of a cycle whose first answer is DTACK after `w` wait pairs. -/
theorem budget_dtack {c : Cycle} {w : Nat} {d : Option Half} (ha : c.answer = Answer.of (.dtack w d)) :
    128 + 2 * w + 2 * c.answer2.shape.patience = cycleBudget c := by
  rw [cycleBudget, ha]
  simp only [Answer.of, Shape.patience]
  omega

section
variable {s : State} (h : s.BusFree) (fc : Fc) (a : Addr) (x : Strobes) {w : Nat} {d : Option Half}
include h

/-- A read ends at S7 with the data its answer scripts (R145). -/
theorem read_endsIn {v : Half}
    (ha : (s.prepared (newCycle .read fc a x 0 0)).answer = Answer.of (.dtack w (some v))) :
    ∃ t, EndsIn s (newCycle .read fc a x 0 0) t ∧ Completed s t (readResult x v) (4 + w) ∧ t.mem = s.mem := by
  let c := newCycle .read fc a x 0 0
  have hsample := sampledState_sampling (c := c) h rfl rfl (Cycle.polite_dtack ha) w
  have hans : (sampledCycle w c s).answer = Answer.of (.dtack w (some v)) := ha
  obtain ⟨t, ht, hdone⟩ := hsample.loneRun_endsAtS7 (Cycle.lines_dtack hans (Nat.zero_add w).ge) rfl
    (Cycle.lateDecision_dtack (c := (sampledCycle w c s).recognised) hans _) nofun
  have hresult : readResult x t.din = readResult x v := hdone.scripted v (by rw [hans]; rfl)
  have hlaunch := loneRun_sampled (c := c) h rfl rfl w 3 fun k hk =>
    Cycle.lines_before_dtack ha (by simpa [c, newCycle] using hk)
  refine ⟨t, ⟨3 + 2 * w + 5, ?_, hlaunch.trans ht⟩, ?_, hdone.mem⟩
  · have hbudget := budget_dtack ha
    omega
  · rw [← hresult, show 4 + w = 2 + w + 2 by omega]
    exact (hdone.ok rfl).since rfl rfl (by show s.clkCount + 1 + 1 + w = _; omega)

/-- A write ends at S7 with its data stored on its lanes (R170). -/
theorem write_endsIn (v : Half) (ha : (s.prepared (newCycle .write fc a x v 0)).answer = Answer.of (.dtack w d)) :
    ∃ t, EndsIn s (newCycle .write fc a x v 0) t ∧ WriteDone s (newCycle .write fc a x v 0) t .dtack (4 + w) := by
  let c := newCycle .write fc a x v 0
  have hsample := sampledWrite_sampling (c := c) h rfl rfl (Cycle.polite_dtack ha) w
  obtain ⟨t, ht, hdone⟩ := hsample.loneRun_dtack ha (Nat.zero_add w).ge
  have hlaunch := loneRun_sampledWrite (c := c) h rfl rfl w 3 fun k hk =>
    Cycle.lines_before_dtack ha (by simpa [c, newCycle] using hk)
  refine ⟨t, ⟨3 + 2 * w + 5, ?_, hlaunch.trans ht⟩, ?_⟩
  · have hbudget := budget_dtack ha
    omega
  · rw [show 4 + w = 2 + w + 2 by omega]
    exact hdone.since rfl rfl (by show s.clkCount + 1 + 1 + w = _; omega) ⟨rfl, rfl, rfl⟩ fun _ => rfl

/-- A read-modify-write cycle ends at S19 with the byte read, and the byte `ALU_MODIFY` makes of it stored (R201). -/
theorem rmw_endsIn {w2 : Nat} {d2 : Option Half} {v : Byte}
    (ha : (s.prepared (rmwCycle fc a x)).answer = Answer.of (.dtack w d))
    (ha2 : (s.prepared (rmwCycle fc a x)).answer2 = Answer.of (.dtack w2 d2))
    (hoff : s.Offers (s.prepared (rmwCycle fc a x)) v) :
    ∃ t, EndsIn s (rmwCycle fc a x) t ∧
      RmwEnded s { rmwCycle fc a x with old := v } t .dtack (10 + w + w2) := by
  let c := sampledCycle w (rmwCycle fc a x) s
  have hans : c.answer = Answer.of (.dtack w d) := ha
  have hans2 : c.answer2 = Answer.of (.dtack w2 d2) := ha2
  have hsample : RmwSampling (sampledState w (rmwCycle fc a x) s) c := {
    toAtFirstEdge := sampledState_atFirstEdge h rfl w
    kind := rfl
    polite := Cycle.polite_dtack hans
    held := h.held
    data := (launched_releaseClosing_data (rmwCycle fc a x) s).trans h.data }
  obtain ⟨u, e, hread⟩ := hsample.loneRun_S7 (Cycle.lines_dtack hans (Nat.zero_add w).ge) rfl
    (hoff.congr rfl ⟨rfl, rfl, rfl⟩ rfl rfl ⟨rfl, rfl, rfl, rfl, rfl⟩ rfl)
    (Cycle.lateDecision_dtack (c := c.recognised) hans _) rfl
  have hsecond := hread.secondEdge (hans2.symm ▸ ⟨rfl, rfl⟩) w2
  have hanse : (secondCycle w2 e).answer = Answer.of (.dtack w2 d2) := hread.answer2.trans hans2
  obtain ⟨k, hk, t, ht, hend⟩ := hsecond.loneRun_ends (d := true) (b := false)
    (Cycle.lines_dtack hanse (Nat.zero_add w2).ge) rfl
  have hlaunch := loneRun_toFirstEdge (c := rmwCycle fc a x) h nofun rfl w (k + 2 * w2 + 9 + 3) fun k hk =>
    Cycle.lines_before_dtack ha (by simpa [rmwCycle, newCycle] using hk)
  have hrun := (hread.runs (k + 2 * w2 + 9)).trans
    ((hread.loneRun_second (hans2 ▸ (Shape.terminates_dtack w2 d2).silentFor) k).trans ht)
  refine ⟨t, ⟨_, ?_, hlaunch.trans hrun⟩, ?_⟩
  · have hbudget := budget_dtack ha
    rw [ha2, show (Answer.of (.dtack w2 d2)).shape.patience = w2 from rfl] at hbudget
    omega
  · rw [show 10 + w + w2 = (2 + w) + (2 + (4 + w2 + 2)) by omega]
    exact (hread.rmwEnded hend).since
      ⟨⟨rfl, rfl, rfl⟩, rfl, rfl, by show s.clkCount + 1 + 1 + w = _; omega⟩ ⟨rfl, rfl, rfl, rfl, rfl⟩ rfl

end

/-! ## In a tenure -/

theorem tenure_launched {s : State} (h : s.Tenure) (c : Cycle) : (launched c s).Tenure :=
  ⟨h.owner, h.held, h.pitReset, h.events⟩

/-- A transaction of the alternate master is the run of its cycle alone, and leaves the tenure and the processor's
program as they were. -/
theorem exec_tenure {i : Instr} {s t : State} {c : Cycle} (h : s.Tenure) (hfree : s.BusFree)
    (hw : i.wf s.params.dataBus = true) (hc : cycleOf s.params.dataBus i = c) (hk : c.kind ≠ .iack)
    (hend : EndsIn s c t) (hover : t.run = none) :
    ∃ x, exec i s = .next (graft t x) ∧ (graft t x).Tenure ∧ (graft t x).program = s.program := by
  have hiack : ∀ level, i = .iack level → s.owner = .processor := by
    rintro level rfl
    exact absurd (by rw [← hc]; rfl) hk
  obtain ⟨n, hn, hrun⟩ := hend
  obtain ⟨⟨x, hx⟩, htenure⟩ :=
    runCycle_lone keepsOut_tenure (cycleBudget (s.prepared c)) (tenure_launched h c)
  have hexec : exec i s = runCycle (cycleBudget (s.prepared c)) (launched c s) := by
    rw [exec_eq i s hiack, hc]
    simp only [guarded, illegal_of_wf hw, runTransaction, hfree.run]
    rfl
  have hsettled : settled (loneRun n (launched c s)) :=
    hrun ▸ settled_next (by simp [State.cycleOver, hover])
  rw [loneRun_settled hn hsettled, hrun] at hx
  have hnext : exec i s = .next (graft t x) := hexec.trans hx
  refine ⟨x, hnext, htenure _ hx, ?_⟩
  rw [(exec_scripts hnext).program]
  rfl

section
variable {s : State} {fc : Fc} {a : Addr} {w : Nat} {v : Half} {rest : List Answer} (h : s.Tenure)
  (hfree : s.BusFree) (hans : s.answers = Answer.of (.dtack w (some v)) :: rest)
include h hfree hans

theorem tenure_read {i : Instr} {x : Strobes} (hw : i.wf s.params.dataBus = true)
    (hc : cycleOf s.params.dataBus i = newCycle .read fc a x 0 0) :
    ∃ t, exec i s = .next t ∧ Completed s t (readResult x v) (4 + w) ∧ t.Tenure ∧ t.program = s.program ∧
      t.mem = s.mem := by
  obtain ⟨t, hend, hdone, hmem⟩ := read_endsIn hfree fc a x (prepared_answer hans nofun _)
  obtain ⟨y, hexec, htenure, hprogram⟩ := exec_tenure h hfree hw hc nofun hend hdone.run
  exact ⟨_, hexec, hdone.graft y, htenure, hprogram, hmem⟩

theorem tenure_write {i : Instr} {x : Strobes} {v' : Half} (hw : i.wf s.params.dataBus = true)
    (hc : cycleOf s.params.dataBus i = newCycle .write fc a x v' 0) :
    ∃ t, exec i s = .next t ∧ Completed s t .ok (4 + w) ∧ t.Tenure ∧ t.program = s.program ∧
      SameDevices (s.storeLanes (newCycle .write fc a x v' 0) v') t := by
  obtain ⟨t, hend, hdone⟩ := write_endsIn hfree fc a x v' (prepared_answer hans nofun _)
  obtain ⟨y, hexec, htenure, hprogram⟩ := exec_tenure h hfree hw hc nofun hend hdone.completed.run
  exact ⟨_, hexec, hdone.completed.graft y, htenure, hprogram, (hdone.graft y).stored⟩

theorem tenure_rmw {i : Instr} {x : Strobes} {w2 : Nat} {d : Option Half} {rest2 : List Answer}
    (hrest : rest = Answer.of (.dtack w2 d) :: rest2) (hw : i.wf s.params.dataBus = true)
    (hc : cycleOf s.params.dataBus i = rmwCycle fc a x) (hx : x.MovesByteAt a) :
    ∃ t, exec i s = .next t ∧ Completed s t (.okByte (selectByte x v)) (10 + w + w2) ∧ t.Tenure ∧
      t.program = s.program ∧ t.Holds fc a (aluModify s.params.alu (selectByte x v)) := by
  subst hrest
  have ha := prepared_answer hans nofun (rmwCycle fc a x)
  have ha2 : (s.prepared (rmwCycle fc a x)).answer2 = Answer.of (.dtack w2 d) := by
    simp [State.prepared, hans, State.answerFor, Answer.of]
  have hoff := offers_scripted (s := s) (c := s.prepared (rmwCycle fc a x)) (v := v) fun k => by rw [ha]; rfl
  obtain ⟨t, hend, hdone⟩ := rmw_endsIn hfree fc a x ha ha2 hoff
  obtain ⟨y, hexec, htenure, hprogram⟩ := exec_tenure h hfree hw hc nofun hend hdone.completed.run
  exact ⟨_, hexec, hdone.completed.graft y, htenure, hprogram, (hdone.graft y).holds hx rfl⟩

end

/-- Settles O46: the tenure keeps the other agents out of the cycle as a calm environment does, and the cycle does not
ask who its master is. -/
theorem alternateMasterRunsTheSameCycles : Obligations.AlternateMasterRunsTheSameCycles := by
  unfold Obligations.AlternateMasterRunsTheSameCycles
  intro s fc a w v rest h hfree hans
  refine ⟨fun p hp hw => ?_, fun v' hw => ?_, fun v' i hi hw => ?_, fun w2 d rest2 hrest p hp hw => ?_⟩
  · obtain ⟨x, hc, hresult⟩ := read_returns (bus := s.params.dataBus) hp
    exact hresult ▸ tenure_read h hfree hans hw hc
  · obtain ⟨t, ht, hdone, htenure, hprogram, hstored⟩ := tenure_write (x := .word) h hfree hans hw rfl
    exact ⟨t, ht, hdone, htenure, hprogram, wrW_holds hw hstored⟩
  · obtain ⟨x, hc, hholds⟩ := byteWrite_as_cycle hi hw
    obtain ⟨t, ht, hdone, htenure, hprogram, hstored⟩ := tenure_write h hfree hans hw hc
    exact ⟨t, ht, hdone, htenure, hprogram, hholds hstored⟩
  · obtain ⟨x, hc, hx, hbyte⟩ := rmw_reads hp hw
    exact hbyte ▸ tenure_rmw h hfree hans hrest hw hc hx

end Sys2Proof.Machine
end

section
/-! SUPPORT. When the processor issues an acknowledge cycle (60_exceptions.md R283; log 19), and what the registers of
the PI/T read as (R301 to R321). -/

namespace Sys2Proof.Machine

/-! ## The acknowledge cycle waits for its level -/

/-- The processor's step on an idle bus is one CLK cycle while its next transaction is an acknowledge cycle of a level
not seen yet (R283), whether or not the bus is its own to use. -/
theorem step_unseenLevel {s : State} {bytes more : List Byte} {rest : List Item} {level : Level}
    (ho : s.owner = .processor) (hr : s.run = none) (hp : s.program = .code bytes :: rest)
    (hd : decode s.params.dataBus bytes = .ok (.iack level, more))
    (hseen : s.iplHistory.getLsbD level.toNat = false) : step s = s.clkCycle := by
  have hq : s.queue = .code bytes :: rest := by simpa only [State.queue, ho] using hp
  have hmay : s.mayIssue (.iack level) = false := by simpa only [State.mayIssue, ho] using hseen
  have hissue : s.issue = s.clkCycle := by
    simp only [State.issue, hq, hd, hmay, Bool.false_eq_true, if_false]
  simp only [step, stepOnce, hr, hissue, ite_self]

/-- Settles O9: the step is one CLK cycle of the idle bus. -/
theorem acknowledgeWaitsUntilItsLevelWasSeen : Obligations.AcknowledgeWaitsUntilItsLevelWasSeen := by
  unfold Obligations.AcknowledgeWaitsUntilItsLevelWasSeen
  intro s t bytes more rest level ho hr hp hd hseen h
  rw [step_unseenLevel ho hr hp hd hseen] at h
  obtain ⟨htr, hprogram, hresults, -⟩ := clkCycle_noCycle hr h
  exact ⟨htr, hprogram, hresults, clkCycle_clkCount h⟩

/-! ## What a register of the PI/T reads as -/

/-- No two register select codes name one register. -/
theorem PitReg.ofSel_inj {sel sel' : BitVec 5} {r : PitReg} (h : PitReg.ofSel sel = some r)
    (h' : PitReg.ofSel sel' = some r) : sel = sel' := by
  have hinj : ∀ s s' : BitVec 5, PitReg.ofSel s ≠ none → PitReg.ofSel s = PitReg.ofSel s' → s = s' := by decide
  exact hinj sel sel' (by simp [h]) (h.trans h'.symm)

theorem Pit.readReg_of_ne_pivr (p : Pit) (portA portB : Byte) {r : PitReg} (h : r ≠ .pivr) :
    p.readReg portA portB r = p.cell portA portB r &&& r.usedBits := by
  unfold Pit.readReg
  split
  · exact absurd rfl h
  · rfl

/-- A read shows the cell and nothing else. -/
theorem Pit.readReg_congr {p q : Pit} {portA portB : Byte} {r : PitReg}
    (h : p.cell portA portB r = q.cell portA portB r) : p.readReg portA portB r = q.readReg portA portB r := by
  by_cases hr : r = .pivr
  · subst hr
    exact h
  · simp only [Pit.readReg_of_ne_pivr _ _ _ hr, h]

/-- A cell whose unused bits are 0 reads as it is, the Port Interrupt Vector Register's included (R301, R307). -/
theorem Pit.readReg_of_masked {p : Pit} {portA portB v : Byte} {r : PitReg}
    (h : p.cell portA portB r = v &&& r.usedBits) : p.readReg portA portB r = v &&& r.usedBits := by
  by_cases hr : r = .pivr
  · subst hr
    exact h
  · rw [Pit.readReg_of_ne_pivr _ _ _ hr, h, BitVec.and_assoc, BitVec.and_self]

theorem Pit.read_eq_readReg (p : Pit) (portA portB : Byte) {sel : BitVec 5} {r : PitReg}
    (h : PitReg.ofSel sel = some r) : p.read portA portB sel = p.readReg portA portB r := by
  simp only [Pit.read, h]

theorem Pit.read_write_same (p : Pit) (portA portB v : Byte) {sel : BitVec 5} {r : PitReg}
    (h : PitReg.ofSel sel = some r) (hr : r.claimable = true) :
    (p.write sel v).read portA portB sel = v &&& r.usedBits := by
  rw [Pit.read_eq_readReg _ _ _ h]
  exact Pit.readReg_of_masked (Pit.write_cell_same p sel v portA portB r h hr)

theorem Pit.read_write_other (p : Pit) (portA portB v : Byte) {sel sel' : BitVec 5} (h : sel' ≠ sel) :
    (p.write sel v).read portA portB sel' = p.read portA portB sel' := by
  cases hs : PitReg.ofSel sel' with
  | none => simp only [Pit.read_null _ _ _ hs]
  | some r =>
    have hother : PitReg.ofSel sel ≠ some r := fun hsel => h (PitReg.ofSel_inj hs hsel)
    simp only [Pit.read_eq_readReg _ _ _ hs]
    exact Pit.readReg_congr (Pit.write_cell_other p sel v portA portB r hother)

theorem Pit.write_null (p : Pit) (v : Byte) {sel : BitVec 5} (h : PitReg.ofSel sel = none) :
    p.write sel v = p := by
  simp only [Pit.write, h]

/-- Settles O54: read after write, at the same code and at another one. -/
theorem pitReadsWhatWasWritten : Obligations.PitReadsWhatWasWritten := by
  unfold Obligations.PitReadsWhatWasWritten
  intro p portA portB v sel sel'
  exact ⟨fun r hr hc => p.read_write_same portA portB v hr hc, p.read_write_other portA portB v,
    p.read_paar portA portB, p.read_pbar portA portB,
    fun hnull => ⟨p.write_null v hnull, p.read_null portA portB hnull⟩⟩

/-! ## The fields of the registers -/

/-- The value of a field is the bits of its span, as a number. -/
theorem Pit.field_eq_extractLsb' (p : Pit) (layout : PitFields) (f : PitField) :
    p.field layout f =
      ((p.cell 0 0 (f.span layout).1).extractLsb' (f.span layout).2.1 (f.span layout).2.2).toNat := by
  simp only [Pit.field, BitVec.extractLsb'_toNat, Nat.shiftRight_eq_div_pow]

/-- Settles O55: each field is the bits of its span, and the spans are those of the table. -/
theorem pitFieldsStandWhereTheTableSays : Obligations.PitFieldsStandWhereTheTableSays := by
  unfold Obligations.PitFieldsStandWhereTheTableSays
  intro p
  simp only [Pit.field_eq_extractLsb', PitField.span, Pit.cell, Pit.counterPreload, Pit.count, and_self,
    implies_true]

end Sys2Proof.Machine
end

section
/-! SUPPORT. A read that finds DTACK asserted from before (70_reset_and_hazards.md R344): end(S4) recognises it, and
the cycle runs to its end although the device it addresses never answers. -/

namespace Sys2Proof.Machine

/-! ## A line that stands from before -/

/-- An earlier device has not negated DTACK (R344). -/
def State.withStaleDtack (s : State) : State := { s with inputs := { s.inputs with dtack := true } }

theorem State.Calm.withStaleDtack {s : State} (h : s.Calm) : s.withStaleDtack.Calm :=
  ⟨h.owner, h.arb, h.bgack, h.pitReset, h.events⟩

theorem withStaleDtack_releaseClosing_data (s : State) :
    s.withStaleDtack.releaseClosing.pins.data = s.releaseClosing.pins.data := by
  simp only [State.releaseClosing, State.withStaleDtack]
  split
  · rfl
  · next d _ => cases d.kind <;> rfl

/-- Where the addressed device never answers, the lines are sampled as they stand (R344). -/
theorem sampleLines_never {c : Cycle} (h : c.answer.shape = .never) (s : State) (late : Bool) :
    s.sampleLines c late = s := by
  simp [State.sampleLines, h, Shape.driveAt, Shape.addsTo, Drive.quiet]

theorem lateDecision_never {c : Cycle} (h : c.answer.shape = .never) (i : Inputs) (term : Term) :
    c.lateDecision i term = decideLate term i.dtack i.berr i.vpa := by
  simp [Cycle.lateDecision, Cycle.lateInputs, Inputs.withLines, h, Shape.driveAt, Shape.addsTo, Drive.quiet]

/-! ## From end(S4) to the end -/

/-- A read at its first sampling edge, with DTACK asserted, no other line, and a device of its own that never
answers. -/
structure FindsDtack (s : State) (c : Cycle) : Prop extends Reading s c where
  st    : c.st.samples
  clk   : s.clk = .high
  term  : s.term = .none
  data  : s.pins.data = DataLines.z
  never : c.answer.shape = .never
  dtack : s.inputs.dtack = true
  berr  : s.inputs.berr = false
  vpa   : s.inputs.vpa = false

section
variable {s : State} {c : Cycle} (h : FindsDtack s c)
include h

/-- The stale line is recognised at once (R144, R344). -/
theorem FindsDtack.recognises : loneHalf s = .next (inS5 s c s.inputs .dtack) := by
  have ht : (atFall s).term = .none := h.term
  have hin : (atFall s).inputs = s.inputs := rfl
  have hfirst : decideFirst true false false ((atFall s).avecCounts c) = .proceed .dtack := rfl
  have hfollow : (atFall s).follow c (.proceed .dtack) = .next (inS5 s c s.inputs .dtack) := by
    rw [follow_proceed, if_neg (by simp [h.first])]
    rfl
  have hedge : (atFall s).controllerEdge = .next (inS5 s c s.inputs .dtack) := by
    rw [controllerEdge_samples (s := atFall s) h.run h.st]
    simp only [State.sampleAndDecide, sampleLines_never h.never, ht, hin, h.dtack, h.berr, h.vpa, hfirst, hfollow]
  exact loneHalf_falling h.clk hedge h.vma

theorem FindsDtack.inS6 : Reading (sampledToS6 s c s.inputs .dtack) c.recognised :=
  ⟨rfl, h.kind, h.first, h.polite, h.closing, h.vma, h.held⟩

theorem FindsDtack.loneRun_toS6 (n : Nat) :
    loneRun (n + 2) s = loneRun n (sampledToS6 s c s.inputs .dtack) := by
  have hs5 : Reading (inS5 s c s.inputs .dtack) { c with st := .S5, edge := c.edge + 1 } :=
    ⟨rfl, h.kind, h.first, h.polite, h.closing, h.vma, h.held⟩
  rw [show n + 2 = n + 1 + 1 from rfl, loneRun_succ _ h.run (St.samples_not_faulted h.st), h.recognises,
    andThen_next, loneRun_succ _ hs5.run nofun, hs5.fromS5 rfl rfl h.data, andThen_next]
  rfl

/-- end(S6) confirms it, and the read ends at S7. -/
theorem FindsDtack.loneRun_ends : ∃ t, loneRun 3 s = .next t ∧ ReadDone s c t .dtack 2 := by
  have hlate : c.recognised.lateDecision s.inputs .dtack = some .dtack := by
    rw [lateDecision_never (c := c.recognised) h.never, h.dtack, h.berr, h.vpa]
    rfl
  have h6 := h.inS6
  rw [h.loneRun_toS6 1, loneRun_succ 0 h6.run nofun, h6.endsAtS7 rfl rfl hlate nofun, andThen_next]
  exact ⟨_, rfl, readDone_of_ended h.kind h.polite h.held rfl rfl rfl rfl rfl rfl
    fun _ hv => afterS6_scripted (late := .dtack) hv⟩

end

/-! ## From the launch -/

section
variable {s : State} {c : Cycle} (h : s.BusFree) (hk : c.kind = .read)
include h hk

/-- The cycle of the launched read in S4. -/
def staleCycle (c : Cycle) (s : State) : Cycle := { s.withStaleDtack.prepared c with st := .S4 }

/-- Its state there. -/
def staleAtS4 (c : Cycle) (s : State) : State :=
  atS4Read (s.withStaleDtack.prepared c) (launched c s.withStaleDtack)

/-- On a bus that is free but for the stale line, a launched read comes to S4 with the line asserted. -/
theorem loneRun_staleAtS4 (hs : c.st = .start) (n : Nat) :
    loneRun (n + 5) (launched c s.withStaleDtack) = loneRun n (staleAtS4 c s) := by
  have hw : (s.withStaleDtack.prepared c).kind ≠ .write := fun e => Kind.noConfusion (hk.symm.trans e)
  exact loneRun_toS4_read n (launched c s.withStaleDtack) (s.withStaleDtack.prepared c) hw hs rfl h.clk h.vma

theorem staleAtS4_findsDtack (hsecond : c.second = false)
    (hans : (s.withStaleDtack.prepared c).answer = Answer.of .never) :
    FindsDtack (staleAtS4 c s) (staleCycle c s) where
  run := rfl
  kind := hk
  first := hsecond
  polite := show (s.withStaleDtack.prepared c).answer.polite from hans ▸ ⟨rfl, rfl⟩
  closing := rfl
  vma := (releaseClosing_vma (launched c s.withStaleDtack)).trans h.vma
  held := h.held
  st := trivial
  clk := rfl
  term := rfl
  data := (launched_releaseClosing_data c s.withStaleDtack).trans
    ((withStaleDtack_releaseClosing_data s).trans h.data)
  never := congrArg Answer.shape hans
  dtack := rfl
  berr := h.berr
  vpa := h.vpa

end

/-- Settles O38: the line is recognised at end(S4), confirmed at end(S6), and gone in S7 (log 34). -/
theorem staleTerminationEndsTheNextCycle : Obligations.StaleTerminationEndsTheNextCycle := by
  unfold Obligations.StaleTerminationEndsTheNextCycle
  intro s fc a rest h ha i hi hw
  obtain ⟨strobes, hc⟩ := read_as_cycle (bus := s.params.dataBus) hi
  let c := newCycle .read fc a strobes 0 0
  have hans : (s.withStaleDtack.prepared c).answer = Answer.of .never :=
    prepared_answer (s := s.withStaleDtack) ha nofun c
  obtain ⟨t, ht, hdone⟩ := (staleAtS4_findsDtack (c := c) h.toBusFree rfl rfl hans).loneRun_ends
  have hover : t.cycleOver = true := by simp [State.cycleOver, hdone.completed.run]
  have hrun : loneRun 8 (launched c s.withStaleDtack) = .next t :=
    (loneRun_staleAtS4 (c := c) h.toBusFree rfl rfl 3).trans ht
  have hbudget : 8 ≤ cycleBudget (s.withStaleDtack.prepared c) := by
    unfold cycleBudget
    omega
  obtain ⟨⟨x, hx⟩, -⟩ := exec_lone (s := s.withStaleDtack) keepsOut_calm hw h.run h.owner
    (calm_launched h.toCalm.withStaleDtack _)
  have hc' : cycleOf s.withStaleDtack.params.dataBus i = c := hc
  rw [hc', loneRun_settled hbudget (hrun ▸ settled_next hover), hrun] at hx
  have hend : ReadDone s _ (graft t x) .dtack 4 := (hdone.graft x).since (m := 2) rfl rfl rfl rfl rfl
  exact ⟨graft t x, _, hx, hend.ok rfl, hend.term⟩

end Sys2Proof.Machine
end

section
/-! SUPPORT. A device that has not let go of the data bus (70_reset_and_hazards.md R347; log 21): it drives what it
drove through every half clock, whoever releases the bus. -/

namespace Sys2Proof.Machine

/-- A device that has not let go drives `d`, and the data bus carries it. -/
structure State.Holding (s : State) (d : DataLines) : Prop where
  held : s.held = d
  data : s.pins.data = d

section
variable {s t : State} {d : DataLines} (h : s.Holding d)
include h

/-! ## What writes neither lane leaves it -/

theorem State.Holding.of_same (hh : t.held = s.held) (hd : t.pins.data = s.pins.data) : t.Holding d :=
  ⟨hh.trans h.held, hd.trans h.data⟩

theorem State.Holding.deviceTakes (c : Cycle) (v : Half) : (s.deviceTakes c v).Holding d :=
  h.of_same (by rw [deviceTakes_eq]) (by simp)

theorem State.Holding.deviceNegates (a : Answer) : (s.deviceNegates a).Holding d := by
  refine h.of_same ?_ (by simp)
  unfold State.deviceNegates
  split <;> rfl

theorem State.Holding.negateAll (a : Answer) : (s.negateAll a).Holding d :=
  (h.of_same (t := s.negateStrobes.negateAS) rfl rfl).deviceNegates a

theorem State.Holding.stretchVma : s.stretchVma.Holding d := by
  unfold State.stretchVma
  split
  · exact h.of_same rfl rfl
  · exact h

theorem State.Holding.atEndS6 (c : Cycle) (term : Term) : (atEndS6 s c term).Holding d := by
  refine h.of_same ?_ (by simp)
  unfold Machine.atEndS6 State.latchFor
  split <;> rfl

/-! ## Who releases the data bus -/

/-- Releasing the data bus leaves it to the device (R21). -/
theorem State.Holding.releaseData : s.releaseData.Holding d := ⟨h.held, h.held⟩

theorem State.Holding.deviceReleasesData (a : Answer) : (s.deviceReleasesData a).Holding d := by
  unfold State.deviceReleasesData
  split
  · exact ⟨h.data, h.data⟩
  · exact h.releaseData

theorem State.Holding.releaseClosing : s.releaseClosing.Holding d := by
  unfold State.releaseClosing
  split
  · exact h
  · next c _ =>
    cases c.kind
    case read => exact h.of_same rfl rfl
    case iack => exact h.of_same rfl rfl
    case write => exact ⟨h.held, h.held⟩
    case rmw => exact ⟨h.held, h.held⟩

theorem State.Holding.handOver : s.handOver.Holding d := ⟨h.held, h.held⟩

/-! ## The arbiter -/

theorem State.Holding.request : s.request.Holding d :=
  h.of_same (by simp) (by rw [request_pins])

theorem State.Holding.arbiter (hx : s.arbiter = .next t) : t.Holding d := by
  obtain ⟨-, hheld, -⟩ := aside_arbiter hx
  refine ⟨hheld.trans h.held, ?_⟩
  cases arbiter_moves hx with
  | stays => exact h.data
  | request _ => exact h.request.data
  | requested _ =>
    unfold State.requestedEdge
    split
    · split <;> exact h.data
    · exact h.data
  | withdrawn _ _ => exact h.data
  | startTenure _ _ _ => exact h.handOver.data
  | handOver _ _ _ => exact h.handOver.data
  | returns _ => exact h.data
  | tenure _ => rw [tenureEdge_graft]; exact h.data
  | returnBus _ =>
    have hback (arb : Arb) (bg : Line) : (s.takeBack arb bg).Holding d := h.of_same rfl rfl
    unfold State.returnBus
    split
    · split
      · exact h.data
      · exact (hback _ _).request.data
    · exact h.data

theorem State.Holding.fallingEdge (hx : s.fallingEdge = .next t) : t.Holding d :=
  (h.of_same (t := beforeArbiter s) (aside_beforeArbiter s).held (by rw [(beforeArbiter_same s).1])).arbiter hx

/-! ## Who would drive the data bus -/

variable (hz : d ≠ DataLines.z)
include hz

/-- Nobody else comes to drive it without a violation. -/
theorem State.Holding.driveData {x : DataLines} (hx : s.driveData x = .next t) : t.Holding d := by
  unfold State.driveData at hx
  split at hx
  · cases hx; exact h
  · split at hx
    · next hfree => exact absurd (h.data.symm.trans hfree) hz
    · cases hx

theorem State.Holding.deviceDrives {c : Cycle} (hx : s.deviceDrives c = .next t) : t.Holding d :=
  (h.of_same (t := s.drawn 2) rfl rfl).driveData hz hx

theorem State.Holding.dataPhase {c : Cycle} (hx : s.dataPhase c = .next t) : t.Holding d := by
  unfold State.dataPhase at hx
  split at hx
  · cases hx; exact h
  · exact h.deviceDrives hz hx

/-! ## The bus controller -/

theorem State.Holding.formatR {c : Cycle} {st : St} (hx : formatR c st s = .next t) : t.Holding d := by
  have last : ((s.negateAll c.answer).deviceReleasesData c.answer).Holding d :=
    (h.negateAll c.answer).deviceReleasesData c.answer
  unfold Machine.formatR at hx
  split at hx
  case h_4 => exact h.dataPhase hz hx
  all_goals cases hx
  case h_5 =>
    split
    · exact h
    · exact last
  case h_6 => exact last
  all_goals exact h.of_same rfl rfl

theorem State.Holding.formatW {c : Cycle} {st : St} (hx : formatW c st s = .next t) : t.Holding d := by
  have last : ((s.deviceTakes c c.wdata).negateAll c.answer).Holding d :=
    (h.deviceTakes c c.wdata).negateAll c.answer
  unfold Machine.formatW at hx
  split at hx
  case h_4 => exact (h.of_same (t := s.drawn 1) rfl rfl).driveData hz hx
  all_goals cases hx
  case h_6 =>
    split
    · exact h
    · exact last
  case h_7 => exact last
  all_goals exact h.of_same rfl rfl

theorem State.Holding.formatM {c : Cycle} {st : St} (hx : formatM c st s = .next t) : t.Holding d := by
  have last : ((s.deviceTakes c (halfOfByte (s.newByte c))).negateAll c.answer).Holding d :=
    (h.deviceTakes c _).negateAll c.answer
  unfold Machine.formatM at hx
  split at hx
  case h_4 => exact h.dataPhase hz hx
  case h_8 => exact (h.of_same (t := s.drawn 1) rfl rfl).driveData hz hx
  all_goals cases hx
  case h_5 =>
    exact ((h.of_same (t := s.negateStrobes) rfl rfl).deviceNegates c.answer).deviceReleasesData c.answer
  case h_10 =>
    split
    · exact h
    · exact last
  case h_11 => exact last
  all_goals exact h.of_same rfl rfl

theorem State.Holding.enterState {c : Cycle} {st : St} (hx : enterState c st s = .next t) : t.Holding d := by
  unfold Machine.enterState at hx
  split at hx
  · exact h.formatR hz hx
  · exact h.formatR hz hx
  · exact h.formatW hz hx
  · exact h.formatM hz hx

theorem State.Holding.goTo {c : Cycle} {st : St} (hx : s.goTo c st = .next t) : t.Holding d := by
  obtain ⟨u, hu, ⟨-, rfl⟩ | ⟨-, r, rfl⟩⟩ := goTo_enters hx
  · exact (h.enterState hz hu).of_same rfl rfl
  · exact (h.enterState hz hu).of_same rfl rfl

theorem State.Holding.sampleAndDecide {c : Cycle} (hx : s.sampleAndDecide c = .next t) : t.Holding d := by
  obtain ⟨decision, -, hx⟩ := sampleAndDecide_suits hx
  have hs : (s.sampleLines c false).Holding d := h.of_same rfl rfl
  unfold State.follow at hx
  split at hx
  · cases hx
  · next term =>
    exact (hs.of_same (t := { s.sampleLines c false with term := term }) rfl rfl).goTo hz hx
  · cases hx; exact hs.stretchVma.of_same rfl rfl
  · cases hx; exact hs.of_same rfl rfl

theorem State.Holding.endS6 {c : Cycle} (hx : s.endS6 c = .next t) : t.Holding d := by
  obtain ⟨term, ⟨-, rfl⟩ | hgo⟩ := endS6_cases hx
  · exact (h.atEndS6 c term).of_same rfl rfl
  · exact (h.atEndS6 c term).goTo hz hgo

theorem State.Holding.controllerEdge (hx : s.controllerEdge = .next t) : t.Holding d := by
  unfold State.controllerEdge at hx
  split at hx
  · cases hx; exact h
  · split at hx
    · exact h.sampleAndDecide hz hx
    · exact h.sampleAndDecide hz hx
    · exact h.sampleAndDecide hz hx
    · cases hx; exact h.of_same rfl rfl
    · exact h.endS6 hz hx
    · cases hx
    · split at hx
      · exact h.goTo hz hx
      · obtain ⟨r, rfl⟩ := finish_reports hx
        exact h.of_same rfl rfl

theorem State.Holding.peripheralEdge (hx : s.peripheralEdge = .next t) : t.Holding d := by
  unfold State.peripheralEdge at hx
  split at hx
  · cases hx; exact h
  · split at hx
    · split at hx
      · exact h.deviceDrives hz hx
      · split at hx <;> cases hx
        · exact h.deviceReleasesData _
        · exact h
    · cases hx; exact h

end

/-- Through every half clock (R347; log 21). -/
theorem State.Holding.halfClock {s t : State} {d : DataLines} (h : s.Holding d) (hz : d ≠ DataLines.z)
    (ht : s.halfClock = .next t) : t.Holding d :=
  halfClock_induct (P := (State.Holding · d)) (fun _ _ h => h.of_same rfl rfl) (fun _ h => h.releaseClosing)
    (fun _ _ h hx => h.fallingEdge hx) (fun _ _ h hx => h.controllerEdge hz hx)
    (fun _ _ h hx => h.peripheralEdge hz hx) h ht

end Sys2Proof.Machine
end

section
/-! SUPPORT. A second driver of the data bus (70_reset_and_hazards.md R347, 93_implementation_defined.md U16): the
device of a read, the peripheral that VMA selects, and the master of a write. -/

namespace Sys2Proof.Machine

/-! ## Who drives -/

theorem driveData_collides {s : State} {d : DataLines} (hs : s.pins.data ≠ DataLines.z) (hd : d ≠ DataLines.z) :
    s.driveData d = violation .twoDrivers := by
  rw [State.driveData, if_neg hd, if_neg hs]

theorem wordLines_ne_z (x : Strobes) (v : Half) : wordLines x v ≠ DataLines.z := by
  cases x <;> simp [wordLines, DataLines.z]

/-- The strobes select a lane. -/
theorem residentData_ne_z (s : State) (c : Cycle) : s.residentData c ≠ DataLines.z := by
  unfold State.residentData DataLines.z
  cases c.strobes <;> simp [Strobes.upperLane, Strobes.lowerLane, Strobes.selectsUpper, Strobes.selectsLower,
    Strobes.selectsDs]

/-- The device of a read always has something to drive. -/
theorem deviceData_ne_z {c : Cycle} (hk : c.kind = .read ∨ c.kind = .rmw) (s : State) :
    s.deviceData c ≠ DataLines.z := by
  cases hdata : (c.answer.shape.driveAt c.edge true).data with
  | some v => exact deviceData_scripted hdata ▸ wordLines_ne_z c.strobes v
  | none =>
    have hres : s.deviceData c = s.residentData c := by
      rcases hk with hk | hk <;> simp only [State.deviceData, hdata, hk]
    exact hres ▸ residentData_ne_z s c

theorem deviceDrives_collides {s : State} {c : Cycle} (hk : c.kind = .read ∨ c.kind = .rmw)
    (hd : s.pins.data ≠ DataLines.z) : s.deviceDrives c = violation .twoDrivers :=
  driveData_collides (s := s.drawn 2) hd (deviceData_ne_z hk s)

/-- Where E rises the peripheral finds another driver. -/
theorem State.Selects.peripheralEdge_collides {s : State} {c : Cycle} (h : s.Selects c)
    (hk : c.kind = .read ∨ c.kind = .rmw) (hd : s.pins.data ≠ DataLines.z) (hp : s.ephase = 6) :
    s.peripheralEdge = violation .twoDrivers := by
  rw [h.peripheralEdge_eq, hp, if_pos (show eRises 6 = true from rfl)]
  exact deviceDrives_collides (c := { c with edge := c.edge + 3 }) hk hd

/-! ## What a violation stops -/

theorem goTo_violates {s : State} {c : Cycle} {st : St} {what : Violation}
    (h : enterState c st s = violation what) : s.goTo c st = violation what := by
  rw [State.goTo, h]
  rfl

/-- A violation of the bus controller or of the peripheral at a falling edge stops the half clock. -/
theorem falling_stops {s : State} {c : Cycle} {what : Violation} (hcalm : s.Calm) (hr : s.run = some c)
    (hc : s.clk = .high) (h : andThen (atFall s).controllerEdge State.peripheralEdge = violation what) :
    s.halfClock = violation what := by
  obtain ⟨⟨x, hx⟩, -⟩ := halfClock_lone keepsOut_calm hcalm (by simp [hr])
  have hlone : loneHalf s = violation what := by
    simp only [loneHalf, hc]
    exact h
  rw [hx, hlone]
  rfl

/-- So does one of the state that the cycle moves on to. -/
theorem falling_enters_violation {s : State} {c : Cycle} {st : St} {what : Violation} (hcalm : s.Calm)
    (hr : s.run = some c) (hc : s.clk = .high) (hm : c.st.movesOn = true)
    (hn : nextSt c.kind s.term c.st = some st) (h : enterState c st (atFall s) = violation what) :
    s.halfClock = violation what := by
  refine falling_stops hcalm hr hc ?_
  rw [controllerEdge_movesOn (s := atFall s) hr hm hn, goTo_violates h]
  rfl

/-! ## The four second drivers -/

section
variable {s : State} {c : Cycle} (hd : s.pins.data ≠ DataLines.z)
include hd

/-- The device of a read at S6 (R138). -/
theorem device_collides_at_S6 (hg : s.Going c) (hk : c.kind = .read ∨ c.kind = .rmw) (hst : c.st = .S5)
    (hc : s.clk = .low) (hv : s.pins.vma = .negated) : s.halfClock = violation .twoDrivers := by
  have hw : c.kind ≠ .write := by rcases hk with hk | hk <;> simp [hk]
  have hphase : enterState c .S6 { s with clk := .high } = violation .twoDrivers := by
    rw [enterState_S6 hw, State.dataPhase, if_neg (by simp [hv])]
    exact deviceDrives_collides (s := { s with clk := .high }) hk hd
  rw [halfClock_rising hc, releaseClosing_none (s := { s with clk := .high }) hg.closing,
    controllerEdge_movesOn (s := { s with clk := .high }) (st := .S6) hg.run (by rw [hst]; rfl) (by rw [hst]; rfl)]
  exact goTo_violates hphase

/-- The peripheral as E rises, whether BERR ends the stretch there or it goes on (R237). -/
theorem DecidesInStretch.peripheral_collides {b : Bool} (h : DecidesInStretch s c false b)
    (hk : c.kind = .read ∨ c.kind = .rmw) (hreads : c.reads = true) (hv : s.pins.vma = .asserted)
    (hp : s.ephase = 5) : s.halfClock = violation .twoDrivers := by
  have hphase : s.ephase + 1 = 6 := by rw [hp]; rfl
  refine falling_stops h.calm h.run h.clk ?_
  cases b
  case true =>
    have hsel : (stretchEnd (s.sampleLines c false) c .berr).Selects
        { c with st := if c.second then .S17 else .S5, edge := c.edge + 1 } := ⟨rfl, hreads, hv⟩
    rw [h.controllerEdge_proceeds (term := .berr) rfl, andThen_next]
    exact hsel.peripheralEdge_collides hk hd hphase
  case false =>
    have hsel : (stretchEdge (s.sampleLines c false) c).Selects c.waiting :=
      ⟨rfl, hreads, show stretchedVma s.pins.vma (s.ephase + 1) = _ by rw [hphase, hv]; rfl⟩
    have hwait : decideStretch false false (s.pins.vma = .asserted) (s.ephase + 1) = .wait .vpa :=
      decideStretch_waits fun ⟨_, h9⟩ => by rw [hphase] at h9; cases h9
    rw [h.controllerEdge_waits hwait, andThen_next]
    exact hsel.peripheralEdge_collides hk hd hphase

variable (hcalm : s.Calm) (hr : s.run = some c) (hc : s.clk = .high)
include hcalm hr hc

/-- The master of a write at S3 (R164). -/
theorem master_collides_at_S3 (hk : c.kind = .write) (hst : c.st = .S2) : s.halfClock = violation .twoDrivers :=
  falling_enters_violation hcalm hr hc (st := .S3) (by rw [hst]; rfl) (by rw [hst]; rfl)
    ((enterState_write hk .S3 _).trans (driveData_collides (s := (atFall s).drawn 1) hd (place_ne_z _ _ _)))

/-- The master of a read-modify-write cycle at S15 (R194). -/
theorem master_collides_at_S15 (hk : c.kind = .rmw) (hst : c.st = .S14) : s.halfClock = violation .twoDrivers :=
  falling_enters_violation hcalm hr hc (st := .S15) (by rw [hst]; rfl) (by rw [hst]; rfl)
    ((enterState_rmw hk .S15 _).trans (driveData_collides (s := (atFall s).drawn 1) hd (place_ne_z _ _ _)))

end

/-- Settles O58: every half clock leaves the data bus to the device that holds it, and each driver of it finds it
driven. -/
theorem twoDriversAreAViolation : Obligations.TwoDriversAreAViolation := by
  unfold Obligations.TwoDriversAreAViolation
  refine ⟨fun s t hbus hheld ht => ?_, fun s c hcalm hbus hr hd => ⟨fun hk hst hc hv => ?_,
    fun hk hst hc hterm hv hp hdrive hdtack => ?_, fun hk hst hc => ?_, fun hk hst hc => ?_⟩⟩
  · have hholding : s.Holding s.held := ⟨rfl, hbus.heldData.resolve_left hheld⟩
    obtain ⟨hh, hdata⟩ := hholding.halfClock hheld ht
    exact ⟨hh, hdata⟩
  · exact device_collides_at_S6 hd (hbus.going hr (by simp [hst])) hk hst hc hv
  · have hreads : c.reads = true := by
      rcases hk with hk | ⟨hk, hsecond⟩
      · simp [Cycle.reads, hk]
      · simp [Cycle.reads, hk, hsecond]
    have h : DecidesInStretch s c false (s.sampleLines c false).inputs.berr :=
      ⟨hcalm, hr, hc, hst, hterm, by simp [State.sampleLines, hdtack, hdrive], rfl⟩
    exact h.peripheral_collides hd (hk.imp_right And.left) hreads hv hp
  · exact master_collides_at_S3 hd hcalm hr hc hk hst
  · exact master_collides_at_S15 hd hcalm hr hc hk hst

end Sys2Proof.Machine
end
